-- ==== Sys2Proof/Word.lean ====
section
/-! DEFINITION. The word types of the block (00_scope.md R13, R20): bytes, 32-bit request words and
24-bit wire addresses. All arithmetic is unsigned and wraps in the type. -/

namespace Sys2Proof

/-- `u8` (R20). -/
abbrev Byte := BitVec 8

/-- `u32` (R20): request operands, datapath registers, loop counters. -/
abbrev Word := BitVec 32

/-- A 24-bit address of the wire flash address space (R60(b), R62). -/
abbrev WireAddr := BitVec 24

end Sys2Proof
end

