-- ==== Sys2Proof/Config.lean ====
section
/-! DEFINITION. The implementation parameters of 00_scope.md section 3 and of the environment
(20_memory.md section 4), the environment's draws, and the free values: opaque constants of which
nothing can be proved. -/

namespace Sys2Proof

/-! ## Constants the source gives -/

/-- R8: bytes in a page, the program unit. -/
abbrev pageSize : Nat := 256

/-- R9: bytes in a sector, the erase unit. -/
abbrev sectorSize : Nat := 4096

/-- R10: what an erased byte reads as. -/
def erasedValue : Byte := 0xFF

/-! ## Parameters -/

/-- R14: the twelve SPI opcode bytes. -/
structure Opcodes where
  rsten : Byte
  rst   : Byte
  rdid  : Byte
  rdsr1 : Byte
  rdsr2 : Byte
  wrsr  : Byte
  wren  : Byte
  wrdi  : Byte
  read  : Byte
  pp    : Byte
  se    : Byte
  ce    : Byte
  deriving DecidableEq, Repr

/-- R110: the default opcode bytes.
PRESUMED (the spec marks them "from general knowledge, not in source"; log 8), unsafe for a chip
with other values: claims quantify over `Opcodes`. -/
def Opcodes.default : Opcodes :=
  { rsten := 0x66, rst := 0x99, rdid := 0x9F, rdsr1 := 0x05, rdsr2 := 0x35, wrsr := 0x01,
    wren := 0x06, wrdi := 0x04, read := 0x03, pp := 0x02, se := 0x20, ce := 0xC7 }

/-- The twelve opcodes in the order of R110. -/
def Opcodes.toList (o : Opcodes) : List Byte :=
  [o.rsten, o.rst, o.rdid, o.rdsr1, o.rdsr2, o.wrsr, o.wren, o.wrdi, o.read, o.pp, o.se, o.ce]

/-- R111: the twelve values are pairwise distinct. -/
abbrev Opcodes.wf (o : Opcodes) : Prop := o.toList.Nodup

/-- R39: a Device Identity, three separate bytes. -/
structure Ident where
  mfr  : Byte
  type : Byte
  cap  : Byte
  deriving DecidableEq, Repr, Inhabited

/-- R17: how RESET sends the enable-reset and the reset byte. -/
inductive ResetFraming where
  | single
  | split
  deriving DecidableEq, Repr

/-- R291: what ERASE does when the end's sector index is below the start's. -/
inductive EraseUnderflow where
  | wrap
  | empty
  deriving DecidableEq, Repr, Inhabited

/-- R76: the environment parameter PROGRAM. `reference` is the spec's reference value
`old AND new`; `unspecified` is any function (`Config.freeProgram`). -/
inductive ProgramRule where
  | reference
  | unspecified
  deriving DecidableEq, Repr

/-- The parameters of a build of the block (R8-R18, R291; R44: fixed at build time, no request
writes one) and of the chip fitted (R72, R76, U31, U34). -/
structure Config where
  /-- R14 -/
  ops : Opcodes
  /-- R15 -/
  wipMask : Byte
  /-- R15 -/
  welMask : Byte
  /-- R16 WIP_POLL_LIMIT; `none` is the default, no limit -/
  wipLimit : Option Nat
  /-- R16 WEL_RETRY_LIMIT; `none` is the default, no limit -/
  welLimit : Option Nat
  /-- R17 -/
  resetFraming : ResetFraming
  /-- R12 EXP_ID -/
  expId : Ident
  /-- R11 SECTOR_COUNT -/
  sectorCount : Nat
  /-- R18 DUMMY_TX -/
  dummyTx : Byte
  /-- R291 ERASE_UNDERFLOW -/
  eraseUnderflow : EraseUnderflow
  /-- R72 CHIP_ID: the identity of the chip actually fitted -/
  chipId : Ident
  /-- U31: whether a chip is fitted at all -/
  chipPresent : Bool
  /-- C4, U34: the chip needs enable-reset and reset in separate frames -/
  chipNeedsSplit : Bool
  /-- R76 -/
  programRule : ProgramRule
  deriving DecidableEq, Repr

/-- R11: DEVICE_SIZE. -/
def Config.deviceSize (c : Config) : Nat := c.sectorCount * sectorSize

/-- The eight masks that select exactly one bit (R15). -/
def oneBitMasks : List Byte := [0x01, 0x02, 0x04, 0x08, 0x10, 0x20, 0x40, 0x80]

/-- The constraints the spec puts on the parameters: R111 (distinct opcodes), R15 (each mask one
bit, not the same), R200 and U5 (no limit is 0), R11 (0 < DEVICE_SIZE ≤ 2^24, a multiple of
SECTOR_SIZE). -/
structure Config.Wf (c : Config) : Prop where
  ops        : c.ops.wf
  wipMask    : c.wipMask ∈ oneBitMasks
  welMask    : c.welMask ∈ oneBitMasks
  masks      : c.wipMask ≠ c.welMask
  wipLimit   : c.wipLimit ≠ some 0
  welLimit   : c.welLimit ≠ some 0
  sizePos    : 0 < c.sectorCount
  sizeBound  : c.sectorCount ≤ 4096

/-! ## Draws: the environment's answers -/

/-- What the environment chooses for ONE frame (R29(3): "oracle draws constrained only by the
contract"). Every field is any value; a claim about a frame holds for every draw. -/
structure Draw where
  /-- R78: the internal operation in progress, if any, completes before this frame -/
  completes : Bool
  /-- R80: the header segment succeeds -/
  hdrOk : Bool
  /-- R80: the payload segment (sent or received) succeeds -/
  payOk : Bool
  /-- R80: how many bytes of a failed sent segment reached the chip -/
  cut : Nat
  /-- R80, U20: a command whose bytes did not all reach the chip is ignored; otherwise it leaves any
  status, and any value in the array bytes that it names (log 11) -/
  ignoresCut : Bool
  /-- R75: the chip drops a write enable -/
  dropWren : Bool
  /-- R73: the bits of SR1 other than the two flags; R79: SR1rest after a reset -/
  sr1 : Byte
  /-- R79: SR2 after a reset; U14, U20, U34: SR2 where the chip may be in any state -/
  sr2 : Byte
  /-- U14, U20, U34: WIP where the chip may be in any state -/
  wip : Bool
  /-- U14, U20, U34: WEL where the chip may be in any state -/
  wel : Bool
  /-- R77, U11: which bits of SR1 and SR2 a status write can change -/
  mask1 : Byte
  mask2 : Byte
  /-- U14, U15, U21, U31: received bytes that may be any value -/
  bytes : List Byte
  /-- U14, U16, U20, U34: array bytes that may be any value -/
  pokes : List (Nat × Byte)
  deriving DecidableEq, Repr, Inhabited

/-! ## Free values (no body: nothing can be proved of them) -/

/-- The environment's answers once the script `State.draws` is used up, one for each value of
`State.drawCount`. A free value (log 2). -/
opaque Config.freeDraw : Nat → Draw

/-- Byte `k` of an answer that may be any value, where the draw lists fewer bytes. A free value (log 2). -/
opaque Config.freeByte : Nat → Byte

/-- PROGRAM(old, new) where it is unspecified (R76, U13). A free value (log 10). -/
opaque Config.freeProgram : Byte → Byte → Byte

/-- OPEN, R12. A free value (log 9). -/
opaque Config.openExpId : Ident

/-- OPEN, R11. A free value (log 9). -/
opaque Config.openSectorCount : Nat

/-- OPEN, R18. A free value (log 9). -/
opaque Config.openDummyTx : Byte

/-- OPEN, R291. A free value (log 9). -/
opaque Config.openEraseUnderflow : EraseUnderflow

/-- The identity of the fitted chip, R72, U12. A free value (log 9). -/
opaque Config.openChipId : Ident

/-- Whether a chip is fitted, U31. A free value (log 9). -/
opaque Config.openChipPresent : Bool

/-- Whether the fitted chip needs a split reset, U34. A free value (log 9). -/
opaque Config.openChipNeedsSplit : Bool

/-- The parameters with the defaults of the spec (R15-R17, R110) and the OPEN ones free
(R11, R12, R18, R72, R76, R291). The OPEN sector count is brought into the range R11 gives. -/
def Config.default : Config :=
  { ops := Opcodes.default
    wipMask := 0x01
    welMask := 0x02
    wipLimit := none
    welLimit := none
    resetFraming := .single
    expId := Config.openExpId
    sectorCount := Config.openSectorCount % 4096 + 1
    dummyTx := Config.openDummyTx
    eraseUnderflow := Config.openEraseUnderflow
    chipId := Config.openChipId
    chipPresent := Config.openChipPresent
    chipNeedsSplit := Config.openChipNeedsSplit
    programRule := .unspecified }

end Sys2Proof
end

