-- ==== Sys2Proof/Syntax.lean ====
section
/-! DEFINITION. The instructions: one constructor for each row of the opcode table (30_encoding.md
R103 for the request commands, R105 for the reserved codes, R112 for the SPI frame kinds), and the
two encoded forms they travel in. -/

namespace Sys2Proof

/-- The three operand fields of a request word (R101). Every request has all three; R104 says which
of them its command reads. -/
structure Operands where
  a0   : Word
  a1   : Word
  boff : Word
  deriving DecidableEq, Repr

/-- R34: the fields of a request. -/
structure Request where
  cmd  : Byte
  a0   : Word
  a1   : Word
  boff : Word
  deriving DecidableEq, Repr

/-- The operands of one `Frame(hdr, txp, rxn)` (R145): the header bytes, the payload bytes sent,
and the number of bytes received. -/
structure FrameCall where
  hdr : List Byte
  tx  : List Byte
  rxn : Nat
  deriving DecidableEq, Repr

/-- R113: the bytes an observer of the selected interval sees the block send. -/
def FrameCall.bytes (f : FrameCall) : List Byte := f.hdr ++ f.tx

/-- An encoded instruction: a request word (R101) or a frame on the bus (R112). -/
inductive Code where
  | request (w : BitVec 104)
  | frame (f : FrameCall)
  deriving DecidableEq, Repr

/-- The instructions. -/
inductive Instr where
  -- Request commands (R103). Each carries all operand fields of its word.
  | reset     (o : Operands)
  | rdid      (o : Operands)
  | rdsr1     (o : Operands)
  | rdsr2     (o : Operands)
  | wrsr      (o : Operands)
  | wren      (o : Operands)
  | wrdi      (o : Operands)
  | read      (o : Operands)
  | pp        (o : Operands)
  | se        (o : Operands)
  | ce        (o : Operands)
  | waitwip   (o : Operands)
  | wrenw     (o : Operands)
  | init      (o : Operands)
  | write     (o : Operands)
  | erase     (o : Operands)
  | masserase (o : Operands)
  -- A reserved command code (R105).
  | reserved  (cmd : Byte) (o : Operands)
  -- SPI frame kinds (R112).
  | spiRstenRst
  | spiRsten
  | spiRst
  | spiRdid
  | spiRdsr1
  | spiRdsr2
  | spiWrsr (reg1 reg2 : Byte)
  | spiWren
  | spiWrdi
  | spiRead (a : WireAddr) (n : Nat)
  | spiPp   (a : WireAddr) (data : List Byte)
  | spiSe   (a : WireAddr)
  | spiCe
  deriving DecidableEq, Repr

end Sys2Proof
end

