-- ==== Sys2Proof/WellFormed.lean ====
section
/-! DEFINITION. Which instructions the encodings of 30_encoding.md admit. A request command admits
every operand (R104); the checks are on reserved codes and on the frames with operands. -/

namespace Sys2Proof

/-- R105: the reserved command codes, 0x00, 0x0E, 0x0F and 0x14 to 0xFF. -/
def reservedCode (c : Byte) : Bool :=
  c == 0x00 || c == 0x0E || c == 0x0F || decide (0x14 ≤ c.toNat)

/-- R236 on a wire address: a payload of `n` bytes at `a` is not empty and stays in one page. -/
def fitsPage (a : WireAddr) (n : Nat) : Bool :=
  decide (1 ≤ n) && decide (n ≤ pageSize) && decide (a.toNat % pageSize + n ≤ pageSize)

/-- The admitted instructions: a `reserved` code is one (R105); a page program's payload has 1 to
PAGE_SIZE bytes and lies in one page (R112, R69); a read's length is a u32 (R112, R230); a sector
erase's address is sector-aligned (R114). -/
def Instr.wf : Instr → Bool
  | .reserved c _ => reservedCode c
  | .spiPp a d    => fitsPage a d.length
  | .spiRead _ n  => decide (n < 2 ^ 32)
  | .spiSe a      => decide (a.toNat % sectorSize = 0)
  | .reset _ | .rdid _ | .rdsr1 _ | .rdsr2 _ | .wrsr _ | .wren _ | .wrdi _ | .read _ | .pp _
  | .se _ | .ce _ | .waitwip _ | .wrenw _ | .init _ | .write _ | .erase _ | .masserase _
  | .spiRstenRst | .spiRsten | .spiRst | .spiRdid | .spiRdsr1 | .spiRdsr2 | .spiWrsr _ _
  | .spiWren | .spiWrdi | .spiCe => true

/-- The instructions of the request port (the others are frames on the bus). -/
def Instr.isRequest : Instr → Bool
  | .reset _ | .rdid _ | .rdsr1 _ | .rdsr2 _ | .wrsr _ | .wren _ | .wrdi _ | .read _ | .pp _
  | .se _ | .ce _ | .waitwip _ | .wrenw _ | .init _ | .write _ | .erase _ | .masserase _
  | .reserved _ _ => true
  | .spiRstenRst | .spiRsten | .spiRst | .spiRdid | .spiRdsr1 | .spiRdsr2 | .spiWrsr _ _
  | .spiWren | .spiWrdi | .spiRead _ _ | .spiPp _ _ | .spiSe _ | .spiCe => false

end Sys2Proof
end

