-- ==== Sys2Proof/Decode.lean ====
section
/-! DEFINITION. Decoding, total and rejecting by name, of request words (30_encoding.md R101-R106)
and of frames on the bus (R110-R115), and after it the encoder, from the same tables. -/

namespace Sys2Proof

/-! ## Request words -/

/-- R101: the 104-bit request word, `cmd` in the highest byte. -/
def Request.word (r : Request) : BitVec 104 := r.cmd ++ r.a0 ++ r.a1 ++ r.boff

/-- R101: the fields of a request word. -/
def Request.ofWord (w : BitVec 104) : Request :=
  { cmd  := w.extractLsb' 96 8
    a0   := w.extractLsb' 64 32
    a1   := w.extractLsb' 32 32
    boff := w.extractLsb' 0 32 }

/-- The operand fields of a request. -/
def Request.operands (r : Request) : Operands := { a0 := r.a0, a1 := r.a1, boff := r.boff }

/-- The request with command code `c` and operand fields `o`. -/
def Request.of (c : Byte) (o : Operands) : Request :=
  { cmd := c, a0 := o.a0, a1 := o.a1, boff := o.boff }

/-- R103: the command codes that are not reserved. -/
def requestTable : List (Byte × (Operands → Instr)) :=
  [(0x01, .reset), (0x02, .rdid), (0x03, .rdsr1), (0x04, .rdsr2), (0x05, .wrsr), (0x06, .wren),
   (0x07, .wrdi), (0x08, .read), (0x09, .pp), (0x0A, .se), (0x0B, .ce), (0x0C, .waitwip),
   (0x0D, .wrenw)] ++
  [(0x10, .init), (0x11, .write), (0x12, .erase), (0x13, .masserase)]

/-- R103, R105: every request decodes, a code outside the table to `reserved`. -/
def decodeRequest (r : Request) : Instr :=
  match requestTable.find? (fun row => row.1 == r.cmd) with
  | some row => row.2 r.operands
  | none => .reserved r.cmd r.operands

/-! ## Frames on the bus -/

/-- Why a frame on the bus is none of the block's (R112, R117). -/
inductive DecodeError where
  /-- no byte was sent -/
  | emptyFrame
  /-- the first byte is none of the twelve opcodes -/
  | unknownOpcode (b : Byte)
  /-- the number of bytes sent or received is not the one the first byte's format has -/
  | badLength
  /-- the byte after enable-reset is not the reset byte -/
  | badSecondByte (b : Byte)
  deriving DecidableEq, Repr

/-- R65: the three address bytes, high byte first. -/
def addrBytes (a : WireAddr) : List Byte :=
  [a.extractLsb' 16 8, a.extractLsb' 8 8, a.extractLsb' 0 8]

/-- R65: the address that three address bytes spell, the first the highest. -/
def addrOfBytes (hi mid lo : Byte) : WireAddr := hi ++ mid ++ lo

/-- A frame whose whole content is its opcode (SPI-OP). -/
def opOnly (i : Instr) (args : List Byte) (rxn : Nat) : Except DecodeError Instr :=
  match args, rxn with
  | [], 0 => .ok i
  | _, _ => .error .badLength

/-- A frame of an opcode and `n` received bytes (SPI-OPR). -/
def opReceive (i : Instr) (n : Nat) (args : List Byte) (rxn : Nat) : Except DecodeError Instr :=
  match args with
  | [] => if rxn = n then .ok i else .error .badLength
  | _ :: _ => .error .badLength

/-- RESET's bytes: enable-reset alone (SPI-OP), or with the reset byte (SPI-OP2). -/
def opReset (o : Opcodes) (args : List Byte) (rxn : Nat) : Except DecodeError Instr :=
  if rxn ≠ 0 then .error .badLength
  else
    match args with
    | [] => .ok .spiRsten
    | [b] => if b = o.rst then .ok .spiRstenRst else .error (.badSecondByte b)
    | _ :: _ :: _ => .error .badLength

/-- A status write's two payload bytes (SPI-OPD2). -/
def opStatus (args : List Byte) (rxn : Nat) : Except DecodeError Instr :=
  if rxn ≠ 0 then .error .badLength
  else
    match args with
    | [r1, r2] => .ok (.spiWrsr r1 r2)
    | _ => .error .badLength

/-- Three address bytes and nothing sent after them (SPI-OPA, SPI-OPAR). -/
def opAddress (args : List Byte) (k : WireAddr → Except DecodeError Instr) : Except DecodeError Instr :=
  match args with
  | [a, b, c] => k (addrOfBytes a b c)
  | _ => .error .badLength

/-- Three address bytes and a payload of 1 to PAGE_SIZE bytes (SPI-OPAT). -/
def opProgram (args : List Byte) (rxn : Nat) : Except DecodeError Instr :=
  if rxn ≠ 0 then .error .badLength
  else
    match args with
    | a :: b :: c :: d :: ds =>
      if ds.length < pageSize then .ok (.spiPp (addrOfBytes a b c) (d :: ds)) else .error .badLength
    | _ => .error .badLength

/-- R113: what an observer reads from a selected interval in which the block sent `bytes` and then
received `rxn` bytes. -/
def decodeBytes (o : Opcodes) (bytes : List Byte) (rxn : Nat) : Except DecodeError Instr :=
  match bytes with
  | [] => .error .emptyFrame
  | op :: args =>
    if op = o.rsten then opReset o args rxn
    else if op = o.rst then opOnly .spiRst args rxn
    else if op = o.rdid then opReceive .spiRdid 3 args rxn
    else if op = o.rdsr1 then opReceive .spiRdsr1 1 args rxn
    else if op = o.rdsr2 then opReceive .spiRdsr2 1 args rxn
    else if op = o.wrsr then opStatus args rxn
    else if op = o.wren then opOnly .spiWren args rxn
    else if op = o.wrdi then opOnly .spiWrdi args rxn
    else if op = o.read then opAddress args (fun a => .ok (.spiRead a rxn))
    else if op = o.pp then opProgram args rxn
    else if op = o.se then
      opAddress args (fun a => if rxn = 0 then .ok (.spiSe a) else .error .badLength)
    else if op = o.ce then opOnly .spiCe args rxn
    else .error (.unknownOpcode op)

/-- The decoder of a Frame call: what the chip's side of the bus sees of it. -/
def decodeFrame (o : Opcodes) (f : FrameCall) : Except DecodeError Instr :=
  decodeBytes o f.bytes f.rxn

/-- The decoder: total on every request word and every frame. -/
def decode (o : Opcodes) : Code → Except DecodeError Instr
  | .request w => .ok (decodeRequest (Request.ofWord w))
  | .frame f => decodeFrame o f

/-! ## The encoder -/

/-- R112: a frame of one opcode (SPI-OP). -/
def frameOp (op : Byte) : FrameCall := { hdr := [op], tx := [], rxn := 0 }

/-- R112 SPI-OP2. -/
def frameRstenRst (o : Opcodes) : FrameCall := { hdr := [o.rsten, o.rst], tx := [], rxn := 0 }

/-- R112 SPI-OPR: one opcode, then `n` bytes received. -/
def frameReceive (op : Byte) (n : Nat) : FrameCall := { hdr := [op], tx := [], rxn := n }

/-- R112 SPI-OPD2, R67: status register 1's new value first. -/
def frameWrsr (o : Opcodes) (reg1 reg2 : Byte) : FrameCall :=
  { hdr := [o.wrsr, reg1, reg2], tx := [], rxn := 0 }

/-- R112 SPI-OPA. -/
def frameSe (o : Opcodes) (a : WireAddr) : FrameCall :=
  { hdr := o.se :: addrBytes a, tx := [], rxn := 0 }

/-- R112 SPI-OPAT. -/
def framePp (o : Opcodes) (a : WireAddr) (data : List Byte) : FrameCall :=
  { hdr := o.pp :: addrBytes a, tx := data, rxn := 0 }

/-- R112 SPI-OPAR. -/
def frameRead (o : Opcodes) (a : WireAddr) (n : Nat) : FrameCall :=
  { hdr := o.read :: addrBytes a, tx := [], rxn := n }

/-- The words of an instruction (R101, R103, R112). -/
def encode (o : Opcodes) : Instr → Code
  | .reset a      => .request (Request.of 0x01 a).word
  | .rdid a       => .request (Request.of 0x02 a).word
  | .rdsr1 a      => .request (Request.of 0x03 a).word
  | .rdsr2 a      => .request (Request.of 0x04 a).word
  | .wrsr a       => .request (Request.of 0x05 a).word
  | .wren a       => .request (Request.of 0x06 a).word
  | .wrdi a       => .request (Request.of 0x07 a).word
  | .read a       => .request (Request.of 0x08 a).word
  | .pp a         => .request (Request.of 0x09 a).word
  | .se a         => .request (Request.of 0x0A a).word
  | .ce a         => .request (Request.of 0x0B a).word
  | .waitwip a    => .request (Request.of 0x0C a).word
  | .wrenw a      => .request (Request.of 0x0D a).word
  | .init a       => .request (Request.of 0x10 a).word
  | .write a      => .request (Request.of 0x11 a).word
  | .erase a      => .request (Request.of 0x12 a).word
  | .masserase a  => .request (Request.of 0x13 a).word
  | .reserved c a => .request (Request.of c a).word
  | .spiRstenRst  => .frame (frameRstenRst o)
  | .spiRsten     => .frame (frameOp o.rsten)
  | .spiRst       => .frame (frameOp o.rst)
  | .spiRdid      => .frame (frameReceive o.rdid 3)
  | .spiRdsr1     => .frame (frameReceive o.rdsr1 1)
  | .spiRdsr2     => .frame (frameReceive o.rdsr2 1)
  | .spiWrsr r1 r2 => .frame (frameWrsr o r1 r2)
  | .spiWren      => .frame (frameOp o.wren)
  | .spiWrdi      => .frame (frameOp o.wrdi)
  | .spiRead a n  => .frame (frameRead o a n)
  | .spiPp a d    => .frame (framePp o a d)
  | .spiSe a      => .frame (frameSe o a)
  | .spiCe        => .frame (frameOp o.ce)

/-! ## The opcode table's numbering

The table numbers a 104-bit request word as R101 does. It numbers a frame's bytes as one number
with the FIRST byte highest (row SPI_RSTEN_RST: 0x6699, byte 0 = 0x66), and gives the frames no
bits for their operands (log 24). -/

/-- The frame that starts with the bytes `hdr`, with operand bytes of zero up to the length its
first byte's format has (R112), one payload byte of zero for a page program, and as many received
bytes as the format fixes (none for READ). -/
def tableFrame (o : Opcodes) (hdr : List Byte) : FrameCall :=
  match hdr with
  | [op] =>
    if op = o.rdid then { hdr := [op], tx := [], rxn := 3 }
    else if op = o.rdsr1 then { hdr := [op], tx := [], rxn := 1 }
    else if op = o.rdsr2 then { hdr := [op], tx := [], rxn := 1 }
    else if op = o.wrsr then { hdr := [op, 0, 0], tx := [], rxn := 0 }
    else if op = o.read then { hdr := [op, 0, 0, 0], tx := [], rxn := 0 }
    else if op = o.pp then { hdr := [op, 0, 0, 0], tx := [0], rxn := 0 }
    else if op = o.se then { hdr := [op, 0, 0, 0], tx := [], rxn := 0 }
    else { hdr := [op], tx := [], rxn := 0 }
  | _ => { hdr := hdr, tx := [], rxn := 0 }

/-- The encoded instruction that `nbits` and `w` stand for in the opcode table. -/
def tableCode (o : Opcodes) (nbits w : Nat) : Option Code :=
  if nbits = 104 then some (.request (BitVec.ofNat 104 w))
  else if nbits = 8 then some (.frame (tableFrame o [BitVec.ofNat 8 w]))
  else if nbits = 16 then
    some (.frame (tableFrame o [BitVec.ofNat 8 (w / 256), BitVec.ofNat 8 w]))
  else none

/-- The instruction the decoder reads from a word numbered as the opcode table numbers it, under
the default opcodes (R110). -/
def decodeTableWord (nbits w : Nat) : Option Instr :=
  match tableCode Opcodes.default nbits w with
  | some c =>
    match decode Opcodes.default c with
    | .ok i => some i
    | .error _ => none
  | none => none

end Sys2Proof
end

