-- ==== Sys2Proof/Machine/State.lean ====
section
/-! DEFINITION. The state of the machine: the controller's registers (10_state.md), its position
inside the pseudocode (R31, R145), the chip (20_memory.md R72), the requester's buffer (R64) and
ports, and the configuration. INVENTORY.md lists every field with its rule and reset value. -/

namespace Sys2Proof.Machine

/-- R31: the top-level control state. -/
inductive Phase where
  | idle
  | busy
  | respond
  deriving DecidableEq, Repr

/-- R32: the sequencer phase of a command operation; `finish` is the spec's END. -/
inductive SPhase where
  | check
  | preWip
  | welWren
  | welRdsr
  | main
  | postWip
  | finish
  deriving DecidableEq, Repr

/-- R33: the phase of a range operation. -/
inductive RPhase where
  | none
  | initReset
  | initId
  | initCmp
  | writeLoop
  | eraseLoop
  | mass
  deriving DecidableEq, Repr

/-- A byte memory: address and byte, addresses strictly rising, no byte equal to what an unlisted
address reads as. -/
abbrev Memory := List Host.Cell

/-- R72: the chip's state. CHIP_ID is in the configuration. -/
structure Chip where
  /-- R61, R72 ARRAY -/
  array : Memory
  /-- R72 WIP -/
  wip : Bool
  /-- R72 WEL -/
  wel : Bool
  /-- R72 SR1rest: the bits of SR1 that are not WIP or WEL, the two flag positions 0 -/
  sr1rest : Byte
  /-- R72 SR2 -/
  sr2 : Byte
  /-- The first address and the number of the array bytes the internal operation in progress is
  changing (R79, U16). DEDUCED (log 13), safe. -/
  op : Option (Nat × Nat)
  /-- The last command received was an enable-reset on its own (R79, R161 SPLIT). DEDUCED (log 12),
  unsafe for a chip that resets without it. -/
  rstEnabled : Bool
  deriving DecidableEq, Repr

/-- A stretch of the buffer space and the accesses it admits (R64). -/
structure Region where
  base     : Nat
  size     : Nat
  readable : Bool
  writable : Bool
  deriving DecidableEq, Repr

/-- What the outside does before one step: bytes the requester writes to its buffer (R371), and
whether it asserts the controller's reset (R360). -/
structure Input where
  edits : List (Word × Byte)
  reset : Bool
  deriving DecidableEq, Repr

/-- R146: how a frame ended: OK, or the segment that failed. -/
inductive FrameOutcome where
  | ok
  | failHeader
  | failPayload
  | failReceive
  deriving DecidableEq, Repr

/-- R146: one entry of the observation of a run. -/
inductive Event where
  | frame (call : FrameCall) (rx : List Byte) (outcome : FrameOutcome)
  | memRead (off : Word) (v : Byte)
  | memWrite (off : Word) (v : Byte)
  deriving DecidableEq, Repr

/-- The state. -/
structure State where
  /-- the parameters (00_scope.md section 3); no step changes them (R44) -/
  cfg : Config
  /-- R31 -/
  phase : Phase
  /-- R32 -/
  sphase : SPhase
  /-- R33 -/
  rphase : RPhase
  /-- R34 -/
  req : Request
  /-- R35 -/
  addr : Word
  /-- R35 -/
  len : Word
  /-- R35 -/
  off : Word
  /-- R35 -/
  sidx : Word
  /-- R35 -/
  wsr1 : Byte
  /-- R35 -/
  wsr2 : Byte
  /-- R36 -/
  i : Word
  /-- R36 -/
  n : Word
  /-- R36 -/
  base : Word
  /-- R36 -/
  eidx : Word
  /-- R36 -/
  polls : Word
  /-- R36 -/
  tries : Word
  /-- R37 rsp_valid -/
  rspValid : Bool
  /-- R37 -/
  result : Byte
  /-- R37 rsp_sr -/
  rspSr : Byte
  /-- R37 rsp_id -/
  rspId : Ident
  /-- R38 -/
  sr : Byte
  /-- R39 -/
  id : Ident
  /-- R40 -/
  cs : Bool
  /-- R145: a Frame call made and not yet run (log 28) -/
  bus : Option FrameCall
  /-- R145: whether the last Frame succeeded, not yet looked at (log 28) -/
  ret : Option Bool
  /-- R145: the bytes the last Frame received (log 28) -/
  rx : List Byte
  /-- R235: the payload bytes read so far (log 28) -/
  data : List Byte
  /-- R230: the READ bytes written so far; R161: the frames of a SPLIT RESET done (log 28) -/
  pos : Nat
  /-- R280, R290: the loop test is what a WRITE or ERASE does next; no sub-command is under way
  (log 28) -/
  atTest : Bool
  /-- R146: the observation, newest first -/
  trace : List Event
  /-- R72 -/
  chip : Chip
  /-- R64 -/
  buffer : Memory
  /-- R64: the accesses the buffer admits -/
  regions : List Region
  /-- R100: the request words the requester offers, in order; the head is on the port -/
  offers : List (BitVec 104)
  /-- what the outside does before each coming step -/
  inputs : List Input
  /-- R29(3): the environment's scripted answers, one for each coming frame -/
  draws : List Draw
  /-- how many answers were taken from `Config.freeDraw`; the model's own field (log 2) -/
  drawCount : Nat
  deriving DecidableEq, Repr

/-- R41: `req_ready`. -/
def State.reqReady (s : State) : Bool :=
  match s.phase with
  | .idle | .respond => true
  | .busy => false

/-- R100: `req_valid`. -/
def State.reqValid (s : State) : Bool := !s.offers.isEmpty

/-- Why the machine stops. None of them is a result the block reports (those are codes, R321). -/
inductive Fault where
  /-- A buffer access that the buffer does not admit, on a read: the controller has no step (R64;
  U22 "stuck"). Raised by PP and WRITE. Safe. -/
  | stuckBufferRead
  /-- The same on a write (R64, U22). Raised by READ. Safe. -/
  | stuckBufferWrite
  /-- WIP_POLL_LIMIT or WEL_RETRY_LIMIT is 0, "a configuration error" (R200; U5 "fault"). Raised
  where a wait begins. Safe. -/
  | zeroLimit
  /-- `Select()` with cs = 1 (R141, U26 "fault"). Raised by every frame; no run from reset reaches
  it. Safe. -/
  | selectWhileSelected
  /-- `Deselect()` with cs = 0 (R141, U26 "fault"). Raised by every frame; never reached. Safe. -/
  | deselectWhileDeselected
  /-- A control state that no row of R172, R206, R250 or R302 names (R32: "never reached"). Raised
  by every request command; no run from reset reaches it. Safe. -/
  | noTransition
  deriving DecidableEq, Repr

/-- Why a step has no meaning. -/
inductive Refusal where
  /-- An instruction without a meaning yet. Raised by exec only. Safe. -/
  | notModelled (mnemonic : String)
  /-- The bytes on the bus are none of the frames of R112: a chip command "outside the block"
  (R117, U30 "refuse"). Raised by step; no run from reset reaches it. Safe. -/
  | unknownFrame (e : DecodeError)
  deriving DecidableEq, Repr

/-- The outcome of a step of this machine. -/
abbrev Res := Host.Outcome State Fault Refusal

/-- The chip at power-up: R362 says its state "may hold any value".
DESIGN CHOICE (log 5), unsafe: idle, latch clear, status bits 0, nothing listed in the array. -/
def Chip.powerUp : Chip :=
  { array := [], wip := false, wel := false, sr1rest := 0, sr2 := 0, op := none
    rstEnabled := false }

/-- R47, R360, R361: the machine right after reset. The registers R47 calls unspecified are 0
(DESIGN CHOICE, log 3, unsafe); the buffer admits every access (DESIGN CHOICE, log 7, unsafe);
nothing is offered. -/
def State.reset : State :=
  { cfg := Config.default
    phase := .idle, sphase := .finish, rphase := .none
    req := { cmd := 0, a0 := 0, a1 := 0, boff := 0 }
    addr := 0, len := 0, off := 0, sidx := 0, wsr1 := 0, wsr2 := 0
    i := 0, n := 0, base := 0, eidx := 0, polls := 0, tries := 0
    rspValid := false, result := 0, rspSr := 0
    rspId := { mfr := 0, type := 0, cap := 0 }
    sr := 0, id := { mfr := 0, type := 0, cap := 0 }
    cs := false
    bus := none, ret := none, rx := [], data := [], pos := 0, atTest := false
    trace := []
    chip := Chip.powerUp
    buffer := []
    regions := [{ base := 0, size := 2 ^ 32, readable := true, writable := true }]
    offers := [], inputs := [], draws := [], drawCount := 0 }

end Sys2Proof.Machine
end

