-- ==== Sys2Proof/Machine/Flags.lean ====
section
/-! DEFINITION. The status predicates (10_state.md R42), the checks and the counts that the
operations decide by (R200, R203, R236, R272, R280, R290), and the result codes (R321). -/

namespace Sys2Proof.Machine

/-- R42: `isBusy(sr)`, write-in-progress. -/
def isBusy (c : Config) (sr : Byte) : Bool := sr &&& c.wipMask != 0

/-- R42: `isWriteEnabled(sr)`, write-enable-latch. -/
def isWriteEnabled (c : Config) (sr : Byte) : Bool := sr &&& c.welMask != 0

/-- R200, R203: a finite limit exists and `count` has reached it. -/
def limitReached (limit : Option Nat) (count : Word) : Bool :=
  match limit with
  | none => false
  | some l => decide (l ≤ count.toNat)

/-- R236 `PPFits`, on naturals. -/
def ppFits (addr len : Word) : Bool :=
  decide (1 ≤ len.toNat) && decide (len.toNat ≤ pageSize) &&
    decide (addr.toNat % pageSize + len.toNat ≤ pageSize)

/-- R272 `IdMatch`. -/
def idMatch (c : Config) (d : Ident) : Bool :=
  d.mfr == c.expId.mfr && d.type == c.expId.type && d.cap == c.expId.cap

/-- R280: the number of chunks of a WRITE, `ceil(size / PAGE_SIZE)`. -/
def chunkCount (size : Word) : Word :=
  BitVec.ofNat 32 (size.toNat / pageSize + (if size.toNat % pageSize ≠ 0 then 1 else 0))

/-- R280: the length of chunk `i` of `n`. -/
def chunkLen (size i n : Word) : Word :=
  if i.toNat + 1 = n.toNat ∧ size.toNat % pageSize ≠ 0 then BitVec.ofNat 32 (size.toNat % pageSize)
  else BitVec.ofNat 32 pageSize

/-- R290: a sector index, the floor of an address divided by SECTOR_SIZE. -/
def sectorIndex (a : Word) : Word := BitVec.ofNat 32 (a.toNat / sectorSize)

/-- R290, R291: the number of sectors an ERASE erases. -/
def eraseCount (u : EraseUnderflow) (base eidx : Word) : Word :=
  if base ≤ eidx then eidx - base
  else
    match u with
    | .wrap => eidx - base
    | .empty => 0

/-! ## Result codes (R321) -/

/-- R321 -/
def codeOk : Byte := 0x00
/-- R321 ERR_BUS -/
def codeBus : Byte := 0x01
/-- R321 ERR_ID -/
def codeId : Byte := 0x02
/-- R321 ERR_PARAM -/
def codeParam : Byte := 0x03
/-- R321 ERR_TIMEOUT -/
def codeTimeout : Byte := 0x04
/-- R321 ERR_CMD -/
def codeCmd : Byte := 0x05

/-- R32: the 3-bit encoding of `sphase`. -/
def SPhase.code : SPhase → BitVec 3
  | .check => 0 | .preWip => 1 | .welWren => 2 | .welRdsr => 3 | .main => 4 | .postWip => 5
  | .finish => 6

/-- R33: the 3-bit encoding of `rphase`. -/
def RPhase.code : RPhase → BitVec 3
  | .none => 0 | .initReset => 1 | .initId => 2 | .initCmp => 3 | .writeLoop => 4
  | .eraseLoop => 5 | .mass => 6

/-- R7: the host's boolean, success iff OK. -/
def hostSuccess (result : Byte) : Bool := result == codeOk

end Sys2Proof.Machine
end

