-- ==== Sys2Proof/Machine/Operands.lean ====
section
/-! DEFINITION. Operand forms: how a request's fields reach the datapath registers (30_encoding.md
R104), the wire and sector addresses (R62, R114), buffer offsets (20_memory.md R64, R66), and the
frames that the datapath registers give (R112, R115). -/

namespace Sys2Proof.Machine

/-- R62: the wire address, bits 23..0 of a request-side address. -/
def wireAddr (a : Word) : WireAddr := a.extractLsb' 0 24

/-- R114: `sidx ×32 SECTOR_SIZE`. -/
def sectorAddr (sidx : Word) : Word := sidx * BitVec.ofNat 32 sectorSize

/-- R64: the offset `off +32 k` of byte `k` of a transfer. -/
def byteOffset (off : Word) (k : Nat) : Word := off + BitVec.ofNat 32 k

/-- R280: `a +32 (i × PAGE_SIZE)`. -/
def chunkStart (a i : Word) : Word := a + BitVec.ofNat 32 (i.toNat * pageSize)

/-- R104: READ and PP load `addr`, `len` and `off`. -/
def loadTransfer (s : State) : State :=
  { s with addr := s.req.a0, len := s.req.a1, off := s.req.boff }

/-- R104: SE loads `sidx`. -/
def loadSector (s : State) : State := { s with sidx := s.req.a0 }

/-- R104: WRSR loads `wsr1` and `wsr2`, the low bytes of its operands. -/
def loadStatus (s : State) : State :=
  { s with wsr1 := s.req.a0.extractLsb' 0 8, wsr2 := s.req.a1.extractLsb' 0 8 }

/-- R280: WRITE's range registers; its loop test is next. -/
def loadWrite (s : State) : State :=
  { s with rphase := .writeLoop, n := chunkCount s.req.a1, i := 0, atTest := true }

/-- R290: ERASE's range registers; its loop test is next. -/
def loadErase (s : State) : State :=
  { s with
    rphase := .eraseLoop
    base := sectorIndex s.req.a0
    eidx := sectorIndex s.req.a1
    n := eraseCount s.cfg.eraseUnderflow (sectorIndex s.req.a0) (sectorIndex s.req.a1)
    i := 0
    atTest := true }

/-- R280: the datapath registers of WRITE's chunk `i`. -/
def loadChunk (s : State) : State :=
  { s with
    addr := chunkStart s.req.a0 s.i
    off := chunkStart s.req.boff s.i
    len := chunkLen s.req.a1 s.i s.n }

/-- R290: the sector of ERASE's iteration `i`. -/
def loadRangeSector (s : State) : State := { s with sidx := s.base + s.i }

/-! ## The frames the block sends -/

/-- R200: the status read of a poll, and of RDSR1 (R165). -/
def State.callRdsr1 (s : State) : FrameCall := frameReceive s.cfg.ops.rdsr1 1

/-- R203: the write enable, and of WREN (R170). -/
def State.callWren (s : State) : FrameCall := frameOp s.cfg.ops.wren

/-- R161: RESET's first frame. -/
def State.callReset (s : State) : FrameCall :=
  match s.cfg.resetFraming with
  | .single => frameRstenRst s.cfg.ops
  | .split => frameOp s.cfg.ops.rsten

/-- R161: RESET's second frame under SPLIT. -/
def State.callRst (s : State) : FrameCall := frameOp s.cfg.ops.rst

/-- R163 -/
def State.callRdid (s : State) : FrameCall := frameReceive s.cfg.ops.rdid 3

/-- R166 -/
def State.callRdsr2 (s : State) : FrameCall := frameReceive s.cfg.ops.rdsr2 1

/-- R168 -/
def State.callWrsr (s : State) : FrameCall := frameWrsr s.cfg.ops s.wsr1 s.wsr2

/-- R171 -/
def State.callWrdi (s : State) : FrameCall := frameOp s.cfg.ops.wrdi

/-- R230 -/
def State.callRead (s : State) : FrameCall := frameRead s.cfg.ops (wireAddr s.addr) s.len.toNat

/-- R235 -/
def State.callPp (s : State) : FrameCall := framePp s.cfg.ops (wireAddr s.addr) s.data

/-- R240 -/
def State.callSe (s : State) : FrameCall := frameSe s.cfg.ops (wireAddr s.addr)

/-- R245 -/
def State.callCe (s : State) : FrameCall := frameOp s.cfg.ops.ce

end Sys2Proof.Machine
end

