-- ==== Sys2Proof/Machine/Ops.lean ====
section
/-! DEFINITION. The operations every meaning is built from: byte memories (canonical lists), buffer
accesses (20_memory.md R64), the environment's draws, acceptance (R100), the response (R102), the
abort (R322), the Frame call and its return (R145), the controller's reset (R360). -/

namespace Sys2Proof.Machine

/-! ## Memory -/

/-- What an address with no entry reads as, in the flash array and in the buffer.
DESIGN CHOICE (log 6), unsafe: the spec gives neither memory contents at power-up. -/
def Memory.unlisted : Byte := erasedValue

/-- The canonical form: addresses strictly rising, no byte equal to `Memory.unlisted`. -/
def Memory.wf : Memory → Bool
  | [] => true
  | (a, v) :: m => v != Memory.unlisted && m.all (fun c => decide (a < c.1)) && Memory.wf m

/-- The byte at an address. -/
def Memory.read : Memory → Nat → Byte
  | [], _ => Memory.unlisted
  | (b, w) :: m, a => if a = b then w else Memory.read m a

/-- The memory after a byte is written; keeps the canonical form. -/
def Memory.write : Memory → Nat → Byte → Memory
  | [], a, v => if v = Memory.unlisted then [] else [(a, v)]
  | (b, w) :: m, a, v =>
    if a < b then (if v = Memory.unlisted then (b, w) :: m else (a, v) :: (b, w) :: m)
    else if a = b then (if v = Memory.unlisted then m else (a, v) :: m)
    else (b, w) :: Memory.write m a v

/-- R76: the bytes from `a` on, each replaced by `prog old new` of its payload byte. -/
def Memory.program (prog : Byte → Byte → Byte) : Memory → Nat → List Byte → Memory
  | m, _, [] => m
  | m, a, v :: vs =>
    Memory.program prog (Memory.write m a (prog (Memory.read m a) v)) (a + 1) vs

/-- R77: the `n` bytes from `a` on become ERASED_VALUE, which is what an unlisted byte reads as. -/
def Memory.eraseRange (m : Memory) (a n : Nat) : Memory :=
  m.filter (fun c => decide (c.1 < a) || decide (a + n ≤ c.1))

/-- The memory with the listed bytes written, those only that lie in the `n` addresses from `a` on. -/
def Memory.pokeRange : Memory → Nat → Nat → List (Nat × Byte) → Memory
  | m, _, _, [] => m
  | m, a, n, p :: ps =>
    Memory.pokeRange (if a ≤ p.1 ∧ p.1 < a + n then Memory.write m p.1 p.2 else m) a n ps

/-! ## The buffer -/

/-- R64: some region admits a read of the byte at `o`. -/
def State.admitsRead (s : State) (o : Word) : Bool :=
  s.regions.any (fun r => r.readable && decide (r.base ≤ o.toNat) && decide (o.toNat < r.base + r.size))

/-- R64: some region admits a write of the byte at `o`. -/
def State.admitsWrite (s : State) (o : Word) : Bool :=
  s.regions.any (fun r => r.writable && decide (r.base ≤ o.toNat) && decide (o.toNat < r.base + r.size))

/-- `MemRead(o, 1)` (R23): the buffer byte, handed on with the event recorded (R146). -/
def memRead (o : Word) (s : State) (k : Byte → State → Res) : Res :=
  if s.admitsRead o then
    k (s.buffer.read o.toNat) { s with trace := .memRead o (s.buffer.read o.toNat) :: s.trace }
  else .fault .stuckBufferRead

/-- `MemWrite(o, 1, v)` (R23). -/
def memWrite (o : Word) (v : Byte) (s : State) (k : State → Res) : Res :=
  if s.admitsWrite o then
    k { s with buffer := s.buffer.write o.toNat v, trace := .memWrite o v :: s.trace }
  else .fault .stuckBufferWrite

/-! ## Draws -/

/-- R29(3): the environment's answer for the next frame. -/
def State.draw (s : State) : Draw :=
  match s.draws with
  | d :: _ => d
  | [] => Config.freeDraw s.drawCount

/-- The counter after the next answer is taken. -/
def State.nextDrawCount (s : State) : Nat :=
  match s.draws with
  | _ :: _ => s.drawCount
  | [] => s.drawCount + 1

/-- Byte `k` of an answer that may be any value. -/
def drawByte (d : Draw) (k : Nat) : Byte := d.bytes.getD k (Config.freeByte k)

/-- `n` received bytes that may be any value (R143, R72, U14, U21, U31). -/
def drawBytes (d : Draw) (n : Nat) : List Byte := (List.range n).map (drawByte d)

/-- Byte `k` that the last Frame received. A Frame that returned ok received as many bytes as its
caller reads, so the free value stands for a byte that no rule reads. -/
def State.rxByte (s : State) (k : Nat) : Byte := s.rx.getD k (Config.freeByte k)

/-! ## The life of a request -/

/-- R100 (1)-(3): the request is latched, the response cleared, the block busy. The operation
starts from CHECK (R160, R326). -/
def accept (r : Request) (s : State) : State :=
  { s with req := r, rspValid := false, phase := .busy, sphase := .check, rphase := .none }

/-- R102: the response step of a request that ends with OK. -/
def respondOk (s : State) : State :=
  { s with result := codeOk, rspValid := true, phase := .respond }

/-- R322: `raise Abort(code)`, the block's form of taking an exception: chip-select is released, the
sequencers go to END and NONE, and the code is reported. Nothing is saved. -/
def abort (code : Byte) (s : State) : State :=
  { s with
    cs := false
    sphase := .finish
    rphase := .none
    result := code
    rspValid := true
    phase := .respond
    bus := none
    ret := none }

/-- R145: the call of `Frame(hdr, txp, rxn)` in phase `p`. The frame runs in the next step. -/
def callFrame (p : SPhase) (f : FrameCall) (s : State) : State :=
  { s with sphase := p, bus := some f, ret := none }

/-- The Frame call's return has been looked at. -/
def taken (s : State) : State := { s with ret := none }

/-- R145: the return of the Frame call: a failed segment aborts the request with ERR_BUS (R144),
a successful one lets the caller go on. -/
def onReturn (s : State) (k : State → Res) : Res :=
  match s.ret with
  | none => .fault .noTransition
  | some false => .next (abort codeBus s)
  | some true => k (taken s)

/-- `return OK` of a command operation that was a direct request: its sequencer is at END. -/
def endDirect (s : State) : Res := .next { s with sphase := .finish }

/-- A command operation run as a direct request: accepted and its operands loaded (R100, R104),
then one row of its sequencer a step, then the response, which writes what `rsp` gives (R102). -/
def directRequest (r : Request) (load rsp : State → State) (seq : (State → Res) → State → Res)
    (s : State) : Res :=
  match s.phase with
  | .idle | .respond => .next (load (accept r s))
  | .busy =>
    match s.rphase with
    | .none =>
      match s.sphase with
      | .finish => .next (respondOk (rsp s))
      | .check | .preWip | .welWren | .welRdsr | .main | .postWip => seq endDirect s
    | .initReset | .initId | .initCmp | .writeLoop | .eraseLoop | .mass => .fault .noTransition

/-- R360, R48, R47: the controller's reset. The request in progress is abandoned, chip-select is
released, the response is not valid; the chip, the buffer and the ports keep what they hold. The
registers R47 calls unspecified are 0 (DESIGN CHOICE, log 4, unsafe). -/
def controllerReset (s : State) : State :=
  { s with
    phase := .idle, sphase := .finish, rphase := .none, cs := false, rspValid := false
    bus := none, ret := none, rx := [], data := [], pos := 0, atTest := false
    req := State.reset.req
    addr := State.reset.addr, len := State.reset.len, off := State.reset.off
    sidx := State.reset.sidx, wsr1 := State.reset.wsr1, wsr2 := State.reset.wsr2
    i := State.reset.i, n := State.reset.n, base := State.reset.base, eidx := State.reset.eidx
    polls := State.reset.polls, tries := State.reset.tries
    result := State.reset.result, rspSr := State.reset.rspSr, rspId := State.reset.rspId
    sr := State.reset.sr, id := State.reset.id }

/-! ## The outside -/

/-- The buffer after the requester wrote the listed bytes (R64: it is the requester's memory). -/
def applyEdits : Memory → List (Word × Byte) → Memory
  | m, [] => m
  | m, e :: es => applyEdits (m.write e.1.toNat e.2) es

/-- What the outside does before this step is done and struck from the list. -/
def State.applyInput (s : State) : State :=
  match s.inputs with
  | [] => s
  | x :: xs => { s with buffer := applyEdits s.buffer x.edits, inputs := xs }

/-- R360: the controller's reset is asserted before this step. -/
def State.resetAsserted (s : State) : Bool :=
  match s.inputs with
  | [] => false
  | x :: _ => x.reset

end Sys2Proof.Machine
end

