-- ==== Sys2Proof/Machine/Chip.lean ====
section
/-! DEFINITION. The chip (20_memory.md section 4): what it does with the bytes it has received by
the deselect, and what it answers. A reaction takes the list of received bytes, which after a failed
segment or a reset is a prefix of the frame's (R80, U24). What a prefix that is no whole command does
is any value (U20): the draw says that it is ignored or which state it leaves, within the bytes that the
command names (DESIGN CHOICE, log 11, safe). -/

namespace Sys2Proof.Machine

/-- R78: the internal operation in progress completes before the frame if the draw says so; WEL
clears together with WIP. -/
def Chip.settle (d : Draw) (c : Chip) : Chip :=
  if c.wip && d.completes then { c with wip := false, wel := false, op := none } else c

/-- The bits of SR1 that are neither flag. -/
def restMask (cfg : Config) : Byte := ~~~(cfg.wipMask ||| cfg.welMask)

/-- R73: the SR1 byte the chip answers: the flags at their masks, every other bit any value. -/
def Chip.statusByte (cfg : Config) (d : Draw) (c : Chip) : Byte :=
  (d.sr1 &&& restMask cfg) ||| (if c.wip then cfg.wipMask else 0) ||| (if c.wel then cfg.welMask else 0)

/-- PROGRAM(old, new) (R76). -/
def programByte (r : ProgramRule) (old new : Byte) : Byte :=
  match r with
  | .reference => old &&& new
  | .unspecified => Config.freeProgram old new

/-- Any status, and any value in the `n` array bytes from `a`. An operation still in progress keeps the
bytes it is changing (log 13). -/
def Chip.anyWithin (cfg : Config) (d : Draw) (a n : Nat) (c : Chip) : Chip :=
  { c with
    array := c.array.pokeRange a n d.pokes
    wip := d.wip
    wel := d.wel
    sr1rest := d.sr1 &&& restMask cfg
    sr2 := d.sr2
    op := if d.wip then some (c.op.getD (a, n)) else none }

/-- U14, U34: any state. -/
def Chip.anyState (cfg : Config) (d : Draw) (c : Chip) : Chip := c.anyWithin cfg d 0 cfg.deviceSize

/-- R79: the default power-on state. The bytes an operation in progress was changing may hold any
value; SR1rest and SR2 are unspecified. -/
def Chip.powerOn (cfg : Config) (d : Draw) (c : Chip) : Chip :=
  { c with
    array :=
      match c.op with
      | some (a, n) => c.array.pokeRange a (min n (cfg.deviceSize - a)) d.pokes
      | none => c.array
    wip := false
    wel := false
    sr1rest := d.sr1 &&& restMask cfg
    sr2 := d.sr2
    op := none
    rstEnabled := false }

/-- A received command other than a reset pair: enable-reset no longer stands (log 12). -/
def Chip.disarm (c : Chip) : Chip := { c with rstEnabled := false }

/-- R75: WREN, which the chip may drop. -/
def Chip.wren (d : Draw) (c : Chip) : Chip := if d.dropWren then c else { c with wel := true }

/-- R75: WRDI. -/
def Chip.wrdi (c : Chip) : Chip := { c with wel := false }

/-- R78: a mutating command is accepted only with WEL = 1 and WIP = 0; otherwise it changes nothing. -/
def Chip.accepts (c : Chip) : Bool := c.wel && !c.wip

/-- R77: WRSR. Which bits are writable is the chip's choice (U11); WIP and WEL are not changed
through the payload. -/
def Chip.writeStatus (cfg : Config) (d : Draw) (reg1 reg2 : Byte) (c : Chip) : Chip :=
  if c.accepts then
    { c with
      wip := true
      sr1rest := ((c.sr1rest &&& ~~~d.mask1) ||| (reg1 &&& d.mask1)) &&& restMask cfg
      sr2 := (c.sr2 &&& ~~~d.mask2) ||| (reg2 &&& d.mask2)
      op := some (0, 0) }
  else c

/-- R76: PP. An address outside the device (U14) or a payload that leaves its page (R76: "outside
this contract") leaves the chip in any state (log 17). So it does with WEL = 0 or WIP = 1 too, where R78
has a mutating command ignored: the spec does not say which prevails (DESIGN CHOICE, log 17). -/
def Chip.pageProgram (cfg : Config) (d : Draw) (a : WireAddr) (data : List Byte) (c : Chip) : Chip :=
  if a.toNat < cfg.deviceSize ∧ fitsPage a data.length then
    if c.accepts then
      { c with
        array := c.array.program (programByte cfg.programRule) a.toNat data
        wip := true
        op := some (a.toNat, data.length) }
    else c
  else c.anyState cfg d

/-- The first byte of the sector that holds address `a` (R61). -/
def sectorBase (a : WireAddr) : Nat := a.toNat / sectorSize * sectorSize

/-- R77: SE, on the sector containing `a`. An address outside the device leaves the chip in any
state (U14, log 17), with WEL = 0 or WIP = 1 too, where R78 has a mutating command ignored: the spec does
not say which prevails (DESIGN CHOICE, log 17). -/
def Chip.sectorErase (cfg : Config) (d : Draw) (a : WireAddr) (c : Chip) : Chip :=
  if a.toNat < cfg.deviceSize then
    if c.accepts then
      { c with
        array := c.array.eraseRange (sectorBase a) sectorSize
        wip := true
        op := some (sectorBase a, sectorSize) }
    else c
  else c.anyState cfg d

/-- R77: CE. WEL stays 1 until WIP clears, as R78 and vector T24 (0x03 while busy) have it; the example
of R245 answers 0x01 (DESIGN CHOICE, log 38). -/
def Chip.chipErase (cfg : Config) (c : Chip) : Chip :=
  if c.accepts then
    { c with
      array := c.array.eraseRange 0 cfg.deviceSize
      wip := true
      op := some (0, cfg.deviceSize) }
  else c

/-! ## Commands cut short (R80, U20) -/

/-- R80, U20: a page program of which no payload byte arrived is ignored, or leaves any status and any
value in the bytes it addresses, with WEL = 0 or WIP = 1 too (DESIGN CHOICE, log 11): the pages before it
stay programmed (R283). One that R76 and U14 leave open when whole leaves any state (log 17). -/
def Chip.cutProgram (cfg : Config) (d : Draw) (a : WireAddr) (n : Nat) (c : Chip) : Chip :=
  if d.ignoresCut then c
  else if a.toNat < cfg.deviceSize ∧ fitsPage a n then c.anyWithin cfg d a.toNat n
  else c.anyState cfg d

/-- R80, U20: the same of a sector erase short of an address byte: the sectors before it stay erased
(R290), as does every other (log 11, log 17). -/
def Chip.cutErase (cfg : Config) (d : Draw) (a : WireAddr) (c : Chip) : Chip :=
  if d.ignoresCut then c
  else if a.toNat < cfg.deviceSize then c.anyWithin cfg d (sectorBase a) sectorSize
  else c.anyState cfg d

/-- R80, U20: the same of a status write, which reaches no array byte (R63, log 11). -/
def Chip.cutStatus (cfg : Config) (d : Draw) (c : Chip) : Chip :=
  if d.ignoresCut then c else c.anyWithin cfg d 0 0

/-! ## Reactions to received bytes -/

/-- A reaction to the bytes of a command of `n` bytes: a whole command has the effect `f`, one that is
cut short the effect `cut`. -/
def reactWhole (n : Nat) (f cut : Chip → Chip) (received : List Byte) (c : Chip) : Chip :=
  if received = [] then c else if received.length = n then f c.disarm else cut c.disarm

/-- R79, R161: both reset bytes in one frame; the first alone is an enable-reset. A chip that needs
two frames is left in any state (U34). -/
def reactRstenRst (cfg : Config) (d : Draw) (received : List Byte) (c : Chip) : Chip :=
  match received.length with
  | 0 => c
  | 1 => { c with rstEnabled := true }
  | _ => if cfg.chipNeedsSplit then (c.anyState cfg d).disarm else c.powerOn cfg d

/-- R161: the enable-reset byte in a frame of its own. -/
def reactRsten (received : List Byte) (c : Chip) : Chip :=
  if received = [] then c else { c with rstEnabled := true }

/-- R79, R161: the reset byte in a frame of its own resets the chip after an enable-reset (log 12). -/
def reactRst (cfg : Config) (d : Draw) (received : List Byte) (c : Chip) : Chip :=
  if received = [] then c else if c.rstEnabled then c.powerOn cfg d else c

/-- R71, R73, R74: a read changes no chip state. -/
def reactRead (received : List Byte) (c : Chip) : Chip := if received = [] then c else c.disarm

/-- R76, R80, R235: the bytes of a payload of `n` that reached the chip are programmed; with none the
command is cut short. -/
def reactPp (cfg : Config) (d : Draw) (a : WireAddr) (n : Nat) (received : List Byte) (c : Chip) : Chip :=
  match received.drop 4 with
  | [] => if received = [] then c else c.disarm.cutProgram cfg d a n
  | v :: vs => c.disarm.pageProgram cfg d a (v :: vs)

/-! ## Answers -/

/-- R73 -/
def answerRdsr1 (cfg : Config) (d : Draw) (c : Chip) : List Byte := [c.statusByte cfg d]

/-- R74 -/
def answerRdsr2 (c : Chip) : List Byte := [c.sr2]

/-- R74 -/
def answerRdid (cfg : Config) : List Byte := [cfg.chipId.mfr, cfg.chipId.type, cfg.chipId.cap]

/-- R72: byte `k` is the array's at `a + k`; any value while WIP = 1 (U15) and past the device
(U14; the wrap is not modelled, "a claim must not depend on it"). -/
def answerRead (cfg : Config) (d : Draw) (a : WireAddr) (n : Nat) (c : Chip) : List Byte :=
  (List.range n).map (fun k =>
    if !c.wip && decide (a.toNat + k < cfg.deviceSize) then c.array.read (a.toNat + k) else drawByte d k)

end Sys2Proof.Machine
end

