-- ==== Sys2Proof/Machine/Bus.lean ====
section
/-! DEFINITION. The bus port and the frame primitive (40_bus_frames.md R140-R148): Select, the header
segment, at most one payload segment, Deselect, with the chip's reaction and answer. One frame is one
atomic step (R26). -/

namespace Sys2Proof.Machine

/-- R141 `Select()`. -/
def select (s : State) (k : State → Res) : Res :=
  if s.cs then .fault .selectWhileSelected else k { s with cs := true }

/-- R141 `Deselect()`. -/
def deselect (s : State) : Res :=
  if s.cs then .next { s with cs := false } else .fault .deselectWhileDeselected

/-- What a frame leaves: the chip, the value `ok`, the bytes received, and the record's outcome. -/
structure FrameResult where
  chip    : Chip
  ok      : Bool
  rx      : List Byte
  outcome : FrameOutcome
  deriving DecidableEq, Repr

/-- What a chip does with the bytes it receives, for a draw: `react` changes its state, `answer` is
what it shifts out. -/
structure ChipSide where
  react  : Draw → List Byte → Chip → Chip
  answer : Draw → Chip → List Byte

/-- U31: where no chip is fitted nothing has a state to change, and any bytes come back. -/
def ChipSide.fitted (cfg : Config) (n : Nat) (x : ChipSide) : ChipSide :=
  if cfg.chipPresent then x
  else { react := fun _ _ c => c, answer := fun d _ => drawBytes d n }

/-- R145 with R80: the segments of a frame. A header that fails sends no payload; after a failed sent
segment the chip has received a prefix; a failed receive leaves the header received whole and returns
any bytes (R143). -/
def runSegments (f : FrameCall) (x : ChipSide) (d : Draw) (c : Chip) : FrameResult :=
  if !d.hdrOk then
    { chip := x.react d (f.hdr.take d.cut) c, ok := false, rx := [], outcome := .failHeader }
  else if f.tx ≠ [] ∧ d.payOk = false then
    { chip := x.react d (f.hdr ++ f.tx.take d.cut) c, ok := false, rx := []
      outcome := .failPayload }
  else if f.rxn ≠ 0 ∧ d.payOk = false then
    { chip := x.react d f.hdr c, ok := false, rx := drawBytes d f.rxn, outcome := .failReceive }
  else
    { chip := x.react d f.bytes c, ok := true
      rx := if f.rxn = 0 then [] else x.answer d c
      outcome := .ok }

/-- The result of the frame that is run next: the answer drawn for it, on the chip as it stands after
an operation in progress has or has not completed (R78). -/
def State.frameResult (s : State) (f : FrameCall) (x : ChipSide) : FrameResult :=
  runSegments f (x.fitted s.cfg f.rxn) s.draw (s.chip.settle s.draw)

/-- The state between Select and Deselect, after the segments. -/
def segments (f : FrameCall) (x : ChipSide) (s : State) : State :=
  { s with
    bus := none
    ret := some (s.frameResult f x).ok
    rx := (s.frameResult f x).rx
    chip := (s.frameResult f x).chip
    trace := .frame f (s.frameResult f x).rx (s.frameResult f x).outcome :: s.trace
    draws := s.draws.tail
    drawCount := s.nextDrawCount }

/-- R145: one complete frame. What it returned waits in `ret` and `rx` for its caller. -/
def busFrame (f : FrameCall) (x : ChipSide) (s : State) : Res :=
  select s (fun t => deselect (segments f x t))

/-! ## The events inside a frame (R141-R143) -/

/-- R141-R143: what Select, BusTx, BusRx and Deselect record. -/
inductive BusEvent where
  | sel
  | tx (bytes : List Byte) (ok : Bool)
  | rx (n : Nat) (sent : List Byte) (bytes : List Byte) (ok : Bool)
  | desel
  deriving DecidableEq, Repr

/-- The bus events of one recorded frame, in order. While it receives, the block sends DUMMY_TX
(R18, R143). -/
def frameEvents (cfg : Config) (f : FrameCall) (rx : List Byte) (o : FrameOutcome) : List BusEvent :=
  match o with
  | .failHeader => [.sel, .tx f.hdr false, .desel]
  | .failPayload => [.sel, .tx f.hdr true, .tx f.tx false, .desel]
  | .failReceive =>
    [.sel, .tx f.hdr true, .rx f.rxn (List.replicate f.rxn cfg.dummyTx) rx false, .desel]
  | .ok =>
    [.sel, .tx f.hdr true] ++ (if f.tx = [] then [] else [.tx f.tx true]) ++
      (if f.rxn = 0 then [] else [.rx f.rxn (List.replicate f.rxn cfg.dummyTx) rx true]) ++ [.desel]

end Sys2Proof.Machine
end

