-- ==== Sys2Proof/Machine/Sequencer.lean ====
section
/-! DEFINITION. The two synchronisation primitives (42_sequencer.md): the write-in-progress poller
WAITWIP and the write-enable sequencer WRENW, by the rows of R206. A row that follows a frame is one
step. `k` is the caller's next phase. -/

namespace Sys2Proof.Machine

/-- R200: WAITWIP is entered in phase `p`; its first status read is called. A limit of 0 is a
configuration error (U5). -/
def startWait (p : SPhase) (s : State) : Res :=
  if s.cfg.wipLimit = some 0 then .fault .zeroLimit
  else .next (callFrame p s.callRdsr1 { s with polls := 0 })

/-- R200: `sr` takes the byte of the poll's status read and `polls` counts it (modulo 2^32). -/
def polled (s : State) : State := { s with sr := s.rxByte 0, polls := s.polls + 1 }

/-- R200, R206: a status read of the poll has returned. `sr` takes the byte and `polls` counts it;
not busy goes on, the limit aborts with ERR_TIMEOUT, otherwise the status is read again. -/
def waitReturn (s : State) (k : State → Res) : Res :=
  onReturn s (fun t =>
    if !isBusy t.cfg (polled t).sr then k (polled t)
    else if limitReached t.cfg.wipLimit (polled t).polls then .next (abort codeTimeout (polled t))
    else .next (callFrame t.sphase t.callRdsr1 (polled t)))

/-- R203: WRENW is entered; its first write enable is called. A limit of 0 is a configuration error
(U5, log 21). -/
def startLatch (s : State) : Res :=
  if s.cfg.welLimit = some 0 then .fault .zeroLimit
  else .next (callFrame .welWren s.callWren { s with tries := 0 })

/-- R203, R206: the write enable of a try has returned; the status is read. -/
def latchWrenReturn (s : State) : Res :=
  onReturn s (fun t => .next (callFrame .welRdsr t.callRdsr1 t))

/-- R203: `sr` takes the byte of the try's status read and `tries` counts it (modulo 2^32). -/
def tried (s : State) : State := { s with sr := s.rxByte 0, tries := s.tries + 1 }

/-- R203, R206: the status read of a try has returned. The latch seen set goes on, the limit aborts
with ERR_TIMEOUT, otherwise the write enable is sent again. -/
def latchRdsrReturn (s : State) (k : State → Res) : Res :=
  onReturn s (fun t =>
    if isWriteEnabled t.cfg (tried t).sr then k (tried t)
    else if limitReached t.cfg.welLimit (tried t).tries then .next (abort codeTimeout (tried t))
    else .next (callFrame .welWren t.callWren (tried t)))

/-- A direct WAITWIP (R200, R207), by the rows of R206. -/
def waitwipSeq (ret : State → Res) (s : State) : Res :=
  match s.sphase with
  | .check => startWait .preWip s
  | .preWip => waitReturn s ret
  | .welWren | .welRdsr | .main | .postWip | .finish => .fault .noTransition

/-- A direct WRENW (R203, R207), by the rows of R206. -/
def wrenwSeq (ret : State → Res) (s : State) : Res :=
  match s.sphase with
  | .check => startLatch s
  | .welWren => latchWrenReturn s
  | .welRdsr => latchRdsrReturn s ret
  | .preWip | .main | .postWip | .finish => .fault .noTransition

/-- R200, R207: the request WAITWIP. -/
def execWaitwip (o : Operands) (s : State) : Res :=
  directRequest (Request.of 0x0C o) (fun t => t) (fun t => t) waitwipSeq s

/-- R203, R207: the request WRENW. -/
def execWrenw (o : Operands) (s : State) : Res :=
  directRequest (Request.of 0x0D o) (fun t => t) (fun t => t) wrenwSeq s

end Sys2Proof.Machine
end

