-- ==== Sys2Proof/Machine/RegisterCommands.lean ====
section
/-! DEFINITION. The register and control commands (41_register_commands.md): RESET, RDID, RDSR1,
RDSR2, WRSR, WREN, WRDI, by the rows of R172, and the reserved codes (R105). -/

namespace Sys2Proof.Machine

/-- R172: a command of one frame: CHECK always goes to MAIN; MAIN returns when its frame did. -/
def oneFrameSeq (call : State → FrameCall) (done : State → State) (ret : State → Res) (s : State) : Res :=
  match s.sphase with
  | .check => .next (callFrame .main (call s) s)
  | .main => onReturn s (fun t => ret (done t))
  | .preWip | .welWren | .welRdsr | .postWip | .finish => .fault .noTransition

/-- R161: RESET, one frame under SINGLE, two under SPLIT. -/
def resetSeq (ret : State → Res) (s : State) : Res :=
  match s.sphase with
  | .check => .next (callFrame .main s.callReset { s with pos := 0 })
  | .main =>
    onReturn s (fun t =>
      if t.cfg.resetFraming = .split ∧ t.pos = 0 then
        .next (callFrame .main t.callRst { t with pos := 1 })
      else ret t)
  | .preWip | .welWren | .welRdsr | .postWip | .finish => .fault .noTransition

/-- R163: the identity bytes in reception order. -/
def storeId (s : State) : State :=
  { s with id := { mfr := s.rxByte 0, type := s.rxByte 1, cap := s.rxByte 2 } }

/-- R163: RDID. -/
def rdidSeq : (State → Res) → State → Res := oneFrameSeq State.callRdid storeId

/-- R165: RDSR1; `sr` takes the byte (R38). -/
def rdsr1Seq : (State → Res) → State → Res :=
  oneFrameSeq State.callRdsr1 (fun s => { s with sr := s.rxByte 0 })

/-- R166: RDSR2; `sr` is not written (R38, C7). -/
def rdsr2Seq : (State → Res) → State → Res := oneFrameSeq State.callRdsr2 (fun s => s)

/-- R170: WREN. -/
def wrenSeq : (State → Res) → State → Res := oneFrameSeq State.callWren (fun s => s)

/-- R171: WRDI. -/
def wrdiSeq : (State → Res) → State → Res := oneFrameSeq State.callWrdi (fun s => s)

/-- R168: WRSR: WRENW, then the frame; no wait before or after. -/
def wrsrSeq (ret : State → Res) (s : State) : Res :=
  match s.sphase with
  | .check => startLatch s
  | .welWren => latchWrenReturn s
  | .welRdsr => latchRdsrReturn s (fun t => .next (callFrame .main t.callWrsr t))
  | .main => onReturn s ret
  | .preWip | .postWip | .finish => .fault .noTransition

/-- R161: the request RESET. -/
def execReset (o : Operands) (s : State) : Res :=
  directRequest (Request.of 0x01 o) (fun t => t) (fun t => t) resetSeq s

/-- R163: the request RDID; its response carries `id`. -/
def execRdid (o : Operands) (s : State) : Res :=
  directRequest (Request.of 0x02 o) (fun t => t) (fun t => { t with rspId := t.id }) rdidSeq s

/-- R165: the request RDSR1; its response carries `sr`. -/
def execRdsr1 (o : Operands) (s : State) : Res :=
  directRequest (Request.of 0x03 o) (fun t => t) (fun t => { t with rspSr := t.sr }) rdsr1Seq s

/-- R166: the request RDSR2; its response carries the byte received. -/
def execRdsr2 (o : Operands) (s : State) : Res :=
  directRequest (Request.of 0x04 o) (fun t => t) (fun t => { t with rspSr := t.rxByte 0 }) rdsr2Seq s

/-- R168: the request WRSR. -/
def execWrsr (o : Operands) (s : State) : Res :=
  directRequest (Request.of 0x05 o) loadStatus (fun t => t) wrsrSeq s

/-- R170: the request WREN; the latch is not read back. -/
def execWren (o : Operands) (s : State) : Res :=
  directRequest (Request.of 0x06 o) (fun t => t) (fun t => t) wrenSeq s

/-- R171: the request WRDI. -/
def execWrdi (o : Operands) (s : State) : Res :=
  directRequest (Request.of 0x07 o) (fun t => t) (fun t => t) wrdiSeq s

/-- R105: a reserved code "ends at once" with ERR_CMD: no frame, no buffer access. -/
def execReserved (cmd : Byte) (o : Operands) (s : State) : Res :=
  match s.phase with
  | .idle | .respond => .next (abort codeCmd (accept (Request.of cmd o) s))
  | .busy => .fault .noTransition

end Sys2Proof.Machine
end

