-- ==== Sys2Proof/Machine/ArrayCommands.lean ====
section
/-! DEFINITION. The array commands READ, PP, SE and CE (43_array_commands.md), by the rows of R250.
Each buffer access is a step of its own (R26, R64). -/

namespace Sys2Proof.Machine

/-- R230: READ's frame has returned: each received byte is written to the buffer, one a step, and
then the command returns. -/
def readMove (ret : State → Res) (s : State) : Res :=
  if s.pos < s.len.toNat then
    memWrite (byteOffset s.off s.pos) (s.rxByte s.pos) s (fun t => .next { t with pos := t.pos + 1 })
  else ret s

/-- R230: READ. -/
def readSeq (ret : State → Res) (s : State) : Res :=
  match s.sphase with
  | .check => startWait .preWip s
  | .preWip => waitReturn s (fun t => .next (callFrame .main t.callRead t))
  | .main =>
    match s.ret with
    | some _ => onReturn s (fun t => .next { t with pos := 0 })
    | none => readMove ret s
  | .welWren | .welRdsr | .postWip | .finish => .fault .noTransition

/-- R235: WRENW has returned: the payload is read from the buffer, one byte a step, and then the
main frame is called. -/
def ppGather (s : State) : Res :=
  if s.data.length < s.len.toNat then
    memRead (byteOffset s.off s.data.length) s (fun v t => .next { t with data := t.data ++ [v] })
  else .next (callFrame .main s.callPp s)

/-- R235: PP. A chunk that does not fit its page is refused before any frame (R236). -/
def ppSeq (ret : State → Res) (s : State) : Res :=
  match s.sphase with
  | .check => if ppFits s.addr s.len then startWait .preWip s else .next (abort codeParam s)
  | .preWip => waitReturn s startLatch
  | .welWren => latchWrenReturn s
  | .welRdsr =>
    match s.ret with
    | some _ => latchRdsrReturn s (fun t => .next { t with data := [] })
    | none => ppGather s
  | .main => onReturn s ret
  | .postWip | .finish => .fault .noTransition

/-- R240, R245, R250: an erase: wait, latch, the main frame, wait again. -/
def eraseSeq (call : State → FrameCall) (load : State → State) (ret : State → Res) (s : State) : Res :=
  match s.sphase with
  | .check => startWait .preWip (load s)
  | .preWip => waitReturn s startLatch
  | .welWren => latchWrenReturn s
  | .welRdsr => latchRdsrReturn s (fun t => .next (callFrame .main (call t) t))
  | .main => onReturn s (startWait .postWip)
  | .postWip => waitReturn s ret
  | .finish => .fault .noTransition

/-- R240: SE, `addr ← sidx ×32 SECTOR_SIZE`. -/
def seSeq : (State → Res) → State → Res :=
  eraseSeq State.callSe (fun s => { s with addr := sectorAddr s.sidx })

/-- R245: CE. -/
def ceSeq : (State → Res) → State → Res := eraseSeq State.callCe (fun s => s)

/-- R230: the request READ. -/
def execRead (o : Operands) (s : State) : Res :=
  directRequest (Request.of 0x08 o) loadTransfer (fun t => t) readSeq s

/-- R235: the request PP. -/
def execPp (o : Operands) (s : State) : Res :=
  directRequest (Request.of 0x09 o) loadTransfer (fun t => t) ppSeq s

/-- R240: the request SE. -/
def execSe (o : Operands) (s : State) : Res :=
  directRequest (Request.of 0x0A o) loadSector (fun t => t) seSeq s

/-- R245: the request CE. -/
def execCe (o : Operands) (s : State) : Res :=
  directRequest (Request.of 0x0B o) (fun t => t) (fun t => t) ceSeq s

end Sys2Proof.Machine
end

