-- ==== Sys2Proof/Machine/ProgrammerOps.lean ====
section
/-! DEFINITION. The range and sequence commands INIT, WRITE, ERASE and MASSERASE
(44_programmer_ops.md), by the rows of R302, over the command operations as sub-commands (R25). -/

namespace Sys2Proof.Machine

/-- The request of a range operation: accepted and its range registers loaded, then `seq` a step at
a time, and the response once `rphase` is NONE again (R302, R102). -/
def rangeRequest (r : Request) (load : State → State) (seq : State → Res) (s : State) : Res :=
  match s.phase with
  | .idle | .respond => .next (load (accept r s))
  | .busy =>
    match s.rphase with
    | .none =>
      match s.sphase with
      | .finish => .next (respondOk s)
      | .check | .preWip | .welWren | .welRdsr | .main | .postWip => .fault .noTransition
    | .initReset | .initId | .initCmp | .writeLoop | .eraseLoop | .mass => seq s

/-- R270, R272: the comparison. `rsp_id` takes the bytes read, and the result is OK or ERR_ID. With OK,
`rphase` NONE and the response are the comparison's own step: the spec does not say whether the response
step (R102, "NONE (0), then respond" in R302) is one of its own after it (DESIGN CHOICE, log 37). -/
def initCompare (s : State) : State :=
  if idMatch s.cfg s.id then respondOk { s with rspId := s.id, rphase := .none }
  else abort codeId { s with rspId := s.id }

/-- R270: INIT's rows of R302. Where RESET returns, its END (R172), `rphase` INIT_ID and the CHECK of
RDID (R160) are one step, and where RDID returns, its END and INIT_CMP: the spec does not say whether END
is a state of its own there (DESIGN CHOICE, log 37). -/
def initSeq (s : State) : Res :=
  match s.rphase with
  | .initReset => resetSeq (fun t => .next { t with rphase := .initId, sphase := .check }) s
  | .initId => rdidSeq (fun t => .next { t with rphase := .initCmp, sphase := .finish }) s
  | .initCmp => .next (initCompare s)
  | .none | .writeLoop | .eraseLoop | .mass => .fault .noTransition

/-- A sub-command of a loop has returned OK, at END: `i ← i + 1`, and the loop test is next (R280,
R290). -/
def loopReturn (s : State) : Res :=
  .next { s with sphase := .finish, i := s.i + 1, atTest := true }

/-- R280, R290: the loop test, one loop decision (R26): the next sub-command with its operands loaded,
from CHECK, or the loop's end. A loop that ends before its first sub-command leaves `sphase` at END, as
one that ends after its last does (DESIGN CHOICE, log 36). -/
def loopTest (load : State → State) (s : State) : Res :=
  if s.i < s.n then .next { load s with sphase := .check, atTest := false }
  else .next { s with sphase := .finish, rphase := .none, atTest := false }

/-- R280: WRITE's rows of R302. -/
def writeSeq (s : State) : Res :=
  match s.rphase with
  | .writeLoop => if s.atTest then loopTest loadChunk s else ppSeq loopReturn s
  | .none | .initReset | .initId | .initCmp | .eraseLoop | .mass => .fault .noTransition

/-- R290: ERASE's rows of R302. -/
def eraseRangeSeq (s : State) : Res :=
  match s.rphase with
  | .eraseLoop => if s.atTest then loopTest loadRangeSector s else seSeq loopReturn s
  | .none | .initReset | .initId | .initCmp | .writeLoop | .mass => .fault .noTransition

/-- R296: MASSERASE's row of R302. Where CE returns, its END and `rphase` NONE are one step (log 37). -/
def massSeq (s : State) : Res :=
  match s.rphase with
  | .mass => ceSeq (fun t => .next { t with sphase := .finish, rphase := .none }) s
  | .none | .initReset | .initId | .initCmp | .writeLoop | .eraseLoop => .fault .noTransition

/-- R270: the request INIT. -/
def execInit (o : Operands) (s : State) : Res :=
  rangeRequest (Request.of 0x10 o) (fun t => { t with rphase := .initReset }) initSeq s

/-- R280: the request WRITE. -/
def execWrite (o : Operands) (s : State) : Res :=
  rangeRequest (Request.of 0x11 o) loadWrite writeSeq s

/-- R290: the request ERASE. -/
def execErase (o : Operands) (s : State) : Res :=
  rangeRequest (Request.of 0x12 o) loadErase eraseRangeSeq s

/-- R296: the request MASSERASE. -/
def execMasserase (o : Operands) (s : State) : Res :=
  rangeRequest (Request.of 0x13 o) (fun t => { t with rphase := .mass }) massSeq s

end Sys2Proof.Machine
end

