-- ==== Sys2Proof/Machine/SpiFrames.lean ====
section
/-! DEFINITION. The SPI frame kinds (30_encoding.md R112): each is one complete frame on the bus
(R145), with what the chip does and answers (20_memory.md R72-R80). -/

namespace Sys2Proof.Machine

/-- R161, R79: both reset bytes in one frame. -/
def execSpiRstenRst (s : State) : Res :=
  busFrame (frameRstenRst s.cfg.ops) { react := reactRstenRst s.cfg, answer := fun _ _ => [] } s

/-- R161: the enable-reset byte alone. -/
def execSpiRsten (s : State) : Res :=
  busFrame (frameOp s.cfg.ops.rsten) { react := fun _ => reactRsten, answer := fun _ _ => [] } s

/-- R161, R79: the reset byte alone. -/
def execSpiRst (s : State) : Res :=
  busFrame (frameOp s.cfg.ops.rst) { react := reactRst s.cfg, answer := fun _ _ => [] } s

/-- R163, R74: the identity. -/
def execSpiRdid (s : State) : Res :=
  busFrame (frameReceive s.cfg.ops.rdid 3)
    { react := fun _ => reactRead, answer := fun _ _ => answerRdid s.cfg } s

/-- R165, R73: status register 1. -/
def execSpiRdsr1 (s : State) : Res :=
  busFrame (frameReceive s.cfg.ops.rdsr1 1)
    { react := fun _ => reactRead, answer := answerRdsr1 s.cfg } s

/-- R166, R74: status register 2. -/
def execSpiRdsr2 (s : State) : Res :=
  busFrame (frameReceive s.cfg.ops.rdsr2 1)
    { react := fun _ => reactRead, answer := fun _ => answerRdsr2 } s

/-- R168, R77: the status registers are written. -/
def execSpiWrsr (reg1 reg2 : Byte) (s : State) : Res :=
  busFrame (frameWrsr s.cfg.ops reg1 reg2)
    { react := fun d => reactWhole 3 (fun c => c.writeStatus s.cfg d reg1 reg2) (fun c => c.cutStatus s.cfg d)
      answer := fun _ _ => [] } s

/-- R170, R75: write enable. -/
def execSpiWren (s : State) : Res :=
  busFrame (frameOp s.cfg.ops.wren)
    { react := fun d => reactWhole 1 (fun c => c.wren d) id, answer := fun _ _ => [] } s

/-- R171, R75: write disable. -/
def execSpiWrdi (s : State) : Res :=
  busFrame (frameOp s.cfg.ops.wrdi)
    { react := fun _ => reactWhole 1 Chip.wrdi id, answer := fun _ _ => [] } s

/-- R230, R72: `n` bytes of the array. -/
def execSpiRead (a : WireAddr) (n : Nat) (s : State) : Res :=
  busFrame (frameRead s.cfg.ops a n)
    { react := fun _ => reactRead, answer := fun d => answerRead s.cfg d a n } s

/-- R235, R76: page program. -/
def execSpiPp (a : WireAddr) (data : List Byte) (s : State) : Res :=
  busFrame (framePp s.cfg.ops a data)
    { react := fun d => reactPp s.cfg d a data.length, answer := fun _ _ => [] } s

/-- R240, R77: sector erase. -/
def execSpiSe (a : WireAddr) (s : State) : Res :=
  busFrame (frameSe s.cfg.ops a)
    { react := fun d => reactWhole 4 (fun c => c.sectorErase s.cfg d a) (fun c => c.cutErase s.cfg d a)
      answer := fun _ _ => [] } s

/-- R245, R77: chip erase. -/
def execSpiCe (s : State) : Res :=
  busFrame (frameOp s.cfg.ops.ce)
    { react := fun _ => reactWhole 1 (fun c => c.chipErase s.cfg) id, answer := fun _ _ => [] } s

end Sys2Proof.Machine
end

