-- ==== Sys2Proof/Machine/Dispatch.lean ====
section
/-! DEFINITION. The dispatch: one arm for each instruction. -/

namespace Sys2Proof.Machine

def exec (i : Instr) (s : State) : Host.Outcome State Fault Refusal :=
  match i with
  -- request commands (30_encoding.md R103)
  | .reset o => Sys2Proof.Machine.execReset o s
  | .rdid o => Sys2Proof.Machine.execRdid o s
  | .rdsr1 o => Sys2Proof.Machine.execRdsr1 o s
  | .rdsr2 o => Sys2Proof.Machine.execRdsr2 o s
  | .wrsr o => Sys2Proof.Machine.execWrsr o s
  | .wren o => Sys2Proof.Machine.execWren o s
  | .wrdi o => Sys2Proof.Machine.execWrdi o s
  | .read o => Sys2Proof.Machine.execRead o s
  | .pp o => Sys2Proof.Machine.execPp o s
  | .se o => Sys2Proof.Machine.execSe o s
  | .ce o => Sys2Proof.Machine.execCe o s
  | .waitwip o => Sys2Proof.Machine.execWaitwip o s
  | .wrenw o => Sys2Proof.Machine.execWrenw o s
  | .init o => Sys2Proof.Machine.execInit o s
  | .write o => Sys2Proof.Machine.execWrite o s
  | .erase o => Sys2Proof.Machine.execErase o s
  | .masserase o => Sys2Proof.Machine.execMasserase o s
  | .reserved cmd o => Sys2Proof.Machine.execReserved cmd o s
  -- frames on the bus (30_encoding.md R112)
  | .spiRstenRst => Sys2Proof.Machine.execSpiRstenRst s
  | .spiRsten => Sys2Proof.Machine.execSpiRsten s
  | .spiRst => Sys2Proof.Machine.execSpiRst s
  | .spiRdid => Sys2Proof.Machine.execSpiRdid s
  | .spiRdsr1 => Sys2Proof.Machine.execSpiRdsr1 s
  | .spiRdsr2 => Sys2Proof.Machine.execSpiRdsr2 s
  | .spiWrsr reg1 reg2 => Sys2Proof.Machine.execSpiWrsr reg1 reg2 s
  | .spiWren => Sys2Proof.Machine.execSpiWren s
  | .spiWrdi => Sys2Proof.Machine.execSpiWrdi s
  | .spiRead a n => Sys2Proof.Machine.execSpiRead a n s
  | .spiPp a data => Sys2Proof.Machine.execSpiPp a data s
  | .spiSe a => Sys2Proof.Machine.execSpiSe a s
  | .spiCe => Sys2Proof.Machine.execSpiCe s

end Sys2Proof.Machine
end

