-- ==== Sys2Proof/Machine/Fetch.lean ====
section
/-! DEFINITION. What the machine runs next: a Frame call on the bus (R145), else the request in
progress (R31), else the request on the port (R100), else nothing (R361). -/

namespace Sys2Proof.Machine

/-- What is run next, and the state it is run in. -/
inductive Fetched where
  /-- an instruction; an accepted request is taken off the port -/
  | run (i : Instr) (s : State)
  /-- IDLE or RESPOND with nothing offered -/
  | wait (s : State)
  /-- the bytes on the bus are no frame of the block -/
  | bad (e : DecodeError)
  deriving DecidableEq, Repr

/-- The next instruction. A request offered while BUSY stays on the port (R100, R340). -/
def fetch (s : State) : Fetched :=
  match s.bus with
  | some f =>
    match decodeFrame s.cfg.ops f with
    | .ok i => .run i s
    | .error e => .bad e
  | none =>
    match s.phase with
    | .busy => .run (decodeRequest s.req) s
    | .idle | .respond =>
      match s.offers with
      | w :: rest => .run (decodeRequest (Request.ofWord w)) { s with offers := rest }
      | [] => .wait s

/-- R360, R48: the controller's reset lands before what would be run next. A frame on the bus is cut:
it ends as its draw says (a failed segment is a cut, log 27), and then the controller is reset. -/
def resetStep (run : Instr → State → Res) (s : State) : Res :=
  match s.bus, fetch s with
  | some _, .run i t =>
    match run i t with
    | .next u => .next (controllerReset u)
    | .fault r => .fault r
    | .refused r => .refused r
  | some _, .wait _ | some _, .bad _ | none, .run _ _ | none, .wait _ | none, .bad _ =>
    .next (controllerReset s)

/-- Without a reset: the next instruction is run; with none the block waits. -/
def runStep (run : Instr → State → Res) (s : State) : Res :=
  match fetch s with
  | .run i t => run i t
  | .wait t => .next t
  | .bad e => .refused (.unknownFrame e)

/-- The state in which the instruction of a table word is the next to run: a request word is on the
port of a block that is ready, a frame has been called on a deselected bus. -/
def placeCode (c : Code) (s : State) : State :=
  match c with
  | .request w =>
    { s with
      phase := if s.reqReady then s.phase else .idle
      bus := none
      ret := none
      inputs := []
      offers := w :: s.offers }
  | .frame f => { s with cs := false, bus := some f, ret := none, inputs := [] }

end Sys2Proof.Machine
end

