-- ==== Sys2Proof/Machine/Step.lean ====
section
/-! DEFINITION. One step of the machine: what the outside does before it, then the next instruction,
or the controller's reset. -/

namespace Sys2Proof.Machine

/-- One step. -/
def step (s : State) : Host.Outcome State Fault Refusal :=
  if s.resetAsserted then resetStep exec s.applyInput else runStep exec s.applyInput

/-- `s` with the instruction of a table word next to be run (log 24, log 25): a request is offered on
the port, a frame is called on the bus. A word of no table width leaves `s` as it is. -/
def State.withFetchWord (s : State) (nbits w : Nat) : State :=
  match tableCode s.cfg.ops nbits w with
  | some c => placeCode c s
  | none => s

end Sys2Proof.Machine
end

