-- ==== Sys2Proof/Safety.lean ====
section
/-! DEFINITION. What a safe run is: the invariant every reachable state meets, the two fairness
assumptions (20_memory.md R81) in terms of runs, and the rows of the transition tables (R172, R206,
R250) as properties that statements name. -/

namespace Sys2Proof.Machine

/-! ## Memories and the chip -/

/-- Every listed address is below `n`. -/
def Memory.below (m : Memory) (n : Nat) : Bool := m.all (fun c => decide (c.1 < n))

/-- What always holds of the chip: the array is canonical and inside the device (R61), SR1rest holds
neither flag, and an operation is in progress exactly while WIP = 1 (R72, R78). -/
structure Chip.Ok (cfg : Config) (c : Chip) : Prop where
  arrayWf    : Memory.wf c.array = true
  arrayBelow : Memory.below c.array cfg.deviceSize = true
  rest       : c.sr1rest &&& (cfg.wipMask ||| cfg.welMask) = 0
  op         : c.op.isSome = c.wip

/-! ## The controller's position -/

/-- The last frame on the bus, with what it received and how it ended. -/
def lastFrame : List Event → Option (FrameCall × List Byte × FrameOutcome)
  | [] => none
  | .frame f rx o :: _ => some (f, rx, o)
  | .memRead _ _ :: t => lastFrame t
  | .memWrite _ _ :: t => lastFrame t

/-- No Frame call is under way. -/
def State.quiet (s : State) : Prop := s.bus = none ∧ s.ret = none

/-- The Frame call `f` has returned: it is the last frame recorded, and `ret` says how it ended. -/
def State.returned (s : State) (f : FrameCall) : Prop :=
  s.bus = none ∧
    ((s.ret = some true ∧ lastFrame s.trace = some (f, s.rx, .ok) ∧ s.rx.length = f.rxn) ∨
      (s.ret = some false ∧ ∃ o, o ≠ .ok ∧ lastFrame s.trace = some (f, s.rx, o)))

/-- The Frame call `f` is made and has not run. -/
def State.called (s : State) (f : FrameCall) : Prop := s.bus = some f ∧ s.ret = none

/-- The Frame call `f` is under way. -/
def State.inFrame (s : State) (f : FrameCall) : Prop := s.called f ∨ s.returned f

/-- R208: the last frame is the status read that showed the latch set. -/
def State.latchSeen (s : State) : Prop :=
  lastFrame s.trace = some (s.callRdsr1, [s.sr], .ok) ∧ isWriteEnabled s.cfg s.sr = true

/-- R86: the last frame is a status read that showed the chip idle. -/
def State.idleSeen (s : State) : Prop :=
  lastFrame s.trace = some (s.callRdsr1, [s.sr], .ok) ∧ isBusy s.cfg s.sr = false

/-- The frame of a mutating command: called right after the latch was seen set, or returned. -/
def State.inMutation (s : State) (f : FrameCall) : Prop := (s.called f ∧ s.latchSeen) ∨ s.returned f

/-- R172: a command of one frame. -/
def oneFrameAt (f : FrameCall) (s : State) : Prop :=
  match s.sphase with
  | .check => s.quiet
  | .main => s.inFrame f
  | .preWip | .welWren | .welRdsr | .postWip | .finish => False

/-- R161, R172: RESET. -/
def resetAt (s : State) : Prop :=
  match s.sphase with
  | .check => s.quiet
  | .main => (s.pos = 0 ∧ s.inFrame s.callReset) ∨
      (s.cfg.resetFraming = .split ∧ s.pos = 1 ∧ s.inFrame s.callRst)
  | .preWip | .welWren | .welRdsr | .postWip | .finish => False

/-- R206: WAITWIP. -/
def waitwipAt (s : State) : Prop :=
  match s.sphase with
  | .check => s.quiet
  | .preWip => s.inFrame s.callRdsr1
  | .welWren | .welRdsr | .main | .postWip | .finish => False

/-- R206: WRENW. -/
def wrenwAt (s : State) : Prop :=
  match s.sphase with
  | .check => s.quiet
  | .welWren => s.inFrame s.callWren
  | .welRdsr => s.inFrame s.callRdsr1
  | .preWip | .main | .postWip | .finish => False

/-- R172: WRSR. -/
def wrsrAt (s : State) : Prop :=
  match s.sphase with
  | .check => s.quiet
  | .welWren => s.inFrame s.callWren
  | .welRdsr => s.inFrame s.callRdsr1
  | .main => s.inMutation s.callWrsr
  | .preWip | .postWip | .finish => False

/-- R250: READ; with no call under way it writes the buffer. -/
def readAt (s : State) : Prop :=
  match s.sphase with
  | .check => s.quiet
  | .preWip => s.inFrame s.callRdsr1
  | .main => (s.called s.callRead ∧ s.idleSeen) ∨ s.returned s.callRead ∨
      (s.quiet ∧ s.rx.length = s.len.toNat)
  | .welWren | .welRdsr | .postWip | .finish => False

/-- R250: PP; past CHECK the chunk fits its page, and with no call under way the payload is read. -/
def ppAt (s : State) : Prop :=
  match s.sphase with
  | .check => s.quiet
  | .preWip => ppFits s.addr s.len = true ∧ s.inFrame s.callRdsr1
  | .welWren => ppFits s.addr s.len = true ∧ s.inFrame s.callWren
  | .welRdsr => ppFits s.addr s.len = true ∧
      (s.inFrame s.callRdsr1 ∨ (s.quiet ∧ s.latchSeen ∧ s.data.length ≤ s.len.toNat))
  | .main => ppFits s.addr s.len = true ∧ s.data.length = s.len.toNat ∧ s.inMutation s.callPp
  | .postWip | .finish => False

/-- R250: SE and CE, with the main frame `f` and what holds of the registers past CHECK. -/
def eraseAt (f : FrameCall) (past : Prop) (s : State) : Prop :=
  match s.sphase with
  | .check => s.quiet
  | .preWip => past ∧ s.inFrame s.callRdsr1
  | .welWren => past ∧ s.inFrame s.callWren
  | .welRdsr => past ∧ s.inFrame s.callRdsr1
  | .main => past ∧ s.inMutation f
  | .postWip => past ∧ s.inFrame s.callRdsr1
  | .finish => False

/-- R240: SE; past CHECK the address is the sector's. -/
def seAt (s : State) : Prop := eraseAt s.callSe (s.addr = sectorAddr s.sidx) s

/-- R245: CE. -/
def ceAt (s : State) : Prop := eraseAt s.callCe True s

/-- A command operation's sequencer at END with nothing under way. -/
def State.ended (s : State) : Prop := s.sphase = .finish ∧ s.quiet

/-- A direct request: its operands are as R104 loads them (`loaded`), and it is inside its command
operation, or at END before the response. -/
def directAt (loaded : Prop) (inside : State → Prop) (s : State) : Prop :=
  s.rphase = .none ∧ loaded ∧ (s.ended ∨ inside s)

/-- R104: the operands of READ and PP. -/
def State.transferLoaded (s : State) : Prop :=
  s.addr = s.req.a0 ∧ s.len = s.req.a1 ∧ s.off = s.req.boff

/-- R104: the operands of WRSR. -/
def State.statusLoaded (s : State) : Prop :=
  s.wsr1 = s.req.a0.extractLsb' 0 8 ∧ s.wsr2 = s.req.a1.extractLsb' 0 8

/-- R280: the operands of WRITE's chunk `i`. -/
def State.chunkLoaded (s : State) : Prop :=
  s.i < s.n ∧ s.addr = chunkStart s.req.a0 s.i ∧ s.off = chunkStart s.req.boff s.i ∧
    s.len = chunkLen s.req.a1 s.i s.n

/-- R290: the range registers of ERASE. -/
def State.eraseLoaded (s : State) : Prop :=
  s.base = sectorIndex s.req.a0 ∧ s.eidx = sectorIndex s.req.a1 ∧
    s.n = eraseCount s.cfg.eraseUnderflow s.base s.eidx

/-- R290: the sector of ERASE's iteration `i`. -/
def State.sectorLoaded (s : State) : Prop := s.i < s.n ∧ s.sidx = s.base + s.i

/-- R280, R290: a loop at its test: at CHECK before the first sub-command (R326), at END after each one. -/
def State.atLoopTest (s : State) : Prop :=
  s.atTest = true ∧ s.quiet ∧ s.i ≤ s.n ∧ (s.sphase = .finish ∨ (s.sphase = .check ∧ s.i = 0))

/-- The positions of a request in progress, by instruction (R172, R206, R250, R302). -/
def busyAt (i : Instr) (s : State) : Prop :=
  match i with
  | .reset _ => directAt True resetAt s
  | .rdid _ => directAt True (oneFrameAt s.callRdid) s
  | .rdsr1 _ => directAt True (oneFrameAt s.callRdsr1) s
  | .rdsr2 _ => directAt True (oneFrameAt s.callRdsr2) s
  | .wrsr _ => directAt s.statusLoaded wrsrAt s
  | .wren _ => directAt True (oneFrameAt s.callWren) s
  | .wrdi _ => directAt True (oneFrameAt s.callWrdi) s
  | .read _ => directAt s.transferLoaded readAt s
  | .pp _ => directAt s.transferLoaded ppAt s
  | .se _ => directAt (s.sidx = s.req.a0) seAt s
  | .ce _ => directAt True ceAt s
  | .waitwip _ => directAt True waitwipAt s
  | .wrenw _ => directAt True wrenwAt s
  | .init _ =>
    (s.rphase = .initReset ∧ resetAt s) ∨ (s.rphase = .initId ∧ oneFrameAt s.callRdid s) ∨
      (s.rphase = .initCmp ∧ s.ended)
  | .write _ =>
    s.n = chunkCount s.req.a1 ∧
      ((s.rphase = .none ∧ s.ended ∧ s.i = s.n) ∨
        (s.rphase = .writeLoop ∧ (s.atLoopTest ∨ (s.atTest = false ∧ ppAt s ∧ s.chunkLoaded))))
  | .erase _ =>
    s.eraseLoaded ∧
      ((s.rphase = .none ∧ s.ended ∧ s.i = s.n) ∨
        (s.rphase = .eraseLoop ∧ (s.atLoopTest ∨ (s.atTest = false ∧ seAt s ∧ s.sectorLoaded))))
  | .masserase _ => (s.rphase = .none ∧ s.ended) ∨ (s.rphase = .mass ∧ ceAt s)
  | .reserved _ _ | .spiRstenRst | .spiRsten | .spiRst | .spiRdid | .spiRdsr1 | .spiRdsr2
  | .spiWrsr _ _ | .spiWren | .spiWrdi | .spiRead _ _ | .spiPp _ _ | .spiSe _ | .spiCe => False

/-- The controller's control state is one that a run from reset can be in. -/
def State.controlOk (s : State) : Prop :=
  match s.phase with
  | .idle => s.rspValid = false ∧ s.rphase = .none ∧ s.ended
  | .respond => s.rspValid = true ∧ s.rphase = .none ∧ s.ended
  | .busy => s.rspValid = false ∧ busyAt (decodeRequest s.req) s

/-- The invariant: chip-select is released between steps (R147), the control state is one that a
transition row leads to, the result code is one of R321, both memories are canonical and inside
their spaces, the chip's status bits are consistent. -/
structure State.Inv (s : State) : Prop where
  cs          : s.cs = false
  control     : s.controlOk
  result      : s.result.toNat ≤ 5
  chip        : s.chip.Ok s.cfg
  bufferWf    : Memory.wf s.buffer = true
  bufferBelow : Memory.below s.buffer (2 ^ 32) = true

/-! ## Runs and fairness (R81) -/

/-- An infinite run. -/
def IsRun (ρ : Nat → State) : Prop := ∀ m, step (ρ m) = .next (ρ (m + 1))

/-- Step `m` of a run is a status read. -/
def statusReadAt (ρ : Nat → State) (m : Nat) : Prop := (ρ m).bus = some (ρ m).callRdsr1

/-- Step `m` of a run is a WREN frame sent while WIP = 0. -/
def wrenIdleAt (ρ : Nat → State) (m : Nat) : Prop :=
  (ρ m).bus = some (ρ m).callWren ∧ (ρ (m + 1)).chip.wip = false

/-- R81 (F1): WIP does not stay 1 across infinitely many consecutive status reads. -/
def FairWip (ρ : Nat → State) : Prop :=
  (∀ k, ∃ m, k ≤ m ∧ statusReadAt ρ m) →
    ∀ k, ∃ m, k ≤ m ∧ statusReadAt ρ m ∧ (ρ (m + 1)).chip.wip = false

/-- R81 (F2): of infinitely many WREN frames sent while WIP = 0, not all are dropped from any point
on: some later one is accepted. -/
def FairWren (ρ : Nat → State) : Prop :=
  (∀ k, ∃ m, k ≤ m ∧ wrenIdleAt ρ m) →
    ∀ k, ∃ m, k ≤ m ∧ wrenIdleAt ρ m ∧ (ρ (m + 1)).chip.wel = true

/-- `n` steps. -/
def steps : Nat → State → Res
  | 0, s => .next s
  | n + 1, s =>
    match step s with
    | .next t => steps n t
    | .fault f => .fault f
    | .refused r => .refused r

/-- The control registers as a controller reset leaves them (R360). -/
def State.controlReset (s : State) : Prop :=
  s.phase = .idle ∧ s.sphase = .finish ∧ s.rphase = .none ∧ s.cs = false ∧ s.reqReady = true ∧
    s.rspValid = false ∧ s.quiet

/-- Before this step a request is on the port of a ready block, nothing is on the bus, and the
outside does nothing. -/
def State.offered (s : State) (r : Request) (rest : List (BitVec 104)) : Prop :=
  s.reqReady = true ∧ s.bus = none ∧ s.cs = false ∧ s.inputs = [] ∧ s.offers = r.word :: rest

/-- Every segment of a frame succeeds. -/
def cleanDraw (d : Draw) : Prop := d.hdrOk = true ∧ d.payOk = true

/-- The request ended with OK, and nothing was accepted since. -/
def State.endedOk (s : State) (rest : List (BitVec 104)) : Prop :=
  s.phase = .respond ∧ s.rspValid = true ∧ s.result = 0x00 ∧ s.cs = false ∧ s.quiet ∧ s.offers = rest

/-! ## The fields a command reads (R104) -/

/-- The request with every field that its command ignores replaced by 0 (R103 "—", R104). -/
def Request.used (r : Request) : Request :=
  match decodeRequest r with
  | .read _ | .pp _ | .write _ => r
  | .erase _ => { r with boff := 0 }
  | .se _ => { r with a1 := 0, boff := 0 }
  | .wrsr _ => { cmd := r.cmd, a0 := r.a0 &&& 0xFF, a1 := r.a1 &&& 0xFF, boff := 0 }
  | .reset _ | .rdid _ | .rdsr1 _ | .rdsr2 _ | .wren _ | .wrdi _ | .ce _ | .waitwip _ | .wrenw _
  | .init _ | .masserase _ | .reserved _ _ => { cmd := r.cmd, a0 := 0, a1 := 0, boff := 0 }
  | .spiRstenRst | .spiRsten | .spiRst | .spiRdid | .spiRdsr1 | .spiRdsr2 | .spiWrsr _ _ | .spiWren
  | .spiWrdi | .spiRead _ _ | .spiPp _ _ | .spiSe _ | .spiCe => r

/-- The state with the ignored fields of the latched request and of every offered one replaced. -/
def State.used (s : State) : State :=
  { s with
    req := Request.used s.req
    offers := s.offers.map (fun w => (Request.used (Request.ofWord w)).word) }

/-! ## Rows of the transition tables -/

/-- The loop test of a WRITE or ERASE is what the request in progress does next. -/
def State.testing (s : State) : Bool := s.atTest && (s.rphase == .writeLoop || s.rphase == .eraseLoop)

/-- A request is in progress, at `rphase` r and `sphase` p of a command operation (a loop at its test is
in none). -/
def State.inRow (s : State) (r : RPhase) (p : SPhase) : Prop :=
  s.phase = .busy ∧ s.rphase = r ∧ s.sphase = p ∧ s.testing = false

/-- A WRITE or ERASE is in progress, at the test of its loop `r`. -/
def State.inTest (s : State) (r : RPhase) : Prop :=
  s.phase = .busy ∧ s.rphase = r ∧ s.atTest = true

/-- The status read of a wait has returned the byte `b`. -/
def State.gotByte (s : State) (b : Byte) : Prop := s.ret = some true ∧ s.rx = [b]

/-- A limit that `count` has not reached (R16, R200, R203). -/
def underLimit (limit : Option Nat) (count : Word) : Prop := ∀ l, limit = some l → count.toNat < l

/-- A finite limit that `count` has reached. -/
def atLimit (limit : Option Nat) (count : Word) : Prop := ∃ l, limit = some l ∧ l ≤ count.toNat

/-- From phase `p`, in one step and without a frame having to return, the frame `call` is called in
phase `q`, after `act`. -/
def CallRow (i : Instr) (r : RPhase) (p q : SPhase) (act : State → State)
    (call : State → FrameCall) : Prop :=
  ∀ s, s.inRow r p →
    exec i s = .next { act s with sphase := q, bus := some (call (act s)), ret := none }

/-- "frame OK": the frame of phase `p` returned ok, and the row leads to `after`. -/
def ReturnRow (i : Instr) (r : RPhase) (p : SPhase) (after : State → State) : Prop :=
  ∀ s, s.inRow r p → s.ret = some true → exec i s = .next (after { s with ret := none })

/-- "failed segment": the request ends with ERR_BUS (R144, R322), and no further frame is called. -/
def FailRow (i : Instr) (r : RPhase) (p : SPhase) : Prop :=
  ∀ s, s.inRow r p → s.ret = some false →
    exec i s = .next { s with cs := false, sphase := .finish, rphase := .none, result := 0x01,
                              rspValid := true, phase := .respond, bus := none, ret := none }

/-- A wait begins from phase `p`: its counter is 0 and its first status read is called. A limit of 0
is a configuration error (R200). -/
structure WaitEntry (i : Instr) (r : RPhase) (p q : SPhase) (act : State → State) : Prop where
  start : ∀ s, s.inRow r p → s.cfg.wipLimit ≠ some 0 →
    exec i s = .next { act s with polls := 0, sphase := q, bus := some s.callRdsr1, ret := none }
  zero : ∀ s, s.inRow r p → s.cfg.wipLimit = some 0 → exec i s = .fault .zeroLimit

/-- The rows of WAITWIP in phase `p` (R200, R206). `pre` is what `after` needs to be reached. -/
structure PollRows (i : Instr) (r : RPhase) (p : SPhase) (pre : State → Prop)
    (after : State → State) : Prop where
  /-- not busy: the wait is over -/
  idle : ∀ s b, s.inRow r p → s.gotByte b → b &&& s.cfg.wipMask = 0 → pre s →
    exec i s = .next (after { s with ret := none, sr := b, polls := s.polls + 1 })
  /-- busy, and no limit reached: the status is read again -/
  again : ∀ s b, s.inRow r p → s.gotByte b → b &&& s.cfg.wipMask ≠ 0 →
    underLimit s.cfg.wipLimit (s.polls + 1) →
    exec i s = .next { s with ret := none, sr := b, polls := s.polls + 1, bus := some s.callRdsr1 }
  /-- busy, and the limit reached: ERR_TIMEOUT -/
  limit : ∀ s b, s.inRow r p → s.gotByte b → b &&& s.cfg.wipMask ≠ 0 →
    atLimit s.cfg.wipLimit (s.polls + 1) →
    exec i s = .next { s with sr := b, polls := s.polls + 1, cs := false, sphase := .finish,
                              rphase := .none, result := 0x04, rspValid := true, phase := .respond,
                              bus := none, ret := none }
  /-- a failed status read is ERR_BUS even where it would reach the limit (R325) -/
  fail : FailRow i r p

/-- WRENW begins: its counter is 0 and its first write enable is called (R203). -/
def enterLatch (s : State) : State :=
  { s with tries := 0, sphase := .welWren, bus := some s.callWren, ret := none }

/-- The rows of WRENW (R203, R206). -/
structure LatchRows (i : Instr) (r : RPhase) (after : State → State) : Prop where
  /-- the write enable was sent: the status is read -/
  sent : ReturnRow i r .welWren (fun t => { t with sphase := .welRdsr, bus := some t.callRdsr1 })
  /-- the latch seen set -/
  set : ∀ s b, s.inRow r .welRdsr → s.gotByte b → b &&& s.cfg.welMask ≠ 0 →
    exec i s = .next (after { s with ret := none, sr := b, tries := s.tries + 1 })
  /-- not set, and no limit reached: the write enable is sent again -/
  again : ∀ s b, s.inRow r .welRdsr → s.gotByte b → b &&& s.cfg.welMask = 0 →
    underLimit s.cfg.welLimit (s.tries + 1) →
    exec i s = .next { s with ret := none, sr := b, tries := s.tries + 1, sphase := .welWren,
                              bus := some s.callWren }
  /-- not set, and the limit reached: ERR_TIMEOUT -/
  limit : ∀ s b, s.inRow r .welRdsr → s.gotByte b → b &&& s.cfg.welMask = 0 →
    atLimit s.cfg.welLimit (s.tries + 1) →
    exec i s = .next { s with sr := b, tries := s.tries + 1, cs := false, sphase := .finish,
                              rphase := .none, result := 0x04, rspValid := true, phase := .respond,
                              bus := none, ret := none }
  failWren : FailRow i r .welWren
  failRdsr : FailRow i r .welRdsr

/-- The rows of PP as a direct request or as WRITE's sub-command (R235, R250); `done` is the return. -/
structure ProgramRows (i : Instr) (r : RPhase) (done : State → State) : Prop where
  /-- the chunk fits its page: the wait begins -/
  fits : ∀ s, s.inRow r .check → ppFits s.addr s.len = true → s.cfg.wipLimit ≠ some 0 →
    exec i s = .next { s with polls := 0, sphase := .preWip, bus := some s.callRdsr1, ret := none }
  /-- it does not: ERR_PARAM, with no frame and no buffer access -/
  straddles : ∀ s, s.inRow r .check → ppFits s.addr s.len = false →
    exec i s = .next { s with cs := false, sphase := .finish, rphase := .none, result := 0x03,
                              rspValid := true, phase := .respond, bus := none, ret := none }
  zero : ∀ s, s.inRow r .check → ppFits s.addr s.len = true → s.cfg.wipLimit = some 0 →
    exec i s = .fault .zeroLimit
  wait : PollRows i r .preWip (fun s => s.cfg.welLimit ≠ some 0) enterLatch
  latch : LatchRows i r (fun t => { t with data := [] })
  /-- payload byte `k` is read from the buffer at `off +32 k` -/
  gather : ∀ s, s.inRow r .welRdsr → s.ret = none → s.data.length < s.len.toNat →
    s.admitsRead (byteOffset s.off s.data.length) = true →
    exec i s = .next { s with
      data := s.data ++ [s.buffer.read (byteOffset s.off s.data.length).toNat]
      trace := .memRead (byteOffset s.off s.data.length)
        (s.buffer.read (byteOffset s.off s.data.length).toNat) :: s.trace }
  /-- a byte that the buffer does not admit: no step (R64) -/
  stuck : ∀ s, s.inRow r .welRdsr → s.ret = none → s.data.length < s.len.toNat →
    s.admitsRead (byteOffset s.off s.data.length) = false → exec i s = .fault .stuckBufferRead
  /-- the payload is read: the main frame is called -/
  main : ∀ s, s.inRow r .welRdsr → s.ret = none → s.len.toNat ≤ s.data.length →
    exec i s = .next { s with sphase := .main, bus := some s.callPp }
  ended : ReturnRow i r .main done
  fail : FailRow i r .main

/-- The rows of SE and CE (R240, R245, R250), with the main frame `call` and the address step `act`. -/
structure EraseRows (i : Instr) (r : RPhase) (act : State → State) (call : State → FrameCall)
    (done : State → State) : Prop where
  enter : WaitEntry i r .check .preWip act
  wait : PollRows i r .preWip (fun s => s.cfg.welLimit ≠ some 0) enterLatch
  latch : LatchRows i r (fun t => { t with sphase := .main, bus := some (call t) })
  post : ∀ s, s.inRow r .main → s.ret = some true → s.cfg.wipLimit ≠ some 0 →
    exec i s = .next { s with polls := 0, sphase := .postWip, bus := some s.callRdsr1, ret := none }
  fail : FailRow i r .main
  postWait : PollRows i r .postWip (fun _ => True) done

/-- The return of a direct request's command operation: END. -/
def toEnd (s : State) : State := { s with sphase := .finish }

/-- The return of a loop's sub-command: END, `i ← i + 1`, and the loop test is next. -/
def toNextIteration (s : State) : State :=
  { s with sphase := .finish, i := s.i + 1, atTest := true }

/-- `s` with the control registers of `t`: what every request may change. -/
def State.withControlOf (s t : State) : State :=
  { s with phase := t.phase, sphase := t.sphase, rphase := t.rphase, req := t.req,
           rspValid := t.rspValid, result := t.result, cs := t.cs, bus := t.bus, ret := t.ret }

/-- The next step of a READ writes payload byte `pos` to the buffer. -/
def State.storing (s : State) : Prop :=
  s.inRow .none .main ∧ s.ret = none ∧ s.pos < s.len.toNat

end Sys2Proof.Machine
end

