-- ==== Sys2Proof/Certificates/Slice0/Obligations.lean ====
section
/-! DEFINITION. The statements for the provers, listed in OBLIGATIONS.json. -/

open Sys2Proof Sys2Proof.Machine

/-! ## Reset -/

/-- R361, R47: right after reset the control registers hold the values R47 gives; the block waits in
IDLE and sends nothing on its own. -/
def Obligations.BlockWaitsAfterReset : Prop :=
  State.reset.controlReset ∧ step State.reset = .next State.reset ∧
  ∀ s : State, s.phase = .idle → s.bus = none → s.offers = [] → s.resetAsserted = false →
    step s = .next s.applyInput

/-- The invariant holds right after reset. -/
def Obligations.ResetMeetsInvariant : Prop :=
  State.reset.Inv

/-- R360, R48: an asserted reset abandons the request and touches neither the chip nor what was
recorded; a frame on the bus ends as its own step leaves it (log 27). The last clause is the model's
own choice for the registers R47 calls unspecified (log 4). -/
def Obligations.AssertedResetAbandonsRequest : Prop :=
  ∀ s : State, s.resetAsserted = true →
    (s.bus = none → ∃ t, step s = .next t ∧ t.controlReset ∧ t.chip = s.chip ∧ t.cfg = s.cfg ∧
      t.trace = s.trace ∧ t.offers = s.offers ∧ t.buffer = s.applyInput.buffer ∧
      t.draws = s.draws) ∧
    (∀ f i u, s.bus = some f → decodeFrame s.cfg.ops f = .ok i → exec i s.applyInput = .next u →
      ∃ t, step s = .next t ∧ t.controlReset ∧ t.chip = u.chip ∧ t.cfg = u.cfg ∧
        t.trace = u.trace ∧ t.offers = u.offers ∧ t.buffer = u.buffer) ∧
    (∀ t, s.bus = none → step s = .next t →
      t.req = State.reset.req ∧ t.result = 0 ∧ t.rspSr = 0 ∧ t.rspId = State.reset.rspId ∧
      t.sr = 0 ∧ t.id = State.reset.id)

/-! ## Encoding -/

/-- R101, R103, R110, R112: words written out from the spec's encodings. -/
def Obligations.SpecWordsDecode : Prop :=
  decodeTableWord 104 0x01000000000000000000000000 = some (.reset { a0 := 0, a1 := 0, boff := 0 }) ∧
  decodeTableWord 104 0x050000007C0000000200000000 =
    some (.wrsr { a0 := 0x7C, a1 := 2, boff := 0 }) ∧
  decodeTableWord 104 0x08000123450000001000000080 =
    some (.read { a0 := 0x012345, a1 := 16, boff := 0x80 }) ∧
  decodeTableWord 104 0x12000000000000200000000000 =
    some (.erase { a0 := 0, a1 := 0x2000, boff := 0 }) ∧
  decodeTableWord 104 0x0E000000000000000000000000 =
    some (.reserved 0x0E { a0 := 0, a1 := 0, boff := 0 }) ∧
  decodeTableWord 16 0x6699 = some .spiRstenRst ∧
  decodeTableWord 8 0x9F = some .spiRdid ∧
  decodeTableWord 8 0xC7 = some .spiCe ∧
  decodeFrame Opcodes.default { hdr := [0x03, 0x01, 0x23, 0x45], tx := [], rxn := 1 } =
    .ok (.spiRead 0x012345 1)

/-- Decode inverts encode, for every well-formed instruction and every choice of distinct opcodes. -/
def Obligations.DecodeInvertsEncode : Prop :=
  ∀ (ops : Opcodes) (i : Instr), ops.wf → i.wf = true → decode ops (encode ops i) = .ok i

/-- Encode inverts decode: every request word, and every frame the decoder reads, has one meaning. -/
def Obligations.EncodeInvertsDecode : Prop :=
  (∀ (ops : Opcodes) (w : BitVec 104) (i : Instr), decode ops (.request w) = .ok i →
    i.isRequest = true ∧ i.wf = true ∧ encode ops i = .request w) ∧
  (∀ (ops : Opcodes) (f : FrameCall) (i : Instr), decodeFrame ops f = .ok i →
    i.isRequest = false ∧ ∃ g, encode ops i = .frame g ∧ g.bytes = f.bytes ∧ g.rxn = f.rxn)

/-- R101: the fields of the 104-bit request word, none of them sign-extended, scaled or shifted. -/
def Obligations.RequestWordFields : Prop :=
  ∀ w : BitVec 104,
    (Request.ofWord w).cmd.toNat = w.toNat / 2 ^ 96 ∧
    (Request.ofWord w).a0.toNat = w.toNat / 2 ^ 64 % 2 ^ 32 ∧
    (Request.ofWord w).a1.toNat = w.toNat / 2 ^ 32 % 2 ^ 32 ∧
    (Request.ofWord w).boff.toNat = w.toNat % 2 ^ 32 ∧
    (Request.ofWord w).word = w

/-! ## The step and acceptance -/

/-- A step runs the decoded instruction: the frame on the bus, else the request in progress, else the
request on the port, each in the state after the outside's edits. -/
def Obligations.StepRunsDecodedInstruction : Prop :=
  ∀ s : State, s.resetAsserted = false →
    (∀ f i, s.bus = some f → decodeFrame s.cfg.ops f = .ok i → step s = exec i s.applyInput) ∧
    (∀ f e, s.bus = some f → decodeFrame s.cfg.ops f = .error e →
      step s = .refused (.unknownFrame e)) ∧
    (s.bus = none → s.phase = .busy → step s = exec (decodeRequest s.req) s.applyInput) ∧
    (∀ w rest, s.bus = none → s.reqReady = true → s.offers = w :: rest →
      step s = exec (decodeRequest (Request.ofWord w)) { s.applyInput with offers := rest }) ∧
    (s.inputs = [] → s.applyInput = s) ∧
    (∀ x xs, s.inputs = x :: xs →
      s.applyInput = { s with buffer := applyEdits s.buffer x.edits, inputs := xs })

/-- R41: ready exactly in IDLE and RESPOND; while not ready an offered request waits on the port and
the request in progress keeps its fields (R34). -/
def Obligations.RequestsAreHeldWhileBusy : Prop :=
  (∀ s : State, s.reqReady = true ↔ s.phase = .idle ∨ s.phase = .respond) ∧
  (∀ s t : State, s.reqReady = false → s.resetAsserted = false → step s = .next t →
    t.offers = s.offers ∧ t.req = s.req)

/-- R100: acceptance takes one request off the port, latches it, and starts the operation its code
selects, from CHECK (R326); a reserved code ends in the same step (R105, stated on its own). -/
def Obligations.AcceptanceStartsTheOperation : Prop :=
  ∀ (s : State) (w : BitVec 104) (rest : List (BitVec 104)), s.reqReady = true → s.bus = none →
    s.offers = w :: rest → s.resetAsserted = false →
    ∃ t, step s = .next t ∧ t.req = Request.ofWord w ∧ t.offers = rest ∧ t.trace = s.trace ∧
      t.chip = s.chip ∧
      (reservedCode (Request.ofWord w).cmd = false →
        t.rspValid = false ∧ t.phase = .busy ∧ t.reqReady = false ∧ t.sphase = .check) ∧
      (reservedCode (Request.ofWord w).cmd = false → (Request.ofWord w).cmd.toNat < 0x10 →
        t.rphase = .none) ∧
      ((Request.ofWord w).cmd = 0x10 → t.rphase = .initReset) ∧
      ((Request.ofWord w).cmd = 0x11 → t.rphase = .writeLoop ∧ t.atTest = true) ∧
      ((Request.ofWord w).cmd = 0x12 → t.rphase = .eraseLoop ∧ t.atTest = true) ∧
      ((Request.ofWord w).cmd = 0x13 → t.rphase = .mass)

/-- R104, R280, R290, R291: the registers that acceptance loads, for every command; `atTest` is the
model's own field (log 28): the loop test is next. -/
def Obligations.OperandsAreLoaded : Prop :=
  ∀ (s : State) (o : Operands), s.reqReady = true →
    (∀ p ∈ [((0x01 : Byte), Instr.reset o), (0x02, .rdid o), (0x03, .rdsr1 o), (0x04, .rdsr2 o),
        (0x06, .wren o), (0x07, .wrdi o), (0x0B, .ce o), (0x0C, .waitwip o), (0x0D, .wrenw o)],
      exec p.2 s = .next { s with
        req := { cmd := p.1, a0 := o.a0, a1 := o.a1, boff := o.boff }
        rspValid := false, phase := .busy, sphase := .check, rphase := .none }) ∧
    exec (.wrsr o) s = .next { s with
      req := { cmd := 0x05, a0 := o.a0, a1 := o.a1, boff := o.boff }
      rspValid := false, phase := .busy, sphase := .check, rphase := .none
      wsr1 := BitVec.ofNat 8 o.a0.toNat, wsr2 := BitVec.ofNat 8 o.a1.toNat } ∧
    (∀ p ∈ [((0x08 : Byte), Instr.read o), (0x09, .pp o)],
      exec p.2 s = .next { s with
        req := { cmd := p.1, a0 := o.a0, a1 := o.a1, boff := o.boff }
        rspValid := false, phase := .busy, sphase := .check, rphase := .none
        addr := o.a0, len := o.a1, off := o.boff }) ∧
    exec (.se o) s = .next { s with
      req := { cmd := 0x0A, a0 := o.a0, a1 := o.a1, boff := o.boff }
      rspValid := false, phase := .busy, sphase := .check, rphase := .none
      sidx := o.a0 } ∧
    exec (.init o) s = .next { s with
      req := { cmd := 0x10, a0 := o.a0, a1 := o.a1, boff := o.boff }
      rspValid := false, phase := .busy, sphase := .check, rphase := .initReset } ∧
    exec (.write o) s = .next { s with
      req := { cmd := 0x11, a0 := o.a0, a1 := o.a1, boff := o.boff }
      rspValid := false, phase := .busy, sphase := .check, rphase := .writeLoop
      atTest := true, i := 0, n := BitVec.ofNat 32 ((o.a1.toNat + 255) / 256) } ∧
    (∃ n, exec (.erase o) s = .next { s with
        req := { cmd := 0x12, a0 := o.a0, a1 := o.a1, boff := o.boff }
        rspValid := false, phase := .busy, sphase := .check, rphase := .eraseLoop, atTest := true
        base := BitVec.ofNat 32 (o.a0.toNat / 4096), eidx := BitVec.ofNat 32 (o.a1.toNat / 4096)
        i := 0, n := n } ∧
      n = eraseCount s.cfg.eraseUnderflow (BitVec.ofNat 32 (o.a0.toNat / 4096))
        (BitVec.ofNat 32 (o.a1.toNat / 4096)) ∧
      (o.a0.toNat / 4096 ≤ o.a1.toNat / 4096 →
        n.toNat = o.a1.toNat / 4096 - o.a0.toNat / 4096) ∧
      (o.a1.toNat / 4096 < o.a0.toNat / 4096 → s.cfg.eraseUnderflow = .wrap →
        n.toNat = 2 ^ 32 - (o.a0.toNat / 4096 - o.a1.toNat / 4096)) ∧
      (o.a1.toNat / 4096 < o.a0.toNat / 4096 → s.cfg.eraseUnderflow = .empty → n = 0)) ∧
    exec (.masserase o) s = .next { s with
      req := { cmd := 0x13, a0 := o.a0, a1 := o.a1, boff := o.boff }
      rspValid := false, phase := .busy, sphase := .check, rphase := .mass }

/-- R104: a field that R103 marks "—" changes no outcome, nor do WRSR's bits 31..8: in every state,
a step of the state with those fields of the latched and the offered requests replaced by 0 is the
step of the state itself, up to those fields. -/
def Obligations.IgnoredFieldsChangeNothing : Prop :=
  ∀ s : State,
    (∀ t, step s = .next t → step s.used = .next t.used) ∧
    (∀ f, step s = .fault f → step s.used = .fault f) ∧
    (∀ r, step s = .refused r → step s.used = .refused r)

/-- R105: the reserved codes, and what a request with one does: in the acceptance step, ERR_CMD. -/
def Obligations.ReservedCodesEndWithErrCmd : Prop :=
  (∀ c : Byte, reservedCode c = true ↔
    c = 0x00 ∨ c = 0x0E ∨ c = 0x0F ∨ ∃ k, 4 ≤ k ∧ c.toNat = 0x10 + k) ∧
  (∀ (c : Byte) (o : Operands), reservedCode c = true ↔
    decodeRequest { cmd := c, a0 := o.a0, a1 := o.a1, boff := o.boff } = .reserved c o) ∧
  (∀ (c : Byte) (o : Operands) (s : State), reservedCode c = true → s.reqReady = true →
    exec (.reserved c o) s = .next { s with
      req := { cmd := c, a0 := o.a0, a1 := o.a1, boff := o.boff }
      result := 0x05, rspValid := true, phase := .respond, sphase := .finish, rphase := .none
      cs := false, bus := none, ret := none })

/-! ## The commands, row by row -/

/-- R161, R172: RESET as a direct request and as INIT's first sub-command: one frame under SINGLE,
two under SPLIT, and no second frame after a failed first. That INIT goes on to RDID's CHECK in the step
that ends RESET is the model's choice (log 37). -/
def Obligations.ResetCommandRows : Prop :=
  ∀ (o : Operands) (p : Instr × RPhase × (State → State)),
    p ∈ [(Instr.reset o, RPhase.none, toEnd),
         (.init o, .initReset, fun t => { t with rphase := .initId, sphase := .check })] →
    CallRow p.1 p.2.1 .check .main (fun s => { s with pos := 0 }) State.callReset ∧
    FailRow p.1 p.2.1 .main ∧
    (∀ s : State, s.inRow p.2.1 .main → s.ret = some true → s.cfg.resetFraming = .single →
      exec p.1 s = .next (p.2.2 { s with ret := none })) ∧
    (∀ s : State, s.inRow p.2.1 .main → s.ret = some true → s.cfg.resetFraming = .split →
      s.pos = 0 → exec p.1 s = .next { s with pos := 1, bus := some s.callRst, ret := none }) ∧
    (∀ s : State, s.inRow p.2.1 .main → s.ret = some true → s.cfg.resetFraming = .split →
      s.pos ≠ 0 → exec p.1 s = .next (p.2.2 { s with ret := none }))

/-- R163, R165, R166, R170, R171, R172: the commands of one frame, RDID as INIT's sub-command too. That
RDID's END and INIT_CMP are one step in INIT is the model's choice (log 37). -/
def Obligations.OneFrameCommandRows : Prop :=
  ∀ o : Operands,
    (∀ p ∈ [(Instr.rdid o, RPhase.none, State.callRdid), (.rdsr1 o, .none, State.callRdsr1),
        (.rdsr2 o, .none, State.callRdsr2), (.wren o, .none, State.callWren),
        (.wrdi o, .none, State.callWrdi), (.init o, .initId, State.callRdid)],
      CallRow p.1 p.2.1 .check .main (fun s => s) p.2.2 ∧ FailRow p.1 p.2.1 .main) ∧
    (∀ (s : State) (m t c : Byte), s.inRow .none .main → s.ret = some true → s.rx = [m, t, c] →
      exec (.rdid o) s = .next { s with
        id := { mfr := m, type := t, cap := c }, sphase := .finish, ret := none }) ∧
    (∀ (s : State) (m t c : Byte), s.inRow .initId .main → s.ret = some true → s.rx = [m, t, c] →
      exec (.init o) s = .next { s with
        id := { mfr := m, type := t, cap := c }, sphase := .finish, rphase := .initCmp
        ret := none }) ∧
    (∀ (s : State) (b : Byte), s.inRow .none .main → s.gotByte b →
      exec (.rdsr1 o) s = .next { s with sr := b, sphase := .finish, ret := none }) ∧
    ReturnRow (.rdsr2 o) .none .main toEnd ∧
    ReturnRow (.wren o) .none .main toEnd ∧
    ReturnRow (.wrdi o) .none .main toEnd

/-- R168, R172: WRSR is WRENW and then its frame, with no wait. That a retry limit of 0 is the fault
zeroLimit is U5's "0 is a configuration error: fault", taken where the loop begins (log 21). -/
def Obligations.StatusWriteRows : Prop :=
  ∀ o : Operands,
    (∀ s : State, s.inRow .none .check → s.cfg.welLimit ≠ some 0 →
      exec (.wrsr o) s = .next (enterLatch s)) ∧
    (∀ s : State, s.inRow .none .check → s.cfg.welLimit = some 0 →
      exec (.wrsr o) s = .fault .zeroLimit) ∧
    LatchRows (.wrsr o) .none (fun t => { t with sphase := .main, bus := some t.callWrsr }) ∧
    ReturnRow (.wrsr o) .none .main toEnd ∧
    FailRow (.wrsr o) .none .main

/-- R200, R206, R207: WAITWIP as a direct request. That the "configuration error" of R200, a poll
limit of 0, is the fault zeroLimit is log 21. -/
def Obligations.WaitwipRows : Prop :=
  ∀ o : Operands,
    WaitEntry (.waitwip o) .none .check .preWip (fun s => s) ∧
    PollRows (.waitwip o) .none .preWip (fun _ => True) toEnd

/-- R203, R206, R207: WRENW as a direct request. That a retry limit of 0 is the fault zeroLimit is
U5's "0 is a configuration error: fault", taken where the loop begins (log 21). -/
def Obligations.WrenwRows : Prop :=
  ∀ o : Operands,
    (∀ s : State, s.inRow .none .check → s.cfg.welLimit ≠ some 0 →
      exec (.wrenw o) s = .next (enterLatch s)) ∧
    (∀ s : State, s.inRow .none .check → s.cfg.welLimit = some 0 →
      exec (.wrenw o) s = .fault .zeroLimit) ∧
    LatchRows (.wrenw o) .none toEnd

/-- R230, R250: READ: wait, the frame, then one buffer byte a step; a byte the buffer does not admit
is stuck (R64, log 20); a poll limit of 0 is the fault zeroLimit (U5, log 21). -/
def Obligations.ReadRows : Prop :=
  ∀ o : Operands,
    WaitEntry (.read o) .none .check .preWip (fun s => s) ∧
    PollRows (.read o) .none .preWip (fun _ => True)
      (fun t => { t with sphase := .main, bus := some t.callRead }) ∧
    FailRow (.read o) .none .main ∧
    ReturnRow (.read o) .none .main (fun t => { t with pos := 0 }) ∧
    (∀ (s : State) (v : Byte), s.storing → s.rx[s.pos]? = some v → Memory.wf s.buffer = true →
      s.admitsWrite (byteOffset s.off s.pos) = true →
      ∃ t, exec (.read o) s = .next t ∧
        t = { s with buffer := t.buffer, pos := s.pos + 1
                     trace := .memWrite (byteOffset s.off s.pos) v :: s.trace } ∧
        t.buffer.read (byteOffset s.off s.pos).toNat = v ∧
        ∀ a, a ≠ (byteOffset s.off s.pos).toNat → t.buffer.read a = s.buffer.read a) ∧
    (∀ s : State, s.storing → s.admitsWrite (byteOffset s.off s.pos) = false →
      exec (.read o) s = .fault .stuckBufferWrite) ∧
    (∀ s : State, s.inRow .none .main → s.ret = none → s.len.toNat ≤ s.pos →
      exec (.read o) s = .next (toEnd s))

/-- R235, R236, R250: PP as a direct request and as WRITE's sub-command. A byte that the buffer does
not admit is stuck (R64, log 20); a poll limit of 0 is the fault zeroLimit (U5, log 21). -/
def Obligations.PageProgramRows : Prop :=
  ∀ o : Operands,
    ProgramRows (.pp o) .none toEnd ∧ ProgramRows (.write o) .writeLoop toNextIteration

/-- R240, R250: SE as a direct request and as ERASE's sub-command; a poll limit of 0 is the fault
zeroLimit (U5, log 21). -/
def Obligations.SectorEraseRows : Prop :=
  ∀ o : Operands,
    EraseRows (.se o) .none (fun s => { s with addr := s.sidx * 4096 }) State.callSe toEnd ∧
    EraseRows (.erase o) .eraseLoop (fun s => { s with addr := s.sidx * 4096 }) State.callSe
      toNextIteration

/-- R245, R250, R296: CE as a direct request and as MASSERASE's sub-command; a poll limit of 0 is the
fault zeroLimit (U5, log 21). That CE's END and `rphase` NONE are one step in MASSERASE is the model's
choice (log 37). -/
def Obligations.ChipEraseRows : Prop :=
  ∀ o : Operands,
    EraseRows (.ce o) .none (fun s => s) State.callCe toEnd ∧
    EraseRows (.masserase o) .mass (fun s => s) State.callCe
      (fun t => { t with sphase := .finish, rphase := .none })

/-- R270, R272: INIT's comparison. That it is also INIT's response step, where the other commands have the
response as a step of its own, is the model's choice (log 37). -/
def Obligations.IdentityComparisonStep : Prop :=
  ∀ (o : Operands) (s : State), s.phase = .busy → s.rphase = .initCmp →
    (s.id = s.cfg.expId → exec (.init o) s = .next { s with
      rspId := s.id, rphase := .none, result := 0x00, rspValid := true, phase := .respond }) ∧
    ((s.id.mfr ≠ s.cfg.expId.mfr ∨ s.id.type ≠ s.cfg.expId.type ∨ s.id.cap ≠ s.cfg.expId.cap) →
      exec (.init o) s = .next { s with
        rspId := s.id, rphase := .none, sphase := .finish, cs := false, bus := none, ret := none
        result := 0x02, rspValid := true, phase := .respond })

/-- R280, R290, R302: the loops of WRITE and ERASE at their test, before the first sub-command as after
each one: the next sub-command with its operands, from CHECK (R326), or the loop's end. That a loop
which ends before its first sub-command leaves `sphase` at END is the model's choice (log 36). -/
def Obligations.RangeLoopRows : Prop :=
  ∀ (o : Operands) (s : State),
    (s.inTest .writeLoop → s.i.toNat < s.n.toNat →
      ∃ l, exec (.write o) s = .next { s with
          addr := s.req.a0 + 256 * s.i, off := s.req.boff + 256 * s.i, len := l
          sphase := .check, atTest := false } ∧
        (s.i.toNat + 1 = s.n.toNat → s.req.a1.toNat % 256 ≠ 0 →
          l.toNat = s.req.a1.toNat % 256) ∧
        (s.i.toNat + 1 ≠ s.n.toNat ∨ s.req.a1.toNat % 256 = 0 → l = 256)) ∧
    (s.inTest .writeLoop → s.n.toNat ≤ s.i.toNat →
      exec (.write o) s = .next { s with sphase := .finish, rphase := .none, atTest := false }) ∧
    (s.inTest .eraseLoop → s.i.toNat < s.n.toNat →
      exec (.erase o) s = .next { s with
        sidx := s.base + s.i, sphase := .check, atTest := false }) ∧
    (s.inTest .eraseLoop → s.n.toNat ≤ s.i.toNat →
      exec (.erase o) s = .next { s with sphase := .finish, rphase := .none, atTest := false })

/-- R102, R37, R207, R303: the response step of a command that ended with OK, which writes `rsp_sr`
or `rsp_id` for the commands that return data only; and the response stays until the next acceptance. -/
def Obligations.ResponseStep : Prop :=
  ∀ (s : State) (o : Operands),
    (s.inRow .none .finish →
      (∀ i ∈ [Instr.reset o, .wrsr o, .wren o, .wrdi o, .read o, .pp o, .se o, .ce o, .waitwip o,
          .wrenw o, .write o, .erase o, .masserase o],
        exec i s = .next { s with result := 0x00, rspValid := true, phase := .respond }) ∧
      exec (.rdid o) s = .next { s with
        result := 0x00, rspId := s.id, rspValid := true, phase := .respond } ∧
      exec (.rdsr1 o) s = .next { s with
        result := 0x00, rspSr := s.sr, rspValid := true, phase := .respond } ∧
      (∀ b, s.rx = [b] → exec (.rdsr2 o) s = .next { s with
        result := 0x00, rspSr := b, rspValid := true, phase := .respond })) ∧
    (s.phase = .respond → s.bus = none → s.offers = [] → s.resetAsserted = false →
      step s = .next s.applyInput)

/-- R236: PPFits, exact on naturals, and the rejection of a PP, direct or of a WRITE, that does not fit:
no frame is called and nothing is recorded, so no buffer byte is read. -/
def Obligations.PageBoundaryCheck : Prop :=
  (∀ addr len : Word, ppFits addr len = true ↔
    1 ≤ len.toNat ∧ len.toNat ≤ 256 ∧ addr.toNat % 256 + len.toNat ≤ 256) ∧
  (∀ addr : Word, addr.toNat % 256 = (wireAddr addr).toNat % 256) ∧
  (∀ (o : Operands), ∀ p ∈ [(Instr.pp o, RPhase.none), (.write o, .writeLoop)],
    ∀ s : State, s.inRow p.2 .check → ppFits s.addr s.len = false →
      ∃ t, exec p.1 s = .next t ∧ t.phase = .respond ∧ t.rspValid = true ∧ t.result = 0x03 ∧
        t.bus = none ∧ t.trace = s.trace)

/-- R112, R115, R67: the frames that the controller's registers give, byte by byte. -/
def Obligations.FrameFormats : Prop :=
  ∀ s : State,
    s.callWren = { hdr := [s.cfg.ops.wren], tx := [], rxn := 0 } ∧
    s.callWrdi = { hdr := [s.cfg.ops.wrdi], tx := [], rxn := 0 } ∧
    s.callCe = { hdr := [s.cfg.ops.ce], tx := [], rxn := 0 } ∧
    (s.cfg.resetFraming = .single →
      s.callReset = { hdr := [s.cfg.ops.rsten, s.cfg.ops.rst], tx := [], rxn := 0 }) ∧
    (s.cfg.resetFraming = .split →
      s.callReset = { hdr := [s.cfg.ops.rsten], tx := [], rxn := 0 }) ∧
    s.callRst = { hdr := [s.cfg.ops.rst], tx := [], rxn := 0 } ∧
    s.callRdsr1 = { hdr := [s.cfg.ops.rdsr1], tx := [], rxn := 1 } ∧
    s.callRdsr2 = { hdr := [s.cfg.ops.rdsr2], tx := [], rxn := 1 } ∧
    s.callRdid = { hdr := [s.cfg.ops.rdid], tx := [], rxn := 3 } ∧
    s.callWrsr = { hdr := [s.cfg.ops.wrsr, s.wsr1, s.wsr2], tx := [], rxn := 0 } ∧
    s.callSe = { hdr := s.cfg.ops.se :: addrBytes (wireAddr s.addr), tx := [], rxn := 0 } ∧
    s.callPp = { hdr := s.cfg.ops.pp :: addrBytes (wireAddr s.addr), tx := s.data, rxn := 0 } ∧
    s.callRead =
      { hdr := s.cfg.ops.read :: addrBytes (wireAddr s.addr), tx := [], rxn := s.len.toNat }

/-- R62, R65, R114: address assembly, in natural arithmetic. -/
def Obligations.AddressAssembly : Prop :=
  (∀ a : Word, (wireAddr a).toNat = a.toNat % 2 ^ 24) ∧
  (∀ a : WireAddr, ∃ hi mid lo : Byte, addrBytes a = [hi, mid, lo] ∧
    a.toNat = hi.toNat * 65536 + mid.toNat * 256 + lo.toNat) ∧
  (∀ x : Word, (sectorAddr x).toNat = x.toNat * 4096 % 2 ^ 32 ∧
    (wireAddr (sectorAddr x)).toNat = x.toNat % 4096 * 4096)

/-- R42: the two status predicates read one bit each, whatever the other bits are. -/
def Obligations.StatusPredicates : Prop :=
  ∀ (c : Config) (sr : Byte),
    (isBusy c sr = true ↔ sr &&& c.wipMask ≠ 0) ∧
    (isWriteEnabled c sr = true ↔ sr &&& c.welMask ≠ 0) ∧
    (∀ x : Byte, isBusy c ((sr &&& c.wipMask) ||| (x &&& ~~~c.wipMask)) = isBusy c sr) ∧
    (∀ x : Byte,
      isWriteEnabled c ((sr &&& c.welMask) ||| (x &&& ~~~c.welMask)) = isWriteEnabled c sr)

/-- R144, R322, R323, R326: whatever the request and its position, a failed segment ends it in the
next step with ERR_BUS; nothing is saved and nothing further is sent. -/
def Obligations.FailedSegmentAbortsRequest : Prop :=
  ∀ s : State, s.Inv → s.ret = some false → s.inputs = [] →
    step s = .next { s with cs := false, sphase := .finish, rphase := .none, result := 0x01,
                            rspValid := true, phase := .respond, bus := none, ret := none }

/-! ## Frames on the bus -/

/-- R141 to R147, R18: every SPI frame runs whole from a deselected bus and leaves it deselected,
returns ok exactly when every segment it has succeeded, returns as many bytes as it asked for, and is
recorded with the segment that failed; with chip-select asserted it is a fault. Its bus events are
Sel, the segments up to the failed one, Desel, with DUMMY_TX sent for each byte received. -/
def Obligations.FramesCompleteAndAreRecorded : Prop :=
  ∀ (i : Instr) (s : State) (f : FrameCall), i.isRequest = false →
    encode s.cfg.ops i = .frame f →
    (s.cs = true → exec i s = .fault .selectWhileSelected) ∧
    (s.cs = false → ∃ t ok out, exec i s = .next t ∧ t.cs = false ∧ t.bus = none ∧
      t.ret = some ok ∧ t.trace = .frame f t.rx out :: s.trace ∧
      (ok = true ↔ s.draw.hdrOk = true ∧ (f.tx ≠ [] → s.draw.payOk = true) ∧
        (f.rxn ≠ 0 → s.draw.payOk = true)) ∧
      (ok = true ↔ out = .ok) ∧ (ok = true → t.rx.length = f.rxn) ∧
      (s.draw.hdrOk = false → out = .failHeader ∧
        frameEvents s.cfg f t.rx out = [.sel, .tx f.hdr false, .desel]) ∧
      (s.draw.hdrOk = true → s.draw.payOk = false → f.tx ≠ [] → out = .failPayload ∧
        frameEvents s.cfg f t.rx out = [.sel, .tx f.hdr true, .tx f.tx false, .desel]) ∧
      (s.draw.hdrOk = true → s.draw.payOk = false → f.tx = [] → f.rxn ≠ 0 →
        out = .failReceive ∧ t.rx.length = f.rxn ∧ frameEvents s.cfg f t.rx out =
          [.sel, .tx f.hdr true, .rx f.rxn (List.replicate f.rxn s.cfg.dummyTx) t.rx false,
            .desel]) ∧
      (ok = true → f.tx = [] → f.rxn = 0 →
        frameEvents s.cfg f t.rx out = [.sel, .tx f.hdr true, .desel]) ∧
      (ok = true → f.tx ≠ [] →
        frameEvents s.cfg f t.rx out = [.sel, .tx f.hdr true, .tx f.tx true, .desel]) ∧
      (ok = true → f.rxn ≠ 0 → frameEvents s.cfg f t.rx out =
          [.sel, .tx f.hdr true, .rx f.rxn (List.replicate f.rxn s.cfg.dummyTx) t.rx true,
            .desel]))

/-- R73: the status byte's two flags are the chip's, its other bits are any value, and reading it
changes nothing. -/
def Obligations.StatusOneAnswer : Prop :=
  ∀ s : State, s.cfg.Wf → s.cs = false → s.cfg.chipPresent = true → cleanDraw s.draw →
    ∃ t b, exec .spiRdsr1 s = .next t ∧ t.ret = some true ∧ t.rx = [b] ∧
      (b &&& s.cfg.wipMask ≠ 0 ↔ (s.chip.settle s.draw).wip = true) ∧
      (b &&& s.cfg.welMask ≠ 0 ↔ (s.chip.settle s.draw).wel = true) ∧
      (b &&& ~~~(s.cfg.wipMask ||| s.cfg.welMask) =
        s.draw.sr1 &&& ~~~(s.cfg.wipMask ||| s.cfg.welMask)) ∧
      t.chip = { s.chip.settle s.draw with rstEnabled := false }

/-- R74: status register 2 is answered as it stands, the identity in the order mfr, type, cap, and
neither read changes the chip; where no chip is fitted the frames complete all the same (U31). -/
def Obligations.IdentityAndStatusTwoAnswers : Prop :=
  ∀ s : State, s.cs = false → cleanDraw s.draw →
    (s.cfg.chipPresent = true →
      (∃ t, exec .spiRdsr2 s = .next t ∧ t.ret = some true ∧ t.rx = [s.chip.sr2] ∧
        t.chip = { s.chip.settle s.draw with rstEnabled := false }) ∧
      (∃ t, exec .spiRdid s = .next t ∧ t.ret = some true ∧
        t.rx = [s.cfg.chipId.mfr, s.cfg.chipId.type, s.cfg.chipId.cap] ∧
        t.chip = { s.chip.settle s.draw with rstEnabled := false })) ∧
    (s.cfg.chipPresent = false →
      (∃ t b, exec .spiRdsr2 s = .next t ∧ t.rx = [b]) ∧
      (∃ t a b c, exec .spiRdid s = .next t ∧ t.rx = [a, b, c]))

/-- R75, R78: WREN sets the latch unless the chip drops it, WRDI clears it; the operation in progress
completes before the frame exactly where the draw says so (log 14), WEL clearing with WIP; the
model's own enable-reset flag falls (log 12). -/
def Obligations.WriteEnableFrames : Prop :=
  ∀ s : State, s.cs = false → s.cfg.chipPresent = true → cleanDraw s.draw →
    (s.draw.dropWren = false → ∃ t, exec .spiWren s = .next t ∧ t.ret = some true ∧
      t.chip = { s.chip.settle s.draw with wel := true, rstEnabled := false }) ∧
    (s.draw.dropWren = true → ∃ t, exec .spiWren s = .next t ∧ t.ret = some true ∧
      t.chip = { s.chip.settle s.draw with rstEnabled := false }) ∧
    (∃ t, exec .spiWrdi s = .next t ∧ t.ret = some true ∧
      t.chip = { s.chip.settle s.draw with wel := false, rstEnabled := false }) ∧
    (s.chip.wip = true → s.draw.completes = true → (s.chip.settle s.draw).wip = false ∧
      (s.chip.settle s.draw).wel = false) ∧
    (s.chip.wip = false ∨ s.draw.completes = false → s.chip.settle s.draw = s.chip)

/-- R76, R78: an accepted page program: WIP is set, WEL stays set while WIP = 1 (log 38: R245's example
says otherwise), byte `k` of the payload is programmed at A + k, and no other byte of the array
changes. -/
def Obligations.ProgramFrameEffect : Prop :=
  ∀ (s : State) (a : WireAddr) (d : List Byte), s.cs = false → s.cfg.chipPresent = true →
    cleanDraw s.draw → Memory.wf s.chip.array = true → (s.chip.settle s.draw).accepts = true →
    fitsPage a d.length = true → a.toNat < s.cfg.deviceSize →
    ∃ t, exec (.spiPp a d) s = .next t ∧ t.ret = some true ∧ t.chip.wip = true ∧
      t.chip.wel = true ∧ t.chip.sr1rest = s.chip.sr1rest ∧ t.chip.sr2 = s.chip.sr2 ∧
      (∀ (k : Nat) (v : Byte), d[k]? = some v → t.chip.array.read (a.toNat + k) =
        programByte s.cfg.programRule (s.chip.array.read (a.toNat + k)) v) ∧
      (∀ x, (x < a.toNat ∨ a.toNat + d.length ≤ x) →
        t.chip.array.read x = s.chip.array.read x)

/-- R77, R72: an accepted sector erase, chip erase or status write. Which bits of SR1rest and SR2 are
writable is the draw's (log 15). That a status write leaves WEL alone is
the spec's own "from general knowledge, not in source" (G6, log 34). -/
def Obligations.EraseAndStatusFrameEffects : Prop :=
  ∀ s : State, s.cs = false → s.cfg.chipPresent = true → cleanDraw s.draw →
    (s.chip.settle s.draw).accepts = true →
    (∀ a : WireAddr, a.toNat < s.cfg.deviceSize →
      ∃ t, exec (.spiSe a) s = .next t ∧ t.ret = some true ∧ t.chip.wip = true ∧
        (∀ x, x / 4096 = a.toNat / 4096 → t.chip.array.read x = 0xFF) ∧
        (∀ x, x / 4096 ≠ a.toNat / 4096 → t.chip.array.read x = s.chip.array.read x)) ∧
    (∃ t, exec .spiCe s = .next t ∧ t.ret = some true ∧ t.chip.wip = true ∧
      (∀ x, x < s.cfg.deviceSize → t.chip.array.read x = 0xFF)) ∧
    (∀ r1 r2 : Byte, ∃ t, exec (.spiWrsr r1 r2) s = .next t ∧ t.ret = some true ∧
      t.chip.wip = true ∧ t.chip.wel = (s.chip.settle s.draw).wel ∧
      t.chip.sr2 &&& s.draw.mask2 = r2 &&& s.draw.mask2 ∧
      t.chip.sr2 &&& ~~~s.draw.mask2 = s.chip.sr2 &&& ~~~s.draw.mask2 ∧
      (∀ rest : Byte, rest = ~~~(s.cfg.wipMask ||| s.cfg.welMask) →
        t.chip.sr1rest &&& ~~~rest = 0 ∧
        t.chip.sr1rest &&& rest &&& s.draw.mask1 = r1 &&& rest &&& s.draw.mask1 ∧
        t.chip.sr1rest &&& rest &&& ~~~s.draw.mask1 =
          s.chip.sr1rest &&& rest &&& ~~~s.draw.mask1) ∧
      (∀ x, t.chip.array.read x = s.chip.array.read x))

/-- R78: a mutating command sent while WEL = 0 or WIP = 1 is ignored and changes nothing (U33: the
spec's own "from general knowledge, not in source", log 34); its frame returns ok all the same (R168,
R374). Of a PP or SE outside the device, or a PP that leaves its page, the model takes U14 and R76 (any
state) to prevail over R78 (log 17), so that the statement is about the others. -/
def Obligations.MutatingFramesIgnored : Prop :=
  ∀ (s : State) (i : Instr), s.cs = false → s.cfg.chipPresent = true → cleanDraw s.draw →
    ((s.chip.settle s.draw).wel = false ∨ (s.chip.settle s.draw).wip = true) →
    ((∃ r1 r2, i = .spiWrsr r1 r2) ∨ i = .spiCe ∨
      (∃ a, i = .spiSe a ∧ a.toNat < s.cfg.deviceSize) ∨
      (∃ a d, i = .spiPp a d ∧ fitsPage a d.length = true ∧ a.toNat < s.cfg.deviceSize)) →
    ∃ t, exec i s = .next t ∧ t.ret = some true ∧
      t.chip = { s.chip.settle s.draw with rstEnabled := false }

/-- R79, R161: a reset leaves WEL and WIP 0 and the array as it was, but for the bytes that an
operation still in progress was changing; under SPLIT the reset byte resets the chip that has just
received the enable-reset byte. That a reset byte on its own does nothing is the model's reading
(log 12). -/
def Obligations.ResetFrameEffects : Prop :=
  ∀ s : State, s.cs = false → s.cfg.chipPresent = true → cleanDraw s.draw →
    (s.cfg.chipNeedsSplit = false → ∃ t, exec .spiRstenRst s = .next t ∧ t.ret = some true ∧
      t.chip.wip = false ∧ t.chip.wel = false ∧
      ((s.chip.settle s.draw).op = none →
        ∀ x, t.chip.array.read x = s.chip.array.read x) ∧
      (∀ a n, (s.chip.settle s.draw).op = some (a, n) →
        ∀ x, (x < a ∨ a + n ≤ x) → t.chip.array.read x = s.chip.array.read x)) ∧
    (∃ t, exec .spiRsten s = .next t ∧ t.ret = some true ∧
      t.chip = { s.chip.settle s.draw with rstEnabled := true }) ∧
    (s.chip.rstEnabled = true → ∃ t, exec .spiRst s = .next t ∧ t.ret = some true ∧
      t.chip.wip = false ∧ t.chip.wel = false ∧
      ((s.chip.settle s.draw).op = none →
        ∀ x, t.chip.array.read x = s.chip.array.read x) ∧
      (∀ a n, (s.chip.settle s.draw).op = some (a, n) →
        ∀ x, (x < a ∨ a + n ≤ x) → t.chip.array.read x = s.chip.array.read x)) ∧
    (s.chip.rstEnabled = false → ∃ t, exec .spiRst s = .next t ∧ t.ret = some true ∧
      t.chip = s.chip.settle s.draw)

/-- R72, R71: a READ of an idle chip returns the array's bytes and changes nothing; a byte past the
device, or read while WIP = 1, is any value (log 16), and the frame completes all the same. -/
def Obligations.ReadFrameAnswer : Prop :=
  ∀ (s : State) (a : WireAddr) (n : Nat), s.cs = false → s.cfg.chipPresent = true → cleanDraw s.draw →
    ∃ t, exec (.spiRead a n) s = .next t ∧ t.ret = some true ∧ t.rx.length = n ∧
      t.chip = { s.chip.settle s.draw with rstEnabled := false } ∧
      ((s.chip.settle s.draw).wip = false → ∀ k, k < n → a.toNat + k < s.cfg.deviceSize →
        t.rx[k]? = some (s.chip.array.read (a.toNat + k)))

/-- R80, U20, R143: what a failed frame leaves, for every frame kind: nothing arrived, nothing
changed; everything arrived (a failed receive too), as the successful frame leaves it; of a page
program's payload a part arrived, that part is programmed. A command whose bytes did not all arrive
is ignored or leaves any status, as the draw says; of the array an erase changes at most its sector, a
program the bytes it addresses, a status write no byte; a read changes nothing: that is the model's
choice (log 11), within R283, R290 and R63. The model's own enable-reset flag is log 12; that WEL stays
set while a program is in progress is R78 (log 38). -/
def Obligations.FailedFramesApplyPrefix : Prop :=
  ∀ (s : State) (i : Instr) (f : FrameCall), s.cs = false → s.cfg.chipPresent = true →
    i.isRequest = false → encode s.cfg.ops i = .frame f →
    (s.draw.hdrOk = false → s.draw.cut = 0 → ∃ t, exec i s = .next t ∧ t.ret = some false ∧
      t.chip = s.chip.settle s.draw) ∧
    (∀ u : State,
      u = { s with draws := { s.draw with hdrOk := true, payOk := true } :: s.draws.tail } →
      ((s.draw.hdrOk = false ∧ f.tx = [] ∧ f.hdr.length ≤ s.draw.cut) ∨
        (s.draw.hdrOk = true ∧ s.draw.payOk = false ∧ f.tx = [] ∧ f.rxn ≠ 0) ∨
        (s.draw.hdrOk = true ∧ s.draw.payOk = false ∧ f.tx ≠ [] ∧ f.tx.length ≤ s.draw.cut)) →
      ∃ t v, exec i s = .next t ∧ t.ret = some false ∧ exec i u = .next v ∧ v.ret = some true ∧
        t.chip = v.chip) ∧
    (i = .spiRstenRst → s.draw.hdrOk = false → s.draw.cut = 1 →
      ∃ t, exec i s = .next t ∧ t.ret = some false ∧
        t.chip = { s.chip.settle s.draw with rstEnabled := true }) ∧
    ((∃ a n, i = .spiRead a n) → s.draw.hdrOk = false → 0 < s.draw.cut →
      ∃ t, exec i s = .next t ∧ t.ret = some false ∧
        t.chip = { s.chip.settle s.draw with rstEnabled := false }) ∧
    ((∃ r1 r2, i = .spiWrsr r1 r2) → s.draw.hdrOk = false → 0 < s.draw.cut → s.draw.cut < 3 →
      ∃ t, exec i s = .next t ∧ t.ret = some false ∧
        (s.draw.ignoresCut = true →
          t.chip = { s.chip.settle s.draw with rstEnabled := false }) ∧
        (s.draw.ignoresCut = false → t.chip.wip = s.draw.wip ∧ t.chip.wel = s.draw.wel ∧
          t.chip.sr2 = s.draw.sr2) ∧
        (∀ x, t.chip.array.read x = s.chip.array.read x)) ∧
    (((∃ a, i = .spiSe a) ∧ s.draw.hdrOk = false ∧ 0 < s.draw.cut ∧ s.draw.cut < 4 ∨
        (∃ a d, i = .spiPp a d) ∧ s.draw.hdrOk = false ∧ 0 < s.draw.cut ∨
        (∃ a d, i = .spiPp a d ∧ d ≠ []) ∧ s.draw.hdrOk = true ∧ s.draw.payOk = false ∧
          s.draw.cut = 0) →
      ∃ t, exec i s = .next t ∧ t.ret = some false ∧
        (s.draw.ignoresCut = true →
          t.chip = { s.chip.settle s.draw with rstEnabled := false }) ∧
        (s.draw.ignoresCut = false → t.chip.wip = s.draw.wip ∧ t.chip.wel = s.draw.wel ∧
          t.chip.sr2 = s.draw.sr2) ∧
        (∀ a, i = .spiSe a → a.toNat < s.cfg.deviceSize → ∀ x, x / 4096 ≠ a.toNat / 4096 →
          t.chip.array.read x = s.chip.array.read x) ∧
        (∀ a d, i = .spiPp a d → a.toNat < s.cfg.deviceSize → fitsPage a d.length = true →
          ∀ x, (x < a.toNat ∨ a.toNat + d.length ≤ x) →
          t.chip.array.read x = s.chip.array.read x)) ∧
    (∀ (a : WireAddr) (d : List Byte), i = .spiPp a d → Memory.wf s.chip.array = true →
      s.draw.hdrOk = true → s.draw.payOk = false → 0 < s.draw.cut →
      (s.chip.settle s.draw).accepts = true → fitsPage a d.length = true →
      a.toNat < s.cfg.deviceSize →
      ∃ t, exec i s = .next t ∧ t.ret = some false ∧ t.chip.wip = true ∧ t.chip.wel = true ∧
        (∀ (k : Nat) (v : Byte), k < s.draw.cut → d[k]? = some v →
          t.chip.array.read (a.toNat + k) =
            programByte s.cfg.programRule (s.chip.array.read (a.toNat + k)) v) ∧
        (∀ x, (x < a.toNat ∨ a.toNat + s.draw.cut ≤ x ∨ a.toNat + d.length ≤ x) →
          t.chip.array.read x = s.chip.array.read x))

/-! ## What is left unchanged -/

/-- The frames of the register and sequencer commands: the registers each may change, and no other;
chip-select is only ever released. -/
def Obligations.FrameOfRegisterCommands : Prop :=
  ∀ (o : Operands) (s t : State),
    (∀ i ∈ [Instr.wren o, .wrdi o], exec i s = .next t → t = s.withControlOf t) ∧
    (∀ c, exec (.reserved c o) s = .next t → t = s.withControlOf t) ∧
    (exec (.reset o) s = .next t → t = { s.withControlOf t with
          pos := t.pos }) ∧
    (exec (.rdid o) s = .next t → t = { s.withControlOf t with
          id := t.id, rspId := t.rspId }) ∧
    (exec (.rdsr1 o) s = .next t → t = { s.withControlOf t with
          sr := t.sr, rspSr := t.rspSr }) ∧
    (exec (.rdsr2 o) s = .next t → t = { s.withControlOf t with
          rspSr := t.rspSr }) ∧
    (exec (.waitwip o) s = .next t → t = { s.withControlOf t with
          sr := t.sr, polls := t.polls }) ∧
    (exec (.wrenw o) s = .next t → t = { s.withControlOf t with
          sr := t.sr, tries := t.tries }) ∧
    (exec (.wrsr o) s = .next t → t = { s.withControlOf t with
          sr := t.sr, tries := t.tries, wsr1 := t.wsr1, wsr2 := t.wsr2 }) ∧
    (∀ i : Instr, i.isRequest = true → exec i s = .next t → t.cs = s.cs ∨ t.cs = false)

/-- The frames of READ, PP, SE and CE; READ changes no buffer byte but the one it stores. -/
def Obligations.FrameOfArrayCommands : Prop :=
  ∀ (o : Operands) (s t : State),
    (exec (.read o) s = .next t →
      t = { s.withControlOf t with
          sr := t.sr, polls := t.polls, addr := t.addr, len := t.len, off := t.off
          pos := t.pos, buffer := t.buffer, trace := t.trace } ∧
      (∀ a, s.storing → a ≠ (byteOffset s.off s.pos).toNat →
        t.buffer.read a = s.buffer.read a) ∧
      (∀ a, ¬ s.storing → t.buffer.read a = s.buffer.read a)) ∧
    (exec (.pp o) s = .next t →
      t = { s.withControlOf t with
          sr := t.sr, polls := t.polls, tries := t.tries, addr := t.addr, len := t.len
          off := t.off, data := t.data, trace := t.trace }) ∧
    (exec (.se o) s = .next t →
      t = { s.withControlOf t with
          sr := t.sr, polls := t.polls, tries := t.tries, addr := t.addr
          sidx := t.sidx }) ∧
    (exec (.ce o) s = .next t →
      t = { s.withControlOf t with
          sr := t.sr, polls := t.polls, tries := t.tries })

/-- The frames of INIT, WRITE, ERASE and MASSERASE (R303). -/
def Obligations.FrameOfRangeCommands : Prop :=
  ∀ (o : Operands) (s t : State),
    (exec (.init o) s = .next t →
      t = { s.withControlOf t with
          id := t.id, rspId := t.rspId, pos := t.pos }) ∧
    (exec (.write o) s = .next t →
      t = { s.withControlOf t with
          sr := t.sr, polls := t.polls, tries := t.tries, addr := t.addr, len := t.len
          off := t.off, data := t.data, trace := t.trace, i := t.i, n := t.n
          atTest := t.atTest }) ∧
    (exec (.erase o) s = .next t →
      t = { s.withControlOf t with
          sr := t.sr, polls := t.polls, tries := t.tries, addr := t.addr
          sidx := t.sidx, i := t.i, n := t.n, base := t.base, eidx := t.eidx
          atTest := t.atTest }) ∧
    (exec (.masserase o) s = .next t →
      t = { s.withControlOf t with
          sr := t.sr, polls := t.polls, tries := t.tries })

/-- The frames of the SPI frame kinds: no controller register changes but the Frame call's return,
no buffer byte changes, and of the array only the bytes the command names (R63), whole, failed or cut
short (R283, R290; log 11 for a PP or SE cut short). -/
def Obligations.FrameOfSpiFrames : Prop :=
  ∀ (i : Instr) (s t : State), i.isRequest = false → exec i s = .next t →
    t = { s with bus := none, ret := t.ret, rx := t.rx, chip := t.chip, trace := t.trace
                 draws := t.draws, drawCount := t.drawCount } ∧
    ((i = .spiRsten ∨ i = .spiRdid ∨ i = .spiRdsr1 ∨ i = .spiRdsr2 ∨ i = .spiWren ∨ i = .spiWrdi ∨
        (∃ r1 r2, i = .spiWrsr r1 r2) ∨ (∃ a n, i = .spiRead a n)) →
      ∀ x, t.chip.array.read x = s.chip.array.read x) ∧
    (∀ a d, i = .spiPp a d → a.toNat < s.cfg.deviceSize → fitsPage a d.length = true →
      ∀ x, (x < a.toNat ∨ a.toNat + d.length ≤ x) →
        t.chip.array.read x = s.chip.array.read x) ∧
    (∀ a, i = .spiSe a → a.toNat < s.cfg.deviceSize →
      ∀ x, x / 4096 ≠ a.toNat / 4096 → t.chip.array.read x = s.chip.array.read x) ∧
    (∀ x, s.cfg.deviceSize ≤ x → i.wf = true → s.chip.Ok s.cfg →
      t.chip.array.read x = s.chip.array.read x)

/-! ## The whole machine -/

/-- Every step keeps the invariant, and no step changes a parameter (R44). -/
def Obligations.InvariantKeptByEveryStep : Prop :=
  ∀ s t : State, s.cfg.ops.wf → s.Inv → step s = .next t → t.Inv ∧ t.cfg = s.cfg

/-- From the invariant the machine never stops, but at a buffer access that the buffer does not admit
(R64), in PP, WRITE or READ: no frame is unknown, no chip-select is mispaired (R141), no control
state lacks a row (R32). -/
def Obligations.InvariantStatesNeverStop : Prop :=
  ∀ s : State, s.cfg.Wf → s.Inv →
    (∃ t, step s = .next t) ∨
    (step s = .fault .stuckBufferRead ∧ (∃ o, decodeRequest s.req = .pp o ∨
        decodeRequest s.req = .write o) ∧
      s.admitsRead (byteOffset s.off s.data.length) = false) ∨
    (step s = .fault .stuckBufferWrite ∧ (∃ o, decodeRequest s.req = .read o) ∧
      s.admitsWrite (byteOffset s.off s.pos) = false)

/-- R208, R86: when a step calls a mutating frame, the last frame recorded is a status read that
showed the latch set; when it calls a READ frame, one that showed the chip idle. -/
def Obligations.MutationFollowsTheLatch : Prop :=
  ∀ (s t : State) (f : FrameCall) (i : Instr), s.cfg.ops.wf → s.Inv → step s = .next t →
    t.bus = some f → decodeFrame s.cfg.ops f = .ok i →
    (((∃ r1 r2, i = .spiWrsr r1 r2) ∨ (∃ a d, i = .spiPp a d) ∨ (∃ a, i = .spiSe a) ∨ i = .spiCe) →
      ∃ b, lastFrame t.trace = some ({ hdr := [s.cfg.ops.rdsr1], tx := [], rxn := 1 }, [b], .ok) ∧
        b &&& s.cfg.welMask ≠ 0) ∧
    ((∃ a n, i = .spiRead a n) →
      ∃ b, lastFrame t.trace = some ({ hdr := [s.cfg.ops.rdsr1], tx := [], rxn := 1 }, [b], .ok) ∧
        b &&& s.cfg.wipMask = 0)

/-- R116, R117, R121: the frames that a step of each request can call, with the addresses and lengths
its operands give, and the iterations of WRITE and ERASE below their counts. -/
def Obligations.FramesOfEachCommand : Prop :=
  ∀ (s t : State) (f : FrameCall), s.cfg.ops.wf → s.Inv → step s = .next t → t.bus = some f →
    match decodeRequest t.req with
    | .reset _ => f = t.callReset ∨ (t.cfg.resetFraming = .split ∧ f = t.callRst)
    | .rdid _ => f = t.callRdid
    | .rdsr1 _ | .waitwip _ => f = t.callRdsr1
    | .rdsr2 _ => f = t.callRdsr2
    | .wren _ => f = t.callWren
    | .wrdi _ => f = t.callWrdi
    | .wrenw _ => f = t.callWren ∨ f = t.callRdsr1
    | .wrsr o => f = t.callWren ∨ f = t.callRdsr1 ∨
        f = frameWrsr t.cfg.ops (o.a0.extractLsb' 0 8) (o.a1.extractLsb' 0 8)
    | .read o => f = t.callRdsr1 ∨ f = frameRead t.cfg.ops (wireAddr o.a0) o.a1.toNat
    | .pp o => f = t.callWren ∨ f = t.callRdsr1 ∨
        ∃ d, f = framePp t.cfg.ops (wireAddr o.a0) d ∧ d.length = o.a1.toNat
    | .se o => f = t.callWren ∨ f = t.callRdsr1 ∨
        f = frameSe t.cfg.ops (wireAddr (o.a0 * 4096))
    | .ce _ | .masserase _ => f = t.callWren ∨ f = t.callRdsr1 ∨ f = t.callCe
    | .init _ => f = t.callReset ∨ (t.cfg.resetFraming = .split ∧ f = t.callRst) ∨
        f = t.callRdid
    | .write o => f = t.callWren ∨ f = t.callRdsr1 ∨
        ∃ d, f = framePp t.cfg.ops (wireAddr (chunkStart o.a0 t.i)) d ∧
          d.length = (chunkLen o.a1 t.i (chunkCount o.a1)).toNat ∧ t.i < chunkCount o.a1
    | .erase o => f = t.callWren ∨ f = t.callRdsr1 ∨
        (f = frameSe t.cfg.ops (wireAddr ((sectorIndex o.a0 + t.i) * 4096)) ∧
          t.i < eraseCount t.cfg.eraseUnderflow (sectorIndex o.a0) (sectorIndex o.a1))
    | _ => False

/-- R324, R321: the result codes each command can end with. -/
def Obligations.ResultCodesOfEachCommand : Prop :=
  ∀ s t : State, s.Inv → s.phase = .busy → s.resetAsserted = false → step s = .next t →
    t.phase = .respond →
    t.rspValid = true ∧ t.cs = false ∧
    match decodeRequest s.req with
    | .reset _ | .rdid _ | .rdsr1 _ | .rdsr2 _ | .wren _ | .wrdi _ =>
      t.result = 0x00 ∨ t.result = 0x01
    | .wrsr _ | .wrenw _ => t.result = 0x00 ∨ t.result = 0x01 ∨
        (t.result = 0x04 ∧ s.cfg.welLimit ≠ none)
    | .waitwip _ | .read _ => t.result = 0x00 ∨ t.result = 0x01 ∨
        (t.result = 0x04 ∧ s.cfg.wipLimit ≠ none)
    | .se _ | .ce _ | .erase _ | .masserase _ => t.result = 0x00 ∨ t.result = 0x01 ∨
        (t.result = 0x04 ∧ (s.cfg.wipLimit ≠ none ∨ s.cfg.welLimit ≠ none))
    | .pp _ | .write _ => t.result = 0x00 ∨ t.result = 0x01 ∨ t.result = 0x03 ∨
        (t.result = 0x04 ∧ (s.cfg.wipLimit ≠ none ∨ s.cfg.welLimit ≠ none))
    | .init _ => t.result = 0x00 ∨ t.result = 0x01 ∨ t.result = 0x02
    | _ => False

/-- R37: the response registers are written only at the end of a request, `rsp_sr` by RDSR1 and
RDSR2 only, `rsp_id` by RDID and INIT only. -/
def Obligations.ResponseRegistersWrittenAtTheEnd : Prop :=
  ∀ s t : State, s.resetAsserted = false → step s = .next t →
    ((t.result ≠ s.result ∨ t.rspSr ≠ s.rspSr ∨ t.rspId ≠ s.rspId) → t.phase = .respond) ∧
    (t.rspSr ≠ s.rspSr → s.bus = none ∧ s.phase = .busy ∧
      ∃ o, decodeRequest s.req = .rdsr1 o ∨ decodeRequest s.req = .rdsr2 o) ∧
    (t.rspId ≠ s.rspId → s.bus = none ∧ s.phase = .busy ∧
      ∃ o, decodeRequest s.req = .rdid o ∨ decodeRequest s.req = .init o)

/-- R38: `sr` is written by every RDSR1 frame's return and by no other frame's, with the byte just
received. -/
def Obligations.StatusScratchFollowsStatusReads : Prop :=
  ∀ s t : State, s.cfg.ops.wf → s.Inv → s.resetAsserted = false → step s = .next t →
    (t.sr ≠ s.sr → lastFrame s.trace =
      some ({ hdr := [s.cfg.ops.rdsr1], tx := [], rxn := 1 }, [t.sr], .ok)) ∧
    (∀ b, s.ret = some true →
      lastFrame s.trace = some ({ hdr := [s.cfg.ops.rdsr1], tx := [], rxn := 1 }, [b], .ok) →
      t.sr = b)

/-- R280, R282, R290, R291: the chunks of a WRITE are `ceil(size / PAGE_SIZE)` many, each 1 to
PAGE_SIZE bytes long, together `size` bytes; the sectors of an ERASE are `eidx - base` many, or what
ERASE_UNDERFLOW says. R283, R290: a step of a WRITE, failing or not, changes no array byte outside the
chunk in progress, and one of an ERASE none outside the sector in progress, inside the device (past it
U14 leaves the chip in any state, log 17; a command cut short is log 11). -/
def Obligations.RangeDecomposition : Prop :=
  (∀ size : Word,
    (chunkCount size).toNat = (size.toNat + 255) / 256 ∧
    (∀ i : Word, i < chunkCount size → 1 ≤ (chunkLen size i (chunkCount size)).toNat ∧
      (chunkLen size i (chunkCount size)).toNat ≤ 256) ∧
    ((List.range (chunkCount size).toNat).map
      (fun i => (chunkLen size (BitVec.ofNat 32 i) (chunkCount size)).toNat)).sum = size.toNat) ∧
  (∀ (u : EraseUnderflow) (base eidx : Word), base.toNat ≤ eidx.toNat →
    (eraseCount u base eidx).toNat = eidx.toNat - base.toNat) ∧
  (∀ base eidx : Word, eidx.toNat < base.toNat →
    (eraseCount .wrap base eidx).toNat = 2 ^ 32 - (base.toNat - eidx.toNat) ∧
    eraseCount .empty base eidx = 0) ∧
  (∀ (s t : State) (a : WireAddr) (o : Operands), s.cfg.ops.wf → s.Inv → s.phase = .busy →
    step s = .next t → a.toNat < s.cfg.deviceSize →
    (decodeRequest s.req = .write o → a = wireAddr (chunkStart o.a0 s.i) → ∀ x,
      (x < a.toNat ∨ a.toNat + (chunkLen o.a1 s.i (chunkCount o.a1)).toNat ≤ x) →
      t.chip.array.read x = s.chip.array.read x) ∧
    (decodeRequest s.req = .erase o → a = wireAddr ((sectorIndex o.a0 + s.i) * 4096) → ∀ x,
      x / 4096 ≠ a.toNat / 4096 → t.chip.array.read x = s.chip.array.read x))

/-! ## Runs of whole requests -/

/-- R281, V3, D39: a WRITE of a page or more at an unaligned address ends with ERR_PARAM and no frame;
an empty WRITE and an empty ERASE end with OK and no frame. -/
def Obligations.DegenerateRangesSendNothing : Prop :=
  ∀ (s : State) (r : Request) (rest : List (BitVec 104)), s.offered r rest →
    (r.cmd = 0x11 → r.a0.toNat % 256 ≠ 0 → 256 ≤ r.a1.toNat →
      ∃ t, steps 3 s = .next t ∧ t.phase = .respond ∧ t.result = 0x03 ∧ t.trace = s.trace ∧
        t.chip = s.chip) ∧
    (r.cmd = 0x11 → r.a1 = 0 → s.ret = none →
      ∃ t, steps 3 s = .next t ∧ t.endedOk rest ∧ t.trace = s.trace ∧ t.chip = s.chip) ∧
    (r.cmd = 0x12 → r.a0.toNat / 4096 = r.a1.toNat / 4096 → s.ret = none →
      ∃ t, steps 3 s = .next t ∧ t.endedOk rest ∧ t.trace = s.trace ∧ t.chip = s.chip)

/-- R163 to R171: the one-frame commands, from the port to the response. -/
def Obligations.OneFrameRequestsRunToResponse : Prop :=
  ∀ (s : State) (r : Request) (rest : List (BitVec 104)), s.offered r rest → s.cfg.Wf →
    s.cfg.chipPresent = true → cleanDraw s.draw →
    (r.cmd = 0x02 → ∃ t, steps 5 s = .next t ∧ t.endedOk rest ∧ t.rspId = s.cfg.chipId ∧
      t.trace = .frame s.callRdid [s.cfg.chipId.mfr, s.cfg.chipId.type, s.cfg.chipId.cap] .ok ::
        s.trace) ∧
    (r.cmd = 0x03 → ∃ t, steps 5 s = .next t ∧ t.endedOk rest ∧
      (isBusy s.cfg t.rspSr = true ↔ (s.chip.settle s.draw).wip = true) ∧
      (isWriteEnabled s.cfg t.rspSr = true ↔ (s.chip.settle s.draw).wel = true)) ∧
    (r.cmd = 0x04 → ∃ t, steps 5 s = .next t ∧ t.endedOk rest ∧ t.rspSr = s.chip.sr2 ∧
      t.sr = s.sr) ∧
    (r.cmd = 0x06 → ∃ t, steps 5 s = .next t ∧ t.endedOk rest ∧
      (s.draw.dropWren = false → t.chip.wel = true)) ∧
    (r.cmd = 0x07 → ∃ t, steps 5 s = .next t ∧ t.endedOk rest ∧ t.chip.wel = false) ∧
    (r.cmd = 0x01 → s.cfg.resetFraming = .single → s.cfg.chipNeedsSplit = false →
      ∃ t, steps 5 s = .next t ∧ t.endedOk rest ∧ t.chip.wip = false ∧ t.chip.wel = false)

/-- R270, R272: INIT on a fitted chip whose frames succeed ends with OK if and only if all three
identity bytes are the expected ones, otherwise with ERR_ID; `rsp_id` carries what was read. The eight
steps are the model's: which of them INIT merges is its choice (log 37). -/
def Obligations.InitSucceedsIffIdentityMatches : Prop :=
  ∀ (s : State) (r : Request) (rest : List (BitVec 104)) (d1 d2 : Draw) (ds : List Draw),
    s.offered r rest → r.cmd = 0x10 → s.cfg.ops.wf → s.cfg.chipPresent = true →
    s.cfg.resetFraming = .single → s.draws = d1 :: d2 :: ds → cleanDraw d1 → cleanDraw d2 →
    ∃ t, steps 8 s = .next t ∧ t.phase = .respond ∧ t.rspValid = true ∧ t.rspId = s.cfg.chipId ∧
      (t.result = 0x00 ↔ s.cfg.chipId.mfr = s.cfg.expId.mfr ∧
        s.cfg.chipId.type = s.cfg.expId.type ∧ s.cfg.chipId.cap = s.cfg.expId.cap) ∧
      (t.result ≠ 0x00 → t.result = 0x02)

/-- R235, R76: a PP whose chunk fits its page, on an idle chip that takes the write enable, programs
exactly its bytes from the buffer and ends with OK while the chip is still busy. -/
def Obligations.PageProgramRequestProgramsThePage : Prop :=
  ∀ (s : State) (r : Request) (rest : List (BitVec 104)) (d1 d2 d3 d4 : Draw) (ds : List Draw),
    s.offered r rest → r.cmd = 0x09 → s.cfg.Wf → s.Inv → s.cfg.chipPresent = true →
    s.chip.wip = false → s.draws = d1 :: d2 :: d3 :: d4 :: ds →
    cleanDraw d1 → cleanDraw d2 → cleanDraw d3 → cleanDraw d4 → d2.dropWren = false →
    ppFits r.a0 r.a1 = true → (wireAddr r.a0).toNat < s.cfg.deviceSize →
    (∀ k, k < r.a1.toNat → s.admitsRead (byteOffset r.boff k) = true) →
    ∃ t, steps (12 + r.a1.toNat) s = .next t ∧ t.endedOk rest ∧ t.chip.wip = true ∧
      t.buffer = s.buffer ∧
      (∀ k, k < r.a1.toNat → t.chip.array.read ((wireAddr r.a0).toNat + k) =
        programByte s.cfg.programRule (s.chip.array.read ((wireAddr r.a0).toNat + k))
          (s.buffer.read (byteOffset r.boff k).toNat)) ∧
      (∀ x, (x < (wireAddr r.a0).toNat ∨ (wireAddr r.a0).toNat + r.a1.toNat ≤ x) →
        t.chip.array.read x = s.chip.array.read x)

/-- R240, R245, R252: SE and CE, on an idle chip that takes the write enable and has completed the
erase by the last status read, end with OK, the bytes erased, WIP and WEL both 0. -/
def Obligations.EraseRequestsEraseAndComplete : Prop :=
  ∀ (s : State) (r : Request) (rest : List (BitVec 104)) (d1 d2 d3 d4 d5 : Draw) (ds : List Draw),
    s.offered r rest → s.cfg.Wf → s.cfg.chipPresent = true → s.chip.wip = false →
    s.draws = d1 :: d2 :: d3 :: d4 :: d5 :: ds →
    cleanDraw d1 → cleanDraw d2 → cleanDraw d3 → cleanDraw d4 → cleanDraw d5 → d2.dropWren = false →
    d5.completes = true →
    (r.cmd = 0x0A → (wireAddr (sectorAddr r.a0)).toNat < s.cfg.deviceSize →
      ∃ t, steps 13 s = .next t ∧ t.endedOk rest ∧ t.chip.wip = false ∧ t.chip.wel = false ∧
        (∀ x, x / 4096 = r.a0.toNat % 4096 → t.chip.array.read x = 0xFF) ∧
        (∀ x, x / 4096 ≠ r.a0.toNat % 4096 → t.chip.array.read x = s.chip.array.read x)) ∧
    (r.cmd = 0x0B →
      ∃ t, steps 13 s = .next t ∧ t.endedOk rest ∧ t.chip.wip = false ∧ t.chip.wel = false ∧
        (∀ x, x < s.cfg.deviceSize → t.chip.array.read x = 0xFF))

/-- R230, R66, R88: a READ of an idle chip fills the buffer with the array's bytes before it responds,
and changes no other buffer byte and nothing in the chip's array. -/
def Obligations.ReadRequestFillsTheBuffer : Prop :=
  ∀ (s : State) (r : Request) (rest : List (BitVec 104)) (d1 d2 : Draw) (ds : List Draw),
    s.offered r rest → r.cmd = 0x08 → s.cfg.Wf → s.Inv → s.cfg.chipPresent = true → s.chip.wip = false →
    s.draws = d1 :: d2 :: ds → cleanDraw d1 → cleanDraw d2 →
    (wireAddr r.a0).toNat + r.a1.toNat ≤ s.cfg.deviceSize →
    (∀ k, k < r.a1.toNat → s.admitsWrite (byteOffset r.boff k) = true) →
    ∃ t, steps (8 + r.a1.toNat) s = .next t ∧ t.endedOk rest ∧
      (∀ k, k < r.a1.toNat → t.buffer.read (byteOffset r.boff k).toNat =
        s.chip.array.read ((wireAddr r.a0).toNat + k)) ∧
      (∀ a, (∀ k, k < r.a1.toNat → a ≠ (byteOffset r.boff k).toNat) →
        t.buffer.read a = s.buffer.read a) ∧
      t.chip.array = s.chip.array

/-- R203, V7: a chip that is idle and drops exactly the first N write enables is sent N + 1 of them
and N + 1 status reads, in alternation, and the request ends with OK. -/
def Obligations.WrenwSendsOnePairPerTry : Prop :=
  ∀ (N : Nat) (s : State) (r : Request) (rest : List (BitVec 104)) (dr ok : Draw),
    s.offered r rest → r.cmd = 0x0D → s.cfg.Wf → s.cfg.welLimit = none →
    s.cfg.chipPresent = true → s.chip.wip = false → s.chip.wel = false →
    cleanDraw dr → cleanDraw ok → dr.dropWren = true → ok.dropWren = false →
    s.draws = (List.replicate N [dr, ok]).flatten ++ [ok, ok] →
    ∃ t, steps (4 * N + 7) s = .next t ∧ t.endedOk rest ∧ t.chip.wel = true ∧
      t.trace.length = s.trace.length + 2 * (N + 1) ∧
      (∀ k, k ≤ N → ∃ b, t.trace[2 * k]? = some (.frame s.callRdsr1 [b] .ok) ∧
        (b &&& s.cfg.welMask ≠ 0 ↔ k = 0)) ∧
      (∀ k, k ≤ N → t.trace[2 * k + 1]? = some (.frame s.callWren [] .ok))

/-- R202, R205, R81, R340: under fairness F1 a direct WAITWIP ends, and under F1 and F2, as the model
reads them (FairWip and FairWren, infinitely often: log 30), a direct
WRENW ends, in every run without a reset, whatever the chip answers and whichever segments fail. -/
def Obligations.WaitsEndUnderFairness : Prop :=
  ∀ ρ : Nat → State, IsRun ρ → (∀ m, (ρ m).resetAsserted = false) → (ρ 0).cfg.Wf → (ρ 0).Inv →
    (ρ 0).cfg.chipPresent = true → (ρ 0).phase = .busy → FairWip ρ →
    ((∃ o, decodeRequest (ρ 0).req = .waitwip o) → ∃ m, (ρ m).phase = .respond) ∧
    ((∃ o, decodeRequest (ρ 0).req = .wrenw o) → FairWren ρ → ∃ m, (ρ m).phase = .respond)
end

