-- ==== Sys2Proof/Laws/Memory.lean ====
section
/-! SUPPORT. The laws of the byte memories: what a write, a program, an erase and a poke read as
afterwards, and that each keeps the canonical form and the address bound. -/

namespace Sys2Proof.Machine

theorem Memory.below_iff {m : Memory} {n : Nat} :
    Memory.below m n = true ↔ ∀ c ∈ m, c.1 < n := by
  simp [Memory.below]

theorem Memory.wf_cons {c : Host.Cell} {m : Memory} :
    Memory.wf (c :: m) = true ↔
      c.2 ≠ Memory.unlisted ∧ (∀ d ∈ m, c.1 < d.1) ∧ Memory.wf m = true := by
  obtain ⟨a, v⟩ := c
  simp [Memory.wf, and_assoc]

/-- An address below every listed one reads as unlisted. -/
theorem Memory.read_of_lt {m : Memory} {a : Nat} (h : ∀ c ∈ m, a < c.1) :
    Memory.read m a = Memory.unlisted := by
  induction m with
  | nil => rfl
  | cons c m ih =>
    have hne : a ≠ c.1 := Nat.ne_of_lt (h c (by simp))
    rw [Memory.read, if_neg hne]
    exact ih fun d hd => h d (by simp [hd])

/-- What a write can list: an old cell, or the new one. -/
theorem Memory.mem_write {m : Memory} {a : Nat} {v : Byte} {c : Host.Cell}
    (h : c ∈ Memory.write m a v) : c ∈ m ∨ c = (a, v) := by
  induction m with
  | nil =>
    unfold Memory.write at h
    split at h <;> simp_all
  | cons d m ih =>
    obtain ⟨b, w⟩ := d
    simp only [Memory.write] at h
    split at h
    · split at h
      · exact .inl h
      · rcases List.mem_cons.mp h with rfl | h
        · exact .inr rfl
        · exact .inl h
    · split at h
      · split at h
        · exact .inl (List.mem_cons_of_mem _ h)
        · rcases List.mem_cons.mp h with rfl | h
          · exact .inr rfl
          · exact .inl (List.mem_cons_of_mem _ h)
      · rcases List.mem_cons.mp h with rfl | h
        · exact .inl (List.mem_cons_self ..)
        · exact (ih h).imp_left (List.mem_cons_of_mem _)

theorem Memory.write_wf {m : Memory} (a : Nat) (v : Byte) (h : Memory.wf m = true) :
    Memory.wf (Memory.write m a v) = true := by
  induction m with
  | nil => unfold Memory.write; split <;> simp_all [Memory.wf]
  | cons d m ih =>
    obtain ⟨b, w⟩ := d
    obtain ⟨hw, hlt, hm⟩ := Memory.wf_cons.mp h
    simp only [Memory.write]
    split
    · rename_i hab
      split
      · exact h
      · rename_i hv
        refine Memory.wf_cons.mpr ⟨hv, fun d hd => ?_, h⟩
        rcases List.mem_cons.mp hd with rfl | hd
        · exact hab
        · exact Nat.lt_trans hab (hlt d hd)
    · split
      · rename_i hba hab
        subst hab
        split
        · exact hm
        · rename_i hv
          exact Memory.wf_cons.mpr ⟨hv, hlt, hm⟩
      · rename_i h1 h2
        refine Memory.wf_cons.mpr ⟨hw, fun d hd => ?_, ih hm⟩
        rcases Memory.mem_write hd with hd | rfl
        · exact hlt d hd
        · simp only at *; omega

/-- Read after write at the same address. -/
theorem Memory.read_write_same {m : Memory} (a : Nat) (v : Byte) (h : Memory.wf m = true) :
    Memory.read (Memory.write m a v) a = v := by
  induction m with
  | nil =>
    unfold Memory.write
    split
    · rename_i hv; simp [Memory.read, hv]
    · simp [Memory.read]
  | cons d m ih =>
    obtain ⟨b, w⟩ := d
    obtain ⟨_, hlt, hm⟩ := Memory.wf_cons.mp h
    simp only [Memory.write]
    split
    · rename_i hab
      split
      · rename_i hv
        rw [hv]
        refine Memory.read_of_lt fun d hd => ?_
        rcases List.mem_cons.mp hd with rfl | hd
        · exact hab
        · exact Nat.lt_trans hab (hlt d hd)
      · simp [Memory.read]
    · split
      · rename_i _ hab
        subst hab
        split
        · rename_i hv
          rw [hv]
          exact Memory.read_of_lt hlt
        · simp [Memory.read]
      · rename_i _ hne
        rw [Memory.read, if_neg hne]
        exact ih hm

/-- A write leaves every other address alone. -/
theorem Memory.read_write_other {m : Memory} {a b : Nat} (v : Byte) (hne : b ≠ a) :
    Memory.read (Memory.write m a v) b = Memory.read m b := by
  induction m with
  | nil => unfold Memory.write; split <;> simp [Memory.read, hne]
  | cons d m ih =>
    obtain ⟨e, w⟩ := d
    simp only [Memory.write]
    split
    · split
      · rfl
      · rw [Memory.read, if_neg hne]
    · split
      · rename_i _ hae
        subst hae
        split
        · simp [Memory.read, hne]
        · simp [Memory.read, hne]
      · simp only [Memory.read, ih]

theorem Memory.write_below {m : Memory} {n a : Nat} (v : Byte) (h : Memory.below m n = true)
    (ha : a < n) : Memory.below (Memory.write m a v) n = true := by
  rw [Memory.below_iff] at *
  intro c hc
  rcases Memory.mem_write hc with hc | rfl
  · exact h c hc
  · exact ha

/-! ## Page program -/

theorem Memory.program_wf {p : Byte → Byte → Byte} {m : Memory} (a : Nat) (ds : List Byte)
    (h : Memory.wf m = true) : Memory.wf (Memory.program p m a ds) = true := by
  induction ds generalizing m a with
  | nil => exact h
  | cons v vs ih => exact ih _ (Memory.write_wf _ _ h)

theorem Memory.program_below {p : Byte → Byte → Byte} {m : Memory} {n a : Nat} {ds : List Byte}
    (h : Memory.below m n = true) (ha : a + ds.length ≤ n) :
    Memory.below (Memory.program p m a ds) n = true := by
  induction ds generalizing m a with
  | nil => exact h
  | cons v vs ih =>
    rw [List.length_cons] at ha
    exact ih (Memory.write_below _ h (by omega)) (by omega)

/-- Outside the programmed bytes nothing changes. -/
theorem Memory.read_program_other {p : Byte → Byte → Byte} {m : Memory} {a b : Nat}
    {ds : List Byte} (hb : b < a ∨ a + ds.length ≤ b) :
    Memory.read (Memory.program p m a ds) b = Memory.read m b := by
  induction ds generalizing m a with
  | nil => rfl
  | cons v vs ih =>
    rw [List.length_cons] at hb
    rw [Memory.program, ih (by omega), Memory.read_write_other _ (by omega)]

/-- Byte `k` of the payload is programmed into address `a + k`. -/
theorem Memory.read_program {p : Byte → Byte → Byte} {m : Memory} {a k : Nat} {ds : List Byte}
    (h : Memory.wf m = true) (hk : k < ds.length) :
    Memory.read (Memory.program p m a ds) (a + k) = p (Memory.read m (a + k)) ds[k] := by
  induction ds generalizing m a k with
  | nil => simp at hk
  | cons v vs ih =>
    rw [Memory.program]
    cases k with
    | zero =>
      rw [Memory.read_program_other (by omega), Nat.add_zero, Memory.read_write_same _ _ h]
      rfl
    | succ k =>
      have hk' : k < vs.length := by simpa using hk
      rw [show a + (k + 1) = a + 1 + k by omega, ih (Memory.write_wf _ _ h) hk',
        Memory.read_write_other _ (by omega)]
      rfl

/-! ## Erase -/

theorem Memory.filter_wf {m : Memory} (q : Host.Cell → Bool) (h : Memory.wf m = true) :
    Memory.wf (m.filter q) = true := by
  induction m with
  | nil => rfl
  | cons c m ih =>
    obtain ⟨hv, hlt, hm⟩ := Memory.wf_cons.mp h
    rw [List.filter_cons]
    split
    · exact Memory.wf_cons.mpr ⟨hv, fun d hd => hlt d (List.mem_filter.mp hd).1, ih hm⟩
    · exact ih hm

theorem Memory.eraseRange_wf {m : Memory} (a n : Nat) (h : Memory.wf m = true) :
    Memory.wf (Memory.eraseRange m a n) = true := Memory.filter_wf _ h

theorem Memory.eraseRange_below {m : Memory} {k : Nat} (a n : Nat) (h : Memory.below m k = true) :
    Memory.below (Memory.eraseRange m a n) k = true := by
  rw [Memory.below_iff] at *
  exact fun c hc => h c (List.mem_filter.mp hc).1

/-- An erased byte reads as ERASED_VALUE; every other byte as before. -/
theorem Memory.read_eraseRange (m : Memory) (a n b : Nat) :
    Memory.read (Memory.eraseRange m a n) b =
      if a ≤ b ∧ b < a + n then erasedValue else Memory.read m b := by
  induction m with
  | nil => simp [Memory.eraseRange, Memory.read, Memory.unlisted]
  | cons c m ih =>
    obtain ⟨e, w⟩ := c
    by_cases hin : a ≤ e ∧ e < a + n
    · have : Memory.eraseRange ((e, w) :: m) a n = Memory.eraseRange m a n := by
        simp [Memory.eraseRange, List.filter_cons]; omega
      rw [this, ih, Memory.read]
      by_cases hb : b = e
      · subst hb; simp [hin]
      · rw [if_neg hb]
    · have : Memory.eraseRange ((e, w) :: m) a n = (e, w) :: Memory.eraseRange m a n := by
        simp [Memory.eraseRange, List.filter_cons]; omega
      rw [this, Memory.read, ih, Memory.read]
      by_cases hb : b = e
      · subst hb; simp [hin]
      · rw [if_neg hb, if_neg hb]

/-! ## Poked bytes -/

theorem Memory.pokeRange_wf {m : Memory} (a n : Nat) (ps : List (Nat × Byte))
    (h : Memory.wf m = true) : Memory.wf (Memory.pokeRange m a n ps) = true := by
  induction ps generalizing m with
  | nil => exact h
  | cons p ps ih =>
    refine ih ?_
    split
    · exact Memory.write_wf _ _ h
    · exact h

theorem Memory.pokeRange_below {m : Memory} {k a n : Nat} (ps : List (Nat × Byte))
    (h : Memory.below m k = true) (hk : a + n ≤ k ∨ n = 0) :
    Memory.below (Memory.pokeRange m a n ps) k = true := by
  induction ps generalizing m with
  | nil => exact h
  | cons p ps ih =>
    refine ih ?_
    split
    · exact Memory.write_below _ h (by omega)
    · exact h

theorem Memory.read_pokeRange_other {m : Memory} {a n b : Nat} (ps : List (Nat × Byte))
    (hb : b < a ∨ a + n ≤ b) :
    Memory.read (Memory.pokeRange m a n ps) b = Memory.read m b := by
  induction ps generalizing m with
  | nil => rfl
  | cons p ps ih =>
    rw [Memory.pokeRange, ih]
    split
    · exact Memory.read_write_other _ (by omega)
    · rfl

@[simp] theorem Memory.pokeRange_empty (m : Memory) (a : Nat) (ps : List (Nat × Byte)) :
    Memory.pokeRange m a 0 ps = m := by
  induction ps with
  | nil => rfl
  | cons p ps ih => rw [Memory.pokeRange, if_neg (by omega), ih]

/-! ## The requester's writes -/

theorem applyEdits_wf {m : Memory} (es : List (Word × Byte)) (h : Memory.wf m = true) :
    Memory.wf (applyEdits m es) = true := by
  induction es generalizing m with
  | nil => exact h
  | cons e es ih => exact ih (Memory.write_wf _ _ h)

theorem applyEdits_below {m : Memory} (es : List (Word × Byte)) (h : Memory.below m (2 ^ 32) = true) :
    Memory.below (applyEdits m es) (2 ^ 32) = true := by
  induction es generalizing m with
  | nil => exact h
  | cons e es ih => exact ih (Memory.write_below _ h e.1.isLt)

end Sys2Proof.Machine
end

