-- ==== Sys2Proof/Laws/Chip.lean ====
section
/-! SUPPORT. The chip's reactions: each keeps what always holds of the chip (`Chip.Ok`), whatever
was received and drawn; and what the reads and the accepted mutations do. -/

namespace Sys2Proof.Machine

variable {cfg : Config} {c : Chip}

theorem rest_masked (cfg : Config) (x : Byte) :
    (x &&& restMask cfg) &&& (cfg.wipMask ||| cfg.welMask) = 0 := by
  apply BitVec.eq_of_getLsbD_eq
  intro i hi
  simp only [restMask, BitVec.getLsbD_and, BitVec.getLsbD_not, BitVec.getLsbD_or]
  grind

theorem deviceSize_mod_page (cfg : Config) : cfg.deviceSize % pageSize = 0 := by
  simp only [Config.deviceSize, sectorSize, pageSize]; omega

theorem fitsPage_below {a : WireAddr} {n : Nat} (ha : a.toNat < cfg.deviceSize)
    (h : fitsPage a n = true) : a.toNat + n ≤ cfg.deviceSize := by
  have hm := deviceSize_mod_page cfg
  simp only [fitsPage, Bool.and_eq_true, decide_eq_true_eq] at h
  simp only [pageSize] at hm h
  omega

theorem sectorBase_le {a : WireAddr} : sectorBase a ≤ a.toNat := by
  simp only [sectorBase, sectorSize]; omega

theorem sectorBase_below {a : WireAddr} (h : a.toNat < cfg.deviceSize) :
    sectorBase a + sectorSize ≤ cfg.deviceSize := by
  simp only [Config.deviceSize, sectorBase, sectorSize] at *; omega

namespace Chip.Ok

theorem settle (h : c.Ok cfg) (d : Draw) : (c.settle d).Ok cfg := by
  unfold Chip.settle
  split
  · exact ⟨h.arrayWf, h.arrayBelow, h.rest, rfl⟩
  · exact h

theorem disarm (h : c.Ok cfg) : c.disarm.Ok cfg := ⟨h.arrayWf, h.arrayBelow, h.rest, h.op⟩

theorem rstEnable (h : c.Ok cfg) (b : Bool) : ({ c with rstEnabled := b } : Chip).Ok cfg :=
  ⟨h.arrayWf, h.arrayBelow, h.rest, h.op⟩

theorem anyWithin (h : c.Ok cfg) (d : Draw) {a n : Nat} (hn : a + n ≤ cfg.deviceSize) :
    (c.anyWithin cfg d a n).Ok cfg where
  arrayWf := Memory.pokeRange_wf _ _ _ h.arrayWf
  arrayBelow := Memory.pokeRange_below _ h.arrayBelow (.inl hn)
  rest := rest_masked cfg _
  op := by simp only [Chip.anyWithin]; split <;> simp_all

theorem anyState (h : c.Ok cfg) (d : Draw) : (c.anyState cfg d).Ok cfg := h.anyWithin d (by omega)

theorem powerOn (h : c.Ok cfg) (d : Draw) : (c.powerOn cfg d).Ok cfg where
  arrayWf := by
    simp only [Chip.powerOn]
    split
    · exact Memory.pokeRange_wf _ _ _ h.arrayWf
    · exact h.arrayWf
  arrayBelow := by
    simp only [Chip.powerOn]
    split
    · exact Memory.pokeRange_below _ h.arrayBelow (by omega)
    · exact h.arrayBelow
  rest := rest_masked cfg _
  op := rfl

theorem wren (h : c.Ok cfg) (d : Draw) : (c.wren d).Ok cfg := by
  unfold Chip.wren
  split
  · exact h
  · exact ⟨h.arrayWf, h.arrayBelow, h.rest, h.op⟩

theorem wrdi (h : c.Ok cfg) : c.wrdi.Ok cfg := ⟨h.arrayWf, h.arrayBelow, h.rest, h.op⟩

theorem writeStatus (h : c.Ok cfg) (d : Draw) (r1 r2 : Byte) : (c.writeStatus cfg d r1 r2).Ok cfg := by
  unfold Chip.writeStatus
  split
  · exact ⟨h.arrayWf, h.arrayBelow, rest_masked cfg _, rfl⟩
  · exact h

theorem pageProgram (h : c.Ok cfg) (d : Draw) (a : WireAddr) (ds : List Byte) :
    (c.pageProgram cfg d a ds).Ok cfg := by
  unfold Chip.pageProgram
  split
  · rename_i hin
    split
    · exact ⟨Memory.program_wf _ _ h.arrayWf,
        Memory.program_below h.arrayBelow (fitsPage_below hin.1 hin.2), h.rest, rfl⟩
    · exact h
  · exact h.anyState d

theorem sectorErase (h : c.Ok cfg) (d : Draw) (a : WireAddr) : (c.sectorErase cfg d a).Ok cfg := by
  unfold Chip.sectorErase
  split
  · split
    · exact ⟨Memory.eraseRange_wf _ _ h.arrayWf, Memory.eraseRange_below _ _ h.arrayBelow, h.rest, rfl⟩
    · exact h
  · exact h.anyState d

theorem chipErase (h : c.Ok cfg) : (c.chipErase cfg).Ok cfg := by
  unfold Chip.chipErase
  split
  · exact ⟨Memory.eraseRange_wf _ _ h.arrayWf, Memory.eraseRange_below _ _ h.arrayBelow, h.rest, rfl⟩
  · exact h

theorem cutProgram (h : c.Ok cfg) (d : Draw) (a : WireAddr) (n : Nat) :
    (c.cutProgram cfg d a n).Ok cfg := by
  unfold Chip.cutProgram
  split
  · exact h
  · split
    · rename_i hin
      exact h.anyWithin d (fitsPage_below hin.1 hin.2)
    · exact h.anyState d

theorem cutErase (h : c.Ok cfg) (d : Draw) (a : WireAddr) : (c.cutErase cfg d a).Ok cfg := by
  unfold Chip.cutErase
  split
  · exact h
  · split
    · rename_i hin
      exact h.anyWithin d (sectorBase_below hin)
    · exact h.anyState d

theorem cutStatus (h : c.Ok cfg) (d : Draw) : (c.cutStatus cfg d).Ok cfg := by
  unfold Chip.cutStatus
  split
  · exact h
  · exact h.anyWithin d (Nat.zero_le _)

theorem reactWhole (h : c.Ok cfg) {f cut : Chip → Chip} (hf : ∀ c, c.Ok cfg → (f c).Ok cfg)
    (hcut : ∀ c, c.Ok cfg → (cut c).Ok cfg) (n : Nat) (bs : List Byte) :
    (reactWhole n f cut bs c).Ok cfg := by
  unfold Machine.reactWhole
  split
  · exact h
  · split
    · exact hf _ h.disarm
    · exact hcut _ h.disarm

theorem reactRstenRst (h : c.Ok cfg) (d : Draw) (bs : List Byte) :
    (reactRstenRst cfg d bs c).Ok cfg := by
  unfold Machine.reactRstenRst
  split
  · exact h
  · exact h.rstEnable true
  · split
    · exact (h.anyState d).disarm
    · exact h.powerOn d

theorem reactRsten (h : c.Ok cfg) (bs : List Byte) : (reactRsten bs c).Ok cfg := by
  unfold Machine.reactRsten
  split
  · exact h
  · exact h.rstEnable true

theorem reactRst (h : c.Ok cfg) (d : Draw) (bs : List Byte) : (reactRst cfg d bs c).Ok cfg := by
  unfold Machine.reactRst
  split
  · exact h
  · split
    · exact h.powerOn d
    · exact h

theorem reactRead (h : c.Ok cfg) (bs : List Byte) : (reactRead bs c).Ok cfg := by
  unfold Machine.reactRead
  split
  · exact h
  · exact h.disarm

theorem reactPp (h : c.Ok cfg) (d : Draw) (a : WireAddr) (n : Nat) (bs : List Byte) :
    (reactPp cfg d a n bs c).Ok cfg := by
  unfold Machine.reactPp
  split
  · split
    · exact h
    · exact h.disarm.cutProgram d a n
  · exact h.disarm.pageProgram d a _

end Chip.Ok

/-! ## What a command cut short leaves of the array (R283, R290, R63) -/

theorem read_anyWithin_other (d : Draw) {a n b : Nat} (hb : b < a ∨ a + n ≤ b) :
    (c.anyWithin cfg d a n).array.read b = c.array.read b :=
  Memory.read_pokeRange_other _ hb

theorem read_cutProgram_other (d : Draw) {a : WireAddr} {n b : Nat} (ha : a.toNat < cfg.deviceSize)
    (hn : fitsPage a n = true) (hb : b < a.toNat ∨ a.toNat + n ≤ b) :
    (c.cutProgram cfg d a n).array.read b = c.array.read b := by
  unfold Chip.cutProgram
  split
  · rfl
  · rw [if_pos ⟨ha, hn⟩]
    exact read_anyWithin_other d hb

theorem read_cutErase_other (d : Draw) {a : WireAddr} {b : Nat} (ha : a.toNat < cfg.deviceSize)
    (hb : b / sectorSize ≠ a.toNat / sectorSize) :
    (c.cutErase cfg d a).array.read b = c.array.read b := by
  unfold Chip.cutErase
  split
  · rfl
  · refine read_anyWithin_other d ?_
    simp only [sectorBase, sectorSize] at *; omega

theorem cutStatus_array (d : Draw) : (c.cutStatus cfg d).array = c.array := by
  unfold Chip.cutStatus
  split
  · rfl
  · exact Memory.pokeRange_empty _ _ _

/-! ## What a status byte shows (R73, R42) -/

theorem mask_disjoint (h : cfg.Wf) : cfg.wipMask &&& cfg.welMask = 0 := by
  have key : ∀ x ∈ oneBitMasks, ∀ y ∈ oneBitMasks, x ≠ y → x &&& y = 0 := by decide
  exact key _ h.wipMask _ h.welMask h.masks

theorem mask_ne_zero {m : Byte} (h : m ∈ oneBitMasks) : m ≠ 0#8 := by
  intro h0
  rw [h0] at h
  exact absurd h (by decide)

/-- R73: `isBusy` of the byte the chip answers is WIP. -/
theorem isBusy_statusByte (h : cfg.Wf) (d : Draw) (c : Chip) :
    isBusy cfg (c.statusByte cfg d) = c.wip := by
  have hd := mask_disjoint h
  have hw := mask_ne_zero h.wipMask
  have hand : c.statusByte cfg d &&& cfg.wipMask = if c.wip then cfg.wipMask else 0 := by
    apply BitVec.eq_of_getLsbD_eq
    intro i hi
    have hb : (cfg.wipMask.getLsbD i && cfg.welMask.getLsbD i) = false := by
      simpa using congrArg (fun x => x.getLsbD i) hd
    simp only [Chip.statusByte, restMask]
    cases c.wip <;> cases c.wel <;>
      simp only [Bool.false_eq_true, if_true, if_false, BitVec.getLsbD_and, BitVec.getLsbD_not,
        BitVec.getLsbD_or] <;> grind
  rw [isBusy, hand]
  cases c.wip <;> simp [hw]

/-- R73: `isWriteEnabled` of the byte the chip answers is WEL. -/
theorem isWriteEnabled_statusByte (h : cfg.Wf) (d : Draw) (c : Chip) :
    isWriteEnabled cfg (c.statusByte cfg d) = c.wel := by
  have hd := mask_disjoint h
  have hw := mask_ne_zero h.welMask
  have hand : c.statusByte cfg d &&& cfg.welMask = if c.wel then cfg.welMask else 0 := by
    apply BitVec.eq_of_getLsbD_eq
    intro i hi
    have hb : (cfg.wipMask.getLsbD i && cfg.welMask.getLsbD i) = false := by
      simpa using congrArg (fun x => x.getLsbD i) hd
    simp only [Chip.statusByte, restMask]
    cases c.wip <;> cases c.wel <;>
      simp only [Bool.false_eq_true, if_true, if_false, BitVec.getLsbD_and, BitVec.getLsbD_not,
        BitVec.getLsbD_or] <;> grind
  rw [isWriteEnabled, hand]
  cases c.wel <;> simp [hw]

end Sys2Proof.Machine
end

