-- ==== Sys2Proof/Laws/State.lean ====
section
/-! SUPPORT. What each named update of the state leaves in each field: true by definition, so that no
later proof unfolds a record update. -/

namespace Sys2Proof.Machine

/-! ## `loadTransfer` -/

@[simp] theorem loadTransfer_cfg (s : State) : (loadTransfer s).cfg = s.cfg := rfl
@[simp] theorem loadTransfer_phase (s : State) : (loadTransfer s).phase = s.phase := rfl
@[simp] theorem loadTransfer_sphase (s : State) : (loadTransfer s).sphase = s.sphase := rfl
@[simp] theorem loadTransfer_rphase (s : State) : (loadTransfer s).rphase = s.rphase := rfl
@[simp] theorem loadTransfer_req (s : State) : (loadTransfer s).req = s.req := rfl
@[simp] theorem loadTransfer_addr (s : State) : (loadTransfer s).addr = s.req.a0 := rfl
@[simp] theorem loadTransfer_len (s : State) : (loadTransfer s).len = s.req.a1 := rfl
@[simp] theorem loadTransfer_off (s : State) : (loadTransfer s).off = s.req.boff := rfl
@[simp] theorem loadTransfer_sidx (s : State) : (loadTransfer s).sidx = s.sidx := rfl
@[simp] theorem loadTransfer_wsr1 (s : State) : (loadTransfer s).wsr1 = s.wsr1 := rfl
@[simp] theorem loadTransfer_wsr2 (s : State) : (loadTransfer s).wsr2 = s.wsr2 := rfl
@[simp] theorem loadTransfer_i (s : State) : (loadTransfer s).i = s.i := rfl
@[simp] theorem loadTransfer_n (s : State) : (loadTransfer s).n = s.n := rfl
@[simp] theorem loadTransfer_base (s : State) : (loadTransfer s).base = s.base := rfl
@[simp] theorem loadTransfer_eidx (s : State) : (loadTransfer s).eidx = s.eidx := rfl
@[simp] theorem loadTransfer_polls (s : State) : (loadTransfer s).polls = s.polls := rfl
@[simp] theorem loadTransfer_tries (s : State) : (loadTransfer s).tries = s.tries := rfl
@[simp] theorem loadTransfer_rspValid (s : State) : (loadTransfer s).rspValid = s.rspValid := rfl
@[simp] theorem loadTransfer_result (s : State) : (loadTransfer s).result = s.result := rfl
@[simp] theorem loadTransfer_rspSr (s : State) : (loadTransfer s).rspSr = s.rspSr := rfl
@[simp] theorem loadTransfer_rspId (s : State) : (loadTransfer s).rspId = s.rspId := rfl
@[simp] theorem loadTransfer_sr (s : State) : (loadTransfer s).sr = s.sr := rfl
@[simp] theorem loadTransfer_id (s : State) : (loadTransfer s).id = s.id := rfl
@[simp] theorem loadTransfer_cs (s : State) : (loadTransfer s).cs = s.cs := rfl
@[simp] theorem loadTransfer_bus (s : State) : (loadTransfer s).bus = s.bus := rfl
@[simp] theorem loadTransfer_ret (s : State) : (loadTransfer s).ret = s.ret := rfl
@[simp] theorem loadTransfer_rx (s : State) : (loadTransfer s).rx = s.rx := rfl
@[simp] theorem loadTransfer_data (s : State) : (loadTransfer s).data = s.data := rfl
@[simp] theorem loadTransfer_pos (s : State) : (loadTransfer s).pos = s.pos := rfl
@[simp] theorem loadTransfer_atTest (s : State) : (loadTransfer s).atTest = s.atTest := rfl
@[simp] theorem loadTransfer_trace (s : State) : (loadTransfer s).trace = s.trace := rfl
@[simp] theorem loadTransfer_chip (s : State) : (loadTransfer s).chip = s.chip := rfl
@[simp] theorem loadTransfer_buffer (s : State) : (loadTransfer s).buffer = s.buffer := rfl
@[simp] theorem loadTransfer_regions (s : State) : (loadTransfer s).regions = s.regions := rfl
@[simp] theorem loadTransfer_offers (s : State) : (loadTransfer s).offers = s.offers := rfl
@[simp] theorem loadTransfer_inputs (s : State) : (loadTransfer s).inputs = s.inputs := rfl
@[simp] theorem loadTransfer_draws (s : State) : (loadTransfer s).draws = s.draws := rfl
@[simp] theorem loadTransfer_drawCount (s : State) : (loadTransfer s).drawCount = s.drawCount := rfl

/-! ## `loadSector` -/

@[simp] theorem loadSector_cfg (s : State) : (loadSector s).cfg = s.cfg := rfl
@[simp] theorem loadSector_phase (s : State) : (loadSector s).phase = s.phase := rfl
@[simp] theorem loadSector_sphase (s : State) : (loadSector s).sphase = s.sphase := rfl
@[simp] theorem loadSector_rphase (s : State) : (loadSector s).rphase = s.rphase := rfl
@[simp] theorem loadSector_req (s : State) : (loadSector s).req = s.req := rfl
@[simp] theorem loadSector_addr (s : State) : (loadSector s).addr = s.addr := rfl
@[simp] theorem loadSector_len (s : State) : (loadSector s).len = s.len := rfl
@[simp] theorem loadSector_off (s : State) : (loadSector s).off = s.off := rfl
@[simp] theorem loadSector_sidx (s : State) : (loadSector s).sidx = s.req.a0 := rfl
@[simp] theorem loadSector_wsr1 (s : State) : (loadSector s).wsr1 = s.wsr1 := rfl
@[simp] theorem loadSector_wsr2 (s : State) : (loadSector s).wsr2 = s.wsr2 := rfl
@[simp] theorem loadSector_i (s : State) : (loadSector s).i = s.i := rfl
@[simp] theorem loadSector_n (s : State) : (loadSector s).n = s.n := rfl
@[simp] theorem loadSector_base (s : State) : (loadSector s).base = s.base := rfl
@[simp] theorem loadSector_eidx (s : State) : (loadSector s).eidx = s.eidx := rfl
@[simp] theorem loadSector_polls (s : State) : (loadSector s).polls = s.polls := rfl
@[simp] theorem loadSector_tries (s : State) : (loadSector s).tries = s.tries := rfl
@[simp] theorem loadSector_rspValid (s : State) : (loadSector s).rspValid = s.rspValid := rfl
@[simp] theorem loadSector_result (s : State) : (loadSector s).result = s.result := rfl
@[simp] theorem loadSector_rspSr (s : State) : (loadSector s).rspSr = s.rspSr := rfl
@[simp] theorem loadSector_rspId (s : State) : (loadSector s).rspId = s.rspId := rfl
@[simp] theorem loadSector_sr (s : State) : (loadSector s).sr = s.sr := rfl
@[simp] theorem loadSector_id (s : State) : (loadSector s).id = s.id := rfl
@[simp] theorem loadSector_cs (s : State) : (loadSector s).cs = s.cs := rfl
@[simp] theorem loadSector_bus (s : State) : (loadSector s).bus = s.bus := rfl
@[simp] theorem loadSector_ret (s : State) : (loadSector s).ret = s.ret := rfl
@[simp] theorem loadSector_rx (s : State) : (loadSector s).rx = s.rx := rfl
@[simp] theorem loadSector_data (s : State) : (loadSector s).data = s.data := rfl
@[simp] theorem loadSector_pos (s : State) : (loadSector s).pos = s.pos := rfl
@[simp] theorem loadSector_atTest (s : State) : (loadSector s).atTest = s.atTest := rfl
@[simp] theorem loadSector_trace (s : State) : (loadSector s).trace = s.trace := rfl
@[simp] theorem loadSector_chip (s : State) : (loadSector s).chip = s.chip := rfl
@[simp] theorem loadSector_buffer (s : State) : (loadSector s).buffer = s.buffer := rfl
@[simp] theorem loadSector_regions (s : State) : (loadSector s).regions = s.regions := rfl
@[simp] theorem loadSector_offers (s : State) : (loadSector s).offers = s.offers := rfl
@[simp] theorem loadSector_inputs (s : State) : (loadSector s).inputs = s.inputs := rfl
@[simp] theorem loadSector_draws (s : State) : (loadSector s).draws = s.draws := rfl
@[simp] theorem loadSector_drawCount (s : State) : (loadSector s).drawCount = s.drawCount := rfl

/-! ## `loadStatus` -/

@[simp] theorem loadStatus_cfg (s : State) : (loadStatus s).cfg = s.cfg := rfl
@[simp] theorem loadStatus_phase (s : State) : (loadStatus s).phase = s.phase := rfl
@[simp] theorem loadStatus_sphase (s : State) : (loadStatus s).sphase = s.sphase := rfl
@[simp] theorem loadStatus_rphase (s : State) : (loadStatus s).rphase = s.rphase := rfl
@[simp] theorem loadStatus_req (s : State) : (loadStatus s).req = s.req := rfl
@[simp] theorem loadStatus_addr (s : State) : (loadStatus s).addr = s.addr := rfl
@[simp] theorem loadStatus_len (s : State) : (loadStatus s).len = s.len := rfl
@[simp] theorem loadStatus_off (s : State) : (loadStatus s).off = s.off := rfl
@[simp] theorem loadStatus_sidx (s : State) : (loadStatus s).sidx = s.sidx := rfl
@[simp] theorem loadStatus_wsr1 (s : State) : (loadStatus s).wsr1 = s.req.a0.extractLsb' 0 8 := rfl
@[simp] theorem loadStatus_wsr2 (s : State) : (loadStatus s).wsr2 = s.req.a1.extractLsb' 0 8 := rfl
@[simp] theorem loadStatus_i (s : State) : (loadStatus s).i = s.i := rfl
@[simp] theorem loadStatus_n (s : State) : (loadStatus s).n = s.n := rfl
@[simp] theorem loadStatus_base (s : State) : (loadStatus s).base = s.base := rfl
@[simp] theorem loadStatus_eidx (s : State) : (loadStatus s).eidx = s.eidx := rfl
@[simp] theorem loadStatus_polls (s : State) : (loadStatus s).polls = s.polls := rfl
@[simp] theorem loadStatus_tries (s : State) : (loadStatus s).tries = s.tries := rfl
@[simp] theorem loadStatus_rspValid (s : State) : (loadStatus s).rspValid = s.rspValid := rfl
@[simp] theorem loadStatus_result (s : State) : (loadStatus s).result = s.result := rfl
@[simp] theorem loadStatus_rspSr (s : State) : (loadStatus s).rspSr = s.rspSr := rfl
@[simp] theorem loadStatus_rspId (s : State) : (loadStatus s).rspId = s.rspId := rfl
@[simp] theorem loadStatus_sr (s : State) : (loadStatus s).sr = s.sr := rfl
@[simp] theorem loadStatus_id (s : State) : (loadStatus s).id = s.id := rfl
@[simp] theorem loadStatus_cs (s : State) : (loadStatus s).cs = s.cs := rfl
@[simp] theorem loadStatus_bus (s : State) : (loadStatus s).bus = s.bus := rfl
@[simp] theorem loadStatus_ret (s : State) : (loadStatus s).ret = s.ret := rfl
@[simp] theorem loadStatus_rx (s : State) : (loadStatus s).rx = s.rx := rfl
@[simp] theorem loadStatus_data (s : State) : (loadStatus s).data = s.data := rfl
@[simp] theorem loadStatus_pos (s : State) : (loadStatus s).pos = s.pos := rfl
@[simp] theorem loadStatus_atTest (s : State) : (loadStatus s).atTest = s.atTest := rfl
@[simp] theorem loadStatus_trace (s : State) : (loadStatus s).trace = s.trace := rfl
@[simp] theorem loadStatus_chip (s : State) : (loadStatus s).chip = s.chip := rfl
@[simp] theorem loadStatus_buffer (s : State) : (loadStatus s).buffer = s.buffer := rfl
@[simp] theorem loadStatus_regions (s : State) : (loadStatus s).regions = s.regions := rfl
@[simp] theorem loadStatus_offers (s : State) : (loadStatus s).offers = s.offers := rfl
@[simp] theorem loadStatus_inputs (s : State) : (loadStatus s).inputs = s.inputs := rfl
@[simp] theorem loadStatus_draws (s : State) : (loadStatus s).draws = s.draws := rfl
@[simp] theorem loadStatus_drawCount (s : State) : (loadStatus s).drawCount = s.drawCount := rfl

/-! ## `loadWrite` -/

@[simp] theorem loadWrite_cfg (s : State) : (loadWrite s).cfg = s.cfg := rfl
@[simp] theorem loadWrite_phase (s : State) : (loadWrite s).phase = s.phase := rfl
@[simp] theorem loadWrite_sphase (s : State) : (loadWrite s).sphase = s.sphase := rfl
@[simp] theorem loadWrite_rphase (s : State) : (loadWrite s).rphase = .writeLoop := rfl
@[simp] theorem loadWrite_req (s : State) : (loadWrite s).req = s.req := rfl
@[simp] theorem loadWrite_addr (s : State) : (loadWrite s).addr = s.addr := rfl
@[simp] theorem loadWrite_len (s : State) : (loadWrite s).len = s.len := rfl
@[simp] theorem loadWrite_off (s : State) : (loadWrite s).off = s.off := rfl
@[simp] theorem loadWrite_sidx (s : State) : (loadWrite s).sidx = s.sidx := rfl
@[simp] theorem loadWrite_wsr1 (s : State) : (loadWrite s).wsr1 = s.wsr1 := rfl
@[simp] theorem loadWrite_wsr2 (s : State) : (loadWrite s).wsr2 = s.wsr2 := rfl
@[simp] theorem loadWrite_i (s : State) : (loadWrite s).i = 0 := rfl
@[simp] theorem loadWrite_n (s : State) : (loadWrite s).n = chunkCount s.req.a1 := rfl
@[simp] theorem loadWrite_base (s : State) : (loadWrite s).base = s.base := rfl
@[simp] theorem loadWrite_eidx (s : State) : (loadWrite s).eidx = s.eidx := rfl
@[simp] theorem loadWrite_polls (s : State) : (loadWrite s).polls = s.polls := rfl
@[simp] theorem loadWrite_tries (s : State) : (loadWrite s).tries = s.tries := rfl
@[simp] theorem loadWrite_rspValid (s : State) : (loadWrite s).rspValid = s.rspValid := rfl
@[simp] theorem loadWrite_result (s : State) : (loadWrite s).result = s.result := rfl
@[simp] theorem loadWrite_rspSr (s : State) : (loadWrite s).rspSr = s.rspSr := rfl
@[simp] theorem loadWrite_rspId (s : State) : (loadWrite s).rspId = s.rspId := rfl
@[simp] theorem loadWrite_sr (s : State) : (loadWrite s).sr = s.sr := rfl
@[simp] theorem loadWrite_id (s : State) : (loadWrite s).id = s.id := rfl
@[simp] theorem loadWrite_cs (s : State) : (loadWrite s).cs = s.cs := rfl
@[simp] theorem loadWrite_bus (s : State) : (loadWrite s).bus = s.bus := rfl
@[simp] theorem loadWrite_ret (s : State) : (loadWrite s).ret = s.ret := rfl
@[simp] theorem loadWrite_rx (s : State) : (loadWrite s).rx = s.rx := rfl
@[simp] theorem loadWrite_data (s : State) : (loadWrite s).data = s.data := rfl
@[simp] theorem loadWrite_pos (s : State) : (loadWrite s).pos = s.pos := rfl
@[simp] theorem loadWrite_atTest (s : State) : (loadWrite s).atTest = true := rfl
@[simp] theorem loadWrite_trace (s : State) : (loadWrite s).trace = s.trace := rfl
@[simp] theorem loadWrite_chip (s : State) : (loadWrite s).chip = s.chip := rfl
@[simp] theorem loadWrite_buffer (s : State) : (loadWrite s).buffer = s.buffer := rfl
@[simp] theorem loadWrite_regions (s : State) : (loadWrite s).regions = s.regions := rfl
@[simp] theorem loadWrite_offers (s : State) : (loadWrite s).offers = s.offers := rfl
@[simp] theorem loadWrite_inputs (s : State) : (loadWrite s).inputs = s.inputs := rfl
@[simp] theorem loadWrite_draws (s : State) : (loadWrite s).draws = s.draws := rfl
@[simp] theorem loadWrite_drawCount (s : State) : (loadWrite s).drawCount = s.drawCount := rfl

/-! ## `loadErase` -/

@[simp] theorem loadErase_cfg (s : State) : (loadErase s).cfg = s.cfg := rfl
@[simp] theorem loadErase_phase (s : State) : (loadErase s).phase = s.phase := rfl
@[simp] theorem loadErase_sphase (s : State) : (loadErase s).sphase = s.sphase := rfl
@[simp] theorem loadErase_rphase (s : State) : (loadErase s).rphase = .eraseLoop := rfl
@[simp] theorem loadErase_req (s : State) : (loadErase s).req = s.req := rfl
@[simp] theorem loadErase_addr (s : State) : (loadErase s).addr = s.addr := rfl
@[simp] theorem loadErase_len (s : State) : (loadErase s).len = s.len := rfl
@[simp] theorem loadErase_off (s : State) : (loadErase s).off = s.off := rfl
@[simp] theorem loadErase_sidx (s : State) : (loadErase s).sidx = s.sidx := rfl
@[simp] theorem loadErase_wsr1 (s : State) : (loadErase s).wsr1 = s.wsr1 := rfl
@[simp] theorem loadErase_wsr2 (s : State) : (loadErase s).wsr2 = s.wsr2 := rfl
@[simp] theorem loadErase_i (s : State) : (loadErase s).i = 0 := rfl
@[simp] theorem loadErase_n (s : State) : (loadErase s).n = eraseCount s.cfg.eraseUnderflow (sectorIndex s.req.a0) (sectorIndex s.req.a1) := rfl
@[simp] theorem loadErase_base (s : State) : (loadErase s).base = sectorIndex s.req.a0 := rfl
@[simp] theorem loadErase_eidx (s : State) : (loadErase s).eidx = sectorIndex s.req.a1 := rfl
@[simp] theorem loadErase_polls (s : State) : (loadErase s).polls = s.polls := rfl
@[simp] theorem loadErase_tries (s : State) : (loadErase s).tries = s.tries := rfl
@[simp] theorem loadErase_rspValid (s : State) : (loadErase s).rspValid = s.rspValid := rfl
@[simp] theorem loadErase_result (s : State) : (loadErase s).result = s.result := rfl
@[simp] theorem loadErase_rspSr (s : State) : (loadErase s).rspSr = s.rspSr := rfl
@[simp] theorem loadErase_rspId (s : State) : (loadErase s).rspId = s.rspId := rfl
@[simp] theorem loadErase_sr (s : State) : (loadErase s).sr = s.sr := rfl
@[simp] theorem loadErase_id (s : State) : (loadErase s).id = s.id := rfl
@[simp] theorem loadErase_cs (s : State) : (loadErase s).cs = s.cs := rfl
@[simp] theorem loadErase_bus (s : State) : (loadErase s).bus = s.bus := rfl
@[simp] theorem loadErase_ret (s : State) : (loadErase s).ret = s.ret := rfl
@[simp] theorem loadErase_rx (s : State) : (loadErase s).rx = s.rx := rfl
@[simp] theorem loadErase_data (s : State) : (loadErase s).data = s.data := rfl
@[simp] theorem loadErase_pos (s : State) : (loadErase s).pos = s.pos := rfl
@[simp] theorem loadErase_atTest (s : State) : (loadErase s).atTest = true := rfl
@[simp] theorem loadErase_trace (s : State) : (loadErase s).trace = s.trace := rfl
@[simp] theorem loadErase_chip (s : State) : (loadErase s).chip = s.chip := rfl
@[simp] theorem loadErase_buffer (s : State) : (loadErase s).buffer = s.buffer := rfl
@[simp] theorem loadErase_regions (s : State) : (loadErase s).regions = s.regions := rfl
@[simp] theorem loadErase_offers (s : State) : (loadErase s).offers = s.offers := rfl
@[simp] theorem loadErase_inputs (s : State) : (loadErase s).inputs = s.inputs := rfl
@[simp] theorem loadErase_draws (s : State) : (loadErase s).draws = s.draws := rfl
@[simp] theorem loadErase_drawCount (s : State) : (loadErase s).drawCount = s.drawCount := rfl

/-! ## `loadChunk` -/

@[simp] theorem loadChunk_cfg (s : State) : (loadChunk s).cfg = s.cfg := rfl
@[simp] theorem loadChunk_phase (s : State) : (loadChunk s).phase = s.phase := rfl
@[simp] theorem loadChunk_sphase (s : State) : (loadChunk s).sphase = s.sphase := rfl
@[simp] theorem loadChunk_rphase (s : State) : (loadChunk s).rphase = s.rphase := rfl
@[simp] theorem loadChunk_req (s : State) : (loadChunk s).req = s.req := rfl
@[simp] theorem loadChunk_addr (s : State) : (loadChunk s).addr = chunkStart s.req.a0 s.i := rfl
@[simp] theorem loadChunk_len (s : State) : (loadChunk s).len = chunkLen s.req.a1 s.i s.n := rfl
@[simp] theorem loadChunk_off (s : State) : (loadChunk s).off = chunkStart s.req.boff s.i := rfl
@[simp] theorem loadChunk_sidx (s : State) : (loadChunk s).sidx = s.sidx := rfl
@[simp] theorem loadChunk_wsr1 (s : State) : (loadChunk s).wsr1 = s.wsr1 := rfl
@[simp] theorem loadChunk_wsr2 (s : State) : (loadChunk s).wsr2 = s.wsr2 := rfl
@[simp] theorem loadChunk_i (s : State) : (loadChunk s).i = s.i := rfl
@[simp] theorem loadChunk_n (s : State) : (loadChunk s).n = s.n := rfl
@[simp] theorem loadChunk_base (s : State) : (loadChunk s).base = s.base := rfl
@[simp] theorem loadChunk_eidx (s : State) : (loadChunk s).eidx = s.eidx := rfl
@[simp] theorem loadChunk_polls (s : State) : (loadChunk s).polls = s.polls := rfl
@[simp] theorem loadChunk_tries (s : State) : (loadChunk s).tries = s.tries := rfl
@[simp] theorem loadChunk_rspValid (s : State) : (loadChunk s).rspValid = s.rspValid := rfl
@[simp] theorem loadChunk_result (s : State) : (loadChunk s).result = s.result := rfl
@[simp] theorem loadChunk_rspSr (s : State) : (loadChunk s).rspSr = s.rspSr := rfl
@[simp] theorem loadChunk_rspId (s : State) : (loadChunk s).rspId = s.rspId := rfl
@[simp] theorem loadChunk_sr (s : State) : (loadChunk s).sr = s.sr := rfl
@[simp] theorem loadChunk_id (s : State) : (loadChunk s).id = s.id := rfl
@[simp] theorem loadChunk_cs (s : State) : (loadChunk s).cs = s.cs := rfl
@[simp] theorem loadChunk_bus (s : State) : (loadChunk s).bus = s.bus := rfl
@[simp] theorem loadChunk_ret (s : State) : (loadChunk s).ret = s.ret := rfl
@[simp] theorem loadChunk_rx (s : State) : (loadChunk s).rx = s.rx := rfl
@[simp] theorem loadChunk_data (s : State) : (loadChunk s).data = s.data := rfl
@[simp] theorem loadChunk_pos (s : State) : (loadChunk s).pos = s.pos := rfl
@[simp] theorem loadChunk_atTest (s : State) : (loadChunk s).atTest = s.atTest := rfl
@[simp] theorem loadChunk_trace (s : State) : (loadChunk s).trace = s.trace := rfl
@[simp] theorem loadChunk_chip (s : State) : (loadChunk s).chip = s.chip := rfl
@[simp] theorem loadChunk_buffer (s : State) : (loadChunk s).buffer = s.buffer := rfl
@[simp] theorem loadChunk_regions (s : State) : (loadChunk s).regions = s.regions := rfl
@[simp] theorem loadChunk_offers (s : State) : (loadChunk s).offers = s.offers := rfl
@[simp] theorem loadChunk_inputs (s : State) : (loadChunk s).inputs = s.inputs := rfl
@[simp] theorem loadChunk_draws (s : State) : (loadChunk s).draws = s.draws := rfl
@[simp] theorem loadChunk_drawCount (s : State) : (loadChunk s).drawCount = s.drawCount := rfl

/-! ## `loadRangeSector` -/

@[simp] theorem loadRangeSector_cfg (s : State) : (loadRangeSector s).cfg = s.cfg := rfl
@[simp] theorem loadRangeSector_phase (s : State) : (loadRangeSector s).phase = s.phase := rfl
@[simp] theorem loadRangeSector_sphase (s : State) : (loadRangeSector s).sphase = s.sphase := rfl
@[simp] theorem loadRangeSector_rphase (s : State) : (loadRangeSector s).rphase = s.rphase := rfl
@[simp] theorem loadRangeSector_req (s : State) : (loadRangeSector s).req = s.req := rfl
@[simp] theorem loadRangeSector_addr (s : State) : (loadRangeSector s).addr = s.addr := rfl
@[simp] theorem loadRangeSector_len (s : State) : (loadRangeSector s).len = s.len := rfl
@[simp] theorem loadRangeSector_off (s : State) : (loadRangeSector s).off = s.off := rfl
@[simp] theorem loadRangeSector_sidx (s : State) : (loadRangeSector s).sidx = s.base + s.i := rfl
@[simp] theorem loadRangeSector_wsr1 (s : State) : (loadRangeSector s).wsr1 = s.wsr1 := rfl
@[simp] theorem loadRangeSector_wsr2 (s : State) : (loadRangeSector s).wsr2 = s.wsr2 := rfl
@[simp] theorem loadRangeSector_i (s : State) : (loadRangeSector s).i = s.i := rfl
@[simp] theorem loadRangeSector_n (s : State) : (loadRangeSector s).n = s.n := rfl
@[simp] theorem loadRangeSector_base (s : State) : (loadRangeSector s).base = s.base := rfl
@[simp] theorem loadRangeSector_eidx (s : State) : (loadRangeSector s).eidx = s.eidx := rfl
@[simp] theorem loadRangeSector_polls (s : State) : (loadRangeSector s).polls = s.polls := rfl
@[simp] theorem loadRangeSector_tries (s : State) : (loadRangeSector s).tries = s.tries := rfl
@[simp] theorem loadRangeSector_rspValid (s : State) : (loadRangeSector s).rspValid = s.rspValid := rfl
@[simp] theorem loadRangeSector_result (s : State) : (loadRangeSector s).result = s.result := rfl
@[simp] theorem loadRangeSector_rspSr (s : State) : (loadRangeSector s).rspSr = s.rspSr := rfl
@[simp] theorem loadRangeSector_rspId (s : State) : (loadRangeSector s).rspId = s.rspId := rfl
@[simp] theorem loadRangeSector_sr (s : State) : (loadRangeSector s).sr = s.sr := rfl
@[simp] theorem loadRangeSector_id (s : State) : (loadRangeSector s).id = s.id := rfl
@[simp] theorem loadRangeSector_cs (s : State) : (loadRangeSector s).cs = s.cs := rfl
@[simp] theorem loadRangeSector_bus (s : State) : (loadRangeSector s).bus = s.bus := rfl
@[simp] theorem loadRangeSector_ret (s : State) : (loadRangeSector s).ret = s.ret := rfl
@[simp] theorem loadRangeSector_rx (s : State) : (loadRangeSector s).rx = s.rx := rfl
@[simp] theorem loadRangeSector_data (s : State) : (loadRangeSector s).data = s.data := rfl
@[simp] theorem loadRangeSector_pos (s : State) : (loadRangeSector s).pos = s.pos := rfl
@[simp] theorem loadRangeSector_atTest (s : State) : (loadRangeSector s).atTest = s.atTest := rfl
@[simp] theorem loadRangeSector_trace (s : State) : (loadRangeSector s).trace = s.trace := rfl
@[simp] theorem loadRangeSector_chip (s : State) : (loadRangeSector s).chip = s.chip := rfl
@[simp] theorem loadRangeSector_buffer (s : State) : (loadRangeSector s).buffer = s.buffer := rfl
@[simp] theorem loadRangeSector_regions (s : State) : (loadRangeSector s).regions = s.regions := rfl
@[simp] theorem loadRangeSector_offers (s : State) : (loadRangeSector s).offers = s.offers := rfl
@[simp] theorem loadRangeSector_inputs (s : State) : (loadRangeSector s).inputs = s.inputs := rfl
@[simp] theorem loadRangeSector_draws (s : State) : (loadRangeSector s).draws = s.draws := rfl
@[simp] theorem loadRangeSector_drawCount (s : State) : (loadRangeSector s).drawCount = s.drawCount := rfl

/-! ## `accept` -/

@[simp] theorem accept_cfg (r : Request) (s : State) : (accept r s).cfg = s.cfg := rfl
@[simp] theorem accept_phase (r : Request) (s : State) : (accept r s).phase = .busy := rfl
@[simp] theorem accept_sphase (r : Request) (s : State) : (accept r s).sphase = .check := rfl
@[simp] theorem accept_rphase (r : Request) (s : State) : (accept r s).rphase = .none := rfl
@[simp] theorem accept_req (r : Request) (s : State) : (accept r s).req = r := rfl
@[simp] theorem accept_addr (r : Request) (s : State) : (accept r s).addr = s.addr := rfl
@[simp] theorem accept_len (r : Request) (s : State) : (accept r s).len = s.len := rfl
@[simp] theorem accept_off (r : Request) (s : State) : (accept r s).off = s.off := rfl
@[simp] theorem accept_sidx (r : Request) (s : State) : (accept r s).sidx = s.sidx := rfl
@[simp] theorem accept_wsr1 (r : Request) (s : State) : (accept r s).wsr1 = s.wsr1 := rfl
@[simp] theorem accept_wsr2 (r : Request) (s : State) : (accept r s).wsr2 = s.wsr2 := rfl
@[simp] theorem accept_i (r : Request) (s : State) : (accept r s).i = s.i := rfl
@[simp] theorem accept_n (r : Request) (s : State) : (accept r s).n = s.n := rfl
@[simp] theorem accept_base (r : Request) (s : State) : (accept r s).base = s.base := rfl
@[simp] theorem accept_eidx (r : Request) (s : State) : (accept r s).eidx = s.eidx := rfl
@[simp] theorem accept_polls (r : Request) (s : State) : (accept r s).polls = s.polls := rfl
@[simp] theorem accept_tries (r : Request) (s : State) : (accept r s).tries = s.tries := rfl
@[simp] theorem accept_rspValid (r : Request) (s : State) : (accept r s).rspValid = false := rfl
@[simp] theorem accept_result (r : Request) (s : State) : (accept r s).result = s.result := rfl
@[simp] theorem accept_rspSr (r : Request) (s : State) : (accept r s).rspSr = s.rspSr := rfl
@[simp] theorem accept_rspId (r : Request) (s : State) : (accept r s).rspId = s.rspId := rfl
@[simp] theorem accept_sr (r : Request) (s : State) : (accept r s).sr = s.sr := rfl
@[simp] theorem accept_id (r : Request) (s : State) : (accept r s).id = s.id := rfl
@[simp] theorem accept_cs (r : Request) (s : State) : (accept r s).cs = s.cs := rfl
@[simp] theorem accept_bus (r : Request) (s : State) : (accept r s).bus = s.bus := rfl
@[simp] theorem accept_ret (r : Request) (s : State) : (accept r s).ret = s.ret := rfl
@[simp] theorem accept_rx (r : Request) (s : State) : (accept r s).rx = s.rx := rfl
@[simp] theorem accept_data (r : Request) (s : State) : (accept r s).data = s.data := rfl
@[simp] theorem accept_pos (r : Request) (s : State) : (accept r s).pos = s.pos := rfl
@[simp] theorem accept_atTest (r : Request) (s : State) : (accept r s).atTest = s.atTest := rfl
@[simp] theorem accept_trace (r : Request) (s : State) : (accept r s).trace = s.trace := rfl
@[simp] theorem accept_chip (r : Request) (s : State) : (accept r s).chip = s.chip := rfl
@[simp] theorem accept_buffer (r : Request) (s : State) : (accept r s).buffer = s.buffer := rfl
@[simp] theorem accept_regions (r : Request) (s : State) : (accept r s).regions = s.regions := rfl
@[simp] theorem accept_offers (r : Request) (s : State) : (accept r s).offers = s.offers := rfl
@[simp] theorem accept_inputs (r : Request) (s : State) : (accept r s).inputs = s.inputs := rfl
@[simp] theorem accept_draws (r : Request) (s : State) : (accept r s).draws = s.draws := rfl
@[simp] theorem accept_drawCount (r : Request) (s : State) : (accept r s).drawCount = s.drawCount := rfl

/-! ## `respondOk` -/

@[simp] theorem respondOk_cfg (s : State) : (respondOk s).cfg = s.cfg := rfl
@[simp] theorem respondOk_phase (s : State) : (respondOk s).phase = .respond := rfl
@[simp] theorem respondOk_sphase (s : State) : (respondOk s).sphase = s.sphase := rfl
@[simp] theorem respondOk_rphase (s : State) : (respondOk s).rphase = s.rphase := rfl
@[simp] theorem respondOk_req (s : State) : (respondOk s).req = s.req := rfl
@[simp] theorem respondOk_addr (s : State) : (respondOk s).addr = s.addr := rfl
@[simp] theorem respondOk_len (s : State) : (respondOk s).len = s.len := rfl
@[simp] theorem respondOk_off (s : State) : (respondOk s).off = s.off := rfl
@[simp] theorem respondOk_sidx (s : State) : (respondOk s).sidx = s.sidx := rfl
@[simp] theorem respondOk_wsr1 (s : State) : (respondOk s).wsr1 = s.wsr1 := rfl
@[simp] theorem respondOk_wsr2 (s : State) : (respondOk s).wsr2 = s.wsr2 := rfl
@[simp] theorem respondOk_i (s : State) : (respondOk s).i = s.i := rfl
@[simp] theorem respondOk_n (s : State) : (respondOk s).n = s.n := rfl
@[simp] theorem respondOk_base (s : State) : (respondOk s).base = s.base := rfl
@[simp] theorem respondOk_eidx (s : State) : (respondOk s).eidx = s.eidx := rfl
@[simp] theorem respondOk_polls (s : State) : (respondOk s).polls = s.polls := rfl
@[simp] theorem respondOk_tries (s : State) : (respondOk s).tries = s.tries := rfl
@[simp] theorem respondOk_rspValid (s : State) : (respondOk s).rspValid = true := rfl
@[simp] theorem respondOk_result (s : State) : (respondOk s).result = codeOk := rfl
@[simp] theorem respondOk_rspSr (s : State) : (respondOk s).rspSr = s.rspSr := rfl
@[simp] theorem respondOk_rspId (s : State) : (respondOk s).rspId = s.rspId := rfl
@[simp] theorem respondOk_sr (s : State) : (respondOk s).sr = s.sr := rfl
@[simp] theorem respondOk_id (s : State) : (respondOk s).id = s.id := rfl
@[simp] theorem respondOk_cs (s : State) : (respondOk s).cs = s.cs := rfl
@[simp] theorem respondOk_bus (s : State) : (respondOk s).bus = s.bus := rfl
@[simp] theorem respondOk_ret (s : State) : (respondOk s).ret = s.ret := rfl
@[simp] theorem respondOk_rx (s : State) : (respondOk s).rx = s.rx := rfl
@[simp] theorem respondOk_data (s : State) : (respondOk s).data = s.data := rfl
@[simp] theorem respondOk_pos (s : State) : (respondOk s).pos = s.pos := rfl
@[simp] theorem respondOk_atTest (s : State) : (respondOk s).atTest = s.atTest := rfl
@[simp] theorem respondOk_trace (s : State) : (respondOk s).trace = s.trace := rfl
@[simp] theorem respondOk_chip (s : State) : (respondOk s).chip = s.chip := rfl
@[simp] theorem respondOk_buffer (s : State) : (respondOk s).buffer = s.buffer := rfl
@[simp] theorem respondOk_regions (s : State) : (respondOk s).regions = s.regions := rfl
@[simp] theorem respondOk_offers (s : State) : (respondOk s).offers = s.offers := rfl
@[simp] theorem respondOk_inputs (s : State) : (respondOk s).inputs = s.inputs := rfl
@[simp] theorem respondOk_draws (s : State) : (respondOk s).draws = s.draws := rfl
@[simp] theorem respondOk_drawCount (s : State) : (respondOk s).drawCount = s.drawCount := rfl

/-! ## `abort` -/

@[simp] theorem abort_cfg (c : Byte) (s : State) : (abort c s).cfg = s.cfg := rfl
@[simp] theorem abort_phase (c : Byte) (s : State) : (abort c s).phase = .respond := rfl
@[simp] theorem abort_sphase (c : Byte) (s : State) : (abort c s).sphase = .finish := rfl
@[simp] theorem abort_rphase (c : Byte) (s : State) : (abort c s).rphase = .none := rfl
@[simp] theorem abort_req (c : Byte) (s : State) : (abort c s).req = s.req := rfl
@[simp] theorem abort_addr (c : Byte) (s : State) : (abort c s).addr = s.addr := rfl
@[simp] theorem abort_len (c : Byte) (s : State) : (abort c s).len = s.len := rfl
@[simp] theorem abort_off (c : Byte) (s : State) : (abort c s).off = s.off := rfl
@[simp] theorem abort_sidx (c : Byte) (s : State) : (abort c s).sidx = s.sidx := rfl
@[simp] theorem abort_wsr1 (c : Byte) (s : State) : (abort c s).wsr1 = s.wsr1 := rfl
@[simp] theorem abort_wsr2 (c : Byte) (s : State) : (abort c s).wsr2 = s.wsr2 := rfl
@[simp] theorem abort_i (c : Byte) (s : State) : (abort c s).i = s.i := rfl
@[simp] theorem abort_n (c : Byte) (s : State) : (abort c s).n = s.n := rfl
@[simp] theorem abort_base (c : Byte) (s : State) : (abort c s).base = s.base := rfl
@[simp] theorem abort_eidx (c : Byte) (s : State) : (abort c s).eidx = s.eidx := rfl
@[simp] theorem abort_polls (c : Byte) (s : State) : (abort c s).polls = s.polls := rfl
@[simp] theorem abort_tries (c : Byte) (s : State) : (abort c s).tries = s.tries := rfl
@[simp] theorem abort_rspValid (c : Byte) (s : State) : (abort c s).rspValid = true := rfl
@[simp] theorem abort_result (c : Byte) (s : State) : (abort c s).result = c := rfl
@[simp] theorem abort_rspSr (c : Byte) (s : State) : (abort c s).rspSr = s.rspSr := rfl
@[simp] theorem abort_rspId (c : Byte) (s : State) : (abort c s).rspId = s.rspId := rfl
@[simp] theorem abort_sr (c : Byte) (s : State) : (abort c s).sr = s.sr := rfl
@[simp] theorem abort_id (c : Byte) (s : State) : (abort c s).id = s.id := rfl
@[simp] theorem abort_cs (c : Byte) (s : State) : (abort c s).cs = false := rfl
@[simp] theorem abort_bus (c : Byte) (s : State) : (abort c s).bus = none := rfl
@[simp] theorem abort_ret (c : Byte) (s : State) : (abort c s).ret = none := rfl
@[simp] theorem abort_rx (c : Byte) (s : State) : (abort c s).rx = s.rx := rfl
@[simp] theorem abort_data (c : Byte) (s : State) : (abort c s).data = s.data := rfl
@[simp] theorem abort_pos (c : Byte) (s : State) : (abort c s).pos = s.pos := rfl
@[simp] theorem abort_atTest (c : Byte) (s : State) : (abort c s).atTest = s.atTest := rfl
@[simp] theorem abort_trace (c : Byte) (s : State) : (abort c s).trace = s.trace := rfl
@[simp] theorem abort_chip (c : Byte) (s : State) : (abort c s).chip = s.chip := rfl
@[simp] theorem abort_buffer (c : Byte) (s : State) : (abort c s).buffer = s.buffer := rfl
@[simp] theorem abort_regions (c : Byte) (s : State) : (abort c s).regions = s.regions := rfl
@[simp] theorem abort_offers (c : Byte) (s : State) : (abort c s).offers = s.offers := rfl
@[simp] theorem abort_inputs (c : Byte) (s : State) : (abort c s).inputs = s.inputs := rfl
@[simp] theorem abort_draws (c : Byte) (s : State) : (abort c s).draws = s.draws := rfl
@[simp] theorem abort_drawCount (c : Byte) (s : State) : (abort c s).drawCount = s.drawCount := rfl

/-! ## `callFrame` -/

@[simp] theorem callFrame_cfg (p : SPhase) (f : FrameCall) (s : State) : (callFrame p f s).cfg = s.cfg := rfl
@[simp] theorem callFrame_phase (p : SPhase) (f : FrameCall) (s : State) : (callFrame p f s).phase = s.phase := rfl
@[simp] theorem callFrame_sphase (p : SPhase) (f : FrameCall) (s : State) : (callFrame p f s).sphase = p := rfl
@[simp] theorem callFrame_rphase (p : SPhase) (f : FrameCall) (s : State) : (callFrame p f s).rphase = s.rphase := rfl
@[simp] theorem callFrame_req (p : SPhase) (f : FrameCall) (s : State) : (callFrame p f s).req = s.req := rfl
@[simp] theorem callFrame_addr (p : SPhase) (f : FrameCall) (s : State) : (callFrame p f s).addr = s.addr := rfl
@[simp] theorem callFrame_len (p : SPhase) (f : FrameCall) (s : State) : (callFrame p f s).len = s.len := rfl
@[simp] theorem callFrame_off (p : SPhase) (f : FrameCall) (s : State) : (callFrame p f s).off = s.off := rfl
@[simp] theorem callFrame_sidx (p : SPhase) (f : FrameCall) (s : State) : (callFrame p f s).sidx = s.sidx := rfl
@[simp] theorem callFrame_wsr1 (p : SPhase) (f : FrameCall) (s : State) : (callFrame p f s).wsr1 = s.wsr1 := rfl
@[simp] theorem callFrame_wsr2 (p : SPhase) (f : FrameCall) (s : State) : (callFrame p f s).wsr2 = s.wsr2 := rfl
@[simp] theorem callFrame_i (p : SPhase) (f : FrameCall) (s : State) : (callFrame p f s).i = s.i := rfl
@[simp] theorem callFrame_n (p : SPhase) (f : FrameCall) (s : State) : (callFrame p f s).n = s.n := rfl
@[simp] theorem callFrame_base (p : SPhase) (f : FrameCall) (s : State) : (callFrame p f s).base = s.base := rfl
@[simp] theorem callFrame_eidx (p : SPhase) (f : FrameCall) (s : State) : (callFrame p f s).eidx = s.eidx := rfl
@[simp] theorem callFrame_polls (p : SPhase) (f : FrameCall) (s : State) : (callFrame p f s).polls = s.polls := rfl
@[simp] theorem callFrame_tries (p : SPhase) (f : FrameCall) (s : State) : (callFrame p f s).tries = s.tries := rfl
@[simp] theorem callFrame_rspValid (p : SPhase) (f : FrameCall) (s : State) : (callFrame p f s).rspValid = s.rspValid := rfl
@[simp] theorem callFrame_result (p : SPhase) (f : FrameCall) (s : State) : (callFrame p f s).result = s.result := rfl
@[simp] theorem callFrame_rspSr (p : SPhase) (f : FrameCall) (s : State) : (callFrame p f s).rspSr = s.rspSr := rfl
@[simp] theorem callFrame_rspId (p : SPhase) (f : FrameCall) (s : State) : (callFrame p f s).rspId = s.rspId := rfl
@[simp] theorem callFrame_sr (p : SPhase) (f : FrameCall) (s : State) : (callFrame p f s).sr = s.sr := rfl
@[simp] theorem callFrame_id (p : SPhase) (f : FrameCall) (s : State) : (callFrame p f s).id = s.id := rfl
@[simp] theorem callFrame_cs (p : SPhase) (f : FrameCall) (s : State) : (callFrame p f s).cs = s.cs := rfl
@[simp] theorem callFrame_bus (p : SPhase) (f : FrameCall) (s : State) : (callFrame p f s).bus = some f := rfl
@[simp] theorem callFrame_ret (p : SPhase) (f : FrameCall) (s : State) : (callFrame p f s).ret = none := rfl
@[simp] theorem callFrame_rx (p : SPhase) (f : FrameCall) (s : State) : (callFrame p f s).rx = s.rx := rfl
@[simp] theorem callFrame_data (p : SPhase) (f : FrameCall) (s : State) : (callFrame p f s).data = s.data := rfl
@[simp] theorem callFrame_pos (p : SPhase) (f : FrameCall) (s : State) : (callFrame p f s).pos = s.pos := rfl
@[simp] theorem callFrame_atTest (p : SPhase) (f : FrameCall) (s : State) : (callFrame p f s).atTest = s.atTest := rfl
@[simp] theorem callFrame_trace (p : SPhase) (f : FrameCall) (s : State) : (callFrame p f s).trace = s.trace := rfl
@[simp] theorem callFrame_chip (p : SPhase) (f : FrameCall) (s : State) : (callFrame p f s).chip = s.chip := rfl
@[simp] theorem callFrame_buffer (p : SPhase) (f : FrameCall) (s : State) : (callFrame p f s).buffer = s.buffer := rfl
@[simp] theorem callFrame_regions (p : SPhase) (f : FrameCall) (s : State) : (callFrame p f s).regions = s.regions := rfl
@[simp] theorem callFrame_offers (p : SPhase) (f : FrameCall) (s : State) : (callFrame p f s).offers = s.offers := rfl
@[simp] theorem callFrame_inputs (p : SPhase) (f : FrameCall) (s : State) : (callFrame p f s).inputs = s.inputs := rfl
@[simp] theorem callFrame_draws (p : SPhase) (f : FrameCall) (s : State) : (callFrame p f s).draws = s.draws := rfl
@[simp] theorem callFrame_drawCount (p : SPhase) (f : FrameCall) (s : State) : (callFrame p f s).drawCount = s.drawCount := rfl

/-! ## `taken` -/

@[simp] theorem taken_cfg (s : State) : (taken s).cfg = s.cfg := rfl
@[simp] theorem taken_phase (s : State) : (taken s).phase = s.phase := rfl
@[simp] theorem taken_sphase (s : State) : (taken s).sphase = s.sphase := rfl
@[simp] theorem taken_rphase (s : State) : (taken s).rphase = s.rphase := rfl
@[simp] theorem taken_req (s : State) : (taken s).req = s.req := rfl
@[simp] theorem taken_addr (s : State) : (taken s).addr = s.addr := rfl
@[simp] theorem taken_len (s : State) : (taken s).len = s.len := rfl
@[simp] theorem taken_off (s : State) : (taken s).off = s.off := rfl
@[simp] theorem taken_sidx (s : State) : (taken s).sidx = s.sidx := rfl
@[simp] theorem taken_wsr1 (s : State) : (taken s).wsr1 = s.wsr1 := rfl
@[simp] theorem taken_wsr2 (s : State) : (taken s).wsr2 = s.wsr2 := rfl
@[simp] theorem taken_i (s : State) : (taken s).i = s.i := rfl
@[simp] theorem taken_n (s : State) : (taken s).n = s.n := rfl
@[simp] theorem taken_base (s : State) : (taken s).base = s.base := rfl
@[simp] theorem taken_eidx (s : State) : (taken s).eidx = s.eidx := rfl
@[simp] theorem taken_polls (s : State) : (taken s).polls = s.polls := rfl
@[simp] theorem taken_tries (s : State) : (taken s).tries = s.tries := rfl
@[simp] theorem taken_rspValid (s : State) : (taken s).rspValid = s.rspValid := rfl
@[simp] theorem taken_result (s : State) : (taken s).result = s.result := rfl
@[simp] theorem taken_rspSr (s : State) : (taken s).rspSr = s.rspSr := rfl
@[simp] theorem taken_rspId (s : State) : (taken s).rspId = s.rspId := rfl
@[simp] theorem taken_sr (s : State) : (taken s).sr = s.sr := rfl
@[simp] theorem taken_id (s : State) : (taken s).id = s.id := rfl
@[simp] theorem taken_cs (s : State) : (taken s).cs = s.cs := rfl
@[simp] theorem taken_bus (s : State) : (taken s).bus = s.bus := rfl
@[simp] theorem taken_ret (s : State) : (taken s).ret = none := rfl
@[simp] theorem taken_rx (s : State) : (taken s).rx = s.rx := rfl
@[simp] theorem taken_data (s : State) : (taken s).data = s.data := rfl
@[simp] theorem taken_pos (s : State) : (taken s).pos = s.pos := rfl
@[simp] theorem taken_atTest (s : State) : (taken s).atTest = s.atTest := rfl
@[simp] theorem taken_trace (s : State) : (taken s).trace = s.trace := rfl
@[simp] theorem taken_chip (s : State) : (taken s).chip = s.chip := rfl
@[simp] theorem taken_buffer (s : State) : (taken s).buffer = s.buffer := rfl
@[simp] theorem taken_regions (s : State) : (taken s).regions = s.regions := rfl
@[simp] theorem taken_offers (s : State) : (taken s).offers = s.offers := rfl
@[simp] theorem taken_inputs (s : State) : (taken s).inputs = s.inputs := rfl
@[simp] theorem taken_draws (s : State) : (taken s).draws = s.draws := rfl
@[simp] theorem taken_drawCount (s : State) : (taken s).drawCount = s.drawCount := rfl

/-! ## `polled` -/

@[simp] theorem polled_cfg (s : State) : (polled s).cfg = s.cfg := rfl
@[simp] theorem polled_phase (s : State) : (polled s).phase = s.phase := rfl
@[simp] theorem polled_sphase (s : State) : (polled s).sphase = s.sphase := rfl
@[simp] theorem polled_rphase (s : State) : (polled s).rphase = s.rphase := rfl
@[simp] theorem polled_req (s : State) : (polled s).req = s.req := rfl
@[simp] theorem polled_addr (s : State) : (polled s).addr = s.addr := rfl
@[simp] theorem polled_len (s : State) : (polled s).len = s.len := rfl
@[simp] theorem polled_off (s : State) : (polled s).off = s.off := rfl
@[simp] theorem polled_sidx (s : State) : (polled s).sidx = s.sidx := rfl
@[simp] theorem polled_wsr1 (s : State) : (polled s).wsr1 = s.wsr1 := rfl
@[simp] theorem polled_wsr2 (s : State) : (polled s).wsr2 = s.wsr2 := rfl
@[simp] theorem polled_i (s : State) : (polled s).i = s.i := rfl
@[simp] theorem polled_n (s : State) : (polled s).n = s.n := rfl
@[simp] theorem polled_base (s : State) : (polled s).base = s.base := rfl
@[simp] theorem polled_eidx (s : State) : (polled s).eidx = s.eidx := rfl
@[simp] theorem polled_polls (s : State) : (polled s).polls = s.polls + 1 := rfl
@[simp] theorem polled_tries (s : State) : (polled s).tries = s.tries := rfl
@[simp] theorem polled_rspValid (s : State) : (polled s).rspValid = s.rspValid := rfl
@[simp] theorem polled_result (s : State) : (polled s).result = s.result := rfl
@[simp] theorem polled_rspSr (s : State) : (polled s).rspSr = s.rspSr := rfl
@[simp] theorem polled_rspId (s : State) : (polled s).rspId = s.rspId := rfl
@[simp] theorem polled_sr (s : State) : (polled s).sr = s.rxByte 0 := rfl
@[simp] theorem polled_id (s : State) : (polled s).id = s.id := rfl
@[simp] theorem polled_cs (s : State) : (polled s).cs = s.cs := rfl
@[simp] theorem polled_bus (s : State) : (polled s).bus = s.bus := rfl
@[simp] theorem polled_ret (s : State) : (polled s).ret = s.ret := rfl
@[simp] theorem polled_rx (s : State) : (polled s).rx = s.rx := rfl
@[simp] theorem polled_data (s : State) : (polled s).data = s.data := rfl
@[simp] theorem polled_pos (s : State) : (polled s).pos = s.pos := rfl
@[simp] theorem polled_atTest (s : State) : (polled s).atTest = s.atTest := rfl
@[simp] theorem polled_trace (s : State) : (polled s).trace = s.trace := rfl
@[simp] theorem polled_chip (s : State) : (polled s).chip = s.chip := rfl
@[simp] theorem polled_buffer (s : State) : (polled s).buffer = s.buffer := rfl
@[simp] theorem polled_regions (s : State) : (polled s).regions = s.regions := rfl
@[simp] theorem polled_offers (s : State) : (polled s).offers = s.offers := rfl
@[simp] theorem polled_inputs (s : State) : (polled s).inputs = s.inputs := rfl
@[simp] theorem polled_draws (s : State) : (polled s).draws = s.draws := rfl
@[simp] theorem polled_drawCount (s : State) : (polled s).drawCount = s.drawCount := rfl

/-! ## `tried` -/

@[simp] theorem tried_cfg (s : State) : (tried s).cfg = s.cfg := rfl
@[simp] theorem tried_phase (s : State) : (tried s).phase = s.phase := rfl
@[simp] theorem tried_sphase (s : State) : (tried s).sphase = s.sphase := rfl
@[simp] theorem tried_rphase (s : State) : (tried s).rphase = s.rphase := rfl
@[simp] theorem tried_req (s : State) : (tried s).req = s.req := rfl
@[simp] theorem tried_addr (s : State) : (tried s).addr = s.addr := rfl
@[simp] theorem tried_len (s : State) : (tried s).len = s.len := rfl
@[simp] theorem tried_off (s : State) : (tried s).off = s.off := rfl
@[simp] theorem tried_sidx (s : State) : (tried s).sidx = s.sidx := rfl
@[simp] theorem tried_wsr1 (s : State) : (tried s).wsr1 = s.wsr1 := rfl
@[simp] theorem tried_wsr2 (s : State) : (tried s).wsr2 = s.wsr2 := rfl
@[simp] theorem tried_i (s : State) : (tried s).i = s.i := rfl
@[simp] theorem tried_n (s : State) : (tried s).n = s.n := rfl
@[simp] theorem tried_base (s : State) : (tried s).base = s.base := rfl
@[simp] theorem tried_eidx (s : State) : (tried s).eidx = s.eidx := rfl
@[simp] theorem tried_polls (s : State) : (tried s).polls = s.polls := rfl
@[simp] theorem tried_tries (s : State) : (tried s).tries = s.tries + 1 := rfl
@[simp] theorem tried_rspValid (s : State) : (tried s).rspValid = s.rspValid := rfl
@[simp] theorem tried_result (s : State) : (tried s).result = s.result := rfl
@[simp] theorem tried_rspSr (s : State) : (tried s).rspSr = s.rspSr := rfl
@[simp] theorem tried_rspId (s : State) : (tried s).rspId = s.rspId := rfl
@[simp] theorem tried_sr (s : State) : (tried s).sr = s.rxByte 0 := rfl
@[simp] theorem tried_id (s : State) : (tried s).id = s.id := rfl
@[simp] theorem tried_cs (s : State) : (tried s).cs = s.cs := rfl
@[simp] theorem tried_bus (s : State) : (tried s).bus = s.bus := rfl
@[simp] theorem tried_ret (s : State) : (tried s).ret = s.ret := rfl
@[simp] theorem tried_rx (s : State) : (tried s).rx = s.rx := rfl
@[simp] theorem tried_data (s : State) : (tried s).data = s.data := rfl
@[simp] theorem tried_pos (s : State) : (tried s).pos = s.pos := rfl
@[simp] theorem tried_atTest (s : State) : (tried s).atTest = s.atTest := rfl
@[simp] theorem tried_trace (s : State) : (tried s).trace = s.trace := rfl
@[simp] theorem tried_chip (s : State) : (tried s).chip = s.chip := rfl
@[simp] theorem tried_buffer (s : State) : (tried s).buffer = s.buffer := rfl
@[simp] theorem tried_regions (s : State) : (tried s).regions = s.regions := rfl
@[simp] theorem tried_offers (s : State) : (tried s).offers = s.offers := rfl
@[simp] theorem tried_inputs (s : State) : (tried s).inputs = s.inputs := rfl
@[simp] theorem tried_draws (s : State) : (tried s).draws = s.draws := rfl
@[simp] theorem tried_drawCount (s : State) : (tried s).drawCount = s.drawCount := rfl

/-! ## `storeId` -/

@[simp] theorem storeId_cfg (s : State) : (storeId s).cfg = s.cfg := rfl
@[simp] theorem storeId_phase (s : State) : (storeId s).phase = s.phase := rfl
@[simp] theorem storeId_sphase (s : State) : (storeId s).sphase = s.sphase := rfl
@[simp] theorem storeId_rphase (s : State) : (storeId s).rphase = s.rphase := rfl
@[simp] theorem storeId_req (s : State) : (storeId s).req = s.req := rfl
@[simp] theorem storeId_addr (s : State) : (storeId s).addr = s.addr := rfl
@[simp] theorem storeId_len (s : State) : (storeId s).len = s.len := rfl
@[simp] theorem storeId_off (s : State) : (storeId s).off = s.off := rfl
@[simp] theorem storeId_sidx (s : State) : (storeId s).sidx = s.sidx := rfl
@[simp] theorem storeId_wsr1 (s : State) : (storeId s).wsr1 = s.wsr1 := rfl
@[simp] theorem storeId_wsr2 (s : State) : (storeId s).wsr2 = s.wsr2 := rfl
@[simp] theorem storeId_i (s : State) : (storeId s).i = s.i := rfl
@[simp] theorem storeId_n (s : State) : (storeId s).n = s.n := rfl
@[simp] theorem storeId_base (s : State) : (storeId s).base = s.base := rfl
@[simp] theorem storeId_eidx (s : State) : (storeId s).eidx = s.eidx := rfl
@[simp] theorem storeId_polls (s : State) : (storeId s).polls = s.polls := rfl
@[simp] theorem storeId_tries (s : State) : (storeId s).tries = s.tries := rfl
@[simp] theorem storeId_rspValid (s : State) : (storeId s).rspValid = s.rspValid := rfl
@[simp] theorem storeId_result (s : State) : (storeId s).result = s.result := rfl
@[simp] theorem storeId_rspSr (s : State) : (storeId s).rspSr = s.rspSr := rfl
@[simp] theorem storeId_rspId (s : State) : (storeId s).rspId = s.rspId := rfl
@[simp] theorem storeId_sr (s : State) : (storeId s).sr = s.sr := rfl
@[simp] theorem storeId_id (s : State) : (storeId s).id = { mfr := s.rxByte 0, type := s.rxByte 1, cap := s.rxByte 2 } := rfl
@[simp] theorem storeId_cs (s : State) : (storeId s).cs = s.cs := rfl
@[simp] theorem storeId_bus (s : State) : (storeId s).bus = s.bus := rfl
@[simp] theorem storeId_ret (s : State) : (storeId s).ret = s.ret := rfl
@[simp] theorem storeId_rx (s : State) : (storeId s).rx = s.rx := rfl
@[simp] theorem storeId_data (s : State) : (storeId s).data = s.data := rfl
@[simp] theorem storeId_pos (s : State) : (storeId s).pos = s.pos := rfl
@[simp] theorem storeId_atTest (s : State) : (storeId s).atTest = s.atTest := rfl
@[simp] theorem storeId_trace (s : State) : (storeId s).trace = s.trace := rfl
@[simp] theorem storeId_chip (s : State) : (storeId s).chip = s.chip := rfl
@[simp] theorem storeId_buffer (s : State) : (storeId s).buffer = s.buffer := rfl
@[simp] theorem storeId_regions (s : State) : (storeId s).regions = s.regions := rfl
@[simp] theorem storeId_offers (s : State) : (storeId s).offers = s.offers := rfl
@[simp] theorem storeId_inputs (s : State) : (storeId s).inputs = s.inputs := rfl
@[simp] theorem storeId_draws (s : State) : (storeId s).draws = s.draws := rfl
@[simp] theorem storeId_drawCount (s : State) : (storeId s).drawCount = s.drawCount := rfl

/-! ## `segments` -/

@[simp] theorem segments_cfg (f : FrameCall) (x : ChipSide) (s : State) : (segments f x s).cfg = s.cfg := rfl
@[simp] theorem segments_phase (f : FrameCall) (x : ChipSide) (s : State) : (segments f x s).phase = s.phase := rfl
@[simp] theorem segments_sphase (f : FrameCall) (x : ChipSide) (s : State) : (segments f x s).sphase = s.sphase := rfl
@[simp] theorem segments_rphase (f : FrameCall) (x : ChipSide) (s : State) : (segments f x s).rphase = s.rphase := rfl
@[simp] theorem segments_req (f : FrameCall) (x : ChipSide) (s : State) : (segments f x s).req = s.req := rfl
@[simp] theorem segments_addr (f : FrameCall) (x : ChipSide) (s : State) : (segments f x s).addr = s.addr := rfl
@[simp] theorem segments_len (f : FrameCall) (x : ChipSide) (s : State) : (segments f x s).len = s.len := rfl
@[simp] theorem segments_off (f : FrameCall) (x : ChipSide) (s : State) : (segments f x s).off = s.off := rfl
@[simp] theorem segments_sidx (f : FrameCall) (x : ChipSide) (s : State) : (segments f x s).sidx = s.sidx := rfl
@[simp] theorem segments_wsr1 (f : FrameCall) (x : ChipSide) (s : State) : (segments f x s).wsr1 = s.wsr1 := rfl
@[simp] theorem segments_wsr2 (f : FrameCall) (x : ChipSide) (s : State) : (segments f x s).wsr2 = s.wsr2 := rfl
@[simp] theorem segments_i (f : FrameCall) (x : ChipSide) (s : State) : (segments f x s).i = s.i := rfl
@[simp] theorem segments_n (f : FrameCall) (x : ChipSide) (s : State) : (segments f x s).n = s.n := rfl
@[simp] theorem segments_base (f : FrameCall) (x : ChipSide) (s : State) : (segments f x s).base = s.base := rfl
@[simp] theorem segments_eidx (f : FrameCall) (x : ChipSide) (s : State) : (segments f x s).eidx = s.eidx := rfl
@[simp] theorem segments_polls (f : FrameCall) (x : ChipSide) (s : State) : (segments f x s).polls = s.polls := rfl
@[simp] theorem segments_tries (f : FrameCall) (x : ChipSide) (s : State) : (segments f x s).tries = s.tries := rfl
@[simp] theorem segments_rspValid (f : FrameCall) (x : ChipSide) (s : State) : (segments f x s).rspValid = s.rspValid := rfl
@[simp] theorem segments_result (f : FrameCall) (x : ChipSide) (s : State) : (segments f x s).result = s.result := rfl
@[simp] theorem segments_rspSr (f : FrameCall) (x : ChipSide) (s : State) : (segments f x s).rspSr = s.rspSr := rfl
@[simp] theorem segments_rspId (f : FrameCall) (x : ChipSide) (s : State) : (segments f x s).rspId = s.rspId := rfl
@[simp] theorem segments_sr (f : FrameCall) (x : ChipSide) (s : State) : (segments f x s).sr = s.sr := rfl
@[simp] theorem segments_id (f : FrameCall) (x : ChipSide) (s : State) : (segments f x s).id = s.id := rfl
@[simp] theorem segments_cs (f : FrameCall) (x : ChipSide) (s : State) : (segments f x s).cs = s.cs := rfl
@[simp] theorem segments_bus (f : FrameCall) (x : ChipSide) (s : State) : (segments f x s).bus = none := rfl
@[simp] theorem segments_ret (f : FrameCall) (x : ChipSide) (s : State) : (segments f x s).ret = some (s.frameResult f x).ok := rfl
@[simp] theorem segments_rx (f : FrameCall) (x : ChipSide) (s : State) : (segments f x s).rx = (s.frameResult f x).rx := rfl
@[simp] theorem segments_data (f : FrameCall) (x : ChipSide) (s : State) : (segments f x s).data = s.data := rfl
@[simp] theorem segments_pos (f : FrameCall) (x : ChipSide) (s : State) : (segments f x s).pos = s.pos := rfl
@[simp] theorem segments_atTest (f : FrameCall) (x : ChipSide) (s : State) : (segments f x s).atTest = s.atTest := rfl
@[simp] theorem segments_trace (f : FrameCall) (x : ChipSide) (s : State) : (segments f x s).trace = .frame f (s.frameResult f x).rx (s.frameResult f x).outcome :: s.trace := rfl
@[simp] theorem segments_chip (f : FrameCall) (x : ChipSide) (s : State) : (segments f x s).chip = (s.frameResult f x).chip := rfl
@[simp] theorem segments_buffer (f : FrameCall) (x : ChipSide) (s : State) : (segments f x s).buffer = s.buffer := rfl
@[simp] theorem segments_regions (f : FrameCall) (x : ChipSide) (s : State) : (segments f x s).regions = s.regions := rfl
@[simp] theorem segments_offers (f : FrameCall) (x : ChipSide) (s : State) : (segments f x s).offers = s.offers := rfl
@[simp] theorem segments_inputs (f : FrameCall) (x : ChipSide) (s : State) : (segments f x s).inputs = s.inputs := rfl
@[simp] theorem segments_draws (f : FrameCall) (x : ChipSide) (s : State) : (segments f x s).draws = s.draws.tail := rfl
@[simp] theorem segments_drawCount (f : FrameCall) (x : ChipSide) (s : State) : (segments f x s).drawCount = s.nextDrawCount := rfl

/-! ## `controllerReset` -/

@[simp] theorem controllerReset_cfg (s : State) : (controllerReset s).cfg = s.cfg := rfl
@[simp] theorem controllerReset_phase (s : State) : (controllerReset s).phase = .idle := rfl
@[simp] theorem controllerReset_sphase (s : State) : (controllerReset s).sphase = .finish := rfl
@[simp] theorem controllerReset_rphase (s : State) : (controllerReset s).rphase = .none := rfl
@[simp] theorem controllerReset_req (s : State) : (controllerReset s).req = { cmd := 0, a0 := 0, a1 := 0, boff := 0 } := rfl
@[simp] theorem controllerReset_addr (s : State) : (controllerReset s).addr = 0 := rfl
@[simp] theorem controllerReset_len (s : State) : (controllerReset s).len = 0 := rfl
@[simp] theorem controllerReset_off (s : State) : (controllerReset s).off = 0 := rfl
@[simp] theorem controllerReset_sidx (s : State) : (controllerReset s).sidx = 0 := rfl
@[simp] theorem controllerReset_wsr1 (s : State) : (controllerReset s).wsr1 = 0 := rfl
@[simp] theorem controllerReset_wsr2 (s : State) : (controllerReset s).wsr2 = 0 := rfl
@[simp] theorem controllerReset_i (s : State) : (controllerReset s).i = 0 := rfl
@[simp] theorem controllerReset_n (s : State) : (controllerReset s).n = 0 := rfl
@[simp] theorem controllerReset_base (s : State) : (controllerReset s).base = 0 := rfl
@[simp] theorem controllerReset_eidx (s : State) : (controllerReset s).eidx = 0 := rfl
@[simp] theorem controllerReset_polls (s : State) : (controllerReset s).polls = 0 := rfl
@[simp] theorem controllerReset_tries (s : State) : (controllerReset s).tries = 0 := rfl
@[simp] theorem controllerReset_rspValid (s : State) : (controllerReset s).rspValid = false := rfl
@[simp] theorem controllerReset_result (s : State) : (controllerReset s).result = 0 := rfl
@[simp] theorem controllerReset_rspSr (s : State) : (controllerReset s).rspSr = 0 := rfl
@[simp] theorem controllerReset_rspId (s : State) : (controllerReset s).rspId = { mfr := 0, type := 0, cap := 0 } := rfl
@[simp] theorem controllerReset_sr (s : State) : (controllerReset s).sr = 0 := rfl
@[simp] theorem controllerReset_id (s : State) : (controllerReset s).id = { mfr := 0, type := 0, cap := 0 } := rfl
@[simp] theorem controllerReset_cs (s : State) : (controllerReset s).cs = false := rfl
@[simp] theorem controllerReset_bus (s : State) : (controllerReset s).bus = none := rfl
@[simp] theorem controllerReset_ret (s : State) : (controllerReset s).ret = none := rfl
@[simp] theorem controllerReset_rx (s : State) : (controllerReset s).rx = [] := rfl
@[simp] theorem controllerReset_data (s : State) : (controllerReset s).data = [] := rfl
@[simp] theorem controllerReset_pos (s : State) : (controllerReset s).pos = 0 := rfl
@[simp] theorem controllerReset_atTest (s : State) : (controllerReset s).atTest = false := rfl
@[simp] theorem controllerReset_trace (s : State) : (controllerReset s).trace = s.trace := rfl
@[simp] theorem controllerReset_chip (s : State) : (controllerReset s).chip = s.chip := rfl
@[simp] theorem controllerReset_buffer (s : State) : (controllerReset s).buffer = s.buffer := rfl
@[simp] theorem controllerReset_regions (s : State) : (controllerReset s).regions = s.regions := rfl
@[simp] theorem controllerReset_offers (s : State) : (controllerReset s).offers = s.offers := rfl
@[simp] theorem controllerReset_inputs (s : State) : (controllerReset s).inputs = s.inputs := rfl
@[simp] theorem controllerReset_draws (s : State) : (controllerReset s).draws = s.draws := rfl
@[simp] theorem controllerReset_drawCount (s : State) : (controllerReset s).drawCount = s.drawCount := rfl

/-! ## `applyInput` -/

@[simp] theorem applyInput_cfg (s : State) : s.applyInput.cfg = s.cfg := by
  unfold State.applyInput; split <;> rfl
@[simp] theorem applyInput_phase (s : State) : s.applyInput.phase = s.phase := by
  unfold State.applyInput; split <;> rfl
@[simp] theorem applyInput_sphase (s : State) : s.applyInput.sphase = s.sphase := by
  unfold State.applyInput; split <;> rfl
@[simp] theorem applyInput_rphase (s : State) : s.applyInput.rphase = s.rphase := by
  unfold State.applyInput; split <;> rfl
@[simp] theorem applyInput_req (s : State) : s.applyInput.req = s.req := by
  unfold State.applyInput; split <;> rfl
@[simp] theorem applyInput_addr (s : State) : s.applyInput.addr = s.addr := by
  unfold State.applyInput; split <;> rfl
@[simp] theorem applyInput_len (s : State) : s.applyInput.len = s.len := by
  unfold State.applyInput; split <;> rfl
@[simp] theorem applyInput_off (s : State) : s.applyInput.off = s.off := by
  unfold State.applyInput; split <;> rfl
@[simp] theorem applyInput_sidx (s : State) : s.applyInput.sidx = s.sidx := by
  unfold State.applyInput; split <;> rfl
@[simp] theorem applyInput_wsr1 (s : State) : s.applyInput.wsr1 = s.wsr1 := by
  unfold State.applyInput; split <;> rfl
@[simp] theorem applyInput_wsr2 (s : State) : s.applyInput.wsr2 = s.wsr2 := by
  unfold State.applyInput; split <;> rfl
@[simp] theorem applyInput_i (s : State) : s.applyInput.i = s.i := by
  unfold State.applyInput; split <;> rfl
@[simp] theorem applyInput_n (s : State) : s.applyInput.n = s.n := by
  unfold State.applyInput; split <;> rfl
@[simp] theorem applyInput_base (s : State) : s.applyInput.base = s.base := by
  unfold State.applyInput; split <;> rfl
@[simp] theorem applyInput_eidx (s : State) : s.applyInput.eidx = s.eidx := by
  unfold State.applyInput; split <;> rfl
@[simp] theorem applyInput_polls (s : State) : s.applyInput.polls = s.polls := by
  unfold State.applyInput; split <;> rfl
@[simp] theorem applyInput_tries (s : State) : s.applyInput.tries = s.tries := by
  unfold State.applyInput; split <;> rfl
@[simp] theorem applyInput_rspValid (s : State) : s.applyInput.rspValid = s.rspValid := by
  unfold State.applyInput; split <;> rfl
@[simp] theorem applyInput_result (s : State) : s.applyInput.result = s.result := by
  unfold State.applyInput; split <;> rfl
@[simp] theorem applyInput_rspSr (s : State) : s.applyInput.rspSr = s.rspSr := by
  unfold State.applyInput; split <;> rfl
@[simp] theorem applyInput_rspId (s : State) : s.applyInput.rspId = s.rspId := by
  unfold State.applyInput; split <;> rfl
@[simp] theorem applyInput_sr (s : State) : s.applyInput.sr = s.sr := by
  unfold State.applyInput; split <;> rfl
@[simp] theorem applyInput_id (s : State) : s.applyInput.id = s.id := by
  unfold State.applyInput; split <;> rfl
@[simp] theorem applyInput_cs (s : State) : s.applyInput.cs = s.cs := by
  unfold State.applyInput; split <;> rfl
@[simp] theorem applyInput_bus (s : State) : s.applyInput.bus = s.bus := by
  unfold State.applyInput; split <;> rfl
@[simp] theorem applyInput_ret (s : State) : s.applyInput.ret = s.ret := by
  unfold State.applyInput; split <;> rfl
@[simp] theorem applyInput_rx (s : State) : s.applyInput.rx = s.rx := by
  unfold State.applyInput; split <;> rfl
@[simp] theorem applyInput_data (s : State) : s.applyInput.data = s.data := by
  unfold State.applyInput; split <;> rfl
@[simp] theorem applyInput_pos (s : State) : s.applyInput.pos = s.pos := by
  unfold State.applyInput; split <;> rfl
@[simp] theorem applyInput_atTest (s : State) : s.applyInput.atTest = s.atTest := by
  unfold State.applyInput; split <;> rfl
@[simp] theorem applyInput_trace (s : State) : s.applyInput.trace = s.trace := by
  unfold State.applyInput; split <;> rfl
@[simp] theorem applyInput_chip (s : State) : s.applyInput.chip = s.chip := by
  unfold State.applyInput; split <;> rfl
@[simp] theorem applyInput_regions (s : State) : s.applyInput.regions = s.regions := by
  unfold State.applyInput; split <;> rfl
@[simp] theorem applyInput_offers (s : State) : s.applyInput.offers = s.offers := by
  unfold State.applyInput; split <;> rfl
@[simp] theorem applyInput_draws (s : State) : s.applyInput.draws = s.draws := by
  unfold State.applyInput; split <;> rfl
@[simp] theorem applyInput_drawCount (s : State) : s.applyInput.drawCount = s.drawCount := by
  unfold State.applyInput; split <;> rfl

/-! ## The frame calls and received bytes after an update -/

@[simp] theorem callFrame_callRdsr1 (p : SPhase) (f : FrameCall) (s : State) : (callFrame p f s).callRdsr1 = s.callRdsr1 := rfl
@[simp] theorem callFrame_callWren (p : SPhase) (f : FrameCall) (s : State) : (callFrame p f s).callWren = s.callWren := rfl
@[simp] theorem callFrame_callReset (p : SPhase) (f : FrameCall) (s : State) : (callFrame p f s).callReset = s.callReset := rfl
@[simp] theorem callFrame_callRst (p : SPhase) (f : FrameCall) (s : State) : (callFrame p f s).callRst = s.callRst := rfl
@[simp] theorem callFrame_callRdid (p : SPhase) (f : FrameCall) (s : State) : (callFrame p f s).callRdid = s.callRdid := rfl
@[simp] theorem callFrame_callRdsr2 (p : SPhase) (f : FrameCall) (s : State) : (callFrame p f s).callRdsr2 = s.callRdsr2 := rfl
@[simp] theorem callFrame_callWrsr (p : SPhase) (f : FrameCall) (s : State) : (callFrame p f s).callWrsr = s.callWrsr := rfl
@[simp] theorem callFrame_callWrdi (p : SPhase) (f : FrameCall) (s : State) : (callFrame p f s).callWrdi = s.callWrdi := rfl
@[simp] theorem callFrame_callRead (p : SPhase) (f : FrameCall) (s : State) : (callFrame p f s).callRead = s.callRead := rfl
@[simp] theorem callFrame_callPp (p : SPhase) (f : FrameCall) (s : State) : (callFrame p f s).callPp = s.callPp := rfl
@[simp] theorem callFrame_callSe (p : SPhase) (f : FrameCall) (s : State) : (callFrame p f s).callSe = s.callSe := rfl
@[simp] theorem callFrame_callCe (p : SPhase) (f : FrameCall) (s : State) : (callFrame p f s).callCe = s.callCe := rfl
@[simp] theorem callFrame_rxByte (p : SPhase) (f : FrameCall) (s : State) (k : Nat) : (callFrame p f s).rxByte k = s.rxByte k := rfl

@[simp] theorem taken_callRdsr1 (s : State) : (taken s).callRdsr1 = s.callRdsr1 := rfl
@[simp] theorem taken_callWren (s : State) : (taken s).callWren = s.callWren := rfl
@[simp] theorem taken_callReset (s : State) : (taken s).callReset = s.callReset := rfl
@[simp] theorem taken_callRst (s : State) : (taken s).callRst = s.callRst := rfl
@[simp] theorem taken_callRdid (s : State) : (taken s).callRdid = s.callRdid := rfl
@[simp] theorem taken_callRdsr2 (s : State) : (taken s).callRdsr2 = s.callRdsr2 := rfl
@[simp] theorem taken_callWrsr (s : State) : (taken s).callWrsr = s.callWrsr := rfl
@[simp] theorem taken_callWrdi (s : State) : (taken s).callWrdi = s.callWrdi := rfl
@[simp] theorem taken_callRead (s : State) : (taken s).callRead = s.callRead := rfl
@[simp] theorem taken_callPp (s : State) : (taken s).callPp = s.callPp := rfl
@[simp] theorem taken_callSe (s : State) : (taken s).callSe = s.callSe := rfl
@[simp] theorem taken_callCe (s : State) : (taken s).callCe = s.callCe := rfl
@[simp] theorem taken_rxByte (s : State) (k : Nat) : (taken s).rxByte k = s.rxByte k := rfl

@[simp] theorem polled_callRdsr1 (s : State) : (polled s).callRdsr1 = s.callRdsr1 := rfl
@[simp] theorem polled_callWren (s : State) : (polled s).callWren = s.callWren := rfl
@[simp] theorem polled_callReset (s : State) : (polled s).callReset = s.callReset := rfl
@[simp] theorem polled_callRst (s : State) : (polled s).callRst = s.callRst := rfl
@[simp] theorem polled_callRdid (s : State) : (polled s).callRdid = s.callRdid := rfl
@[simp] theorem polled_callRdsr2 (s : State) : (polled s).callRdsr2 = s.callRdsr2 := rfl
@[simp] theorem polled_callWrsr (s : State) : (polled s).callWrsr = s.callWrsr := rfl
@[simp] theorem polled_callWrdi (s : State) : (polled s).callWrdi = s.callWrdi := rfl
@[simp] theorem polled_callRead (s : State) : (polled s).callRead = s.callRead := rfl
@[simp] theorem polled_callPp (s : State) : (polled s).callPp = s.callPp := rfl
@[simp] theorem polled_callSe (s : State) : (polled s).callSe = s.callSe := rfl
@[simp] theorem polled_callCe (s : State) : (polled s).callCe = s.callCe := rfl
@[simp] theorem polled_rxByte (s : State) (k : Nat) : (polled s).rxByte k = s.rxByte k := rfl

@[simp] theorem tried_callRdsr1 (s : State) : (tried s).callRdsr1 = s.callRdsr1 := rfl
@[simp] theorem tried_callWren (s : State) : (tried s).callWren = s.callWren := rfl
@[simp] theorem tried_callReset (s : State) : (tried s).callReset = s.callReset := rfl
@[simp] theorem tried_callRst (s : State) : (tried s).callRst = s.callRst := rfl
@[simp] theorem tried_callRdid (s : State) : (tried s).callRdid = s.callRdid := rfl
@[simp] theorem tried_callRdsr2 (s : State) : (tried s).callRdsr2 = s.callRdsr2 := rfl
@[simp] theorem tried_callWrsr (s : State) : (tried s).callWrsr = s.callWrsr := rfl
@[simp] theorem tried_callWrdi (s : State) : (tried s).callWrdi = s.callWrdi := rfl
@[simp] theorem tried_callRead (s : State) : (tried s).callRead = s.callRead := rfl
@[simp] theorem tried_callPp (s : State) : (tried s).callPp = s.callPp := rfl
@[simp] theorem tried_callSe (s : State) : (tried s).callSe = s.callSe := rfl
@[simp] theorem tried_callCe (s : State) : (tried s).callCe = s.callCe := rfl
@[simp] theorem tried_rxByte (s : State) (k : Nat) : (tried s).rxByte k = s.rxByte k := rfl

end Sys2Proof.Machine
end

