-- ==== Sys2Proof/Laws/Bus.lean ====
section
/-! SUPPORT. What a frame can do (R145): it runs exactly when chip-select is released, and its
result, for each way its segments can end. -/

namespace Sys2Proof.Machine

/-- A frame on a released bus is one step. -/
theorem busFrame_next {s : State} (f : FrameCall) (x : ChipSide) (h : s.cs = false) :
    busFrame f x s = .next (segments f x s) := by
  obtain ⟨cfg, phase, sphase, rphase, req, addr, len, off, sidx, wsr1, wsr2, i, n, base, eidx, polls,
    tries, rspValid, result, rspSr, rspId, sr, id, cs, bus, ret, rx, data, pos, trace, chip, buffer,
    regions, offers, inputs, draws, drawCount⟩ := s
  subst h
  rfl

/-- R141: a frame on a selected bus is a fault. -/
theorem busFrame_selected {s : State} (f : FrameCall) (x : ChipSide) (h : s.cs = true) :
    busFrame f x s = .fault .selectWhileSelected := by
  simp [busFrame, select, h]

/-- The inversion of a frame. -/
theorem busFrame_eq_next {s t : State} {f : FrameCall} {x : ChipSide}
    (h : busFrame f x s = .next t) : s.cs = false ∧ t = segments f x s := by
  cases hc : s.cs with
  | true => rw [busFrame_selected f x hc] at h; cases h
  | false => rw [busFrame_next f x hc] at h; cases h; exact ⟨rfl, rfl⟩

/-- What the machine needs of a chip side: its reaction keeps `Chip.Ok`, its answer has the length
of the receive segment. -/
structure ChipSide.Ok (cfg : Config) (n : Nat) (x : ChipSide) : Prop where
  react  : ∀ d bs c, Chip.Ok cfg c → (x.react d bs c).Ok cfg
  answer : n ≠ 0 → ∀ d c, (x.answer d c).length = n

theorem ChipSide.Ok.fitted {cfg : Config} {n : Nat} {x : ChipSide} (h : x.Ok cfg n) :
    (x.fitted cfg n).Ok cfg n := by
  unfold ChipSide.fitted
  split
  · exact h
  · exact ⟨fun _ _ _ hc => hc, fun _ d _ => by simp [drawBytes]⟩

/-! ## The four ways a frame ends (R145, R80) -/

theorem runSegments_failHeader {f : FrameCall} {x : ChipSide} {d : Draw} {c : Chip}
    (h : d.hdrOk = false) :
    runSegments f x d c =
      { chip := x.react d (f.hdr.take d.cut) c, ok := false, rx := [], outcome := .failHeader } := by
  simp [runSegments, h]

theorem runSegments_ok {f : FrameCall} {x : ChipSide} {d : Draw} {c : Chip}
    (h : d.hdrOk = true) (hp : d.payOk = true ∨ (f.tx = [] ∧ f.rxn = 0)) :
    runSegments f x d c =
      { chip := x.react d f.bytes c, ok := true
        rx := if f.rxn = 0 then [] else x.answer d c, outcome := .ok } := by
  rcases hp with hp | ⟨h1, h2⟩
  · simp [runSegments, h, hp]
  · simp [runSegments, h, h1, h2]

theorem runSegments_chipOk {cfg : Config} {f : FrameCall} {x : ChipSide} {d : Draw} {c : Chip}
    (hx : x.Ok cfg f.rxn) (hc : c.Ok cfg) : (runSegments f x d c).chip.Ok cfg := by
  unfold runSegments
  split
  · exact hx.react _ _ _ hc
  · split
    · exact hx.react _ _ _ hc
    · split
      · exact hx.react _ _ _ hc
      · exact hx.react _ _ _ hc

/-- A frame that succeeds received as many bytes as it was asked for, and its record says OK. -/
theorem runSegments_of_ok {cfg : Config} {f : FrameCall} {x : ChipSide} {d : Draw} {c : Chip}
    (hx : x.Ok cfg f.rxn) (h : (runSegments f x d c).ok = true) :
    (runSegments f x d c).outcome = .ok ∧ (runSegments f x d c).rx.length = f.rxn := by
  unfold runSegments at *
  split at h
  · cases h
  · split at h
    · cases h
    · split at h
      · cases h
      · rename_i h1 h2 h3
        rw [if_neg h1, if_neg h2, if_neg h3]
        refine ⟨rfl, ?_⟩
        show (if f.rxn = 0 then [] else x.answer d c).length = f.rxn
        split
        · rename_i h0; simp [h0]
        · rename_i h0; exact hx.answer h0 _ _

/-- A frame that fails is recorded with the segment that failed. -/
theorem runSegments_of_fail {f : FrameCall} {x : ChipSide} {d : Draw} {c : Chip}
    (h : (runSegments f x d c).ok = false) : (runSegments f x d c).outcome ≠ .ok := by
  unfold runSegments at *
  split at h <;> rename_i h1
  · rw [if_pos h1]; simp
  · rw [if_neg h1]
    split at h <;> rename_i h2
    · rw [if_pos h2]; simp
    · rw [if_neg h2]
      split at h <;> rename_i h3
      · rw [if_pos h3]; simp
      · cases h

/-! ## Each frame kind is a frame with a sound chip side -/

/-- The thirteen frame kinds: exec runs the frame the encoder writes, with a sound chip side. -/
theorem exec_frame (i : Instr) (s : State) (h : i.isRequest = false) :
    ∃ f x, encode s.cfg.ops i = .frame f ∧ x.Ok s.cfg f.rxn ∧ exec i s = busFrame f x s := by
  cases i with
  | spiRstenRst => exact ⟨_, _, rfl, ⟨fun d bs _ hc => hc.reactRstenRst d bs, fun h => absurd rfl h⟩, rfl⟩
  | spiRsten => exact ⟨_, _, rfl, ⟨fun _ bs _ hc => hc.reactRsten bs, fun h => absurd rfl h⟩, rfl⟩
  | spiRst => exact ⟨_, _, rfl, ⟨fun d bs _ hc => hc.reactRst d bs, fun h => absurd rfl h⟩, rfl⟩
  | spiRdid => exact ⟨_, _, rfl, ⟨fun _ bs _ hc => hc.reactRead bs, fun _ _ _ => rfl⟩, rfl⟩
  | spiRdsr1 => exact ⟨_, _, rfl, ⟨fun _ bs _ hc => hc.reactRead bs, fun _ _ _ => rfl⟩, rfl⟩
  | spiRdsr2 => exact ⟨_, _, rfl, ⟨fun _ bs _ hc => hc.reactRead bs, fun _ _ _ => rfl⟩, rfl⟩
  | spiWrsr r1 r2 =>
    exact ⟨_, _, rfl, ⟨fun d bs _ hc => hc.reactWhole (fun _ h => h.writeStatus d r1 r2) (fun _ h => h.cutStatus d) 3 bs,
      fun h => absurd rfl h⟩, rfl⟩
  | spiWren =>
    exact ⟨_, _, rfl, ⟨fun d bs _ hc => hc.reactWhole (fun _ h => h.wren d) (fun _ h => h) 1 bs,
      fun h => absurd rfl h⟩, rfl⟩
  | spiWrdi =>
    exact ⟨_, _, rfl, ⟨fun _ bs _ hc => hc.reactWhole (fun _ h => h.wrdi) (fun _ h => h) 1 bs,
      fun h => absurd rfl h⟩, rfl⟩
  | spiRead a n =>
    exact ⟨_, _, rfl, ⟨fun _ bs _ hc => hc.reactRead bs, fun _ _ _ => by simp [answerRead, frameRead]⟩,
      rfl⟩
  | spiPp a ds => exact ⟨_, _, rfl, ⟨fun d bs _ hc => hc.reactPp d a ds.length bs, fun h => absurd rfl h⟩, rfl⟩
  | spiSe a =>
    exact ⟨_, _, rfl, ⟨fun d bs _ hc => hc.reactWhole (fun _ h => h.sectorErase d a) (fun _ h => h.cutErase d a) 4 bs,
      fun h => absurd rfl h⟩, rfl⟩
  | spiCe =>
    exact ⟨_, _, rfl, ⟨fun _ bs _ hc => hc.reactWhole (fun _ h => h.chipErase) (fun _ h => h) 1 bs,
      fun h => absurd rfl h⟩, rfl⟩
  | _ => simp [Instr.isRequest] at h

end Sys2Proof.Machine
end

