-- ==== Sys2Proof/Laws/Decode.lean ====
section
/-! SUPPORT. The encoding tables read forwards and backwards: request words and their fields, the
request table, address bytes. -/

namespace Sys2Proof

/-- R101: the fields of a packed word are the request's. -/
theorem Request.ofWord_word (r : Request) : Request.ofWord r.word = r := by
  obtain ⟨c, a, b, o⟩ := r
  simp only [Request.ofWord, Request.word, Request.mk.injEq]
  refine ⟨?_, ?_, ?_, ?_⟩ <;>
    (apply BitVec.eq_of_getLsbD_eq; intro i hi; simp; grind)

/-- R101: no bit of a word is outside its fields. -/
theorem Request.word_ofWord (w : BitVec 104) : (Request.ofWord w).word = w := by
  apply BitVec.eq_of_getLsbD_eq
  intro i hi
  simp only [Request.word, Request.ofWord, BitVec.getLsbD_append, BitVec.getLsbD_extractLsb']
  grind

theorem Request.of_operands (r : Request) : Request.of r.cmd r.operands = r := rfl

theorem Request.operands_of (c : Byte) (o : Operands) : (Request.of c o).operands = o := rfl

/-- R103: the codes of the table are pairwise distinct. -/
theorem requestTable_codes_nodup : (requestTable.map Prod.fst).Nodup := by decide

/-- R105: a reserved code is in no row of the table. -/
theorem requestTable_find_reserved {c : Byte} (h : reservedCode c = true) :
    requestTable.find? (fun row => row.1 == c) = none := by
  revert h
  revert c
  have : ∀ c : Byte, reservedCode c = true →
      (requestTable.find? (fun row => row.1 == c)).isNone = true := by decide
  exact fun {c} h => Option.isNone_iff_eq_none.mp (this c h)

theorem decodeRequest_reserved {c : Byte} (h : reservedCode c = true) (o : Operands) :
    decodeRequest (Request.of c o) = .reserved c o := by
  simp only [decodeRequest]
  rw [show (Request.of c o).cmd = c from rfl, requestTable_find_reserved h]
  rfl

/-- R65: the three address bytes spell the address. -/
theorem addrOfBytes_addrBytes (a : WireAddr) :
    addrOfBytes (a.extractLsb' 16 8) (a.extractLsb' 8 8) (a.extractLsb' 0 8) = a := by
  apply BitVec.eq_of_getLsbD_eq
  intro i hi
  simp only [addrOfBytes, BitVec.getLsbD_append, BitVec.getLsbD_extractLsb']
  grind

/-- R65: an address spelled by three bytes has those bytes. -/
theorem addrBytes_addrOfBytes (x y z : Byte) : addrBytes (addrOfBytes x y z) = [x, y, z] := by
  simp only [addrBytes, addrOfBytes, List.cons.injEq, and_true]
  refine ⟨?_, ?_, ?_⟩ <;>
    (apply BitVec.eq_of_getLsbD_eq; intro i hi; simp; grind)

/-! The first byte selects the format (R113), under distinct opcodes (R111). -/

section FirstByte

variable {o : Opcodes} (h : o.wf) (args : List Byte) (n : Nat)
include h

omit h in
theorem decodeBytes_rsten : decodeBytes o (o.rsten :: args) n = opReset o args n := by
  simp [decodeBytes]

theorem decodeBytes_rst : decodeBytes o (o.rst :: args) n =
    opOnly .spiRst args n := by
  simp only [Opcodes.wf, Opcodes.toList, List.nodup_cons, List.mem_cons, not_or] at h
  simp [decodeBytes, h, eq_comm]

theorem decodeBytes_rdid : decodeBytes o (o.rdid :: args) n =
    opReceive .spiRdid 3 args n := by
  simp only [Opcodes.wf, Opcodes.toList, List.nodup_cons, List.mem_cons, not_or] at h
  simp [decodeBytes, h, eq_comm]

theorem decodeBytes_rdsr1 : decodeBytes o (o.rdsr1 :: args) n =
    opReceive .spiRdsr1 1 args n := by
  simp only [Opcodes.wf, Opcodes.toList, List.nodup_cons, List.mem_cons, not_or] at h
  simp [decodeBytes, h, eq_comm]

theorem decodeBytes_rdsr2 : decodeBytes o (o.rdsr2 :: args) n =
    opReceive .spiRdsr2 1 args n := by
  simp only [Opcodes.wf, Opcodes.toList, List.nodup_cons, List.mem_cons, not_or] at h
  simp [decodeBytes, h, eq_comm]

theorem decodeBytes_wrsr : decodeBytes o (o.wrsr :: args) n =
    opStatus args n := by
  simp only [Opcodes.wf, Opcodes.toList, List.nodup_cons, List.mem_cons, not_or] at h
  simp [decodeBytes, h, eq_comm]

theorem decodeBytes_wren : decodeBytes o (o.wren :: args) n =
    opOnly .spiWren args n := by
  simp only [Opcodes.wf, Opcodes.toList, List.nodup_cons, List.mem_cons, not_or] at h
  simp [decodeBytes, h, eq_comm]

theorem decodeBytes_wrdi : decodeBytes o (o.wrdi :: args) n =
    opOnly .spiWrdi args n := by
  simp only [Opcodes.wf, Opcodes.toList, List.nodup_cons, List.mem_cons, not_or] at h
  simp [decodeBytes, h, eq_comm]

theorem decodeBytes_read : decodeBytes o (o.read :: args) n =
    opAddress args (fun a => .ok (.spiRead a n)) := by
  simp only [Opcodes.wf, Opcodes.toList, List.nodup_cons, List.mem_cons, not_or] at h
  simp [decodeBytes, h, eq_comm]

theorem decodeBytes_pp : decodeBytes o (o.pp :: args) n =
    opProgram args n := by
  simp only [Opcodes.wf, Opcodes.toList, List.nodup_cons, List.mem_cons, not_or] at h
  simp [decodeBytes, h, eq_comm]

theorem decodeBytes_se : decodeBytes o (o.se :: args) n =
    opAddress args (fun a => if n = 0 then .ok (.spiSe a) else .error .badLength) := by
  simp only [Opcodes.wf, Opcodes.toList, List.nodup_cons, List.mem_cons, not_or] at h
  simp [decodeBytes, h, eq_comm]

theorem decodeBytes_ce : decodeBytes o (o.ce :: args) n =
    opOnly .spiCe args n := by
  simp only [Opcodes.wf, Opcodes.toList, List.nodup_cons, List.mem_cons, not_or] at h
  simp [decodeBytes, h, eq_comm]

end FirstByte

end Sys2Proof
end

