-- ==== Sys2Proof/Laws/Ops.lean ====
section
/-! SUPPORT. For each shared operation of a request, everything it can do when it answers a next
state; later proofs cite these instead of unfolding the operations. -/

namespace Sys2Proof.Machine

variable {s t : State}

/-! ## The Frame call's return (R144, R145) -/

theorem onReturn_true (k : State → Res) (h : s.ret = some true) :
    onReturn s k = k (taken s) := by
  simp [onReturn, h]

theorem onReturn_false (k : State → Res) (h : s.ret = some false) :
    onReturn s k = .next (abort codeBus s) := by
  simp [onReturn, h]

theorem onReturn_eq_next {k : State → Res} (h : onReturn s k = .next t) :
    (s.ret = some false ∧ t = abort codeBus s) ∨
      (s.ret = some true ∧ k (taken s) = .next t) := by
  unfold onReturn at h
  split at h
  · cases h
  · cases h; exact .inl ⟨by assumption, rfl⟩
  · exact .inr ⟨by assumption, h⟩

/-! ## Buffer accesses (R64) -/

theorem memRead_eq_next {o : Word} {k : Byte → State → Res} (h : memRead o s k = .next t) :
    s.admitsRead o = true ∧
      k (s.buffer.read o.toNat) { s with trace := .memRead o (s.buffer.read o.toNat) :: s.trace } =
        .next t := by
  unfold memRead at h
  split at h
  · exact ⟨by assumption, h⟩
  · cases h

theorem memWrite_eq_next {o : Word} {v : Byte} {k : State → Res} (h : memWrite o v s k = .next t) :
    s.admitsWrite o = true ∧
      k { s with buffer := s.buffer.write o.toNat v, trace := .memWrite o v :: s.trace } = .next t := by
  unfold memWrite at h
  split at h
  · exact ⟨by assumption, h⟩
  · cases h

/-! ## WAITWIP (R200, R206) -/

theorem startWait_eq_next {p : SPhase} (h : startWait p s = .next t) :
    s.cfg.wipLimit ≠ some 0 ∧ t = callFrame p s.callRdsr1 { s with polls := 0 } := by
  unfold startWait at h
  split at h
  · cases h
  · cases h; exact ⟨by assumption, rfl⟩

theorem waitReturn_eq_next {k : State → Res} (h : waitReturn s k = .next t) :
    (s.ret = some false ∧ t = abort codeBus s) ∨
      (s.ret = some true ∧ isBusy s.cfg (s.rxByte 0) = false ∧ k (polled (taken s)) = .next t) ∨
      (s.ret = some true ∧ isBusy s.cfg (s.rxByte 0) = true ∧
        limitReached s.cfg.wipLimit (s.polls + 1) = true ∧ t = abort codeTimeout (polled (taken s))) ∨
      (s.ret = some true ∧ isBusy s.cfg (s.rxByte 0) = true ∧
        limitReached s.cfg.wipLimit (s.polls + 1) = false ∧
        t = callFrame s.sphase s.callRdsr1 (polled (taken s))) := by
  rcases onReturn_eq_next h with h | ⟨hr, h⟩
  · exact .inl h
  · refine .inr ?_
    cases hb : isBusy s.cfg (s.rxByte 0)
    · have h' : k (polled (taken s)) = .next t := by simpa [hb] using h
      exact .inl ⟨hr, rfl, h'⟩
    · cases hl : limitReached s.cfg.wipLimit (s.polls + 1)
      · exact .inr (.inr ⟨hr, rfl, rfl, by
          simp only [polled_sr, polled_polls, taken_cfg, taken_polls, taken_sphase, taken_rxByte,
            taken_callRdsr1, hb, hl, Bool.not_true, Bool.false_eq_true, if_false] at h
          cases h; rfl⟩)
      · exact .inr (.inl ⟨hr, rfl, rfl, by
          simp only [polled_sr, polled_polls, taken_cfg, taken_polls, taken_sphase, taken_rxByte,
            taken_callRdsr1, hb, hl, Bool.not_true, Bool.false_eq_true, if_false, if_true] at h
          cases h; rfl⟩)

/-! ## WRENW (R203, R206) -/

theorem startLatch_eq_next (h : startLatch s = .next t) :
    s.cfg.welLimit ≠ some 0 ∧ t = callFrame .welWren s.callWren { s with tries := 0 } := by
  unfold startLatch at h
  split at h
  · cases h
  · cases h; exact ⟨by assumption, rfl⟩

theorem latchWrenReturn_eq_next (h : latchWrenReturn s = .next t) :
    (s.ret = some false ∧ t = abort codeBus s) ∨
      (s.ret = some true ∧ t = callFrame .welRdsr s.callRdsr1 (taken s)) := by
  rcases onReturn_eq_next h with h | ⟨hr, h⟩
  · exact .inl h
  · cases h; exact .inr ⟨hr, rfl⟩

theorem latchRdsrReturn_eq_next {k : State → Res} (h : latchRdsrReturn s k = .next t) :
    (s.ret = some false ∧ t = abort codeBus s) ∨
      (s.ret = some true ∧ isWriteEnabled s.cfg (s.rxByte 0) = true ∧ k (tried (taken s)) = .next t) ∨
      (s.ret = some true ∧ isWriteEnabled s.cfg (s.rxByte 0) = false ∧
        limitReached s.cfg.welLimit (s.tries + 1) = true ∧ t = abort codeTimeout (tried (taken s))) ∨
      (s.ret = some true ∧ isWriteEnabled s.cfg (s.rxByte 0) = false ∧
        limitReached s.cfg.welLimit (s.tries + 1) = false ∧
        t = callFrame .welWren s.callWren (tried (taken s))) := by
  rcases onReturn_eq_next h with h | ⟨hr, h⟩
  · exact .inl h
  · refine .inr ?_
    cases hb : isWriteEnabled s.cfg (s.rxByte 0)
    · cases hl : limitReached s.cfg.welLimit (s.tries + 1)
      · exact .inr (.inr ⟨hr, rfl, rfl, by
          simp only [tried_sr, tried_tries, taken_cfg, taken_tries, taken_rxByte, taken_callWren,
            hb, hl, Bool.false_eq_true, if_false] at h
          cases h; rfl⟩)
      · exact .inr (.inl ⟨hr, rfl, rfl, by
          simp only [tried_sr, tried_tries, taken_cfg, taken_tries, taken_rxByte, taken_callWren,
            hb, hl, Bool.false_eq_true, if_false, if_true] at h
          cases h; rfl⟩)
    · have h' : k (tried (taken s)) = .next t := by simpa [hb] using h
      exact .inl ⟨hr, rfl, h'⟩

/-! ## Requests (R100, R102) -/

theorem reqReady_iff : s.reqReady = true ↔ s.phase = .idle ∨ s.phase = .respond := by
  cases h : s.phase <;> simp [State.reqReady, h]

theorem directRequest_ready {r : Request} {load rsp : State → State}
    {seq : (State → Res) → State → Res} (h : s.reqReady = true) :
    directRequest r load rsp seq s = .next (load (accept r s)) := by
  rcases reqReady_iff.mp h with h | h <;> simp [directRequest, h]

theorem directRequest_busy {r : Request} {load rsp : State → State}
    {seq : (State → Res) → State → Res} (h : s.phase = .busy) (hr : s.rphase = .none)
    (hs : s.sphase ≠ .finish) : directRequest r load rsp seq s = seq endDirect s := by
  cases hp : s.sphase <;> simp_all [directRequest]

theorem directRequest_finish {r : Request} {load rsp : State → State}
    {seq : (State → Res) → State → Res} (h : s.phase = .busy) (hr : s.rphase = .none)
    (hs : s.sphase = .finish) : directRequest r load rsp seq s = .next (respondOk (rsp s)) := by
  simp [directRequest, h, hr, hs]

/-- The inversion of a direct request: accepted, answered, or one row of its sequencer. -/
theorem directRequest_eq_next {r : Request} {load rsp : State → State}
    {seq : (State → Res) → State → Res} (h : directRequest r load rsp seq s = .next t) :
    (s.reqReady = true ∧ t = load (accept r s)) ∨
      (s.phase = .busy ∧ s.rphase = .none ∧ s.sphase = .finish ∧ t = respondOk (rsp s)) ∨
      (s.phase = .busy ∧ s.rphase = .none ∧ s.sphase ≠ .finish ∧ seq endDirect s = .next t) := by
  cases hp : s.phase
  · rw [directRequest_ready (by simp [State.reqReady, hp])] at h
    cases h; exact .inl ⟨by simp [State.reqReady, hp], rfl⟩
  · cases hr : s.rphase
    · by_cases hs : s.sphase = .finish
      · rw [directRequest_finish hp hr hs] at h
        cases h; exact .inr (.inl ⟨rfl, rfl, hs, rfl⟩)
      · rw [directRequest_busy hp hr hs] at h
        exact .inr (.inr ⟨rfl, rfl, hs, h⟩)
    all_goals simp [directRequest, hp, hr] at h
  · rw [directRequest_ready (by simp [State.reqReady, hp])] at h
    cases h; exact .inl ⟨by simp [State.reqReady, hp], rfl⟩

theorem rangeRequest_ready {r : Request} {load : State → State} {seq : State → Res}
    (h : s.reqReady = true) : rangeRequest r load seq s = .next (load (accept r s)) := by
  rcases reqReady_iff.mp h with h | h <;> simp [rangeRequest, h]

theorem rangeRequest_busy {r : Request} {load : State → State} {seq : State → Res}
    (h : s.phase = .busy) (hr : s.rphase ≠ .none) : rangeRequest r load seq s = seq s := by
  cases hp : s.rphase <;> simp_all [rangeRequest]

theorem rangeRequest_finish {r : Request} {load : State → State} {seq : State → Res}
    (h : s.phase = .busy) (hr : s.rphase = .none) (hs : s.sphase = .finish) :
    rangeRequest r load seq s = .next (respondOk s) := by
  simp [rangeRequest, h, hr, hs]

/-- The inversion of a range request. -/
theorem rangeRequest_eq_next {r : Request} {load : State → State} {seq : State → Res}
    (h : rangeRequest r load seq s = .next t) :
    (s.reqReady = true ∧ t = load (accept r s)) ∨
      (s.phase = .busy ∧ s.rphase = .none ∧ s.sphase = .finish ∧ t = respondOk s) ∨
      (s.phase = .busy ∧ s.rphase ≠ .none ∧ seq s = .next t) := by
  cases hp : s.phase
  · rw [rangeRequest_ready (by simp [State.reqReady, hp])] at h
    cases h; exact .inl ⟨by simp [State.reqReady, hp], rfl⟩
  · by_cases hr : s.rphase = .none
    · cases hs : s.sphase
      case finish =>
        rw [rangeRequest_finish hp hr hs] at h
        cases h; exact .inr (.inl ⟨rfl, hr, rfl, rfl⟩)
      all_goals simp [rangeRequest, hp, hr, hs] at h
    · rw [rangeRequest_busy hp hr] at h
      exact .inr (.inr ⟨rfl, hr, h⟩)
  · rw [rangeRequest_ready (by simp [State.reqReady, hp])] at h
    cases h; exact .inl ⟨by simp [State.reqReady, hp], rfl⟩

/-! ## The loop test (R280, R290) -/

theorem loopTest_eq_next {load : State → State} (h : loopTest load s = .next t) :
    (s.i < s.n ∧ t = { load s with sphase := .check, atTest := false }) ∨
      (¬ s.i < s.n ∧ t = { s with sphase := .finish, rphase := .none, atTest := false }) := by
  unfold loopTest at h
  split at h <;> cases h
  · exact .inl ⟨by assumption, rfl⟩
  · exact .inr ⟨by assumption, rfl⟩

/-! ## The step -/

theorem step_of_no_reset (h : s.resetAsserted = false) : step s = runStep exec s.applyInput := by
  simp [step, h]

theorem step_of_reset (h : s.resetAsserted = true) : step s = resetStep exec s.applyInput := by
  simp [step, h]

end Sys2Proof.Machine
end

