-- ==== Sys2Proof/Laws/PerInstr.lean ====
section
/-! SUPPORT. The family DecodeEncode: for each instruction, decoding its encoding gives it back,
under any opcode bytes that are pairwise distinct (R111). One lemma for each constructor. -/

namespace Sys2Proof.Laws.DecodeEncode

/-- The words of a well-formed instruction decode to it. -/
def Statement (i : Instr) : Prop :=
  ∀ o : Opcodes, o.wf → i.wf = true → decode o (encode o i) = .ok i

/-- A request word decodes to what its command code selects. -/
theorem decode_request (o : Opcodes) (r : Request) :
    decode o (.request r.word) = .ok (decodeRequest r) := by
  rw [decode, Request.ofWord_word]

theorem reset (a : Operands) : Statement (.reset a) :=
  fun o _ _ => decode_request o (Request.of 0x01 a)

theorem rdid (a : Operands) : Statement (.rdid a) :=
  fun o _ _ => decode_request o (Request.of 0x02 a)

theorem rdsr1 (a : Operands) : Statement (.rdsr1 a) :=
  fun o _ _ => decode_request o (Request.of 0x03 a)

theorem rdsr2 (a : Operands) : Statement (.rdsr2 a) :=
  fun o _ _ => decode_request o (Request.of 0x04 a)

theorem wrsr (a : Operands) : Statement (.wrsr a) :=
  fun o _ _ => decode_request o (Request.of 0x05 a)

theorem wren (a : Operands) : Statement (.wren a) :=
  fun o _ _ => decode_request o (Request.of 0x06 a)

theorem wrdi (a : Operands) : Statement (.wrdi a) :=
  fun o _ _ => decode_request o (Request.of 0x07 a)

theorem read (a : Operands) : Statement (.read a) :=
  fun o _ _ => decode_request o (Request.of 0x08 a)

theorem pp (a : Operands) : Statement (.pp a) :=
  fun o _ _ => decode_request o (Request.of 0x09 a)

theorem se (a : Operands) : Statement (.se a) :=
  fun o _ _ => decode_request o (Request.of 0x0A a)

theorem ce (a : Operands) : Statement (.ce a) :=
  fun o _ _ => decode_request o (Request.of 0x0B a)

theorem waitwip (a : Operands) : Statement (.waitwip a) :=
  fun o _ _ => decode_request o (Request.of 0x0C a)

theorem wrenw (a : Operands) : Statement (.wrenw a) :=
  fun o _ _ => decode_request o (Request.of 0x0D a)

theorem init (a : Operands) : Statement (.init a) :=
  fun o _ _ => decode_request o (Request.of 0x10 a)

theorem write (a : Operands) : Statement (.write a) :=
  fun o _ _ => decode_request o (Request.of 0x11 a)

theorem erase (a : Operands) : Statement (.erase a) :=
  fun o _ _ => decode_request o (Request.of 0x12 a)

theorem masserase (a : Operands) : Statement (.masserase a) :=
  fun o _ _ => decode_request o (Request.of 0x13 a)

theorem reserved (c : Byte) (a : Operands) : Statement (.reserved c a) := fun o _ h => by
  rw [encode, decode_request, decodeRequest_reserved h]

theorem spiRstenRst : Statement .spiRstenRst := fun o _ _ => by
  simp [encode, decode, decodeFrame, FrameCall.bytes, frameRstenRst, decodeBytes_rsten, opReset]

theorem spiRsten : Statement .spiRsten := fun o _ _ => by
  simp [encode, decode, decodeFrame, FrameCall.bytes, frameOp, decodeBytes_rsten, opReset]

theorem spiRst : Statement .spiRst := fun o h _ => by
  simp [encode, decode, decodeFrame, FrameCall.bytes, frameOp, decodeBytes_rst h, opOnly]

theorem spiRdid : Statement .spiRdid := fun o h _ => by
  simp [encode, decode, decodeFrame, FrameCall.bytes, frameReceive, decodeBytes_rdid h, opReceive]

theorem spiRdsr1 : Statement .spiRdsr1 := fun o h _ => by
  simp [encode, decode, decodeFrame, FrameCall.bytes, frameReceive, decodeBytes_rdsr1 h, opReceive]

theorem spiRdsr2 : Statement .spiRdsr2 := fun o h _ => by
  simp [encode, decode, decodeFrame, FrameCall.bytes, frameReceive, decodeBytes_rdsr2 h, opReceive]

theorem spiWren : Statement .spiWren := fun o h _ => by
  simp [encode, decode, decodeFrame, FrameCall.bytes, frameOp, decodeBytes_wren h, opOnly]

theorem spiWrdi : Statement .spiWrdi := fun o h _ => by
  simp [encode, decode, decodeFrame, FrameCall.bytes, frameOp, decodeBytes_wrdi h, opOnly]

theorem spiCe : Statement .spiCe := fun o h _ => by
  simp [encode, decode, decodeFrame, FrameCall.bytes, frameOp, decodeBytes_ce h, opOnly]

theorem spiWrsr (r1 r2 : Byte) : Statement (.spiWrsr r1 r2) := fun o h _ => by
  simp [encode, decode, decodeFrame, FrameCall.bytes, frameWrsr, decodeBytes_wrsr h, opStatus]

theorem spiRead (a : WireAddr) (n : Nat) : Statement (.spiRead a n) := fun o h _ => by
  simp [encode, decode, decodeFrame, FrameCall.bytes, frameRead, decodeBytes_read h, opAddress,
    addrBytes, addrOfBytes_addrBytes]

theorem spiSe (a : WireAddr) : Statement (.spiSe a) := fun o h _ => by
  simp [encode, decode, decodeFrame, FrameCall.bytes, frameSe, decodeBytes_se h, opAddress,
    addrBytes, addrOfBytes_addrBytes]

theorem spiPp (a : WireAddr) (d : List Byte) : Statement (.spiPp a d) := fun o h hw => by
  simp only [Instr.wf, fitsPage, Bool.and_eq_true, decide_eq_true_eq] at hw
  obtain ⟨⟨h1, h2⟩, -⟩ := hw
  cases d with
  | nil => simp at h1
  | cons x xs =>
    have hlen : xs.length < pageSize := h2
    simp [encode, decode, decodeFrame, FrameCall.bytes, framePp, decodeBytes_pp h, opProgram,
      addrBytes, addrOfBytes_addrBytes, hlen]

end Sys2Proof.Laws.DecodeEncode
end

