-- ==== Sys2Proof/Laws/Sequences.lean ====
section
/-! SUPPORT. For each command operation (RESET, the commands of one frame, WRSR, WAITWIP, WRENW,
READ, PP, SE, CE), whoever calls it: one lemma that says everything one row of it can do. -/

namespace Sys2Proof.Machine

/-- What a row of a command operation leaves alone: every register that is not the sequencer's own.
`addr` is left alone where `b` is true; the buffer is written through `Memory.write` only. -/
structure Same (b : Bool) (s u : State) : Prop where
  cfg : u.cfg = s.cfg
  phase : u.phase = s.phase
  rphase : u.rphase = s.rphase
  req : u.req = s.req
  cs : u.cs = s.cs
  rspValid : u.rspValid = s.rspValid
  result : u.result = s.result
  chip : u.chip = s.chip
  addr : b = true → u.addr = s.addr
  len : u.len = s.len
  off : u.off = s.off
  sidx : u.sidx = s.sidx
  wsr1 : u.wsr1 = s.wsr1
  wsr2 : u.wsr2 = s.wsr2
  i : u.i = s.i
  n : u.n = s.n
  base : u.base = s.base
  eidx : u.eidx = s.eidx
  bufWf : Memory.wf s.buffer = true → Memory.wf u.buffer = true
  bufBelow : Memory.below s.buffer (2^32) = true → Memory.below u.buffer (2^32) = true
  atTest : u.atTest = s.atTest

/-- A state that differs in the sequencer's own registers only. -/
theorem Same.of {b : Bool} {s u : State}
    (h : u = { s with
      sphase := u.sphase, polls := u.polls, tries := u.tries, sr := u.sr, id := u.id, pos := u.pos
      data := u.data, bus := u.bus, ret := u.ret, trace := u.trace }) : Same b s u := by
  rw [h]
  exact ⟨rfl, rfl, rfl, rfl, rfl, rfl, rfl, rfl, fun _ => rfl, rfl, rfl, rfl, rfl, rfl, rfl, rfl, rfl, rfl,
    id, id, rfl⟩

theorem Same.refl {b} (s : State) : Same b s s := Same.of rfl

/-- Everything a row of the command operation `seq` can do from a position inside it: abort, go on
inside, or return to the caller with nothing under way. -/
def SeqSpec (b : Bool) (inside : State → Prop) (seq : (State → Res) → State → Res) : Prop :=
  ∀ s ret t, inside s → s.bus = none → s.sphase ≠ .finish → seq ret s = .next t →
    (∃ c u, t = abort c u ∧ c.toNat ≤ 5 ∧ Same b s u) ∨ (inside t ∧ Same b s t) ∨
      (∃ u, ret u = .next t ∧ u.quiet ∧ Same b s u)

theorem codes_le : codeOk.toNat ≤ 5 ∧ codeBus.toNat ≤ 5 ∧ codeId.toNat ≤ 5 ∧ codeParam.toNat ≤ 5 ∧ codeTimeout.toNat ≤ 5 ∧ codeCmd.toNat ≤ 5 := by decide

theorem called_callFrame (p f s) : (callFrame p f s).called f := ⟨rfl, rfl⟩

theorem oneFrame_spec (call : State → FrameCall) (done : State → State)
    (hd : ∀ s, (done s).quiet = s.quiet ∧ Same true s (done s)) (hc : ∀ p f s, call (callFrame p f s) = call s) :
    SeqSpec true (fun s => oneFrameAt (call s) s) (oneFrameSeq call done) := by
  intro s ret t hin hb hf h
  unfold oneFrameSeq at h
  unfold oneFrameAt at hin
  split at h <;> rename_i hs
  · cases h
    refine .inr (.inl ⟨?_, ?_⟩)
    · show oneFrameAt _ _
      simp only [oneFrameAt, callFrame_sphase, hc]
      exact .inl (called_callFrame ..)
    · exact Same.of rfl
  · rcases onReturn_eq_next h with ⟨hr, rfl⟩ | ⟨hr, h⟩
    · exact .inl ⟨_, _, rfl, codes_le.2.1, Same.refl s⟩
    · refine .inr (.inr ⟨_, h, ?_, ?_⟩)
      · rw [(hd _).1]; exact ⟨hb, rfl⟩
      · have := (hd (taken s)).2
        exact ⟨this.1, this.2, this.3, this.4, this.5, this.6, this.7, this.8, this.9, this.10, this.11, this.12, this.13, this.14, this.15, this.16, this.17, this.18, this.19, this.20, this.21⟩
  all_goals cases h

theorem reset_spec : SeqSpec true resetAt resetSeq := by
  intro s ret t hin hb hf h
  unfold resetSeq at h
  unfold resetAt at hin
  split at h <;> rename_i hs
  · cases h
    refine .inr (.inl ⟨?_, Same.of rfl⟩)
    simp only [resetAt, callFrame_sphase]
    exact .inl ⟨rfl, .inl (called_callFrame ..)⟩
  · rw [hs] at hin
    rcases onReturn_eq_next h with ⟨hr, rfl⟩ | ⟨hr, h⟩
    · exact .inl ⟨_, _, rfl, codes_le.2.1, Same.refl s⟩
    · split at h
      · rename_i hc
        cases h
        refine .inr (.inl ⟨?_, Same.of rfl⟩)
        simp only [resetAt, callFrame_sphase]
        exact .inr ⟨hc.1, rfl, .inl (called_callFrame ..)⟩
      · exact .inr (.inr ⟨_, h, ⟨hb, rfl⟩, Same.of rfl⟩)
  all_goals cases h

theorem waitwip_spec : SeqSpec true waitwipAt waitwipSeq := by
  intro s ret t hin hb hf h
  unfold waitwipSeq at h
  split at h <;> rename_i hs
  · obtain ⟨-, rfl⟩ := startWait_eq_next h
    refine .inr (.inl ⟨?_, Same.of rfl⟩)
    simp only [waitwipAt, callFrame_sphase]
    exact .inl (called_callFrame ..)
  · rcases waitReturn_eq_next h with ⟨hr, rfl⟩ | ⟨hr, _, h⟩ | ⟨hr, _, _, rfl⟩ | ⟨hr, _, _, rfl⟩
    · exact .inl ⟨_, _, rfl, codes_le.2.1, Same.refl s⟩
    · exact .inr (.inr ⟨_, h, ⟨hb, rfl⟩, Same.of rfl⟩)
    · exact .inl ⟨_, _, rfl, codes_le.2.2.2.2.1, Same.of rfl⟩
    · refine .inr (.inl ⟨?_, Same.of rfl⟩)
      simp only [waitwipAt, callFrame_sphase, hs]
      exact .inl (called_callFrame ..)
  all_goals cases h

theorem wrenw_spec : SeqSpec true wrenwAt wrenwSeq := by
  intro s ret t hin hb hf h
  unfold wrenwSeq at h
  split at h <;> rename_i hs
  · obtain ⟨-, rfl⟩ := startLatch_eq_next h
    refine .inr (.inl ⟨?_, Same.of rfl⟩)
    simp only [wrenwAt, callFrame_sphase]
    exact .inl (called_callFrame ..)
  · rcases latchWrenReturn_eq_next h with ⟨hr, rfl⟩ | ⟨hr, rfl⟩
    · exact .inl ⟨_, _, rfl, codes_le.2.1, Same.refl s⟩
    · refine .inr (.inl ⟨?_, Same.of rfl⟩)
      simp only [wrenwAt, callFrame_sphase]
      exact .inl (called_callFrame ..)
  · rcases latchRdsrReturn_eq_next h with ⟨hr, rfl⟩ | ⟨hr, _, h⟩ | ⟨hr, _, _, rfl⟩ | ⟨hr, _, _, rfl⟩
    · exact .inl ⟨_, _, rfl, codes_le.2.1, Same.refl s⟩
    · exact .inr (.inr ⟨_, h, ⟨hb, rfl⟩, Same.of rfl⟩)
    · exact .inl ⟨_, _, rfl, codes_le.2.2.2.2.1, Same.of rfl⟩
    · refine .inr (.inl ⟨?_, Same.of rfl⟩)
      simp only [wrenwAt, callFrame_sphase]
      exact .inl (called_callFrame ..)
  all_goals cases h

theorem rx_single {s : State} {f : FrameCall} (hn : f.rxn = 1) (h : s.inFrame f) (hr : s.ret = some true) :
    lastFrame s.trace = some (f, [s.rxByte 0], .ok) := by
  rcases h with ⟨_, h⟩ | ⟨_, ⟨_, hl, hlen⟩ | ⟨h, _⟩⟩
  · rw [h] at hr; cases hr
  · rw [hn] at hlen
    obtain ⟨x, hx⟩ := List.length_eq_one_iff.mp hlen
    rw [hl, hx]
    simp [State.rxByte, hx]
  · rw [h] at hr; cases hr

theorem latch_seen {s : State} (h : s.inFrame s.callRdsr1) (hr : s.ret = some true)
    (he : isWriteEnabled s.cfg (s.rxByte 0) = true) : (tried (taken s)).latchSeen := by
  have h1 := rx_single rfl h hr
  exact ⟨h1, he⟩

theorem idle_seen {s : State} (h : s.inFrame s.callRdsr1) (hr : s.ret = some true)
    (he : isBusy s.cfg (s.rxByte 0) = false) : (polled (taken s)).idleSeen := by
  have h1 := rx_single rfl h hr
  exact ⟨h1, he⟩

theorem wrsr_spec : SeqSpec true wrsrAt wrsrSeq := by
  intro s ret t hin hb hf h
  unfold wrsrSeq at h
  unfold wrsrAt at hin
  split at h <;> rename_i hs
  · obtain ⟨-, rfl⟩ := startLatch_eq_next h
    refine .inr (.inl ⟨?_, Same.of rfl⟩)
    simp only [wrsrAt, callFrame_sphase]
    exact .inl (called_callFrame ..)
  · rcases latchWrenReturn_eq_next h with ⟨hr, rfl⟩ | ⟨hr, rfl⟩
    · exact .inl ⟨_, _, rfl, codes_le.2.1, Same.refl s⟩
    · refine .inr (.inl ⟨?_, Same.of rfl⟩)
      simp only [wrsrAt, callFrame_sphase]
      exact .inl (called_callFrame ..)
  · rw [hs] at hin
    rcases latchRdsrReturn_eq_next h with ⟨hr, rfl⟩ | ⟨hr, he, h⟩ | ⟨hr, _, _, rfl⟩ | ⟨hr, _, _, rfl⟩
    · exact .inl ⟨_, _, rfl, codes_le.2.1, Same.refl s⟩
    · cases h
      refine .inr (.inl ⟨?_, Same.of rfl⟩)
      simp only [wrsrAt, callFrame_sphase]
      exact .inl ⟨called_callFrame .., latch_seen (s := s) hin hr he⟩
    · exact .inl ⟨_, _, rfl, codes_le.2.2.2.2.1, Same.of rfl⟩
    · refine .inr (.inl ⟨?_, Same.of rfl⟩)
      simp only [wrsrAt, callFrame_sphase]
      exact .inl (called_callFrame ..)
  · rcases onReturn_eq_next h with ⟨hr, rfl⟩ | ⟨hr, h⟩
    · exact .inl ⟨_, _, rfl, codes_le.2.1, Same.refl s⟩
    · exact .inr (.inr ⟨_, h, ⟨hb, rfl⟩, Same.of rfl⟩)
  all_goals cases h

theorem read_spec : SeqSpec true readAt readSeq := by
  intro s ret t hin hb hf h
  unfold readSeq at h
  unfold readAt at hin
  split at h <;> rename_i hs
  · obtain ⟨-, rfl⟩ := startWait_eq_next h
    refine .inr (.inl ⟨?_, Same.of rfl⟩)
    simp only [readAt, callFrame_sphase]
    exact .inl (called_callFrame ..)
  · rw [hs] at hin
    rcases waitReturn_eq_next h with ⟨hr, rfl⟩ | ⟨hr, he, h⟩ | ⟨hr, _, _, rfl⟩ | ⟨hr, _, _, rfl⟩
    · exact .inl ⟨_, _, rfl, codes_le.2.1, Same.refl s⟩
    · cases h
      refine .inr (.inl ⟨?_, Same.of rfl⟩)
      simp only [readAt, callFrame_sphase]
      exact .inl ⟨called_callFrame .., idle_seen (s := s) hin hr he⟩
    · exact .inl ⟨_, _, rfl, codes_le.2.2.2.2.1, Same.of rfl⟩
    · refine .inr (.inl ⟨?_, Same.of rfl⟩)
      simp only [readAt, callFrame_sphase, hs]
      exact .inl (called_callFrame ..)
  · rw [hs] at hin
    split at h <;> rename_i hret
    · rcases onReturn_eq_next h with ⟨hr, rfl⟩ | ⟨hr, h⟩
      · exact .inl ⟨_, _, rfl, codes_le.2.1, Same.refl s⟩
      · cases h
        refine .inr (.inl ⟨?_, Same.of rfl⟩)
        have : s.rx.length = s.len.toNat := by
          rcases hin with ⟨⟨_, h⟩, _⟩ | ⟨_, ⟨_, _, hl⟩ | ⟨h, _⟩⟩ | ⟨⟨_, h⟩, _⟩
          · rw [h] at hr; cases hr
          · exact hl
          · rw [h] at hr; cases hr
          · rw [h] at hr; cases hr
        simp only [readAt, taken_sphase, hs]
        exact .inr (.inr ⟨⟨hb, rfl⟩, this⟩)
    · unfold readMove at h
      have hlen : s.rx.length = s.len.toNat := by
        rcases hin with ⟨⟨h1, _⟩, _⟩ | ⟨_, ⟨h1, _⟩ | ⟨h1, _⟩⟩ | ⟨_, h1⟩
        · rw [hb] at h1; cases h1
        · rw [hret] at h1; cases h1
        · rw [hret] at h1; cases h1
        · exact h1
      split at h
      · obtain ⟨-, h⟩ := memWrite_eq_next h
        cases h
        refine .inr (.inl ⟨?_, ⟨rfl, rfl, rfl, rfl, rfl, rfl, rfl, rfl, fun _ => rfl, rfl, rfl, rfl, rfl, rfl, rfl, rfl, rfl, rfl, Memory.write_wf _ _, fun hb => Memory.write_below _ hb (BitVec.isLt _), rfl⟩⟩)
        simp only [readAt, hs]
        exact .inr (.inr ⟨⟨hb, hret⟩, hlen⟩)
      · exact .inr (.inr ⟨_, h, ⟨hb, hret⟩, Same.refl s⟩)
  all_goals cases h

theorem pp_spec : SeqSpec true ppAt ppSeq := by
  intro s ret t hin hb hf h
  unfold ppSeq at h
  unfold ppAt at hin
  split at h <;> rename_i hs
  · split at h
    · rename_i hfit
      obtain ⟨-, rfl⟩ := startWait_eq_next h
      refine .inr (.inl ⟨?_, Same.of rfl⟩)
      simp only [ppAt, callFrame_sphase]
      exact ⟨hfit, .inl (called_callFrame ..)⟩
    · cases h
      exact .inl ⟨_, _, rfl, codes_le.2.2.2.1, Same.refl s⟩
  · rw [hs] at hin
    obtain ⟨hfit, hin⟩ := hin
    rcases waitReturn_eq_next h with ⟨hr, rfl⟩ | ⟨hr, he, h⟩ | ⟨hr, _, _, rfl⟩ | ⟨hr, _, _, rfl⟩
    · exact .inl ⟨_, _, rfl, codes_le.2.1, Same.refl s⟩
    · obtain ⟨-, rfl⟩ := startLatch_eq_next h
      refine .inr (.inl ⟨?_, Same.of rfl⟩)
      simp only [ppAt, callFrame_sphase]
      exact ⟨hfit, .inl (called_callFrame ..)⟩
    · exact .inl ⟨_, _, rfl, codes_le.2.2.2.2.1, Same.of rfl⟩
    · refine .inr (.inl ⟨?_, Same.of rfl⟩)
      simp only [ppAt, callFrame_sphase, hs]
      exact ⟨hfit, .inl (called_callFrame ..)⟩
  · rw [hs] at hin
    obtain ⟨hfit, hin⟩ := hin
    rcases latchWrenReturn_eq_next h with ⟨hr, rfl⟩ | ⟨hr, rfl⟩
    · exact .inl ⟨_, _, rfl, codes_le.2.1, Same.refl s⟩
    · refine .inr (.inl ⟨?_, Same.of rfl⟩)
      simp only [ppAt, callFrame_sphase]
      exact ⟨hfit, .inl (.inl (called_callFrame ..))⟩
  · rw [hs] at hin
    obtain ⟨hfit, hin⟩ := hin
    split at h <;> rename_i hret
    · have hin' : s.inFrame s.callRdsr1 := by
        rcases hin with h | ⟨⟨_, h⟩, _⟩
        · exact h
        · rw [h] at hret; cases hret
      rcases latchRdsrReturn_eq_next h with ⟨hr, rfl⟩ | ⟨hr, he, h⟩ | ⟨hr, _, _, rfl⟩ | ⟨hr, _, _, rfl⟩
      · exact .inl ⟨_, _, rfl, codes_le.2.1, Same.refl s⟩
      · cases h
        refine .inr (.inl ⟨?_, Same.of rfl⟩)
        simp only [ppAt, tried_sphase, taken_sphase, hs]
        refine ⟨hfit, .inr ⟨⟨hb, rfl⟩, latch_seen (s := s) hin' hr he, Nat.zero_le _⟩⟩
      · exact .inl ⟨_, _, rfl, codes_le.2.2.2.2.1, Same.of rfl⟩
      · refine .inr (.inl ⟨?_, Same.of rfl⟩)
        simp only [ppAt, callFrame_sphase]
        exact ⟨hfit, .inl (called_callFrame ..)⟩
    · have hin' : s.latchSeen ∧ s.data.length ≤ s.len.toNat := by
        rcases hin with (⟨h1, _⟩ | ⟨_, ⟨h1, _⟩ | ⟨h1, _⟩⟩) | ⟨_, h1⟩
        · rw [hb] at h1; cases h1
        · rw [hret] at h1; cases h1
        · rw [hret] at h1; cases h1
        · exact h1
      unfold ppGather at h
      split at h
      · rename_i hlt
        obtain ⟨-, h⟩ := memRead_eq_next h
        cases h
        refine .inr (.inl ⟨?_, Same.of rfl⟩)
        simp only [ppAt, hs]
        refine ⟨hfit, .inr ⟨⟨hb, hret⟩, hin'.1, ?_⟩⟩
        simp only [List.length_append, List.length_singleton]; omega
      · rename_i hge
        cases h
        refine .inr (.inl ⟨?_, Same.of rfl⟩)
        simp only [ppAt, callFrame_sphase]
        exact ⟨hfit, Nat.le_antisymm hin'.2 (Nat.le_of_not_lt hge), .inl ⟨called_callFrame .., hin'.1⟩⟩
  · rcases onReturn_eq_next h with ⟨hr, rfl⟩ | ⟨hr, h⟩
    · exact .inl ⟨_, _, rfl, codes_le.2.1, Same.refl s⟩
    · exact .inr (.inr ⟨_, h, ⟨hb, rfl⟩, Same.of rfl⟩)
  all_goals cases h

/-- SE and CE: `call` gives the main frame, `past` holds of the registers past CHECK. -/
theorem erase_spec (call : State → FrameCall) (load : State → State) (past : State → Prop)
    (hload : ∀ s, past (load s) ∧ Same false s (load s))
    (hcall : ∀ p f s, call (callFrame p f s) = call s)
    (hpast : ∀ s, (past (taken s) ↔ past s) ∧ (past (polled s) ↔ past s) ∧ (past (tried s) ↔ past s) ∧
      (∀ p f, past (callFrame p f s) ↔ past s) ∧ (∀ x, past { s with polls := x } ↔ past s) ∧
      (∀ x, past { s with tries := x } ↔ past s)) :
    SeqSpec false (fun s => eraseAt (call s) (past s) s) (eraseSeq call load) := by
  intro s ret t hin hb hf h
  unfold eraseSeq at h
  unfold eraseAt at hin
  split at h <;> rename_i hs
  · obtain ⟨-, rfl⟩ := startWait_eq_next h
    refine .inr (.inl ⟨?_, ?_⟩)
    · simp only [eraseAt, callFrame_sphase]
      exact ⟨((hpast _).2.2.2.1 _ _).mpr (((hpast _).2.2.2.2.1 _).mpr (hload s).1), .inl (called_callFrame ..)⟩
    · have := (hload s).2
      exact ⟨this.1, this.2, this.3, this.4, this.5, this.6, this.7, this.8, this.9, this.10, this.11, this.12, this.13, this.14, this.15, this.16, this.17, this.18, this.19, this.20, this.21⟩
  · simp only [hs] at hin
    obtain ⟨hp, hin⟩ := hin
    rcases waitReturn_eq_next h with ⟨hr, rfl⟩ | ⟨hr, he, h⟩ | ⟨hr, _, _, rfl⟩ | ⟨hr, _, _, rfl⟩
    · exact .inl ⟨_, _, rfl, codes_le.2.1, Same.refl s⟩
    · obtain ⟨-, rfl⟩ := startLatch_eq_next h
      refine .inr (.inl ⟨?_, Same.of rfl⟩)
      simp only [eraseAt, callFrame_sphase]
      exact ⟨((hpast _).2.2.2.1 _ _).mpr (((hpast _).2.2.2.2.2 _).mpr ((hpast _).2.1.mpr ((hpast _).1.mpr hp))), .inl (called_callFrame ..)⟩
    · exact .inl ⟨_, _, rfl, codes_le.2.2.2.2.1, Same.of rfl⟩
    · refine .inr (.inl ⟨?_, Same.of rfl⟩)
      simp only [eraseAt, callFrame_sphase, hs]
      exact ⟨((hpast _).2.2.2.1 _ _).mpr ((hpast _).2.1.mpr ((hpast _).1.mpr hp)), .inl (called_callFrame ..)⟩
  · simp only [hs] at hin
    obtain ⟨hp, hin⟩ := hin
    rcases latchWrenReturn_eq_next h with ⟨hr, rfl⟩ | ⟨hr, rfl⟩
    · exact .inl ⟨_, _, rfl, codes_le.2.1, Same.refl s⟩
    · refine .inr (.inl ⟨?_, Same.of rfl⟩)
      simp only [eraseAt, callFrame_sphase]
      exact ⟨((hpast _).2.2.2.1 _ _).mpr ((hpast _).1.mpr hp), .inl (called_callFrame ..)⟩
  · simp only [hs] at hin
    obtain ⟨hp, hin⟩ := hin
    rcases latchRdsrReturn_eq_next h with ⟨hr, rfl⟩ | ⟨hr, he, h⟩ | ⟨hr, _, _, rfl⟩ | ⟨hr, _, _, rfl⟩
    · exact .inl ⟨_, _, rfl, codes_le.2.1, Same.refl s⟩
    · cases h
      refine .inr (.inl ⟨?_, Same.of rfl⟩)
      simp only [eraseAt, callFrame_sphase, hcall]
      exact ⟨((hpast _).2.2.2.1 _ _).mpr ((hpast _).2.2.1.mpr ((hpast _).1.mpr hp)), .inl ⟨called_callFrame .., latch_seen (s := s) hin hr he⟩⟩
    · exact .inl ⟨_, _, rfl, codes_le.2.2.2.2.1, Same.of rfl⟩
    · refine .inr (.inl ⟨?_, Same.of rfl⟩)
      simp only [eraseAt, callFrame_sphase]
      exact ⟨((hpast _).2.2.2.1 _ _).mpr ((hpast _).2.2.1.mpr ((hpast _).1.mpr hp)), .inl (called_callFrame ..)⟩
  · simp only [hs] at hin
    obtain ⟨hp, hin⟩ := hin
    rcases onReturn_eq_next h with ⟨hr, rfl⟩ | ⟨hr, h⟩
    · exact .inl ⟨_, _, rfl, codes_le.2.1, Same.refl s⟩
    · obtain ⟨-, rfl⟩ := startWait_eq_next h
      refine .inr (.inl ⟨?_, Same.of rfl⟩)
      simp only [eraseAt, callFrame_sphase]
      exact ⟨((hpast _).2.2.2.1 _ _).mpr (((hpast _).2.2.2.2.1 _).mpr ((hpast _).1.mpr hp)), .inl (called_callFrame ..)⟩
  · simp only [hs] at hin
    obtain ⟨hp, hin⟩ := hin
    rcases waitReturn_eq_next h with ⟨hr, rfl⟩ | ⟨hr, he, h⟩ | ⟨hr, _, _, rfl⟩ | ⟨hr, _, _, rfl⟩
    · exact .inl ⟨_, _, rfl, codes_le.2.1, Same.refl s⟩
    · exact .inr (.inr ⟨_, h, ⟨hb, rfl⟩, Same.of rfl⟩)
    · exact .inl ⟨_, _, rfl, codes_le.2.2.2.2.1, Same.of rfl⟩
    · refine .inr (.inl ⟨?_, Same.of rfl⟩)
      simp only [eraseAt, callFrame_sphase, hs]
      exact ⟨((hpast _).2.2.2.1 _ _).mpr ((hpast _).2.1.mpr ((hpast _).1.mpr hp)), .inl (called_callFrame ..)⟩
  · cases h

theorem se_spec : SeqSpec false seAt seSeq :=
  erase_spec State.callSe _ (fun s => s.addr = sectorAddr s.sidx)
    (fun _ => ⟨rfl, rfl, rfl, rfl, rfl, rfl, rfl, rfl, rfl, nofun, rfl, rfl, rfl, rfl, rfl, rfl, rfl, rfl, rfl, id, id, rfl⟩)
    (fun _ _ _ => rfl)
    (fun _ => ⟨Iff.rfl, Iff.rfl, Iff.rfl, fun _ _ => Iff.rfl, fun _ => Iff.rfl, fun _ => Iff.rfl⟩)

theorem ce_spec : SeqSpec false ceAt ceSeq :=
  erase_spec State.callCe _ (fun _ => True)
    (fun s => ⟨trivial, Same.refl s⟩) (fun _ _ _ => rfl)
    (fun _ => ⟨Iff.rfl, Iff.rfl, Iff.rfl, fun _ _ => Iff.rfl, fun _ => Iff.rfl, fun _ => Iff.rfl⟩)

end Sys2Proof.Machine
end

