-- ==== Sys2Proof/Laws/Positions.lean ====
section
/-! SUPPORT. The positions of a request in progress (Safety.lean, `busyAt`) while a Frame call is on
the bus: which frames can stand there, and where running one leads. -/

namespace Sys2Proof.Machine

/-- A frame that the encoder writes for a well-formed frame kind. -/
def BlockFrame (o : Opcodes) (f : FrameCall) : Prop := ∃ i : Instr, i.isRequest = false ∧ i.wf = true ∧ encode o i = .frame f

theorem segs_returned {s : State} {f x} (hx : x.Ok s.cfg f.rxn) : (segments f x s).returned f := by
  refine ⟨rfl, ?_⟩
  have hx' := hx.fitted
  cases h : (s.frameResult f x).ok
  · right
    refine ⟨by simp [h], _, runSegments_of_fail h, ?_⟩
    rfl
  · left
    have := runSegments_of_ok (f := f) hx' h
    refine ⟨by simp [h], ?_, this.2⟩
    show some (f, _, _) = _
    congr 3
    exact this.1

theorem segs_inFrame {s : State} {f g x} (hb : s.bus = some f) (hx : x.Ok s.cfg f.rxn) (h : s.inFrame g) :
    (segments f x s).returned g := by
  rcases h with ⟨h, _⟩ | ⟨h, _⟩
  · rw [hb] at h; cases h; exact segs_returned hx
  · rw [hb] at h; cases h

theorem called_eq {s : State} {f g} (hb : s.bus = some f) (h : s.inFrame g) : f = g := by
  rcases h with ⟨h, _⟩ | ⟨h, _⟩
  · rw [hb] at h; cases h; rfl
  · rw [hb] at h; cases h

theorem not_quiet {s : State} {f} (hb : s.bus = some f) (h : s.quiet) : False := by
  rw [h.1] at hb; cases hb

theorem inMut_inFrame {s : State} {f} (h : s.inMutation f) : s.inFrame f := h.imp_left And.left

/-- What every position with a Frame call on the bus has: the frame is the block's, no return is
waiting, and running it leads to a position of the same operation. -/
def FrameOk (inside : State → Prop) : Prop := ∀ s f, inside s → s.bus = some f →
  BlockFrame s.cfg.ops f ∧ s.ret = none ∧ ∀ x : ChipSide, x.Ok s.cfg f.rxn → inside (segments f x s)

theorem inFrame_ret {s : State} {f g} (hb : s.bus = some f) (h : s.inFrame g) : s.ret = none := by
  rcases h with ⟨_, h⟩ | ⟨h, _⟩
  · exact h
  · rw [hb] at h; cases h

theorem one_frame (call : State → FrameCall) (hbk : ∀ s, BlockFrame s.cfg.ops (call s)) (hc : ∀ s f x, call (segments f x s) = call s) :
    FrameOk (fun s => oneFrameAt (call s) s) := by
  intro s f h hb
  simp only [oneFrameAt] at h
  split at h <;> rename_i hs
  · exact (not_quiet hb h).elim
  · refine ⟨called_eq hb h ▸ hbk s, inFrame_ret hb h, fun x hx => ?_⟩
    simp only [oneFrameAt, segments_sphase, hs, hc]
    exact .inr (segs_inFrame hb hx h)
  all_goals cases h

theorem bk_rdsr1 (s : State) : BlockFrame s.cfg.ops s.callRdsr1 := ⟨.spiRdsr1, rfl, rfl, rfl⟩
theorem bk_wren (s : State) : BlockFrame s.cfg.ops s.callWren := ⟨.spiWren, rfl, rfl, rfl⟩

theorem reset_frame : FrameOk resetAt := by
  intro s f h hb
  simp only [resetAt] at h
  split at h <;> rename_i hs
  · exact (not_quiet hb h).elim
  · rcases h with ⟨hp, h⟩ | ⟨hsp, hp, h⟩
    · refine ⟨?_, inFrame_ret hb h, fun x hx => ?_⟩
      · rw [called_eq hb h]
        unfold State.callReset
        split
        · exact ⟨.spiRstenRst, rfl, rfl, rfl⟩
        · exact ⟨.spiRsten, rfl, rfl, rfl⟩
      · simp only [resetAt, segments_sphase, hs]
        exact .inl ⟨hp, .inr (segs_inFrame hb hx h)⟩
    · refine ⟨?_, inFrame_ret hb h, fun x hx => ?_⟩
      · rw [called_eq hb h]
        exact ⟨.spiRst, rfl, rfl, rfl⟩
      · simp only [resetAt, segments_sphase, hs]
        exact .inr ⟨hsp, hp, .inr (segs_inFrame hb hx h)⟩
  all_goals cases h

theorem waitwip_frame : FrameOk waitwipAt := by
  intro s f h hb
  simp only [waitwipAt] at h
  split at h <;> rename_i hs
  · exact (not_quiet hb h).elim
  · refine ⟨called_eq hb h ▸ bk_rdsr1 s, inFrame_ret hb h, fun x hx => ?_⟩
    simp only [waitwipAt, segments_sphase, hs]
    exact .inr (segs_inFrame hb hx h)
  all_goals cases h

theorem wrenw_frame : FrameOk wrenwAt := by
  intro s f h hb
  simp only [wrenwAt] at h
  split at h <;> rename_i hs
  · exact (not_quiet hb h).elim
  · refine ⟨called_eq hb h ▸ bk_wren s, inFrame_ret hb h, fun x hx => ?_⟩
    simp only [wrenwAt, segments_sphase, hs]
    exact .inr (segs_inFrame hb hx h)
  · refine ⟨called_eq hb h ▸ bk_rdsr1 s, inFrame_ret hb h, fun x hx => ?_⟩
    simp only [wrenwAt, segments_sphase, hs]
    exact .inr (segs_inFrame hb hx h)
  all_goals cases h

theorem wrsr_frame : FrameOk wrsrAt := by
  intro s f h hb
  simp only [wrsrAt] at h
  split at h <;> rename_i hs
  · exact (not_quiet hb h).elim
  · refine ⟨called_eq hb h ▸ bk_wren s, inFrame_ret hb h, fun x hx => ?_⟩
    simp only [wrsrAt, segments_sphase, hs]
    exact .inr (segs_inFrame hb hx h)
  · refine ⟨called_eq hb h ▸ bk_rdsr1 s, inFrame_ret hb h, fun x hx => ?_⟩
    simp only [wrsrAt, segments_sphase, hs]
    exact .inr (segs_inFrame hb hx h)
  · have h' := inMut_inFrame h
    refine ⟨called_eq hb h' ▸ ⟨.spiWrsr _ _, rfl, rfl, rfl⟩, inFrame_ret hb h', fun x hx => ?_⟩
    simp only [wrsrAt, segments_sphase, hs]
    exact .inr (segs_inFrame hb hx h')
  all_goals cases h

theorem read_frame : FrameOk readAt := by
  intro s f h hb
  simp only [readAt] at h
  split at h <;> rename_i hs
  · exact (not_quiet hb h).elim
  · refine ⟨called_eq hb h ▸ bk_rdsr1 s, inFrame_ret hb h, fun x hx => ?_⟩
    simp only [readAt, segments_sphase, hs]
    exact .inr (segs_inFrame hb hx h)
  · have h' : s.inFrame s.callRead := by
      rcases h with ⟨h, _⟩ | h | ⟨h, _⟩
      · exact .inl h
      · exact .inr h
      · exact (not_quiet hb h).elim
    refine ⟨called_eq hb h' ▸ ⟨.spiRead _ _, rfl, by simp only [Instr.wf, decide_eq_true_eq]; exact s.len.isLt, rfl⟩, inFrame_ret hb h', fun x hx => ?_⟩
    simp only [readAt, segments_sphase, hs]
    exact .inr (.inl (segs_inFrame hb hx h'))
  all_goals cases h

theorem fits_wire {a l : Word} {n : Nat} (h : ppFits a l = true) (hn : n = l.toNat) : fitsPage (wireAddr a) n = true := by
  simp only [ppFits, fitsPage, Bool.and_eq_true, decide_eq_true_eq] at *
  have : (wireAddr a).toNat = a.toNat % 2^24 := by simp [wireAddr, BitVec.extractLsb'_toNat]
  rw [this, hn]
  simp only [pageSize] at *
  omega

theorem pp_frame : FrameOk ppAt := by
  intro s f h hb
  simp only [ppAt] at h
  split at h <;> rename_i hs
  · exact (not_quiet hb h).elim
  · obtain ⟨hfit, h⟩ := h
    refine ⟨called_eq hb h ▸ bk_rdsr1 s, inFrame_ret hb h, fun x hx => ?_⟩
    simp only [ppAt, segments_sphase, hs]
    exact ⟨hfit, .inr (segs_inFrame hb hx h)⟩
  · obtain ⟨hfit, h⟩ := h
    refine ⟨called_eq hb h ▸ bk_wren s, inFrame_ret hb h, fun x hx => ?_⟩
    simp only [ppAt, segments_sphase, hs]
    exact ⟨hfit, .inr (segs_inFrame hb hx h)⟩
  · obtain ⟨hfit, h | ⟨h, _⟩⟩ := h
    · refine ⟨called_eq hb h ▸ bk_rdsr1 s, inFrame_ret hb h, fun x hx => ?_⟩
      simp only [ppAt, segments_sphase, hs]
      exact ⟨hfit, .inl (.inr (segs_inFrame hb hx h))⟩
    · exact (not_quiet hb h).elim
  · obtain ⟨hfit, hl, h⟩ := h
    have h' := inMut_inFrame h
    refine ⟨called_eq hb h' ▸ ⟨.spiPp _ _, rfl, fits_wire hfit hl, rfl⟩, inFrame_ret hb h', fun x hx => ?_⟩
    simp only [ppAt, segments_sphase, hs]
    exact ⟨hfit, hl, .inr (segs_inFrame hb hx h')⟩
  all_goals cases h

theorem erase_frame (call : State → FrameCall) (past : State → Prop)
    (hbk : ∀ s, past s → BlockFrame s.cfg.ops (call s)) (hc : ∀ s f x, call (segments f x s) = call s)
    (hpast : ∀ s f x, past (segments f x s) ↔ past s) :
    FrameOk (fun s => eraseAt (call s) (past s) s) := by
  intro s f h hb
  simp only [eraseAt] at h
  split at h <;> rename_i hs
  · exact (not_quiet hb h).elim
  · obtain ⟨hp, h⟩ := h
    refine ⟨called_eq hb h ▸ bk_rdsr1 s, inFrame_ret hb h, fun x hx => ?_⟩
    simp only [eraseAt, segments_sphase, hs, hpast]
    exact ⟨hp, .inr (segs_inFrame hb hx h)⟩
  · obtain ⟨hp, h⟩ := h
    refine ⟨called_eq hb h ▸ bk_wren s, inFrame_ret hb h, fun x hx => ?_⟩
    simp only [eraseAt, segments_sphase, hs, hpast]
    exact ⟨hp, .inr (segs_inFrame hb hx h)⟩
  · obtain ⟨hp, h⟩ := h
    refine ⟨called_eq hb h ▸ bk_rdsr1 s, inFrame_ret hb h, fun x hx => ?_⟩
    simp only [eraseAt, segments_sphase, hs, hpast]
    exact ⟨hp, .inr (segs_inFrame hb hx h)⟩
  · obtain ⟨hp, h⟩ := h
    have h' := inMut_inFrame h
    refine ⟨called_eq hb h' ▸ hbk s hp, inFrame_ret hb h', fun x hx => ?_⟩
    simp only [eraseAt, segments_sphase, hs, hpast, hc]
    exact ⟨hp, .inr (segs_inFrame hb hx h')⟩
  · obtain ⟨hp, h⟩ := h
    refine ⟨called_eq hb h ▸ bk_rdsr1 s, inFrame_ret hb h, fun x hx => ?_⟩
    simp only [eraseAt, segments_sphase, hs, hpast]
    exact ⟨hp, .inr (segs_inFrame hb hx h)⟩
  all_goals cases h

theorem sector_aligned (x : Word) : (wireAddr (sectorAddr x)).toNat % sectorSize = 0 := by
  simp only [wireAddr, sectorAddr, BitVec.extractLsb'_toNat, BitVec.toNat_mul, sectorSize]
  simp
  try omega

theorem se_frame : FrameOk seAt :=
  erase_frame State.callSe (fun s => s.addr = sectorAddr s.sidx)
    (fun s h => ⟨.spiSe (wireAddr s.addr), rfl, by simp only [Instr.wf]; rw [h, sector_aligned]; rfl, rfl⟩)
    (fun _ _ _ => rfl) (fun _ _ _ => Iff.rfl)

theorem ce_frame : FrameOk ceAt :=
  erase_frame State.callCe (fun _ => True) (fun _ _ => ⟨.spiCe, rfl, rfl, rfl⟩) (fun _ _ _ => rfl) (fun _ _ _ => Iff.rfl)

theorem direct_frame {loaded : State → Prop} {inside} (h : FrameOk inside)
    (hl : ∀ s f x, loaded s → loaded (segments f x s)) : FrameOk (fun s => directAt (loaded s) inside s) := by
  intro s f ⟨hr, hld, hin⟩ hb
  rcases hin with ⟨_, hq⟩ | hin
  · exact (not_quiet hb hq).elim
  · obtain ⟨a, b, c⟩ := h s f hin hb
    exact ⟨a, b, fun x hx => ⟨hr, hl s f x hld, .inr (c x hx)⟩⟩

theorem busy_frame (i : Instr) : FrameOk (busyAt i) := by
  cases i with
  | reset _ => exact direct_frame (loaded := fun _ => True) reset_frame (fun _ _ _ h => h)
  | rdid _ => exact direct_frame (loaded := fun _ => True) (one_frame State.callRdid (fun s => ⟨.spiRdid, rfl, rfl, rfl⟩) (fun _ _ _ => rfl)) (fun _ _ _ h => h)
  | rdsr1 _ => exact direct_frame (loaded := fun _ => True) (one_frame State.callRdsr1 (fun s => ⟨.spiRdsr1, rfl, rfl, rfl⟩) (fun _ _ _ => rfl)) (fun _ _ _ h => h)
  | rdsr2 _ => exact direct_frame (loaded := fun _ => True) (one_frame State.callRdsr2 (fun s => ⟨.spiRdsr2, rfl, rfl, rfl⟩) (fun _ _ _ => rfl)) (fun _ _ _ h => h)
  | wrsr _ => exact direct_frame (loaded := State.statusLoaded) wrsr_frame (fun _ _ _ h => h)
  | wren _ => exact direct_frame (loaded := fun _ => True) (one_frame State.callWren (fun s => ⟨.spiWren, rfl, rfl, rfl⟩) (fun _ _ _ => rfl)) (fun _ _ _ h => h)
  | wrdi _ => exact direct_frame (loaded := fun _ => True) (one_frame State.callWrdi (fun s => ⟨.spiWrdi, rfl, rfl, rfl⟩) (fun _ _ _ => rfl)) (fun _ _ _ h => h)
  | read _ => exact direct_frame (loaded := State.transferLoaded) read_frame (fun _ _ _ h => h)
  | pp _ => exact direct_frame (loaded := State.transferLoaded) pp_frame (fun _ _ _ h => h)
  | se _ => exact direct_frame (loaded := fun s => s.sidx = s.req.a0) se_frame (fun _ _ _ h => h)
  | ce _ => exact direct_frame (loaded := fun _ => True) ce_frame (fun _ _ _ h => h)
  | waitwip _ => exact direct_frame (loaded := fun _ => True) waitwip_frame (fun _ _ _ h => h)
  | wrenw _ => exact direct_frame (loaded := fun _ => True) wrenw_frame (fun _ _ _ h => h)
  | init _ =>
    intro s f h hb
    rcases h with ⟨h1, h⟩ | ⟨h1, h⟩ | ⟨_, _, h⟩
    · obtain ⟨a, b, c⟩ := reset_frame s f h hb
      exact ⟨a, b, fun x hx => .inl ⟨h1, c x hx⟩⟩
    · obtain ⟨a, b, c⟩ := one_frame State.callRdid (fun s => ⟨.spiRdid, rfl, rfl, rfl⟩) (fun _ _ _ => rfl) s f h hb
      exact ⟨a, b, fun x hx => .inr (.inl ⟨h1, c x hx⟩)⟩
    · exact (not_quiet hb h).elim
  | write _ =>
    intro s f h hb
    rcases h with ⟨hl, ⟨_, ⟨_, h⟩, _⟩ | ⟨h1, ⟨_, h, _⟩ | ⟨ht, h, hc⟩⟩⟩
    · exact (not_quiet hb h).elim
    · exact (not_quiet hb h).elim
    · obtain ⟨a, b, c⟩ := pp_frame s f h hb
      exact ⟨a, b, fun x hx => ⟨hl, .inr ⟨h1, .inr ⟨ht, c x hx, hc⟩⟩⟩⟩
  | erase _ =>
    intro s f h hb
    rcases h with ⟨hl, ⟨_, ⟨_, h⟩, _⟩ | ⟨h1, ⟨_, h, _⟩ | ⟨ht, h, hc⟩⟩⟩
    · exact (not_quiet hb h).elim
    · exact (not_quiet hb h).elim
    · obtain ⟨a, b, c⟩ := se_frame s f h hb
      exact ⟨a, b, fun x hx => ⟨hl, .inr ⟨h1, .inr ⟨ht, c x hx, hc⟩⟩⟩⟩
  | masserase _ =>
    intro s f h hb
    rcases h with ⟨_, _, h⟩ | ⟨h1, h⟩
    · exact (not_quiet hb h).elim
    · obtain ⟨a, b, c⟩ := ce_frame s f h hb
      exact ⟨a, b, fun x hx => .inr ⟨h1, c x hx⟩⟩
  | _ => intro s f h; exact absurd h (by simp [busyAt])

end Sys2Proof.Machine
end

