-- ==== Sys2Proof/Laws/Requests.lean ====
section
/-! SUPPORT. Each request command over the shared life of a request (`directRequest`,
`rangeRequest`), and the command code each one has. -/

namespace Sys2Proof.Machine

theorem exec_reset (o : Operands) (s : State) : exec (.reset o) s =
    directRequest (Request.of 0x01 o) (fun t => t) (fun t => t) resetSeq s := rfl

theorem decodeRequest_reset (o : Operands) : decodeRequest (Request.of 0x01 o) = .reset o := rfl

theorem exec_rdid (o : Operands) (s : State) : exec (.rdid o) s =
    directRequest (Request.of 0x02 o) (fun t => t) (fun t => { t with rspId := t.id }) rdidSeq s := rfl

theorem decodeRequest_rdid (o : Operands) : decodeRequest (Request.of 0x02 o) = .rdid o := rfl

theorem exec_rdsr1 (o : Operands) (s : State) : exec (.rdsr1 o) s =
    directRequest (Request.of 0x03 o) (fun t => t) (fun t => { t with rspSr := t.sr }) rdsr1Seq s := rfl

theorem decodeRequest_rdsr1 (o : Operands) : decodeRequest (Request.of 0x03 o) = .rdsr1 o := rfl

theorem exec_rdsr2 (o : Operands) (s : State) : exec (.rdsr2 o) s =
    directRequest (Request.of 0x04 o) (fun t => t) (fun t => { t with rspSr := t.rxByte 0 }) rdsr2Seq s := rfl

theorem decodeRequest_rdsr2 (o : Operands) : decodeRequest (Request.of 0x04 o) = .rdsr2 o := rfl

theorem exec_wrsr (o : Operands) (s : State) : exec (.wrsr o) s =
    directRequest (Request.of 0x05 o) loadStatus (fun t => t) wrsrSeq s := rfl

theorem decodeRequest_wrsr (o : Operands) : decodeRequest (Request.of 0x05 o) = .wrsr o := rfl

theorem exec_wren (o : Operands) (s : State) : exec (.wren o) s =
    directRequest (Request.of 0x06 o) (fun t => t) (fun t => t) wrenSeq s := rfl

theorem decodeRequest_wren (o : Operands) : decodeRequest (Request.of 0x06 o) = .wren o := rfl

theorem exec_wrdi (o : Operands) (s : State) : exec (.wrdi o) s =
    directRequest (Request.of 0x07 o) (fun t => t) (fun t => t) wrdiSeq s := rfl

theorem decodeRequest_wrdi (o : Operands) : decodeRequest (Request.of 0x07 o) = .wrdi o := rfl

theorem exec_read (o : Operands) (s : State) : exec (.read o) s =
    directRequest (Request.of 0x08 o) loadTransfer (fun t => t) readSeq s := rfl

theorem decodeRequest_read (o : Operands) : decodeRequest (Request.of 0x08 o) = .read o := rfl

theorem exec_pp (o : Operands) (s : State) : exec (.pp o) s =
    directRequest (Request.of 0x09 o) loadTransfer (fun t => t) ppSeq s := rfl

theorem decodeRequest_pp (o : Operands) : decodeRequest (Request.of 0x09 o) = .pp o := rfl

theorem exec_se (o : Operands) (s : State) : exec (.se o) s =
    directRequest (Request.of 0x0A o) loadSector (fun t => t) seSeq s := rfl

theorem decodeRequest_se (o : Operands) : decodeRequest (Request.of 0x0A o) = .se o := rfl

theorem exec_ce (o : Operands) (s : State) : exec (.ce o) s =
    directRequest (Request.of 0x0B o) (fun t => t) (fun t => t) ceSeq s := rfl

theorem decodeRequest_ce (o : Operands) : decodeRequest (Request.of 0x0B o) = .ce o := rfl

theorem exec_waitwip (o : Operands) (s : State) : exec (.waitwip o) s =
    directRequest (Request.of 0x0C o) (fun t => t) (fun t => t) waitwipSeq s := rfl

theorem decodeRequest_waitwip (o : Operands) : decodeRequest (Request.of 0x0C o) = .waitwip o := rfl

theorem exec_wrenw (o : Operands) (s : State) : exec (.wrenw o) s =
    directRequest (Request.of 0x0D o) (fun t => t) (fun t => t) wrenwSeq s := rfl

theorem decodeRequest_wrenw (o : Operands) : decodeRequest (Request.of 0x0D o) = .wrenw o := rfl

theorem exec_init (o : Operands) (s : State) : exec (.init o) s =
    rangeRequest (Request.of 0x10 o) (fun t => { t with rphase := .initReset }) initSeq s := rfl

theorem decodeRequest_init (o : Operands) : decodeRequest (Request.of 0x10 o) = .init o := rfl

theorem exec_write (o : Operands) (s : State) : exec (.write o) s =
    rangeRequest (Request.of 0x11 o) loadWrite writeSeq s := rfl

theorem decodeRequest_write (o : Operands) : decodeRequest (Request.of 0x11 o) = .write o := rfl

theorem exec_erase (o : Operands) (s : State) : exec (.erase o) s =
    rangeRequest (Request.of 0x12 o) loadErase eraseRangeSeq s := rfl

theorem decodeRequest_erase (o : Operands) : decodeRequest (Request.of 0x12 o) = .erase o := rfl

theorem exec_masserase (o : Operands) (s : State) : exec (.masserase o) s =
    rangeRequest (Request.of 0x13 o) (fun t => { t with rphase := .mass }) massSeq s := rfl

theorem decodeRequest_masserase (o : Operands) : decodeRequest (Request.of 0x13 o) = .masserase o := rfl

/-- R103, R105: a code is reserved, or one of the seventeen. -/
theorem request_codes (c : Byte) : reservedCode c = true ∨
    c ∈ [(0x01 : Byte), 0x02, 0x03, 0x04, 0x05, 0x06, 0x07, 0x08, 0x09, 0x0A, 0x0B, 0x0C, 0x0D, 0x10,
      0x11, 0x12, 0x13] := by
  revert c; decide

end Sys2Proof.Machine
end

