-- ==== Sys2Proof/Tests/Slice0.lean ====
section
/-! SUPPORT. Tests: ill-formed terms refused, one decoded word for each constructor, small one-step
tests with the expected values of spec/95_test_vectors.md, and a witness for the hypotheses of each
obligation. -/

namespace Sys2Proof.Tests

open Sys2Proof.Machine

/-! ## Helpers -/

/-- The operands of a request whose fields do not matter. -/
def zero : Operands := { a0 := 0, a1 := 0, boff := 0 }

/-- The defaults, and for the OPEN parameters the example values of 95_test_vectors.md. -/
def cfg : Config :=
  { Config.default with
    expId := { mfr := 0xEF, type := 0x40, cap := 0x17 }
    sectorCount := 256
    dummyTx := 0xFF
    eraseUnderflow := .wrap
    chipId := { mfr := 0xEF, type := 0x40, cap := 0x17 }
    chipPresent := true
    chipNeedsSplit := false
    programRule := .reference }

/-- Every segment succeeds, nothing completes, nothing is dropped. -/
def clean : Draw :=
  { completes := false, hdrOk := true, payOk := true, cut := 0, ignoresCut := true
    dropWren := false, sr1 := 0, sr2 := 0
    wip := false, wel := false, mask1 := 0xFF, mask2 := 0xFF, bytes := [], pokes := [] }

/-- A ready block with a fitted chip. -/
def ready : State := { State.reset with cfg := cfg, draws := [clean, clean, clean, clean, clean] }

/-- A request in progress. -/
def busy (c : Byte) (r : RPhase) (p : SPhase) : State :=
  { ready with req := Request.of c zero, phase := .busy, rphase := r, sphase := p }

/-- A request whose last frame received `rx` and succeeded. -/
def got (c : Byte) (r : RPhase) (p : SPhase) (rx : List Byte) : State :=
  { busy c r p with ret := some true, rx := rx }

/-- A request offered on the port. -/
def offer (w : BitVec 104) : State := { ready with offers := [w] }

/-- The chip with the flags given. -/
def chip (wip wel : Bool) : Chip :=
  { Chip.powerUp with wip := wip, wel := wel, op := if wip then some (0, 0) else none }

/-- The outcome is a next state with the property. -/
def nextIs (r : Res) (p : State → Bool) : Bool :=
  match r with
  | .next t => p t
  | .fault _ => false
  | .refused _ => false

/-- The outcome is this fault. -/
def faultIs (r : Res) (f : Fault) : Bool :=
  match r with
  | .next _ => false
  | .fault g => g == f
  | .refused _ => false

/-- The frame that is called. -/
def calls (r : Res) (f : FrameCall) : Bool := nextIs r (fun t => t.bus == some f)

/-! ## Well-formedness -/

theorem test_wf_reserved : Instr.wf (.reserved 0x01 zero) = false := by decide
theorem test_wf_pp_empty : Instr.wf (.spiPp 0 []) = false := by decide
theorem test_wf_pp_straddles : Instr.wf (.spiPp 0x0000FF [1, 2]) = false := by decide
theorem test_wf_pp_fits : Instr.wf (.spiPp 0x0000FE [1, 2]) = true := by decide
theorem test_wf_read_length : Instr.wf (.spiRead 0 (2 ^ 32)) = false := by decide
theorem test_wf_se_unaligned : Instr.wf (.spiSe 0x000800) = false := by decide

/-! ## Decoding: T1, T3, R103, R110, R112 -/

theorem test_decode_reset : decodeTableWord 104 0x01000000000000000000000000 = some (.reset zero) := by decide
theorem test_decode_rdid : decodeTableWord 104 0x02000000000000000000000000 = some (.rdid zero) := by decide
theorem test_decode_rdsr1 : decodeTableWord 104 0x03000000000000000000000000 = some (.rdsr1 zero) := by decide
theorem test_decode_rdsr2 : decodeTableWord 104 0x04000000000000000000000000 = some (.rdsr2 zero) := by decide
theorem test_decode_wrsr : decodeTableWord 104 0x050000007C0000000200000000 =
    some (.wrsr { a0 := 0x7C, a1 := 0x02, boff := 0 }) := by decide
theorem test_decode_wren : decodeTableWord 104 0x06000000000000000000000000 = some (.wren zero) := by decide
theorem test_decode_wrdi : decodeTableWord 104 0x07000000000000000000000000 = some (.wrdi zero) := by decide
theorem test_decode_read : decodeTableWord 104 0x08000123450000001000000080 =
    some (.read { a0 := 0x012345, a1 := 16, boff := 0x80 }) := by decide
theorem test_decode_pp : decodeTableWord 104 0x09000001000000002C00000100 =
    some (.pp { a0 := 0x000100, a1 := 44, boff := 0x100 }) := by decide
theorem test_decode_se : decodeTableWord 104 0x0A000000030000000000000000 =
    some (.se { a0 := 3, a1 := 0, boff := 0 }) := by decide
theorem test_decode_ce : decodeTableWord 104 0x0B000000000000000000000000 = some (.ce zero) := by decide
theorem test_decode_waitwip : decodeTableWord 104 0x0C000000000000000000000000 = some (.waitwip zero) := by decide
theorem test_decode_wrenw : decodeTableWord 104 0x0D000000000000000000000000 = some (.wrenw zero) := by decide
theorem test_decode_init : decodeTableWord 104 0x10000000000000000000000000 = some (.init zero) := by decide
theorem test_decode_write : decodeTableWord 104 0x11000020000000025800000000 =
    some (.write { a0 := 0x2000, a1 := 600, boff := 0 }) := by decide
theorem test_decode_erase : decodeTableWord 104 0x12000000000000200000000000 =
    some (.erase { a0 := 0, a1 := 8192, boff := 0 }) := by decide
theorem test_decode_masserase : decodeTableWord 104 0x13000000000000000000000000 = some (.masserase zero) := by decide
theorem test_decode_reserved : decodeTableWord 104 0x80000000010000000200000003 =
    some (.reserved 0x80 { a0 := 1, a1 := 2, boff := 3 }) := by decide
theorem test_decode_spi_rsten_rst : decodeTableWord 16 0x6699 = some .spiRstenRst := by decide
theorem test_decode_spi_rsten : decodeTableWord 8 0x66 = some .spiRsten := by decide
theorem test_decode_spi_rst : decodeTableWord 8 0x99 = some .spiRst := by decide
theorem test_decode_spi_rdid : decodeTableWord 8 0x9F = some .spiRdid := by decide
theorem test_decode_spi_rdsr1 : decodeTableWord 8 0x05 = some .spiRdsr1 := by decide
theorem test_decode_spi_rdsr2 : decodeTableWord 8 0x35 = some .spiRdsr2 := by decide
theorem test_decode_spi_wrsr : decodeFrame Opcodes.default { hdr := [0x01, 0x7C, 0x02], tx := [], rxn := 0 } =
    .ok (.spiWrsr 0x7C 0x02) := by decide
theorem test_decode_spi_wren : decodeTableWord 8 0x06 = some .spiWren := by decide
theorem test_decode_spi_wrdi : decodeTableWord 8 0x04 = some .spiWrdi := by decide
theorem test_decode_spi_read : decodeFrame Opcodes.default
    { hdr := [0x03, 0x00, 0x00, 0x10], tx := [], rxn := 3 } = .ok (.spiRead 0x000010 3) := by decide
theorem test_decode_spi_pp : decodeFrame Opcodes.default
    { hdr := [0x02, 0x00, 0x02, 0x00], tx := [0xA5, 0x5A], rxn := 0 } =
    .ok (.spiPp 0x000200 [0xA5, 0x5A]) := by decide
theorem test_decode_spi_se : decodeFrame Opcodes.default
    { hdr := [0x20, 0x0F, 0xF0, 0x00], tx := [], rxn := 0 } = .ok (.spiSe 0x0FF000) := by decide
theorem test_decode_spi_ce : decodeTableWord 8 0xC7 = some .spiCe := by decide
/-- R111, R117: a byte that is none of the twelve opcodes. -/
theorem test_decode_unknown : decodeTableWord 8 0x0B = none := by decide

/-! ## The first step after reset runs a placed instruction -/

theorem test_first_step_request :
    nextIs (step (State.reset.withFetchWord 104 0x01000000000000000000000000))
      (fun t => t.phase == .busy && t.req.cmd == 0x01) = true := by decide
theorem test_first_step_reserved :
    nextIs (step (State.reset.withFetchWord 104 0xFF000000000000000000000000))
      (fun t => t.result == 0x05) = true := by decide
theorem test_first_step_frame :
    nextIs (step (State.reset.withFetchWord 8 0x02)) (fun t => t.bus == none) = true := by decide
theorem test_first_step_pair :
    nextIs (step (State.reset.withFetchWord 16 0x6699)) (fun t => t.bus == none) = true := by decide

/-! ## Register commands: T7 to T11, T3 -/

/-- T7 -/
theorem test_reset_single : calls (exec (.reset zero) (busy 0x01 .none .check))
    { hdr := [0x66, 0x99], tx := [], rxn := 0 } = true := by decide
/-- T7, SPLIT -/
theorem test_reset_split :
    calls (exec (.reset zero) { got 0x01 .none .main [] with cfg := { cfg with resetFraming := .split } })
      { hdr := [0x99], tx := [], rxn := 0 } = true := by decide
/-- T8 -/
theorem test_rdid_order : nextIs (exec (.rdid zero) (got 0x02 .none .main [0xC2, 0x20, 0x16]))
    (fun t => t.id == { mfr := 0xC2, type := 0x20, cap := 0x16 }) = true := by decide
/-- T9 -/
theorem test_rdsr1_sr : nextIs (exec (.rdsr1 zero) (got 0x03 .none .main [0xFC]))
    (fun t => t.sr == 0xFC && !isBusy cfg t.sr && !isWriteEnabled cfg t.sr) = true := by decide
/-- T9: `sr` is not written. -/
theorem test_rdsr2_response : nextIs (exec (.rdsr2 zero) { got 0x04 .none .finish [0x02] with sr := 0x55 })
    (fun t => t.rspSr == 0x02 && t.sr == 0x55 && t.result == 0x00) = true := by decide
/-- T10 -/
theorem test_wrsr_frame :
    calls (exec (.wrsr zero) { got 0x05 .none .welRdsr [0x02] with wsr1 := 0x00, wsr2 := 0x02 })
      { hdr := [0x01, 0x00, 0x02], tx := [], rxn := 0 } = true := by decide
/-- T2: the upper bits of WRSR's operands are dropped. -/
theorem test_wrsr_operands :
    nextIs (exec (.wrsr { a0 := 0xFFFFFF7C, a1 := 0xAAAAAA02, boff := 0xDEADBEEF }) ready)
      (fun t => t.wsr1 == 0x7C && t.wsr2 == 0x02) = true := by decide
/-- T11 -/
theorem test_wren_frame : calls (exec (.wren zero) (busy 0x06 .none .check))
    { hdr := [0x06], tx := [], rxn := 0 } = true := by decide
/-- T11 -/
theorem test_wrdi_frame : calls (exec (.wrdi zero) (busy 0x07 .none .check))
    { hdr := [0x04], tx := [], rxn := 0 } = true := by decide
/-- T3 -/
theorem test_reserved_err_cmd : nextIs (exec (.reserved 0x14 zero) ready)
    (fun t => t.result == 0x05 && t.rspValid && t.phase == .respond && t.trace == []) = true := by decide

/-! ## The sequencer: T12 to T15 -/

/-- T12: 0xFE has WIP = 0. -/
theorem test_waitwip_idle : nextIs (exec (.waitwip zero) (got 0x0C .none .preWip [0xFE]))
    (fun t => t.sphase == .finish) = true := by decide
/-- T13 -/
theorem test_waitwip_limit :
    nextIs (exec (.waitwip zero)
        { got 0x0C .none .preWip [0x01] with cfg := { cfg with wipLimit := some 2 }, polls := 1 })
      (fun t => t.result == 0x04 && t.phase == .respond) = true := by decide
/-- T15: the latch is seen set while busy. -/
theorem test_wrenw_ignores_wip : nextIs (exec (.wrenw zero) (got 0x0D .none .welRdsr [0x03]))
    (fun t => t.sphase == .finish) = true := by decide
/-- T14 -/
theorem test_wrenw_limit :
    nextIs (exec (.wrenw zero)
        { got 0x0D .none .welRdsr [0x00] with cfg := { cfg with welLimit := some 2 }, tries := 1 })
      (fun t => t.result == 0x04 && t.bus == none) = true := by decide

/-! ## Array commands: T4, T18, T20, T24, V5 -/

/-- T4: bits 31..24 are dropped. -/
theorem test_read_header :
    calls (exec (.read zero) { got 0x08 .none .preWip [0x00] with addr := 0x01012345, len := 1 })
      { hdr := [0x03, 0x01, 0x23, 0x45], tx := [], rxn := 1 } = true := by decide
/-- T18 -/
theorem test_read_store :
    nextIs (exec (.read zero) { busy 0x08 .none .main with
        rx := [0x11, 0x22, 0x33], len := 3, off := 0x40, pos := 1 })
      (fun t => t.buffer.read 0x41 == 0x22 && t.trace == [.memWrite 0x41 0x22] && t.pos == 2) = true := by decide
/-- V5 -/
theorem test_pp_straddles : nextIs (exec (.pp zero) { busy 0x09 .none .check with addr := 0xF0, len := 32 })
    (fun t => t.result == 0x03 && t.bus == none && t.trace == []) = true := by decide
/-- T20: the header of a PP at 0xFFFFFFFF. -/
theorem test_pp_header :
    calls (exec (.pp zero) { busy 0x09 .none .welRdsr with addr := 0xFFFFFFFF, len := 1, data := [0xA5] })
      { hdr := [0x02, 0xFF, 0xFF, 0xFF], tx := [0xA5], rxn := 0 } = true := by decide
/-- T20 -/
theorem test_pp_fits_table :
    [ppFits 0 0, ppFits 0 1, ppFits 0 256, ppFits 0 257, ppFits 0x10 240, ppFits 0x10 241, ppFits 0xFF 1,
      ppFits 0xFF 2, ppFits 0x100 256, ppFits 0xFFFFFFFF 1, ppFits 0 0xFFFFFFFF] =
    [false, true, true, false, true, false, true, false, true, true, false] := by decide
/-- T4: SE 0x1000FF. -/
theorem test_se_address :
    nextIs (exec (.se zero) { busy 0x0A .none .check with sidx := 0x1000FF })
      (fun t => addrBytes (wireAddr t.addr) == [0x0F, 0xF0, 0x00]) = true := by decide
/-- T22 -/
theorem test_se_header :
    calls (exec (.se zero) { got 0x0A .none .welRdsr [0x02] with addr := 0x2000 })
      { hdr := [0x20, 0x00, 0x20, 0x00], tx := [], rxn := 0 } = true := by decide
/-- T24 -/
theorem test_ce_frame : calls (exec (.ce zero) (got 0x0B .none .welRdsr [0x02]))
    { hdr := [0xC7], tx := [], rxn := 0 } = true := by decide

/-! ## Programmer operations: V1, V4, V6, T29, T31 -/

/-- V6 -/
theorem test_init_match :
    nextIs (exec (.init zero) { busy 0x10 .initCmp .finish with id := { mfr := 0xEF, type := 0x40, cap := 0x17 } })
      (fun t => t.result == 0x00 && t.phase == .respond) = true := by decide
/-- V6 -/
theorem test_init_mismatch :
    nextIs (exec (.init zero) { busy 0x10 .initCmp .finish with id := { mfr := 0xEF, type := 0x40, cap := 0x18 } })
      (fun t => t.result == 0x02 && t.rspId == { mfr := 0xEF, type := 0x40, cap := 0x18 }) = true := by decide
/-- V1: the second chunk of 300 bytes. -/
theorem test_write_chunk :
    nextIs (exec (.write zero) { busy 0x11 .writeLoop .finish with
        req := { cmd := 0x11, a0 := 0, a1 := 300, boff := 0 }, i := 1, n := 2, atTest := true })
      (fun t => t.addr == 0x100 && t.len == 44 && t.off == 0x100 && t.sphase == .check) = true := by decide
/-- R326, T26: a WRITE starts from CHECK; an empty one ends its loop with no frame. -/
theorem test_write_starts_at_check :
    nextIs (exec (.write zero) ready) (fun t => t.sphase == .check && t.rphase == .writeLoop) = true ∧
    nextIs (exec (.write zero) { busy 0x11 .writeLoop .check with atTest := true })
      (fun t => t.rphase == .none && t.bus == none && t.phase == .busy) = true := by decide
/-- V4 -/
theorem test_write_counts :
    [chunkCount 0, chunkCount 1, chunkCount 255, chunkCount 256, chunkCount 257, chunkCount 513,
      chunkCount 0xFFFFFFFF] = [0, 1, 1, 1, 2, 3, 0x1000000] := by decide
/-- T29: ERASE 0x1800, 0x3000. -/
theorem test_erase_range :
    nextIs (exec (.erase { a0 := 0x1800, a1 := 0x3000, boff := 0 }) ready)
      (fun t => t.base == 1 && t.eidx == 3 && t.n == 2 && t.i == 0 && t.sphase == .check) = true := by decide
/-- T29: ERASE 8192, 4096, both choices of ERASE_UNDERFLOW. -/
theorem test_erase_underflow : [eraseCount .wrap 2 1, eraseCount .empty 2 1] = [0xFFFFFFFF, 0] := by decide
/-- T31 -/
theorem test_masserase_frame : calls (exec (.masserase zero) (got 0x13 .mass .welRdsr [0x02]))
    { hdr := [0xC7], tx := [], rxn := 0 } = true := by decide

/-! ## Frames on the bus: R72 to R80, V6, T5, T18, T21, T22 -/

theorem test_spi_rsten_rst : nextIs (exec .spiRstenRst { ready with chip := chip true true })
    (fun t => !t.chip.wip && !t.chip.wel && t.ret == some true) = true := by decide
theorem test_spi_rsten : nextIs (exec .spiRsten ready) (fun t => t.chip.rstEnabled) = true := by decide
theorem test_spi_rst :
    nextIs (exec .spiRst { ready with chip := { chip false true with rstEnabled := true } })
      (fun t => !t.chip.wel && !t.chip.rstEnabled) = true := by decide
/-- V6 -/
theorem test_spi_rdid : nextIs (exec .spiRdid ready) (fun t => t.rx == [0xEF, 0x40, 0x17]) = true := by decide
/-- T22: Rx{03} while the erase is busy. -/
theorem test_spi_rdsr1 : nextIs (exec .spiRdsr1 { ready with chip := chip true true })
    (fun t => t.rx == [0x03]) = true := by decide
/-- T5 -/
theorem test_spi_rdsr1_fail_header :
    nextIs (exec .spiRdsr1 { ready with draws := [{ clean with hdrOk := false }] })
      (fun t => t.ret == some false && t.rx == [] && !t.cs) = true := by decide
theorem test_spi_rdsr2 :
    nextIs (exec .spiRdsr2 { ready with chip := { chip false false with sr2 := 0x02 } })
      (fun t => t.rx == [0x02]) = true := by decide
/-- R77: SR2 takes the second byte; WEL and WIP are not changed through the payload. -/
theorem test_spi_wrsr : nextIs (exec (.spiWrsr 0x00 0x02) { ready with chip := chip false true })
    (fun t => t.chip.sr2 == 0x02 && t.chip.wip && t.chip.wel) = true := by decide
/-- R78 -/
theorem test_spi_wrsr_ignored : nextIs (exec (.spiWrsr 0x00 0x02) ready)
    (fun t => t.chip.sr2 == 0x00 && !t.chip.wip && t.ret == some true) = true := by decide
theorem test_spi_wren : nextIs (exec .spiWren ready) (fun t => t.chip.wel) = true := by decide
/-- V7: a dropped write enable. -/
theorem test_spi_wren_dropped : nextIs (exec .spiWren { ready with draws := [{ clean with dropWren := true }] })
    (fun t => !t.chip.wel && t.ret == some true) = true := by decide
theorem test_spi_wrdi : nextIs (exec .spiWrdi { ready with chip := chip false true })
    (fun t => !t.chip.wel) = true := by decide
/-- T18 -/
theorem test_spi_read :
    nextIs (exec (.spiRead 0x10 3) { ready with
        chip := { chip false false with array := [(0x10, 0x11), (0x11, 0x22), (0x12, 0x33)] } })
      (fun t => t.rx == [0x11, 0x22, 0x33]) = true := by decide
/-- T21: PROGRAM is AND. -/
theorem test_spi_pp :
    nextIs (exec (.spiPp 0x200 [0xA5, 0x5A]) { ready with
        chip := { chip false true with array := [(0x201, 0xF0)] } })
      (fun t => t.chip.array.read 0x200 == 0xA5 && t.chip.array.read 0x201 == 0x50 && t.chip.wip) = true := by decide
/-- R80: of a failed payload only the bytes that arrived are programmed. -/
theorem test_spi_pp_prefix :
    nextIs (exec (.spiPp 0x200 [0xA5, 0x5A]) { ready with
        chip := chip false true, draws := [{ clean with payOk := false, cut := 1 }] })
      (fun t => t.chip.array.read 0x200 == 0xA5 && t.chip.array.read 0x201 == 0xFF &&
        t.ret == some false) = true := by decide
/-- V8, R283: a page program of which no payload byte arrived may change a byte it addresses; the page
before it stays. -/
theorem test_spi_pp_cut :
    nextIs (exec (.spiPp 0x100 [0xA5, 0x5A]) { ready with
        chip := { chip false true with array := [(0xFF, 1)] }
        draws := [{ clean with payOk := false, ignoresCut := false, pokes := [(0xFF, 7), (0x101, 9)] }] })
      (fun t => t.chip.array == [(0xFF, 1), (0x101, 9)] && t.ret == some false) = true := by decide
/-- R80, U20: a status write of which two bytes arrived may leave any status; the array stays (R63). -/
theorem test_spi_wrsr_cut :
    nextIs (exec (.spiWrsr 0x00 0x02) { ready with
        chip := { chip false true with array := [(0, 1)] }
        draws := [{ clean with hdrOk := false, cut := 2, ignoresCut := false, sr2 := 0x55 }] })
      (fun t => t.chip.sr2 == 0x55 && !t.chip.wip && t.chip.array == [(0, 1)]) = true := by decide
/-- R80, U20: a sector erase short of its last address byte may change any byte of its sector; the sector
before it stays (R290). -/
theorem test_spi_se_cut :
    nextIs (exec (.spiSe 0x2000) { ready with
        draws := [{ clean with hdrOk := false, cut := 3, ignoresCut := false, pokes := [(0x1FFF, 1), (0x2FFF, 7)] }] })
      (fun t => t.chip.array == [(0x2FFF, 7)] && t.ret == some false) = true := by decide
/-- T22: the sector is 0x2000 to 0x2FFF. -/
theorem test_spi_se :
    nextIs (exec (.spiSe 0x2000) { ready with
        chip := { chip false true with array := [(0x1FFF, 1), (0x2000, 2), (0x2FFF, 3), (0x3000, 4)] } })
      (fun t => t.chip.array == [(0x1FFF, 1), (0x3000, 4)] && t.chip.wip) = true := by decide
/-- T24 -/
theorem test_spi_ce :
    nextIs (exec .spiCe { ready with chip := { chip false true with array := [(0, 1), (0xFFFFF, 2)] } })
      (fun t => t.chip.array == [] && t.chip.wip) = true := by decide

/-! ## Stops -/

theorem test_stuck_read :
    faultIs (exec (.pp zero) { busy 0x09 .none .welRdsr with len := 1, regions := [] }) .stuckBufferRead = true := by
  decide
theorem test_zero_limit :
    faultIs (exec (.waitwip zero) { busy 0x0C .none .check with cfg := { cfg with wipLimit := some 0 } })
      .zeroLimit = true := by decide

/-! ## Witnesses: states that meet the hypotheses of each obligation -/

/-- A state whose next step is a controller reset. -/
def resetting : State := { ready with inputs := [{ edits := [], reset := true }] }

/-- A Frame call on the bus of a request in progress. -/
def calling (c : Byte) (r : RPhase) (p : SPhase) (f : FrameCall) : State :=
  { busy c r p with bus := some f }

/-- A request whose last frame failed. -/
def failed (c : Byte) (r : RPhase) (p : SPhase) : State := { busy c r p with ret := some false }

/-- The parameters with a finite limit for both waits. -/
def limited (w : Nat) : Config := { cfg with wipLimit := some w, welLimit := some w }

theorem cfg_wf : cfg.Wf := by
  constructor <;> decide

theorem chip_ok (c : Chip) (h : c = chip false false ∨ c = chip false true ∨ c = chip true true) : c.Ok cfg := by
  rcases h with rfl | rfl | rfl <;> exact ⟨rfl, rfl, by decide, rfl⟩

theorem ready_inv : ready.Inv :=
  ⟨rfl, ⟨rfl, rfl, rfl, rfl, rfl⟩, by decide, chip_ok _ (.inl rfl), rfl, rfl⟩

theorem witness_BlockWaitsAfterReset :
    ready.phase = .idle ∧ ready.bus = none ∧ ready.offers = [] ∧ ready.resetAsserted = false :=
  ⟨rfl, rfl, rfl, rfl⟩

theorem witness_AssertedResetAbandonsRequest :
    (resetting.resetAsserted = true ∧ resetting.bus = none ∧ ∃ t, step resetting = .next t) ∧
    ({ resetting with bus := some ready.callWren }.resetAsserted = true ∧
      decodeFrame cfg.ops ready.callWren = .ok .spiWren ∧
      ∃ u, exec .spiWren { resetting with bus := some ready.callWren }.applyInput = .next u) :=
  ⟨⟨rfl, rfl, _, rfl⟩, rfl, by decide, _, rfl⟩

/-- The boundary values: a full page, the last sector, the longest read, the first reserved code. -/
theorem witness_DecodeInvertsEncode :
    Opcodes.default.wf ∧ Instr.wf (.reset zero) = true ∧ Instr.wf (.reserved 0x14 zero) = true ∧
    Instr.wf (.spiPp 0xFFFF00 (List.replicate 256 0)) = true ∧ Instr.wf (.spiSe 0xFFF000) = true ∧
    Instr.wf (.spiRead 0xFFFFFF (2 ^ 32 - 1)) = true :=
  ⟨by decide, by decide, by decide, by rw [Instr.wf, List.length_replicate]; decide, by decide, by decide⟩

theorem witness_EncodeInvertsDecode :
    decode Opcodes.default (.request 0x0A000000030000000000000000) =
      .ok (.se { a0 := 3, a1 := 0, boff := 0 }) ∧
    decodeFrame Opcodes.default { hdr := [0x66, 0x99], tx := [], rxn := 0 } = .ok .spiRstenRst := by decide

theorem witness_StepRunsDecodedInstruction :
    (calling 0x06 .none .main ready.callWren).resetAsserted = false ∧
    decodeFrame cfg.ops ready.callWren = .ok .spiWren ∧
    decodeFrame cfg.ops { hdr := [0x0B], tx := [], rxn := 0 } = .error (.unknownOpcode 0x0B) ∧
    ((busy 0x06 .none .check).bus = none ∧ (busy 0x06 .none .check).phase = .busy) ∧
    ((offer 5).bus = none ∧ (offer 5).reqReady = true ∧ (offer 5).offers = 5 :: []) ∧
    ready.inputs = [] ∧
    { ready with inputs := [{ edits := [(1, 2)], reset := false }] }.inputs =
      { edits := [(1, 2)], reset := false } :: [] :=
  ⟨rfl, by decide, by decide, ⟨rfl, rfl⟩, ⟨rfl, rfl, rfl⟩, rfl, rfl⟩

theorem witness_RequestsAreHeldWhileBusy :
    (busy 0x06 .none .check).reqReady = false ∧ (busy 0x06 .none .check).resetAsserted = false ∧
    ∃ t, step (busy 0x06 .none .check) = .next t :=
  ⟨rfl, rfl, _, rfl⟩

/-- One word for each clause: 0x01, 0x0D below 0x10, the four range codes, and a reserved code. -/
theorem witness_AcceptanceStartsTheOperation :
    (offer 5).reqReady = true ∧ (offer 5).bus = none ∧ (offer 5).offers = 5 :: [] ∧
      (offer 5).resetAsserted = false ∧
    (∀ c ∈ [(0x01 : Byte), 0x0D], reservedCode (Request.ofWord (Request.of c zero).word).cmd = false ∧
      (Request.ofWord (Request.of c zero).word).cmd.toNat < 0x10) ∧
    (∀ c ∈ [(0x10 : Byte), 0x11, 0x12, 0x13],
      (Request.ofWord (Request.of c zero).word).cmd = c ∧ reservedCode c = false) ∧
    reservedCode (Request.ofWord (Request.of 0x0E zero).word).cmd = true :=
  ⟨rfl, rfl, rfl, rfl, by decide, by decide, by decide⟩

/-- T29: the range that ends in the sector it starts in, one of two sectors, and one that goes down,
under both choices of ERASE_UNDERFLOW. -/
theorem witness_OperandsAreLoaded :
    ready.reqReady = true ∧ (0 : Word).toNat / 4096 ≤ (4095 : Word).toNat / 4096 ∧
    (0x1800 : Word).toNat / 4096 ≤ (0x3000 : Word).toNat / 4096 ∧
    (4096 : Word).toNat / 4096 < (8192 : Word).toNat / 4096 ∧ ready.cfg.eraseUnderflow = .wrap ∧
    { ready with cfg := { cfg with eraseUnderflow := .empty } }.cfg.eraseUnderflow = .empty := by decide

theorem witness_IgnoredFieldsChangeNothing :
    (∃ t, step ready = .next t) ∧
    step { busy 0x0C .none .check with cfg := limited 0 } = .fault .zeroLimit ∧
    ∃ r, step { ready with bus := some { hdr := [], tx := [], rxn := 0 } } = .refused r :=
  ⟨⟨_, rfl⟩, rfl, _, rfl⟩

/-- The ends of the reserved ranges, and the codes beside them. -/
theorem witness_ReservedCodesEndWithErrCmd :
    [(0x00 : Byte), 0x0E, 0x0F, 0x14, 0x80, 0xFF].map reservedCode = [true, true, true, true, true, true] ∧
    [(0x01 : Byte), 0x0D, 0x10, 0x13].map reservedCode = [false, false, false, false] ∧
    ready.reqReady = true := by decide

theorem witness_ResetCommandRows :
    (busy 0x01 .none .check).inRow .none .check ∧ (busy 0x10 .initReset .check).inRow .initReset .check ∧
    ((failed 0x01 .none .main).inRow .none .main ∧ (failed 0x01 .none .main).ret = some false) ∧
    ((got 0x01 .none .main []).inRow .none .main ∧ (got 0x01 .none .main []).ret = some true ∧
      (got 0x01 .none .main []).cfg.resetFraming = .single) ∧
    (∀ p ∈ [0, 1], ∃ s : State, s.inRow .initReset .main ∧ s.ret = some true ∧
      s.cfg.resetFraming = .split ∧ s.pos = p) :=
  ⟨⟨rfl, rfl, rfl, rfl⟩, ⟨rfl, rfl, rfl, rfl⟩, ⟨⟨rfl, rfl, rfl, rfl⟩, rfl⟩, ⟨⟨rfl, rfl, rfl, rfl⟩, rfl, rfl⟩, fun p _ =>
    ⟨{ got 0x10 .initReset .main [] with cfg := { cfg with resetFraming := .split }, pos := p },
      ⟨rfl, rfl, rfl, rfl⟩, rfl, rfl, rfl⟩⟩

theorem witness_OneFrameCommandRows :
    (busy 0x02 .none .check).inRow .none .check ∧ (busy 0x10 .initId .check).inRow .initId .check ∧
    ((failed 0x02 .none .main).inRow .none .main ∧ (failed 0x02 .none .main).ret = some false) ∧
    ((got 0x02 .none .main [1, 2, 3]).inRow .none .main ∧ (got 0x02 .none .main [1, 2, 3]).ret = some true ∧
      (got 0x02 .none .main [1, 2, 3]).rx = [1, 2, 3]) ∧
    ((got 0x10 .initId .main [1, 2, 3]).inRow .initId .main ∧
      (got 0x10 .initId .main [1, 2, 3]).ret = some true) ∧
    ((got 0x03 .none .main [1]).inRow .none .main ∧ (got 0x03 .none .main [1]).gotByte 1) :=
  ⟨⟨rfl, rfl, rfl, rfl⟩, ⟨rfl, rfl, rfl, rfl⟩, ⟨⟨rfl, rfl, rfl, rfl⟩, rfl⟩, ⟨⟨rfl, rfl, rfl, rfl⟩, rfl, rfl⟩,
    ⟨⟨rfl, rfl, rfl, rfl⟩, rfl⟩, ⟨rfl, rfl, rfl, rfl⟩, rfl, rfl⟩

theorem under_none (x : Word) : underLimit none x := fun _ h => by cases h
theorem under_two : underLimit (some 2) 1 := fun l h => by cases h; decide
theorem at_one : atLimit (some 1) 1 := ⟨1, rfl, by decide⟩

/-- The rows of a write-enable loop: no limit, a limit not reached, a limit just reached. -/
theorem witness_latch (c : Byte) (r : RPhase) :
    ((got c r .welWren []).inRow r .welWren ∧ (got c r .welWren []).ret = some true) ∧
    ((got c r .welRdsr [0x02]).inRow r .welRdsr ∧ (got c r .welRdsr [0x02]).gotByte 0x02 ∧
      (0x02 : Byte) &&& cfg.welMask ≠ 0) ∧
    ((got c r .welRdsr [0xFD]).gotByte 0xFD ∧ (0xFD : Byte) &&& cfg.welMask = 0 ∧
      underLimit cfg.welLimit ((got c r .welRdsr [0xFD]).tries + 1) ∧
      underLimit (limited 2).welLimit ((got c r .welRdsr [0xFD]).tries + 1) ∧
      atLimit (limited 1).welLimit ((got c r .welRdsr [0xFD]).tries + 1)) ∧
    ((failed c r .welWren).inRow r .welWren ∧ (failed c r .welRdsr).inRow r .welRdsr ∧
      (failed c r .welRdsr).ret = some false) :=
  ⟨⟨⟨rfl, rfl, rfl, rfl⟩, rfl⟩, ⟨⟨rfl, rfl, rfl, rfl⟩, ⟨rfl, rfl⟩, by decide⟩,
    ⟨⟨rfl, rfl⟩, by decide, under_none _, under_two, at_one⟩,
    ⟨rfl, rfl, rfl, rfl⟩, ⟨rfl, rfl, rfl, rfl⟩, rfl⟩

/-- The rows of a wait: no limit, a limit not reached, a limit just reached. -/
theorem witness_poll (c : Byte) (r : RPhase) (p : SPhase) :
    ((got c r p [0xFE]).inRow r p ∧ (got c r p [0xFE]).gotByte 0xFE ∧ (0xFE : Byte) &&& cfg.wipMask = 0 ∧
      cfg.welLimit ≠ some 0 ∧ cfg.wipLimit ≠ some 0) ∧
    ((got c r p [0x01]).gotByte 0x01 ∧ (0x01 : Byte) &&& cfg.wipMask ≠ 0 ∧
      underLimit cfg.wipLimit ((got c r p [0x01]).polls + 1) ∧
      underLimit (limited 2).wipLimit ((got c r p [0x01]).polls + 1) ∧
      atLimit (limited 1).wipLimit ((got c r p [0x01]).polls + 1)) ∧
    ((failed c r p).inRow r p ∧ (failed c r p).ret = some false) ∧ (limited 0).wipLimit = some 0 ∧
    (limited 0).welLimit = some 0 :=
  ⟨⟨⟨rfl, rfl, rfl, rfl⟩, ⟨rfl, rfl⟩, by decide, by decide, by decide⟩,
    ⟨⟨rfl, rfl⟩, by decide, under_none _, under_two, at_one⟩,
    ⟨⟨rfl, rfl, rfl, rfl⟩, rfl⟩, rfl, rfl⟩

theorem witness_StatusWriteRows :
    (busy 0x05 .none .check).inRow .none .check ∧ (busy 0x05 .none .check).cfg.welLimit ≠ some 0 ∧
    ((got 0x05 .none .main []).inRow .none .main ∧ (got 0x05 .none .main []).ret = some true) ∧
    (got 0x05 .none .welRdsr [0x02]).gotByte 0x02 :=
  ⟨⟨rfl, rfl, rfl, rfl⟩, by decide, ⟨⟨rfl, rfl, rfl, rfl⟩, rfl⟩, (witness_latch 0x05 .none).2.1.2.1⟩

theorem witness_WaitwipRows :
    (busy 0x0C .none .check).inRow .none .check ∧ (busy 0x0C .none .check).cfg.wipLimit ≠ some 0 ∧
    (got 0x0C .none .preWip [0xFE]).gotByte 0xFE :=
  ⟨⟨rfl, rfl, rfl, rfl⟩, by decide, (witness_poll 0x0C .none .preWip).1.2.1⟩

theorem witness_WrenwRows :
    (busy 0x0D .none .check).inRow .none .check ∧ (busy 0x0D .none .check).cfg.welLimit ≠ some 0 ∧
    (got 0x0D .none .welRdsr [0x02]).gotByte 0x02 :=
  ⟨⟨rfl, rfl, rfl, rfl⟩, by decide, (witness_latch 0x0D .none).2.1.2.1⟩

/-- A READ of one byte: about to store it, at the end, and where the buffer does not admit it. -/
theorem witness_ReadRows :
    (∃ s : State, s.storing ∧ s.rx[s.pos]? = some 0x11 ∧ Memory.wf s.buffer = true ∧
      s.admitsWrite (byteOffset s.off s.pos) = true) ∧
    (∃ s : State, s.storing ∧ s.admitsWrite (byteOffset s.off s.pos) = false) ∧
    (∃ s : State, s.inRow .none .main ∧ s.ret = none ∧ s.len.toNat ≤ s.pos) :=
  ⟨⟨{ busy 0x08 .none .main with rx := [0x11], len := 1, off := 0xFFFFFFFF },
      ⟨⟨rfl, rfl, rfl, rfl⟩, rfl, by decide⟩, rfl, rfl, rfl⟩,
    ⟨{ busy 0x08 .none .main with rx := [0x11], len := 1, regions := [] },
      ⟨⟨rfl, rfl, rfl, rfl⟩, rfl, by decide⟩, rfl⟩,
    ⟨{ busy 0x08 .none .main with rx := [0x11], len := 1, pos := 1 }, ⟨rfl, rfl, rfl, rfl⟩, rfl, by decide⟩⟩

/-- The rows of PP beyond the wait and the latch: T20's boundary lengths, and the payload's ends. -/
theorem witness_PageProgramRows (c : Byte) (r : RPhase) :
    (∃ s : State, s.inRow r .check ∧ ppFits s.addr s.len = true ∧ s.cfg.wipLimit ≠ some 0) ∧
    (∃ s : State, s.inRow r .check ∧ ppFits s.addr s.len = false) ∧
    (∃ s : State, s.inRow r .check ∧ ppFits s.addr s.len = true ∧ s.cfg.wipLimit = some 0) ∧
    (∃ s : State, s.inRow r .welRdsr ∧ s.ret = none ∧ s.data.length < s.len.toNat ∧
      s.admitsRead (byteOffset s.off s.data.length) = true) ∧
    (∃ s : State, s.inRow r .welRdsr ∧ s.ret = none ∧ s.data.length < s.len.toNat ∧
      s.admitsRead (byteOffset s.off s.data.length) = false) ∧
    (∃ s : State, s.inRow r .welRdsr ∧ s.ret = none ∧ s.len.toNat ≤ s.data.length) ∧
    ((got c r .main []).inRow r .main ∧ (got c r .main []).ret = some true) :=
  ⟨⟨{ busy c r .check with addr := 0x10, len := 240 }, ⟨rfl, rfl, rfl, rfl⟩, rfl,
      show cfg.wipLimit ≠ some 0 by decide⟩,
    ⟨{ busy c r .check with addr := 0x10, len := 241 }, ⟨rfl, rfl, rfl, rfl⟩, rfl⟩,
    ⟨{ busy c r .check with addr := 0xFF, len := 1, cfg := limited 0 }, ⟨rfl, rfl, rfl, rfl⟩, rfl, rfl⟩,
    ⟨{ busy c r .welRdsr with len := 1 }, ⟨rfl, rfl, rfl, rfl⟩, rfl, Nat.zero_lt_one, rfl⟩,
    ⟨{ busy c r .welRdsr with len := 1, regions := [] }, ⟨rfl, rfl, rfl, rfl⟩, rfl, Nat.zero_lt_one, rfl⟩,
    ⟨{ busy c r .welRdsr with len := 1, data := [1] }, ⟨rfl, rfl, rfl, rfl⟩, rfl, Nat.le_refl 1⟩,
    ⟨⟨rfl, rfl, rfl, rfl⟩, rfl⟩⟩

theorem witness_SectorEraseRows :
    ((busy 0x0A .none .check).inRow .none .check ∧ (busy 0x12 .eraseLoop .check).inRow .eraseLoop .check) ∧
    ((got 0x0A .none .main []).inRow .none .main ∧ (got 0x0A .none .main []).ret = some true ∧
      (got 0x0A .none .main []).cfg.wipLimit ≠ some 0) ∧
    (got 0x0A .none .postWip [0xFE]).inRow .none .postWip :=
  ⟨⟨⟨rfl, rfl, rfl, rfl⟩, rfl, rfl, rfl, rfl⟩, ⟨⟨rfl, rfl, rfl, rfl⟩, rfl, by decide⟩, rfl, rfl, rfl, rfl⟩

theorem witness_ChipEraseRows :
    ((busy 0x0B .none .check).inRow .none .check ∧ (busy 0x13 .mass .check).inRow .mass .check) ∧
    ((got 0x13 .mass .main []).inRow .mass .main ∧ (got 0x13 .mass .main []).ret = some true ∧
      (got 0x13 .mass .main []).cfg.wipLimit ≠ some 0) ∧
    (got 0x13 .mass .postWip [0xFE]).inRow .mass .postWip :=
  ⟨⟨⟨rfl, rfl, rfl, rfl⟩, rfl, rfl, rfl, rfl⟩, ⟨⟨rfl, rfl, rfl, rfl⟩, rfl, by decide⟩, rfl, rfl, rfl, rfl⟩

/-- Each byte alone can be the one that differs. -/
theorem witness_IdentityComparisonStep :
    (∃ s : State, s.phase = .busy ∧ s.rphase = .initCmp ∧ s.id = s.cfg.expId) ∧
    (∀ d ∈ [({ mfr := 0xEE, type := 0x40, cap := 0x17 } : Ident), { mfr := 0xEF, type := 0x41, cap := 0x17 },
        { mfr := 0xEF, type := 0x40, cap := 0x18 }],
      ∃ s : State, s.phase = .busy ∧ s.rphase = .initCmp ∧ s.id = d) ∧
    (∀ d ∈ [({ mfr := 0xEE, type := 0x40, cap := 0x17 } : Ident), { mfr := 0xEF, type := 0x41, cap := 0x17 },
        { mfr := 0xEF, type := 0x40, cap := 0x18 }],
      d.mfr ≠ cfg.expId.mfr ∨ d.type ≠ cfg.expId.type ∨ d.cap ≠ cfg.expId.cap) :=
  ⟨⟨{ busy 0x10 .initCmp .finish with id := cfg.expId }, rfl, rfl, rfl⟩,
    fun d _ => ⟨{ busy 0x10 .initCmp .finish with id := d }, rfl, rfl, rfl⟩, by decide⟩

/-- V1 and T29: a loop at its test before the first sub-command, before the last one and at its end, and
one with nothing to do. -/
theorem witness_RangeLoopRows :
    (∀ i ∈ [(0 : Word), 1], ∃ s : State, s.inTest .writeLoop ∧ s.i = i ∧ s.n = 2 ∧
      s.req.a1 = 300 ∧ s.i.toNat < s.n.toNat) ∧
    (∀ p ∈ [SPhase.check, .finish], ∃ s : State, s.inTest .writeLoop ∧ s.sphase = p ∧
      s.n.toNat ≤ s.i.toNat) ∧
    (∃ s : State, s.inTest .eraseLoop ∧ s.i.toNat < s.n.toNat) ∧
    (∃ s : State, s.inTest .eraseLoop ∧ s.n.toNat ≤ s.i.toNat) :=
  ⟨fun i h => ⟨{ busy 0x11 .writeLoop .check with
        req := { cmd := 0x11, a0 := 0, a1 := 300, boff := 0 }, i := i, n := 2, atTest := true },
      ⟨rfl, rfl, rfl⟩, rfl, rfl, rfl,
      by rcases List.mem_pair.mp h with rfl | rfl <;> exact show (_ : Nat) < 2 by decide⟩,
    fun p _ => ⟨{ busy 0x11 .writeLoop p with atTest := true }, ⟨rfl, rfl, rfl⟩, rfl, Nat.le_refl 0⟩,
    ⟨{ busy 0x12 .eraseLoop .check with n := 1, atTest := true }, ⟨rfl, rfl, rfl⟩, by decide⟩,
    ⟨{ busy 0x12 .eraseLoop .check with atTest := true }, ⟨rfl, rfl, rfl⟩, by decide⟩⟩

theorem witness_ResponseStep :
    (got 0x04 .none .finish [2]).inRow .none .finish ∧ (got 0x04 .none .finish [2]).rx = [2] ∧
    ({ ready with phase := .respond }.phase = .respond ∧ { ready with phase := .respond }.bus = none ∧
      { ready with phase := .respond }.offers = [] ∧ { ready with phase := .respond }.resetAsserted = false) :=
  ⟨⟨rfl, rfl, rfl, rfl⟩, rfl, rfl, rfl, rfl, rfl⟩

theorem witness_PageBoundaryCheck :
    (∃ s : State, s.inRow .none .check ∧ ppFits s.addr s.len = false) ∧
    (∃ s : State, s.inRow .writeLoop .check ∧ ppFits s.addr s.len = false) :=
  ⟨(witness_PageProgramRows 0x09 .none).2.1, (witness_PageProgramRows 0x11 .writeLoop).2.1⟩

theorem witness_FrameFormats :
    ready.cfg.resetFraming = .single ∧
    { ready with cfg := { cfg with resetFraming := .split } }.cfg.resetFraming = .split := ⟨rfl, rfl⟩

theorem witness_FailedSegmentAbortsRequest :
    ∃ s : State, s.Inv ∧ s.ret = some false ∧ s.inputs = [] :=
  ⟨{ failed 0x06 .none .main with trace := [.frame ready.callWren [] .failHeader] },
    ⟨rfl, ⟨rfl, by show directAt True (oneFrameAt ready.callWren) _
                   exact ⟨rfl, trivial, .inr (.inr ⟨rfl, .inr ⟨rfl, .failHeader, by decide, rfl⟩⟩)⟩⟩,
      by decide, chip_ok _ (.inl rfl), rfl, rfl⟩, rfl, rfl⟩

/-- A ready block whose next frame takes the draw `d`. -/
def drawing (d : Draw) : State := { ready with draws := [d] }

/-- A frame of each shape, and the draws of each outcome. -/
theorem witness_FramesCompleteAndAreRecorded :
    (∀ p ∈ [(Instr.spiRdid, ready.callRdid), (.spiWren, ready.callWren),
        (.spiPp 0x000100 [1], framePp cfg.ops 0x000100 [1])],
      p.1.isRequest = false ∧ encode ready.cfg.ops p.1 = .frame p.2) ∧
    (ready.callRdid.tx = [] ∧ ready.callRdid.rxn ≠ 0) ∧
    (ready.callWren.tx = [] ∧ ready.callWren.rxn = 0) ∧ (framePp cfg.ops 0x000100 [1]).tx ≠ [] ∧
    ({ ready with cs := true }.cs = true ∧ ready.cs = false) ∧
    (drawing { clean with hdrOk := false }).draw.hdrOk = false ∧
    ((drawing { clean with payOk := false }).draw.hdrOk = true ∧
      (drawing { clean with payOk := false }).draw.payOk = false) ∧
    (ready.draw.hdrOk = true ∧ ready.draw.payOk = true) := by decide

theorem witness_StatusOneAnswer :
    ready.cfg.Wf ∧ ready.cs = false ∧ ready.cfg.chipPresent = true ∧ cleanDraw ready.draw :=
  ⟨cfg_wf, rfl, rfl, rfl, rfl⟩

theorem witness_IdentityAndStatusTwoAnswers :
    (ready.cs = false ∧ cleanDraw ready.draw ∧ ready.cfg.chipPresent = true) ∧
    { ready with cfg := { cfg with chipPresent := false } }.cfg.chipPresent = false :=
  ⟨⟨rfl, ⟨rfl, rfl⟩, rfl⟩, rfl⟩

theorem witness_WriteEnableFrames :
    (ready.cs = false ∧ ready.cfg.chipPresent = true ∧ cleanDraw ready.draw ∧ ready.draw.dropWren = false) ∧
    (cleanDraw { clean with dropWren := true } ∧ cleanDraw { clean with completes := true }) ∧
    ((chip true true).wip = true ∧ (chip false true).wip = false) :=
  ⟨⟨rfl, rfl, ⟨rfl, rfl⟩, rfl⟩, ⟨⟨rfl, rfl⟩, rfl, rfl⟩, rfl, rfl⟩

/-- A chip that accepts a mutating command. -/
def latched : State := { ready with chip := chip false true }

theorem latched_ok : latched.cs = false ∧ latched.cfg.chipPresent = true ∧ cleanDraw latched.draw ∧
    Memory.wf latched.chip.array = true ∧ (latched.chip.settle latched.draw).accepts = true :=
  ⟨rfl, rfl, ⟨rfl, rfl⟩, rfl, rfl⟩

/-- T20: a whole page, and the last byte of the device. -/
theorem witness_ProgramFrameEffect :
    (latched.chip.settle latched.draw).accepts = true ∧
    fitsPage 0x000100 (List.replicate 256 (0 : Byte)).length = true ∧
    (0x000100 : WireAddr).toNat < latched.cfg.deviceSize ∧
    fitsPage 0x0FFFFF [(1 : Byte)].length = true ∧ (0x0FFFFF : WireAddr).toNat < latched.cfg.deviceSize ∧
    [(1 : Byte)][0]? = some 1 :=
  ⟨rfl, by rw [List.length_replicate]; decide, by decide, by decide, by decide, rfl⟩

theorem witness_EraseAndStatusFrameEffects :
    (latched.cs = false ∧ latched.cfg.chipPresent = true ∧ cleanDraw latched.draw ∧
      (latched.chip.settle latched.draw).accepts = true) ∧
    (0x0FF000 : WireAddr).toNat < latched.cfg.deviceSize :=
  ⟨⟨rfl, rfl, ⟨rfl, rfl⟩, rfl⟩, by decide⟩

theorem witness_MutatingFramesIgnored :
    (ready.cs = false ∧ ready.cfg.chipPresent = true ∧ cleanDraw ready.draw ∧
      (ready.chip.settle ready.draw).wel = false) ∧
    ({ ready with chip := chip true true }.chip.settle ready.draw).wip = true ∧
    (fitsPage 0x000100 [(1 : Byte)].length = true ∧ (0x000100 : WireAddr).toNat < ready.cfg.deviceSize) :=
  ⟨⟨rfl, rfl, ⟨rfl, rfl⟩, rfl⟩, rfl, by decide, by decide⟩

/-- A reset of an idle chip and of one that is erasing the sector at 0x1000, in one frame and, armed, in
two. -/
theorem witness_ResetFrameEffects :
    (ready.cs = false ∧ ready.cfg.chipPresent = true ∧ cleanDraw ready.draw ∧
      ready.cfg.chipNeedsSplit = false ∧ (ready.chip.settle ready.draw).op = none) ∧
    ({ chip true true with op := some (0x1000, 4096) }.settle ready.draw).op = some (0x1000, 4096) ∧
    ({ chip false true with rstEnabled := true }.rstEnabled = true ∧
      ({ chip false true with rstEnabled := true }.settle ready.draw).op = none) ∧
    ({ chip true true with op := some (0x1000, 4096), rstEnabled := true }.rstEnabled = true ∧
      ({ chip true true with op := some (0x1000, 4096), rstEnabled := true }.settle ready.draw).op =
        some (0x1000, 4096)) ∧
    ready.chip.rstEnabled = false :=
  ⟨⟨rfl, rfl, ⟨rfl, rfl⟩, rfl, rfl⟩, rfl, ⟨rfl, rfl⟩, ⟨rfl, rfl⟩, rfl⟩

/-- The last byte of the device is below DEVICE_SIZE, the next is not. -/
theorem witness_ReadFrameAnswer :
    (ready.cs = false ∧ ready.cfg.chipPresent = true ∧ cleanDraw ready.draw ∧
      (ready.chip.settle ready.draw).wip = false) ∧
    (0x0FFFFF : WireAddr).toNat + 0 < ready.cfg.deviceSize ∧
    ¬ (0x0FFFFF : WireAddr).toNat + 1 < ready.cfg.deviceSize :=
  ⟨⟨rfl, rfl, ⟨rfl, rfl⟩, rfl⟩, by decide, by decide⟩

/-- A chip that accepts a mutating command, and a frame whose segments end as the arguments say. -/
def cutting (hdrOk payOk : Bool) (cut : Nat) (ignores : Bool) : State :=
  { latched with
    draws := [{ clean with hdrOk := hdrOk, payOk := payOk, cut := cut, ignoresCut := ignores }] }

/-- One frame for each clause, at the ends of its range of bytes received: none and all of a header (WREN,
SE), a failed receive (RDID), a whole payload (PP), one byte of the reset pair, of a READ; one and two
of a status write, one and three of a sector erase, a page program's header and no payload byte of it,
each ignored or not; one of two payload bytes. -/
theorem witness_FailedFramesApplyPrefix :
    (∀ i ∈ [Instr.spiWren, .spiSe 0x001000, .spiRdid, .spiRstenRst, .spiRead 0 1, .spiWrsr 1 2],
      i.isRequest = false ∧ ∃ f, encode latched.cfg.ops i = .frame f ∧ f.tx = [] ∧
        (i = .spiWren → f.hdr.length ≤ (cutting false true 1 true).draw.cut) ∧
        (i = .spiSe 0x001000 → f.hdr.length ≤ (cutting false true 4 true).draw.cut) ∧
        (i = .spiRdid → f.rxn ≠ 0)) ∧
    ((Instr.spiPp 0x000100 [1, 2]).isRequest = false ∧
      ∃ f, encode latched.cfg.ops (.spiPp 0x000100 [1, 2]) = .frame f ∧ f.tx ≠ [] ∧
        f.tx.length ≤ (cutting true false 2 true).draw.cut) ∧
    (∀ (h p : Bool) (k : Nat) (g : Bool), (cutting h p k g).cs = false ∧
      (cutting h p k g).cfg.chipPresent = true ∧ Memory.wf (cutting h p k g).chip.array = true ∧
      (cutting h p k g).draw.hdrOk = h ∧ (cutting h p k g).draw.payOk = p ∧
      (cutting h p k g).draw.cut = k ∧ (cutting h p k g).draw.ignoresCut = g ∧
      ((cutting h p k g).chip.settle (cutting h p k g).draw).accepts = true) ∧
    (fitsPage 0x000100 [(1 : Byte), 2].length = true ∧ (0x000100 : WireAddr).toNat < cfg.deviceSize ∧
      (0x001000 : WireAddr).toNat < cfg.deviceSize) := by
  refine ⟨?_, ⟨rfl, _, rfl, by decide, by decide⟩,
    fun _ _ _ _ => ⟨rfl, rfl, rfl, rfl, rfl, rfl, rfl, rfl⟩, by decide, by decide⟩
  intro i hi
  simp only [List.mem_cons, List.not_mem_nil, or_false] at hi
  rcases hi with rfl | rfl | rfl | rfl | rfl | rfl <;>
    exact ⟨rfl, _, rfl, rfl, by decide, by decide, by decide⟩

theorem witness_FrameOfRegisterCommands :
    (∀ i ∈ [Instr.wren zero, .wrdi zero, .reserved 0x00 zero, .reset zero, .rdid zero, .rdsr1 zero,
        .rdsr2 zero, .waitwip zero, .wrenw zero, .wrsr zero],
      nextIs (exec i ready) (fun _ => true) = true) ∧
    Instr.isRequest (.wren zero) = true := by decide

theorem witness_FrameOfArrayCommands :
    (∀ i ∈ [Instr.read zero, .pp zero, .se zero, .ce zero], nextIs (exec i ready) (fun _ => true) = true) ∧
    ¬ ready.storing ∧ ∃ s : State, s.storing ∧ ∃ t, exec (.read zero) s = .next t :=
  ⟨by decide, fun h => (by cases h.1.1),
    { busy 0x08 .none .main with rx := [0x11], len := 1 }, ⟨⟨rfl, rfl, rfl, rfl⟩, rfl, by decide⟩, _, rfl⟩

theorem witness_FrameOfRangeCommands :
    ∀ i ∈ [Instr.init zero, .write zero, .erase zero, .masserase zero],
      nextIs (exec i ready) (fun _ => true) = true := by decide

theorem witness_FrameOfSpiFrames :
    (∀ i ∈ [Instr.spiRdid, .spiWrsr 1 2, .spiRead 0 1, .spiPp 0x000100 [1], .spiSe 0x001000],
      i.isRequest = false ∧ i.wf = true ∧ nextIs (exec i latched) (fun _ => true) = true) ∧
    (fitsPage 0x000100 [(1 : Byte)].length = true ∧ (0x000100 : WireAddr).toNat < latched.cfg.deviceSize ∧
      (0x001000 : WireAddr).toNat < latched.cfg.deviceSize) ∧
    latched.chip.Ok latched.cfg :=
  ⟨by decide, by decide, chip_ok _ (.inr (.inl rfl))⟩

theorem witness_InvariantKeptByEveryStep :
    ready.cfg.ops.wf ∧ ready.Inv ∧ ∃ t, step ready = .next t :=
  ⟨cfg_wf.ops, ready_inv, _, rfl⟩

theorem witness_InvariantStatesNeverStop : ready.cfg.Wf ∧ ready.Inv := ⟨cfg_wf, ready_inv⟩

/-- A chip erase whose status read has returned with the latch set. -/
def sawLatch : State :=
  { got 0x0B .none .welRdsr [0x02] with
    trace := [.frame ready.callRdsr1 [0x02] .ok], chip := chip false true }

theorem sawLatch_inv : sawLatch.Inv :=
  ⟨rfl, ⟨rfl, by show directAt True ceAt _
                 exact ⟨rfl, trivial, .inr ⟨trivial, .inr ⟨rfl, .inl ⟨rfl, rfl, rfl⟩⟩⟩⟩⟩,
    by decide, chip_ok _ (.inr (.inl rfl)), rfl, rfl⟩

/-- A READ whose status read has returned with the chip idle. -/
def sawIdle : State :=
  { got 0x08 .none .preWip [0x00] with trace := [.frame ready.callRdsr1 [0x00] .ok] }

theorem sawIdle_inv : sawIdle.Inv :=
  ⟨rfl, ⟨rfl, by show directAt (State.transferLoaded sawIdle) readAt sawIdle
                 exact ⟨rfl, ⟨rfl, rfl, rfl⟩, .inr (.inr ⟨rfl, .inl ⟨rfl, rfl, rfl⟩⟩)⟩⟩,
    by decide, chip_ok _ (.inl rfl), rfl, rfl⟩

theorem witness_MutationFollowsTheLatch :
    (sawLatch.cfg.ops.wf ∧ sawLatch.Inv ∧
      (∃ t, step sawLatch = .next t ∧ t.bus = some ready.callCe) ∧
      decodeFrame sawLatch.cfg.ops ready.callCe = .ok .spiCe) ∧
    (sawIdle.cfg.ops.wf ∧ sawIdle.Inv ∧
      (∃ t, step sawIdle = .next t ∧ t.bus = some ready.callRead) ∧
      decodeFrame sawIdle.cfg.ops ready.callRead = .ok (.spiRead 0 0)) :=
  ⟨⟨cfg_wf.ops, sawLatch_inv, ⟨_, rfl, rfl⟩, by decide⟩,
    cfg_wf.ops, sawIdle_inv, ⟨_, rfl, rfl⟩, by decide⟩

theorem witness_FramesOfEachCommand :
    sawLatch.cfg.ops.wf ∧ sawLatch.Inv ∧ ∃ t, step sawLatch = .next t ∧ t.bus = some ready.callCe :=
  ⟨cfg_wf.ops, sawLatch_inv, _, rfl, rfl⟩

/-- A WREN request about to respond. -/
def ending : State := busy 0x06 .none .finish

theorem witness_ResultCodesOfEachCommand :
    ending.Inv ∧ ending.phase = .busy ∧ ending.resetAsserted = false ∧
      ∃ t, step ending = .next t ∧ t.phase = .respond :=
  ⟨⟨rfl, ⟨rfl, by show directAt True (oneFrameAt ready.callWren) _
                  exact ⟨rfl, trivial, .inl ⟨rfl, rfl, rfl⟩⟩⟩,
      by decide, chip_ok _ (.inl rfl), rfl, rfl⟩, rfl, rfl, _, rfl, rfl⟩

/-- An RDSR1 and an RDID about to respond with something new. -/
theorem witness_ResponseRegistersWrittenAtTheEnd :
    (∃ s t : State, s.resetAsserted = false ∧ step s = .next t ∧ t.rspSr ≠ s.rspSr) ∧
    (∃ s t : State, s.resetAsserted = false ∧ step s = .next t ∧ t.rspId ≠ s.rspId) :=
  ⟨⟨{ busy 0x03 .none .finish with sr := 1 }, _, rfl, rfl, by decide⟩,
    ⟨{ busy 0x02 .none .finish with id := cfg.expId }, _, rfl, rfl, by decide⟩⟩

/-- A WAITWIP whose status read has returned 0x01. -/
def polling : State :=
  { got 0x0C .none .preWip [0x01] with trace := [.frame ready.callRdsr1 [0x01] .ok] }

theorem witness_StatusScratchFollowsStatusReads :
    polling.cfg.ops.wf ∧ polling.Inv ∧ polling.resetAsserted = false ∧ polling.ret = some true ∧
    lastFrame polling.trace = some ({ hdr := [polling.cfg.ops.rdsr1], tx := [], rxn := 1 }, [0x01], .ok) ∧
    ∃ t, step polling = .next t ∧ t.sr ≠ polling.sr :=
  ⟨cfg_wf.ops,
    ⟨rfl, ⟨rfl, by show directAt True waitwipAt _
                   exact ⟨rfl, trivial, .inr (.inr ⟨rfl, .inl ⟨rfl, rfl, rfl⟩⟩)⟩⟩,
      by decide, chip_ok _ (.inl rfl), rfl, rfl⟩, rfl, rfl, rfl, _, rfl, by decide⟩

/-- V8: a WRITE at its second chunk, and an ERASE at its second sector, whose main frame is about to
fail with a draw that changes whatever it may. -/
def failing (c : Byte) (r : RPhase) (a1 : Word) (f : FrameCall) : State :=
  { busy c r .main with
    req := { cmd := c, a0 := 0, a1 := a1, boff := 0 }, i := 1, n := 2, bus := some f, sr := 0x02
    trace := [.frame ready.callRdsr1 [0x02] .ok], chip := chip false true
    draws := [{ clean with hdrOk := false, cut := 3, ignoresCut := false, pokes := [(0, 1)] }] }

def failingWrite : State :=
  { failing 0x11 .writeLoop 258 { hdr := [0x02, 0x00, 0x01, 0x00], tx := [1, 2], rxn := 0 } with
    addr := 0x100, off := 0x100, len := 2, data := [1, 2] }

def failingErase : State :=
  { failing 0x12 .eraseLoop 0x2000 { hdr := [0x20, 0x00, 0x10, 0x00], tx := [], rxn := 0 } with
    addr := 0x1000, sidx := 1, eidx := 2 }

theorem failingWrite_inv : failingWrite.Inv :=
  ⟨rfl, ⟨rfl, by show failingWrite.n = _ ∧ _
                 exact ⟨by decide, .inr ⟨rfl, .inr ⟨rfl, ⟨by decide, rfl, .inl ⟨⟨rfl, rfl⟩, rfl, by decide⟩⟩,
                   by decide, by decide, by decide, by decide⟩⟩⟩⟩,
    by decide, chip_ok _ (.inr (.inl rfl)), rfl, rfl⟩

theorem failingErase_inv : failingErase.Inv :=
  ⟨rfl, ⟨rfl, by show State.eraseLoaded failingErase ∧ _
                 exact ⟨⟨by decide, by decide, by decide⟩, .inr ⟨rfl, .inr ⟨rfl,
                   ⟨by decide, .inl ⟨⟨rfl, rfl⟩, rfl, by decide⟩⟩, by decide, by decide⟩⟩⟩⟩,
    by decide, chip_ok _ (.inr (.inl rfl)), rfl, rfl⟩

/-- V4's longest WRITE; an ERASE that goes up, one that ends where it starts, one that goes down; the
WRITE and the ERASE above, whose failing step leaves the page and the sector before untouched. -/
theorem witness_RangeDecomposition :
    ((0x00FFFFFF : Word) < chunkCount 0xFFFFFFFF ∧ (1 : Word).toNat ≤ (3 : Word).toNat ∧
      (1 : Word).toNat ≤ (1 : Word).toNat ∧ (1 : Word).toNat < (2 : Word).toNat) ∧
    (failingWrite.Inv ∧ failingWrite.cfg.ops.wf ∧ failingWrite.phase = .busy ∧
      decodeRequest failingWrite.req = .write { a0 := 0, a1 := 258, boff := 0 } ∧
      (wireAddr (chunkStart 0 failingWrite.i)).toNat < failingWrite.cfg.deviceSize ∧
      nextIs (step failingWrite) (fun t => t.ret == some false && t.chip.array == []) = true) ∧
    (failingErase.Inv ∧ failingErase.cfg.ops.wf ∧ failingErase.phase = .busy ∧
      decodeRequest failingErase.req = .erase { a0 := 0, a1 := 0x2000, boff := 0 } ∧
      (wireAddr ((sectorIndex 0 + failingErase.i) * 4096)).toNat < failingErase.cfg.deviceSize ∧
      nextIs (step failingErase) (fun t => t.ret == some false && t.chip.array == []) = true) :=
  ⟨by decide, ⟨failingWrite_inv, cfg_wf.ops, rfl, by decide, by decide, by decide⟩,
    failingErase_inv, cfg_wf.ops, rfl, by decide, by decide, by decide⟩

/-- A request offered on a clean port. -/
theorem witness_offered (r : Request) : (offer r.word).offered r [] := ⟨rfl, rfl, rfl, rfl, rfl⟩

theorem witness_DegenerateRangesSendNothing :
    (∀ r ∈ [({ cmd := 0x11, a0 := 0x10, a1 := 300, boff := 0 } : Request),
        { cmd := 0x11, a0 := 0, a1 := 0, boff := 0 }, { cmd := 0x12, a0 := 0x1000, a1 := 0x1FFF, boff := 0 }],
      (offer r.word).offered r [] ∧ (offer r.word).ret = none) ∧
    ((0x10 : Word).toNat % 256 ≠ 0 ∧ 256 ≤ (256 : Word).toNat ∧
      (0x1000 : Word).toNat / 4096 = (0x1FFF : Word).toNat / 4096) :=
  ⟨fun r _ => ⟨witness_offered r, rfl⟩, by decide⟩

theorem witness_OneFrameRequestsRunToResponse :
    ∀ c ∈ [(0x01 : Byte), 0x02, 0x03, 0x04, 0x06, 0x07],
      (offer (Request.of c zero).word).offered (Request.of c zero) [] ∧
      (offer (Request.of c zero).word).cfg.Wf ∧ (offer (Request.of c zero).word).cfg.chipPresent = true ∧
      cleanDraw (offer (Request.of c zero).word).draw ∧
      (offer (Request.of c zero).word).cfg.resetFraming = .single ∧
      (offer (Request.of c zero).word).cfg.chipNeedsSplit = false ∧
      (offer (Request.of c zero).word).draw.dropWren = false :=
  fun _ _ => ⟨witness_offered _, cfg_wf, rfl, ⟨rfl, rfl⟩, rfl, rfl, rfl⟩

theorem witness_InitSucceedsIffIdentityMatches :
    ∃ s : State, s.offered (Request.of 0x10 zero) [] ∧ s.cfg.ops.wf ∧ s.cfg.chipPresent = true ∧
      s.cfg.resetFraming = .single ∧ s.draws = clean :: clean :: [clean, clean, clean] ∧ cleanDraw clean :=
  ⟨offer (Request.of 0x10 zero).word, witness_offered _, cfg_wf.ops, rfl, rfl, rfl, rfl, rfl⟩

/-- T21: PP 0x000200, 2, @0x10. -/
theorem witness_PageProgramRequestProgramsThePage :
    ∃ (s : State) (r : Request), s.offered r [] ∧ r = { cmd := 0x09, a0 := 0x200, a1 := 2, boff := 0x10 } ∧
      s.cfg.Wf ∧ s.Inv ∧ s.cfg.chipPresent = true ∧ s.chip.wip = false ∧
      s.draws = clean :: clean :: clean :: clean :: [clean] ∧ cleanDraw clean ∧ clean.dropWren = false ∧
      ppFits r.a0 r.a1 = true ∧ (wireAddr r.a0).toNat < s.cfg.deviceSize ∧
      ∀ k, k < r.a1.toNat → s.admitsRead (byteOffset r.boff k) = true :=
  ⟨offer ({ cmd := 0x09, a0 := 0x200, a1 := 2, boff := 0x10 } : Request).word, _, witness_offered _, rfl,
    cfg_wf, ⟨rfl, ⟨rfl, rfl, rfl, rfl, rfl⟩, by decide, chip_ok _ (.inl rfl), rfl, rfl⟩, rfl, rfl, rfl,
    ⟨rfl, rfl⟩, rfl, by decide, by decide, by decide⟩

/-- SE of the last sector of the device, and CE. -/
theorem witness_EraseRequestsEraseAndComplete :
    ∀ r ∈ [({ cmd := 0x0A, a0 := 255, a1 := 0, boff := 0 } : Request), { cmd := 0x0B, a0 := 0, a1 := 0, boff := 0 }],
      ∃ s : State, s.offered r [] ∧ s.cfg.Wf ∧ s.cfg.chipPresent = true ∧ s.chip.wip = false ∧
        s.draws = clean :: clean :: clean :: clean :: { clean with completes := true } :: [] ∧
        cleanDraw clean ∧ cleanDraw { clean with completes := true } ∧ clean.dropWren = false ∧
        (wireAddr (sectorAddr r.a0)).toNat < s.cfg.deviceSize :=
  fun r h => ⟨{ offer r.word with draws := [clean, clean, clean, clean, { clean with completes := true }] },
    witness_offered r, cfg_wf, rfl, rfl, rfl, ⟨rfl, rfl⟩, ⟨rfl, rfl⟩, rfl, by revert r; decide⟩

/-- A READ of the last two bytes of the device, to the end of the buffer space. -/
theorem witness_ReadRequestFillsTheBuffer :
    ∃ (s : State) (r : Request), s.offered r [] ∧
      r = { cmd := 0x08, a0 := 0xFFFFE, a1 := 2, boff := 0xFFFFFFFF } ∧ s.cfg.Wf ∧ s.Inv ∧
      s.cfg.chipPresent = true ∧ s.chip.wip = false ∧ s.draws = clean :: clean :: [clean, clean, clean] ∧
      cleanDraw clean ∧ (wireAddr r.a0).toNat + r.a1.toNat ≤ s.cfg.deviceSize ∧
      ∀ k, k < r.a1.toNat → s.admitsWrite (byteOffset r.boff k) = true :=
  ⟨offer ({ cmd := 0x08, a0 := 0xFFFFE, a1 := 2, boff := 0xFFFFFFFF } : Request).word, _, witness_offered _,
    rfl, cfg_wf, ⟨rfl, ⟨rfl, rfl, rfl, rfl, rfl⟩, by decide, chip_ok _ (.inl rfl), rfl, rfl⟩, rfl, rfl, rfl,
    ⟨rfl, rfl⟩, by decide, by decide⟩

/-- V7 for every N. -/
theorem witness_WrenwSendsOnePairPerTry (N : Nat) :
    ∃ s : State, s.offered (Request.of 0x0D zero) [] ∧ s.cfg.Wf ∧ s.cfg.welLimit = none ∧
      s.cfg.chipPresent = true ∧ s.chip.wip = false ∧ s.chip.wel = false ∧
      cleanDraw { clean with dropWren := true } ∧ cleanDraw clean ∧ clean.dropWren = false ∧
      s.draws = (List.replicate N [{ clean with dropWren := true }, clean]).flatten ++ [clean, clean] :=
  ⟨{ offer (Request.of 0x0D zero).word with
      draws := (List.replicate N [{ clean with dropWren := true }, clean]).flatten ++ [clean, clean] },
    witness_offered _, cfg_wf, rfl, rfl, rfl, rfl, ⟨rfl, rfl⟩, ⟨rfl, rfl⟩, rfl, rfl⟩

/-- The state after a step, or the same state where the machine stops. -/
def after (s : State) : State :=
  match step s with
  | .next t => t
  | .fault _ => s
  | .refused _ => s

/-- The run from `s`. -/
def orbit (s : State) : Nat → State
  | 0 => s
  | m + 1 => after (orbit s m)

theorem after_step {s : State} (h : nextIs (step s) (fun _ => true) = true) : step s = .next (after s) := by
  unfold after
  cases hs : step s with
  | next t => rfl
  | fault f => rw [hs] at h; cases h
  | refused r => rw [hs] at h; cases h

/-- A direct request in progress at CHECK, with the answers it needs. -/
def waiting (c : Byte) : State := { busy c .none .check with draws := [clean, clean] }

/-- Both requests have responded by step 8, and the machine then stays as it is. -/
theorem waiting_run (c : Byte) (h : c = 0x0C ∨ c = 0x0D) :
    (∀ m < 8, nextIs (step (orbit (waiting c) m)) (fun _ => true) = true ∧
      (orbit (waiting c) m).resetAsserted = false) ∧
    (orbit (waiting c) 8).phase = .respond ∧ (orbit (waiting c) 8).bus = none ∧
    (orbit (waiting c) 8).offers = [] ∧ (orbit (waiting c) 8).inputs = [] := by
  rcases h with rfl | rfl <;> exact ⟨by decide, by decide, by decide, by decide, by decide⟩

theorem idle_step {s : State} (hp : s.phase = .respond) (hb : s.bus = none) (ho : s.offers = [])
    (hi : s.inputs = []) : step s = .next s := by
  simp [step, State.resetAsserted, State.applyInput, runStep, fetch, hp, hb, ho, hi]

theorem waiting_stays (c : Byte) (h : c = 0x0C ∨ c = 0x0D) (k : Nat) :
    orbit (waiting c) (8 + k) = orbit (waiting c) 8 := by
  obtain ⟨-, hp, hb, ho, hi⟩ := waiting_run c h
  induction k with
  | zero => rfl
  | succ k ih =>
    show after (orbit (waiting c) (8 + k)) = _
    rw [ih, after, idle_step hp hb ho hi]

/-- WAITWIP and WRENW on an idle chip: runs that meet every hypothesis. -/
theorem witness_WaitsEndUnderFairness (c : Byte) (h : c = 0x0C ∨ c = 0x0D) :
    IsRun (orbit (waiting c)) ∧ (∀ m, (orbit (waiting c) m).resetAsserted = false) ∧
    (waiting c).cfg.Wf ∧ (waiting c).Inv ∧ (waiting c).cfg.chipPresent = true ∧ (waiting c).phase = .busy ∧
    FairWip (orbit (waiting c)) ∧ FairWren (orbit (waiting c)) ∧
    (c = 0x0C → decodeRequest (waiting c).req = .waitwip zero) ∧
    (c = 0x0D → decodeRequest (waiting c).req = .wrenw zero) := by
  obtain ⟨hrun, hp, hb, ho, hi⟩ := waiting_run c h
  have late : ∀ m, 8 ≤ m → orbit (waiting c) m = orbit (waiting c) 8 := fun m hm => by
    obtain ⟨k, rfl⟩ := Nat.exists_eq_add_of_le hm
    exact waiting_stays c h k
  refine ⟨fun m => ?_, fun m => ?_, cfg_wf, ⟨rfl, ⟨rfl, ?_⟩, Nat.zero_le 5, chip_ok _ (.inl rfl), rfl, rfl⟩,
    rfl, rfl, fun hf => ?_, fun hf => ?_, ?_, ?_⟩
  · by_cases hm : m < 8
    · exact after_step (hrun m hm).1
    · rw [late m (by omega), late (m + 1) (by omega)]
      exact idle_step hp hb ho hi
  · by_cases hm : m < 8
    · exact (hrun m hm).2
    · rw [late m (by omega), State.resetAsserted, hi]
  · rcases h with rfl | rfl
    · show directAt True waitwipAt _
      exact ⟨rfl, trivial, .inr ⟨rfl, rfl⟩⟩
    · show directAt True wrenwAt _
      exact ⟨rfl, trivial, .inr ⟨rfl, rfl⟩⟩
  · obtain ⟨m, hm, hs⟩ := hf 8
    rw [statusReadAt, late m hm, hb] at hs
    cases hs
  · obtain ⟨m, hm, hs, -⟩ := hf 8
    rw [late m hm, hb] at hs
    cases hs
  · rintro rfl; rfl
  · rintro rfl; rfl

end Sys2Proof.Tests
end

/-! # What a step runs

The equations of `fetch`, one for each of its clauses, and the step that follows from what is
fetched. -/

namespace Sys2Proof.Machine

section
variable {s : State}

/-! ## `fetch` -/

theorem fetch_of_frame {f : FrameCall} {i : Instr} (hb : s.bus = some f)
    (hd : decodeFrame s.cfg.ops f = .ok i) : fetch s = .run i s := by
  simp [fetch, hb, hd]

theorem fetch_of_unknown_frame {f : FrameCall} {e : DecodeError} (hb : s.bus = some f)
    (hd : decodeFrame s.cfg.ops f = .error e) : fetch s = .bad e := by
  simp [fetch, hb, hd]

theorem fetch_of_busy (hb : s.bus = none) (hp : s.phase = .busy) :
    fetch s = .run (decodeRequest s.req) s := by
  simp [fetch, hb, hp]

theorem fetch_of_offer {w : BitVec 104} {rest : List (BitVec 104)} (hb : s.bus = none)
    (hr : s.reqReady = true) (ho : s.offers = w :: rest) :
    fetch s = .run (decodeRequest (Request.ofWord w)) { s with offers := rest } := by
  rcases reqReady_iff.mp hr with hp | hp <;> simp [fetch, hb, hp, ho]

/-! ## `step`, from what is fetched after the outside's input -/

theorem step_of_fetch_run {i : Instr} {t : State} (hr : s.resetAsserted = false)
    (hf : fetch s.applyInput = .run i t) : step s = exec i t := by
  rw [step_of_no_reset hr, runStep, hf]

theorem step_of_fetch_bad {e : DecodeError} (hr : s.resetAsserted = false)
    (hf : fetch s.applyInput = .bad e) : step s = .refused (.unknownFrame e) := by
  rw [step_of_no_reset hr, runStep, hf]

/-! ## `applyInput` as a whole -/

theorem applyInput_of_nil (hi : s.inputs = []) : s.applyInput = s := by
  rw [State.applyInput, hi]

theorem applyInput_of_cons {x : Input} {xs : List Input} (hi : s.inputs = x :: xs) :
    s.applyInput = { s with buffer := applyEdits s.buffer x.edits, inputs := xs } := by
  rw [State.applyInput, hi]

end

/-- Settles O8: one clause for each equation of `fetch`, in the state after the outside's input,
which leaves the bus, the phase, the request in progress and the port as they are. -/
theorem stepRunsDecodedInstruction : Obligations.StepRunsDecodedInstruction := by
  intro s hr
  refine ⟨fun f i hb hd => ?frame, fun f e hb hd => ?unknown, fun hb hp => ?busy,
    fun w rest hb hready ho => ?offer, applyInput_of_nil, fun x xs => applyInput_of_cons⟩
  case frame => exact step_of_fetch_run hr (fetch_of_frame (by simpa using hb) (by simpa using hd))
  case unknown =>
    exact step_of_fetch_bad hr (fetch_of_unknown_frame (by simpa using hb) (by simpa using hd))
  case busy =>
    exact step_of_fetch_run hr
      (by rw [fetch_of_busy (by simpa using hb) (by simpa using hp), applyInput_req])
  case offer =>
    exact step_of_fetch_run hr
      (fetch_of_offer (by simpa using hb) (by simpa [reqReady_iff] using hready) (by simpa using ho))

end Sys2Proof.Machine

/-! # The layer under the invariant

The requests as a table, what a step moves, and the part of the invariant that is not about control. -/

namespace Sys2Proof.Machine

/-! ## The direct requests as a table -/

/-- A direct request: what `directRequest` runs it with, and its positions in `busyAt`. -/
structure Direct where
  req : Request
  load : State → State := fun t => t
  rsp : State → State := fun t => t
  seq : (State → Res) → State → Res
  loaded : State → Prop := fun _ => True
  inside : State → Prop

/-- The row of a command that is a direct request (`exec_direct` and `busyAt_direct` tie it to the
model). -/
def directOf : Instr → Option Direct
  | .reset o => some { req := Request.of 0x01 o, seq := resetSeq, inside := resetAt }
  | .rdid o => some
    { req := Request.of 0x02 o, rsp := fun t => { t with rspId := t.id }, seq := rdidSeq
      inside := fun s => oneFrameAt s.callRdid s }
  | .rdsr1 o => some
    { req := Request.of 0x03 o, rsp := fun t => { t with rspSr := t.sr }, seq := rdsr1Seq
      inside := fun s => oneFrameAt s.callRdsr1 s }
  | .rdsr2 o => some
    { req := Request.of 0x04 o, rsp := fun t => { t with rspSr := t.rxByte 0 }, seq := rdsr2Seq
      inside := fun s => oneFrameAt s.callRdsr2 s }
  | .wrsr o => some
    { req := Request.of 0x05 o, load := loadStatus, seq := wrsrSeq, loaded := State.statusLoaded
      inside := wrsrAt }
  | .wren o => some
    { req := Request.of 0x06 o, seq := wrenSeq, inside := fun s => oneFrameAt s.callWren s }
  | .wrdi o => some
    { req := Request.of 0x07 o, seq := wrdiSeq, inside := fun s => oneFrameAt s.callWrdi s }
  | .read o => some
    { req := Request.of 0x08 o, load := loadTransfer, seq := readSeq
      loaded := State.transferLoaded, inside := readAt }
  | .pp o => some
    { req := Request.of 0x09 o, load := loadTransfer, seq := ppSeq
      loaded := State.transferLoaded, inside := ppAt }
  | .se o => some
    { req := Request.of 0x0A o, load := loadSector, seq := seSeq
      loaded := fun s => s.sidx = s.req.a0, inside := seAt }
  | .ce o => some { req := Request.of 0x0B o, seq := ceSeq, inside := ceAt }
  | .waitwip o => some { req := Request.of 0x0C o, seq := waitwipSeq, inside := waitwipAt }
  | .wrenw o => some { req := Request.of 0x0D o, seq := wrenwSeq, inside := wrenwAt }
  | _ => none

section
variable {i : Instr} {d : Direct} {s t : State}

theorem exec_direct (h : directOf i = some d) (s : State) :
    exec i s = directRequest d.req d.load d.rsp d.seq s := by
  cases i <;> cases h <;> rfl

theorem busyAt_direct (h : directOf i = some d) :
    busyAt i s ↔ directAt (d.loaded s) d.inside s := by
  cases i <;> cases h <;> rfl

theorem decodeRequest_direct (h : directOf i = some d) : decodeRequest d.req = i := by
  cases i <;> cases h <;> rfl

/-- The instructions of the request port: the direct requests, the four range and sequence commands,
the reserved codes. -/
inductive RequestKind : Instr → Prop
  | direct {i : Instr} {d : Direct} (h : directOf i = some d) : RequestKind i
  | init (o : Operands) : RequestKind (.init o)
  | write (o : Operands) : RequestKind (.write o)
  | erase (o : Operands) : RequestKind (.erase o)
  | masserase (o : Operands) : RequestKind (.masserase o)
  | reserved (c : Byte) (o : Operands) : RequestKind (.reserved c o)

theorem requestKind (h : i.isRequest = true) : RequestKind i := by
  cases i with
  | init o => exact .init o
  | write o => exact .write o
  | erase o => exact .erase o
  | masserase o => exact .masserase o
  | reserved c o => exact .reserved c o
  | spiRstenRst | spiRsten | spiRst | spiRdid | spiRdsr1 | spiRdsr2 | spiWrsr | spiWren | spiWrdi
  | spiRead | spiPp | spiSe | spiCe => cases h
  | _ => exact .direct rfl

/-- Every row of the table decodes to an instruction of the request port. -/
theorem requestTable_isRequest (o : Operands) :
    ∀ row ∈ requestTable, (row.2 o).isRequest = true := by
  simp [requestTable, Instr.isRequest]

theorem decodeRequest_isRequest (r : Request) : (decodeRequest r).isRequest = true := by
  unfold decodeRequest
  split
  · rename_i row hrow
    exact requestTable_isRequest _ row (List.mem_of_find?_eq_some hrow)
  · rfl

/-! ## What a step moves -/

/-- What a step without a reset does from `s`, the state after the outside's input. -/
inductive Move (s t : State) : Prop
  | frame (f : FrameCall) (i : Instr) (hb : s.bus = some f)
      (hd : decodeFrame s.cfg.ops f = .ok i) (h : exec i s = .next t)
  | busy (hb : s.bus = none) (hp : s.phase = .busy) (h : exec (decodeRequest s.req) s = .next t)
  | accept (w : BitVec 104) (rest : List (BitVec 104)) (hb : s.bus = none)
      (hr : s.reqReady = true) (ho : s.offers = w :: rest)
      (h : exec (decodeRequest (Request.ofWord w)) { s with offers := rest } = .next t)
  | wait (hb : s.bus = none) (hr : s.reqReady = true) (ho : s.offers = []) (h : t = s)

theorem reqReady_of_not_busy (h : s.phase ≠ .busy) : s.reqReady = true := by
  cases hp : s.phase <;> simp_all [State.reqReady]

theorem fetch_of_no_offer (hb : s.bus = none) (hr : s.reqReady = true) (ho : s.offers = []) :
    fetch s = .wait s := by
  rcases reqReady_iff.mp hr with hp | hp <;> simp [fetch, hb, hp, ho]

theorem move_of_runStep (h : runStep exec s = .next t) : Move s t := by
  unfold runStep at h
  cases hb : s.bus with
  | some f =>
    cases hd : decodeFrame s.cfg.ops f with
    | error e => rw [fetch_of_unknown_frame hb hd] at h; cases h
    | ok i => rw [fetch_of_frame hb hd] at h; exact .frame f i hb hd h
  | none =>
    by_cases hp : s.phase = .busy
    · rw [fetch_of_busy hb hp] at h; exact .busy hb hp h
    · have hr := reqReady_of_not_busy hp
      cases ho : s.offers with
      | cons w rest => rw [fetch_of_offer hb hr ho] at h; exact .accept w rest hb hr ho h
      | nil => rw [fetch_of_no_offer hb hr ho] at h; cases h; exact .wait hb hr ho rfl

theorem step_move (hr : s.resetAsserted = false) (h : step s = .next t) : Move s.applyInput t :=
  move_of_runStep (step_of_no_reset hr ▸ h)

/-- With the reset asserted the controller is reset, where a frame is on the bus after it has run
(R360, log 27). -/
theorem resetStep_eq_next (h : resetStep exec s = .next t) :
    ∃ u, t = controllerReset u ∧
      (u = s ∨ ∃ f i, s.bus = some f ∧ decodeFrame s.cfg.ops f = .ok i ∧ exec i s = .next u) := by
  unfold resetStep at h
  cases hb : s.bus with
  | none =>
    rw [hb] at h
    cases hf : fetch s <;> rw [hf] at h <;> cases h <;> exact ⟨s, rfl, .inl rfl⟩
  | some f =>
    cases hd : decodeFrame s.cfg.ops f with
    | error e => rw [hb, fetch_of_unknown_frame hb hd] at h; cases h; exact ⟨s, rfl, .inl rfl⟩
    | ok i =>
      rw [hb, fetch_of_frame hb hd] at h
      cases hx : exec i s with
      | next u => simp only [hx] at h; cases h; exact ⟨u, rfl, .inr ⟨f, i, rfl, hd, hx⟩⟩
      | fault r => simp [hx] at h
      | refused r => simp [hx] at h

/-! ## The frame on the bus -/

theorem opOnly_eq_ok {j : Instr} {args : List Byte} {n : Nat} (h : opOnly i args n = .ok j) :
    j = i := by
  unfold opOnly at h
  split at h <;> cases h
  rfl

theorem opReceive_eq_ok {j : Instr} {m n : Nat} {args : List Byte}
    (h : opReceive i m args n = .ok j) : j = i := by
  unfold opReceive at h
  split at h
  · split at h <;> cases h
    rfl
  · cases h

theorem opReset_isRequest {o : Opcodes} {args : List Byte} {n : Nat}
    (h : opReset o args n = .ok i) : i.isRequest = false := by
  unfold opReset at h
  split at h
  · cases h
  · split at h
    · cases h; rfl
    · split at h <;> cases h
      rfl
    · cases h

theorem opStatus_isRequest {args : List Byte} {n : Nat} (h : opStatus args n = .ok i) :
    i.isRequest = false := by
  unfold opStatus at h
  split at h
  · cases h
  · split at h <;> cases h
    rfl

theorem opAddress_isRequest {args : List Byte} {k : WireAddr → Except DecodeError Instr}
    (hk : ∀ a, k a = .ok i → i.isRequest = false) (h : opAddress args k = .ok i) :
    i.isRequest = false := by
  unfold opAddress at h
  split at h
  · exact hk _ h
  · cases h

theorem opProgram_isRequest {args : List Byte} {n : Nat} (h : opProgram args n = .ok i) :
    i.isRequest = false := by
  unfold opProgram at h
  split at h
  · cases h
  · split at h
    · split at h <;> cases h
      rfl
    · cases h

/-- A frame never decodes to an instruction of the request port. -/
theorem decodeFrame_isRequest {o : Opcodes} {f : FrameCall} (h : decodeFrame o f = .ok i) :
    i.isRequest = false := by
  unfold decodeFrame decodeBytes at h
  split at h
  · cases h
  · rcases ite_eq_iff.mp h with ⟨-, h⟩ | ⟨-, h⟩
    · exact opReset_isRequest h
    rcases ite_eq_iff.mp h with ⟨-, h⟩ | ⟨-, h⟩
    · exact opOnly_eq_ok h ▸ rfl
    rcases ite_eq_iff.mp h with ⟨-, h⟩ | ⟨-, h⟩
    · exact opReceive_eq_ok h ▸ rfl
    rcases ite_eq_iff.mp h with ⟨-, h⟩ | ⟨-, h⟩
    · exact opReceive_eq_ok h ▸ rfl
    rcases ite_eq_iff.mp h with ⟨-, h⟩ | ⟨-, h⟩
    · exact opReceive_eq_ok h ▸ rfl
    rcases ite_eq_iff.mp h with ⟨-, h⟩ | ⟨-, h⟩
    · exact opStatus_isRequest h
    rcases ite_eq_iff.mp h with ⟨-, h⟩ | ⟨-, h⟩
    · exact opOnly_eq_ok h ▸ rfl
    rcases ite_eq_iff.mp h with ⟨-, h⟩ | ⟨-, h⟩
    · exact opOnly_eq_ok h ▸ rfl
    rcases ite_eq_iff.mp h with ⟨-, h⟩ | ⟨-, h⟩
    · exact opAddress_isRequest (fun _ hk => by cases hk; rfl) h
    rcases ite_eq_iff.mp h with ⟨-, h⟩ | ⟨-, h⟩
    · exact opProgram_isRequest h
    rcases ite_eq_iff.mp h with ⟨-, h⟩ | ⟨-, h⟩
    · exact opAddress_isRequest (fun _ hk => by split at hk <;> cases hk; rfl) h
    rcases ite_eq_iff.mp h with ⟨-, h⟩ | ⟨-, h⟩
    · exact opOnly_eq_ok h ▸ rfl
    cases h

/-- Whatever frame is on the bus, running it changes what `segments` changes. -/
theorem segments_of_frame {o : Opcodes} {f : FrameCall} (hd : decodeFrame o f = .ok i)
    (h : exec i s = .next t) : ∃ g x, t = segments g x s := by
  obtain ⟨g, x, -, -, hx⟩ := exec_frame i s (decodeFrame_isRequest hd)
  exact ⟨g, x, (busFrame_eq_next (hx ▸ h)).2⟩

/-- The frames of the block decode to what they were encoded from (R112). -/
theorem decode_blockFrame {o : Opcodes} {f : FrameCall} (ho : o.wf) (h : BlockFrame o f) :
    ∃ i, decodeFrame o f = .ok i ∧ i.isRequest = false ∧ encode o i = .frame f := by
  obtain ⟨i, hr, hw, he⟩ := h
  have decoded (hs : Laws.DecodeEncode.Statement i) : decodeFrame o f = .ok i := by
    rw [← hs o ho hw, he]; rfl
  refine ⟨i, decoded ?_, hr, he⟩
  cases i with
  | spiRstenRst => exact Laws.DecodeEncode.spiRstenRst
  | spiRsten => exact Laws.DecodeEncode.spiRsten
  | spiRst => exact Laws.DecodeEncode.spiRst
  | spiRdid => exact Laws.DecodeEncode.spiRdid
  | spiRdsr1 => exact Laws.DecodeEncode.spiRdsr1
  | spiRdsr2 => exact Laws.DecodeEncode.spiRdsr2
  | spiWrsr r1 r2 => exact Laws.DecodeEncode.spiWrsr r1 r2
  | spiWren => exact Laws.DecodeEncode.spiWren
  | spiWrdi => exact Laws.DecodeEncode.spiWrdi
  | spiRead a n => exact Laws.DecodeEncode.spiRead a n
  | spiPp a ds => exact Laws.DecodeEncode.spiPp a ds
  | spiSe a => exact Laws.DecodeEncode.spiSe a
  | spiCe => exact Laws.DecodeEncode.spiCe
  | _ => cases hr

end
end Sys2Proof.Machine

/-! # The invariant

Every step keeps it (R32, R33, R40, R44). -/

namespace Sys2Proof.Machine

section
variable {i : Instr} {d : Direct} {s t u : State}

/-! ## The two halves of the invariant -/

/-- The invariant without the control state. -/
def State.Sound (s : State) : Prop :=
  s.cs = false ∧ s.result.toNat ≤ 5 ∧ s.chip.Ok s.cfg ∧ Memory.wf s.buffer = true ∧
    Memory.below s.buffer (2 ^ 32) = true

theorem inv_iff : s.Inv ↔ s.Sound ∧ s.controlOk :=
  ⟨fun h => ⟨⟨h.cs, h.result, h.chip, h.bufferWf, h.bufferBelow⟩, h.control⟩,
    fun ⟨⟨h1, h2, h3, h4, h5⟩, h⟩ => ⟨h1, h, h2, h3, h4, h5⟩⟩

theorem State.Sound.same {b : Bool} (h : s.Sound) (hs : Same b s u) : u.Sound := by
  obtain ⟨hcs, hres, hchip, hwf, hbelow⟩ := h
  exact ⟨hs.cs ▸ hcs, hs.result ▸ hres, by rw [hs.chip, hs.cfg]; exact hchip, hs.bufWf hwf,
    hs.bufBelow hbelow⟩

theorem controlOk_busy (hp : s.phase = .busy) (hv : s.rspValid = false)
    (hd : decodeRequest s.req = i) (h : busyAt i s) : s.controlOk := by
  subst hd
  simp only [State.controlOk, hp]
  exact ⟨hv, h⟩

theorem busy_of_controlOk (hp : s.phase = .busy) (h : s.controlOk) :
    s.rspValid = false ∧ busyAt (decodeRequest s.req) s := by
  simpa only [State.controlOk, hp] using h

theorem quiet_of_ready (hr : s.reqReady = true) (h : s.controlOk) : s.quiet := by
  rcases reqReady_iff.mp hr with hp | hp <;>
    · simp only [State.controlOk, hp] at h
      obtain ⟨-, -, -, hq⟩ := h
      exact hq

/-! ## The two ways a request ends -/

theorem abort_inv {c : Byte} (h : s.Sound) (hc : c.toNat ≤ 5) : (abort c s).Inv := by
  obtain ⟨-, -, hmem⟩ := h
  exact inv_iff.mpr ⟨⟨rfl, hc, hmem⟩, rfl, rfl, rfl, rfl, rfl⟩

theorem respondOk_inv (h : s.Sound) (hr : s.rphase = .none) (he : s.ended) : (respondOk s).Inv := by
  obtain ⟨hcs, -, hmem⟩ := h
  exact inv_iff.mpr ⟨⟨hcs, codes_le.1, hmem⟩, rfl, hr, he⟩

/-! ## The outside and the controller's reset -/

theorem applyInput_inv (h : s.Inv) : s.applyInput.Inv := by
  unfold State.applyInput
  split
  · exact h
  · exact ⟨h.cs, h.control, h.result, h.chip, applyEdits_wf _ h.bufferWf,
      applyEdits_below _ h.bufferBelow⟩

theorem controllerReset_inv (h : s.Sound) : (controllerReset s).Inv := by
  obtain ⟨-, -, hmem⟩ := h
  exact inv_iff.mpr ⟨⟨rfl, Nat.zero_le _, hmem⟩, rfl, rfl, rfl, rfl, rfl⟩

/-- Settles O2: in IDLE with nothing under way, over a chip at power-up and an empty buffer. -/
theorem resetMeetsInvariant : Obligations.ResetMeetsInvariant where
  cs := rfl
  control := ⟨rfl, rfl, rfl, rfl, rfl⟩
  result := Nat.zero_le _
  chip := ⟨rfl, rfl, BitVec.zero_and, rfl⟩
  bufferWf := rfl
  bufferBelow := rfl

/-! ## A frame on the bus -/

theorem segments_sound {f : FrameCall} {x : ChipSide} (h : s.Sound) (hx : x.Ok s.cfg f.rxn) :
    (segments f x s).Sound := by
  obtain ⟨hcs, hres, hchip, hbuf⟩ := h
  exact ⟨hcs, hres, runSegments_chipOk hx.fitted (hchip.settle _), hbuf⟩

/-- A frame is on the bus only while a request is in progress. -/
theorem busy_of_bus {f : FrameCall} (h : s.Inv) (hb : s.bus = some f) : s.phase = .busy := by
  by_contra hp
  exact not_quiet hb (quiet_of_ready (reqReady_of_not_busy hp) h.control)

/-- From the invariant the frame on the bus is one of the block's, and it runs. -/
theorem called_frame_runs {f : FrameCall} (ho : s.cfg.ops.wf) (h : s.Inv) (hb : s.bus = some f) :
    ∃ i x, decodeFrame s.cfg.ops f = .ok i ∧ exec i s = .next (segments f x s) ∧
      (segments f x s).Inv := by
  have hp := busy_of_bus h hb
  obtain ⟨hv, hat⟩ := busy_of_controlOk hp h.control
  obtain ⟨hblock, -, hruns⟩ := busy_frame _ s f hat hb
  obtain ⟨i, hdec, hi, henc⟩ := decode_blockFrame ho hblock
  obtain ⟨g, x, hg, hx, hexec⟩ := exec_frame i s hi
  obtain rfl : f = g := by rw [henc] at hg; cases hg; rfl
  exact ⟨i, x, hdec, hexec.trans (busFrame_next f x h.cs), inv_iff.mpr
    ⟨segments_sound (inv_iff.mp h).1 hx, controlOk_busy hp hv rfl (hruns x hx)⟩⟩

/-! ## Loaded operands stay loaded -/

theorem Same.transferLoaded (h : Same true s u) (hl : s.transferLoaded) : u.transferLoaded := by
  simpa only [State.transferLoaded, h.addr rfl, h.len, h.off, h.req] using hl

theorem Same.statusLoaded {b : Bool} (h : Same b s u) (hl : s.statusLoaded) : u.statusLoaded := by
  simpa only [State.statusLoaded, h.wsr1, h.wsr2, h.req] using hl

theorem Same.chunkLoaded (h : Same true s u) (hl : s.chunkLoaded) : u.chunkLoaded := by
  simpa only [State.chunkLoaded, h.i, h.n, h.addr rfl, h.off, h.len, h.req] using hl

theorem Same.eraseLoaded {b : Bool} (h : Same b s u) (hl : s.eraseLoaded) : u.eraseLoaded := by
  simpa only [State.eraseLoaded, h.n, h.base, h.eidx, h.req, h.cfg] using hl

theorem Same.sectorLoaded {b : Bool} (h : Same b s u) (hl : s.sectorLoaded) : u.sectorLoaded := by
  simpa only [State.sectorLoaded, h.i, h.n, h.sidx, h.base] using hl

/-! ## One row of a command operation -/

/-- A row of a command operation under way in request `i`: it aborts the request, goes on inside the
operation, or returns to its caller, which moves on by `g`. -/
theorem row_inv {b : Bool} {inside : State → Prop} {seq : (State → Res) → State → Res}
    {g : State → State} (hspec : SeqSpec b inside seq)
    (hx : seq (fun u => .next (g u)) s = .next t)
    (hg : ∀ u, ∃ p r n a, g u = { u with sphase := p, rphase := r, i := n, atTest := a })
    (hi : s.Inv) (hb : s.bus = none) (hp : s.phase = .busy) (hd : decodeRequest s.req = i)
    (hin : inside s) (hnf : s.sphase ≠ .finish)
    (hstay : ∀ u, Same b s u → inside u → busyAt i u)
    (hret : ∀ u, Same b s u → u.quiet → busyAt i (g u)) : t.Inv ∧ t.cfg = s.cfg := by
  obtain ⟨hs, hc⟩ := inv_iff.mp hi
  obtain ⟨hv, -⟩ := busy_of_controlOk hp hc
  rcases hspec s _ t hin hb hnf hx with ⟨c, u, rfl, hcode, hu⟩ | ⟨hin', hu⟩ | ⟨u, hend, hq, hu⟩
  · exact ⟨abort_inv (hs.same hu) hcode, hu.cfg⟩
  · exact ⟨inv_iff.mpr ⟨hs.same hu, controlOk_busy (hu.phase.trans hp) (hu.rspValid.trans hv)
      (hu.req ▸ hd) (hstay t hu hin')⟩, hu.cfg⟩
  · cases hend
    have hat := hret u hu hq
    have hsound := hs.same hu
    obtain ⟨p, r, n, a, hgu⟩ := hg u
    rw [hgu] at hat ⊢
    exact ⟨inv_iff.mpr ⟨hsound, controlOk_busy (hu.phase.trans hp) (hu.rspValid.trans hv)
      (hu.req ▸ hd) hat⟩, hu.cfg⟩

/-! ## The direct requests -/

theorem rdid_spec : SeqSpec true (fun s => oneFrameAt s.callRdid s) rdidSeq :=
  oneFrame_spec State.callRdid storeId (fun _ => ⟨rfl, Same.of rfl⟩) (fun _ _ _ => rfl)

theorem direct_spec (h : directOf i = some d) : ∃ b, SeqSpec b d.inside d.seq ∧
    ∀ s u, Same b s u → d.loaded s → d.loaded u := by
  cases i with
  | reset _ => cases h; exact ⟨_, reset_spec, fun _ _ _ h => h⟩
  | rdid _ => cases h; exact ⟨_, rdid_spec, fun _ _ _ h => h⟩
  | rdsr1 _ =>
    cases h
    exact ⟨_, oneFrame_spec State.callRdsr1 _ (fun _ => ⟨rfl, Same.of rfl⟩) (fun _ _ _ => rfl),
      fun _ _ _ h => h⟩
  | rdsr2 _ =>
    cases h
    exact ⟨_, oneFrame_spec State.callRdsr2 _ (fun s => ⟨rfl, Same.refl s⟩) (fun _ _ _ => rfl),
      fun _ _ _ h => h⟩
  | wrsr _ => cases h; exact ⟨_, wrsr_spec, fun _ _ hs => hs.statusLoaded⟩
  | wren _ =>
    cases h
    exact ⟨_, oneFrame_spec State.callWren _ (fun s => ⟨rfl, Same.refl s⟩) (fun _ _ _ => rfl),
      fun _ _ _ h => h⟩
  | wrdi _ =>
    cases h
    exact ⟨_, oneFrame_spec State.callWrdi _ (fun s => ⟨rfl, Same.refl s⟩) (fun _ _ _ => rfl),
      fun _ _ _ h => h⟩
  | read _ => cases h; exact ⟨_, read_spec, fun _ _ hs => hs.transferLoaded⟩
  | pp _ => cases h; exact ⟨_, pp_spec, fun _ _ hs => hs.transferLoaded⟩
  | se _ =>
    cases h
    exact ⟨_, se_spec, fun _ _ hs hl => by simpa only [hs.sidx, hs.req] using hl⟩
  | ce _ => cases h; exact ⟨_, ce_spec, fun _ _ _ h => h⟩
  | waitwip _ => cases h; exact ⟨_, waitwip_spec, fun _ _ _ h => h⟩
  | wrenw _ => cases h; exact ⟨_, wrenw_spec, fun _ _ _ h => h⟩
  | _ => cases h

/-- No position inside a command operation is at END. -/
theorem direct_inside_ne_finish (h : directOf i = some d) (hin : d.inside s) :
    s.sphase ≠ .finish := by
  intro hs
  cases i <;> cases h <;>
    simp only [resetAt, oneFrameAt, waitwipAt, wrenwAt, wrsrAt, readAt, ppAt, seAt, ceAt, eraseAt,
      hs] at hin

theorem direct_rsp (h : directOf i = some d) (s : State) :
    ∃ sr id, d.rsp s = { s with rspSr := sr, rspId := id } := by
  cases i <;> cases h <;> exact ⟨_, _, rfl⟩

/-- An accepted direct request stands at CHECK with its operands loaded (R100, R104). -/
theorem direct_accept_at (h : directOf i = some d) (hq : s.quiet) :
    directAt (d.loaded (d.load (accept d.req s))) d.inside (d.load (accept d.req s)) := by
  cases i with
  | wrsr _ => cases h; exact ⟨rfl, ⟨rfl, rfl⟩, .inr hq⟩
  | read _ | pp _ => cases h; exact ⟨rfl, ⟨rfl, rfl, rfl⟩, .inr hq⟩
  | se _ => cases h; exact ⟨rfl, rfl, .inr hq⟩
  | _ => cases h <;> exact ⟨rfl, trivial, .inr hq⟩

theorem direct_load (h : directOf i = some d) (s : State) : (d.load s).cfg = s.cfg ∧
    (d.load s).phase = s.phase ∧ (d.load s).rspValid = s.rspValid ∧ (d.load s).req = s.req ∧
    (s.Sound → (d.load s).Sound) := by
  cases i <;> cases h <;> exact ⟨rfl, rfl, rfl, rfl, fun h => h⟩

theorem direct_accept_inv (h : directOf i = some d) (hi : s.Sound) (hq : s.quiet) :
    (d.load (accept d.req s)).Inv ∧ (d.load (accept d.req s)).cfg = s.cfg := by
  obtain ⟨hcfg, hphase, hvalid, hreq, hsound⟩ := direct_load h (accept d.req s)
  exact ⟨inv_iff.mpr ⟨hsound hi, controlOk_busy hphase hvalid (hreq ▸ decodeRequest_direct h)
    ((busyAt_direct h).mpr (direct_accept_at h hq))⟩, hcfg⟩

theorem direct_busy_inv (h : directOf i = some d) (hi : s.Inv) (hb : s.bus = none)
    (hp : s.phase = .busy) (hd : decodeRequest s.req = i) (hx : exec i s = .next t) :
    t.Inv ∧ t.cfg = s.cfg := by
  obtain ⟨hs, hc⟩ := inv_iff.mp hi
  obtain ⟨hv, hat⟩ := busy_of_controlOk hp hc
  rw [hd] at hat
  obtain ⟨hrp, hl, hin⟩ := (busyAt_direct h).mp hat
  rw [exec_direct h] at hx
  rcases directRequest_eq_next hx with ⟨hr, -⟩ | ⟨-, -, hf, rfl⟩ | ⟨-, -, hnf, hseq⟩
  · simp [State.reqReady, hp] at hr
  · obtain ⟨_, hq⟩ := hin.resolve_right fun hin => direct_inside_ne_finish h hin hf
    obtain ⟨sr, id, hrsp⟩ := direct_rsp h s
    rw [hrsp]
    exact ⟨respondOk_inv hs hrp ⟨hf, hq⟩, rfl⟩
  · have hin := hin.resolve_left fun he => hnf he.1
    obtain ⟨b, hspec, hloaded⟩ := direct_spec h
    exact row_inv hspec hseq (fun _ => ⟨_, _, _, _, rfl⟩) hi hb hp hd hin hnf
      (fun u hu hin => (busyAt_direct h).mpr
        ⟨hu.rphase.trans hrp, hloaded s u hu hl, .inr hin⟩)
      (fun u hu hq => (busyAt_direct h).mpr
        ⟨hu.rphase.trans hrp, hloaded s { u with sphase := .finish } { hu with } hl, .inl ⟨rfl, hq⟩⟩)

/-! ## The range and sequence commands -/

theorem exec_reserved_ready {c : Byte} {o : Operands} (hr : s.reqReady = true) :
    exec (.reserved c o) s = .next (abort codeCmd (accept (Request.of c o) s)) := by
  rcases reqReady_iff.mp hr with hp | hp <;> simp [exec, execReserved, hp]

theorem succ_le_of_lt {x y : Word} (h : x < y) : x + 1 ≤ y := by bv_omega

theorem initCompare_inv (hs : s.Sound) (he : s.ended) :
    (initCompare s).Inv ∧ (initCompare s).cfg = s.cfg := by
  unfold initCompare
  split
  · exact ⟨respondOk_inv (s := { s with rspId := s.id, rphase := .none }) hs rfl he, rfl⟩
  · exact ⟨abort_inv (s := { s with rspId := s.id }) hs codes_le.2.2.1, rfl⟩

/-- A loop test leads to the next sub-command at CHECK, or ends the loop with every iteration done
(R280, R290). -/
theorem loopTest_inv {load : State → State} (hi : s.Inv) (hp : s.phase = .busy)
    (hx : loopTest load s = .next t) (hd : decodeRequest s.req = i) (hle : s.i ≤ s.n)
    (hload : (load s).Sound ∧ (load s).cfg = s.cfg ∧ (load s).phase = s.phase ∧
      (load s).rspValid = s.rspValid ∧ (load s).req = s.req)
    (hnext : s.i < s.n → busyAt i { load s with sphase := .check, atTest := false })
    (hdone : s.i = s.n → busyAt i { s with sphase := .finish, rphase := .none, atTest := false }) :
    t.Inv ∧ t.cfg = s.cfg := by
  obtain ⟨hs, hc⟩ := inv_iff.mp hi
  obtain ⟨hv, -⟩ := busy_of_controlOk hp hc
  obtain ⟨hsound, hcfg, hphase, hvalid, hreq⟩ := hload
  rcases loopTest_eq_next hx with ⟨hlt, rfl⟩ | ⟨hge, rfl⟩
  · exact ⟨inv_iff.mpr ⟨hsound, controlOk_busy (hphase.trans hp) (hvalid.trans hv) (hreq ▸ hd)
      (hnext hlt)⟩, hcfg⟩
  · exact ⟨inv_iff.mpr ⟨hs, controlOk_busy hp hv hd
      (hdone (BitVec.le_antisymm hle (BitVec.not_lt.mp hge)))⟩, rfl⟩

section
variable (hi : s.Inv) (hb : s.bus = none) (hp : s.phase = .busy)
include hi hb hp

theorem init_busy_inv {o : Operands} (hd : decodeRequest s.req = .init o)
    (hx : exec (.init o) s = .next t) : t.Inv ∧ t.cfg = s.cfg := by
  obtain ⟨hs, hc⟩ := inv_iff.mp hi
  obtain ⟨-, hat⟩ := busy_of_controlOk hp hc
  rw [hd] at hat
  rw [exec_init] at hx
  rcases hat with ⟨hr, hin⟩ | ⟨hr, hin⟩ | ⟨hr, he⟩
  · rw [rangeRequest_busy hp (by simp [hr])] at hx
    simp only [initSeq, hr] at hx
    exact row_inv reset_spec hx (fun _ => ⟨_, _, _, _, rfl⟩) hi hb hp hd hin
      (direct_inside_ne_finish (i := .reset o) rfl hin)
      (fun u hu hin => .inl ⟨hu.rphase.trans hr, hin⟩) (fun u _ hq => .inr (.inl ⟨rfl, hq⟩))
  · rw [rangeRequest_busy hp (by simp [hr])] at hx
    simp only [initSeq, hr] at hx
    exact row_inv rdid_spec hx (fun _ => ⟨_, _, _, _, rfl⟩) hi hb hp hd hin
      (direct_inside_ne_finish (i := .rdid o) rfl hin)
      (fun u hu hin => .inr (.inl ⟨hu.rphase.trans hr, hin⟩))
      (fun u _ hq => .inr (.inr ⟨rfl, rfl, hq⟩))
  · rw [rangeRequest_busy hp (by simp [hr])] at hx
    simp only [initSeq, hr] at hx
    cases hx
    exact initCompare_inv hs he

theorem masserase_busy_inv {o : Operands} (hd : decodeRequest s.req = .masserase o)
    (hx : exec (.masserase o) s = .next t) : t.Inv ∧ t.cfg = s.cfg := by
  obtain ⟨hs, hc⟩ := inv_iff.mp hi
  obtain ⟨-, hat⟩ := busy_of_controlOk hp hc
  rw [hd] at hat
  rw [exec_masserase] at hx
  rcases hat with ⟨hr, he⟩ | ⟨hr, hin⟩
  · rw [rangeRequest_finish hp hr he.1] at hx
    cases hx
    exact ⟨respondOk_inv hs hr he, rfl⟩
  · rw [rangeRequest_busy hp (by simp [hr])] at hx
    simp only [massSeq, hr] at hx
    exact row_inv ce_spec hx (fun _ => ⟨_, _, _, _, rfl⟩) hi hb hp hd hin
      (direct_inside_ne_finish (i := .ce o) rfl hin)
      (fun u hu hin => .inr ⟨hu.rphase.trans hr, hin⟩) (fun u _ hq => .inl ⟨rfl, rfl, hq⟩)

theorem write_busy_inv {o : Operands} (hd : decodeRequest s.req = .write o)
    (hx : exec (.write o) s = .next t) : t.Inv ∧ t.cfg = s.cfg := by
  obtain ⟨hs, hc⟩ := inv_iff.mp hi
  obtain ⟨-, hat⟩ := busy_of_controlOk hp hc
  rw [hd] at hat
  rw [exec_write] at hx
  obtain ⟨hn, ⟨hr, he, -⟩ | ⟨hr, hloop⟩⟩ := hat
  · rw [rangeRequest_finish hp hr he.1] at hx
    cases hx
    exact ⟨respondOk_inv hs hr he, rfl⟩
  · rw [rangeRequest_busy hp (by simp [hr])] at hx
    rcases hloop with ⟨ht, hq, hle, -⟩ | ⟨ht, hin, hchunk⟩
    · simp only [writeSeq, hr, ht, if_true] at hx
      exact loopTest_inv hi hp hx hd hle ⟨hs, rfl, rfl, rfl, rfl⟩
        (fun hlt => ⟨hn, .inr ⟨hr, .inr ⟨rfl, hq, hlt, rfl, rfl, rfl⟩⟩⟩)
        (fun hdone => ⟨hn, .inl ⟨rfl, ⟨rfl, hq⟩, hdone⟩⟩)
    · simp only [writeSeq, hr, ht, Bool.false_eq_true, if_false] at hx
      have hcount (u : State) (hu : Same true s u) : u.n = chunkCount u.req.a1 := by
        rw [hu.n, hu.req]; exact hn
      exact row_inv pp_spec hx (fun _ => ⟨_, _, _, _, rfl⟩) hi hb hp hd hin
        (direct_inside_ne_finish (i := .pp o) rfl hin)
        (fun u hu hin => ⟨hcount u hu, .inr ⟨hu.rphase.trans hr,
          .inr ⟨hu.atTest.trans ht, hin, hu.chunkLoaded hchunk⟩⟩⟩)
        (fun u hu hq => ⟨hcount u hu, .inr ⟨hu.rphase.trans hr,
          .inl ⟨rfl, hq, succ_le_of_lt (hu.chunkLoaded hchunk).1, .inl rfl⟩⟩⟩)

theorem erase_busy_inv {o : Operands} (hd : decodeRequest s.req = .erase o)
    (hx : exec (.erase o) s = .next t) : t.Inv ∧ t.cfg = s.cfg := by
  obtain ⟨hs, hc⟩ := inv_iff.mp hi
  obtain ⟨-, hat⟩ := busy_of_controlOk hp hc
  rw [hd] at hat
  rw [exec_erase] at hx
  obtain ⟨hl, ⟨hr, he, -⟩ | ⟨hr, hloop⟩⟩ := hat
  · rw [rangeRequest_finish hp hr he.1] at hx
    cases hx
    exact ⟨respondOk_inv hs hr he, rfl⟩
  · rw [rangeRequest_busy hp (by simp [hr])] at hx
    rcases hloop with ⟨ht, hq, hle, -⟩ | ⟨ht, hin, hsector⟩
    · simp only [eraseRangeSeq, hr, ht, if_true] at hx
      exact loopTest_inv hi hp hx hd hle ⟨hs, rfl, rfl, rfl, rfl⟩
        (fun hlt => ⟨hl, .inr ⟨hr, .inr ⟨rfl, hq, hlt, rfl⟩⟩⟩)
        (fun hdone => ⟨hl, .inl ⟨rfl, ⟨rfl, hq⟩, hdone⟩⟩)
    · simp only [eraseRangeSeq, hr, ht, Bool.false_eq_true, if_false] at hx
      exact row_inv se_spec hx (fun _ => ⟨_, _, _, _, rfl⟩) hi hb hp hd hin
        (direct_inside_ne_finish (i := .se o) rfl hin)
        (fun u hu hin => ⟨hu.eraseLoaded hl, .inr ⟨hu.rphase.trans hr,
          .inr ⟨hu.atTest.trans ht, hin, hu.sectorLoaded hsector⟩⟩⟩)
        (fun u hu hq => ⟨hu.eraseLoaded hl, .inr ⟨hu.rphase.trans hr,
          .inl ⟨rfl, hq, succ_le_of_lt (hu.sectorLoaded hsector).1, .inl rfl⟩⟩⟩)

end

/-! ## Requests in progress and requests accepted -/

theorem busy_inv (hi : s.Inv) (hb : s.bus = none) (hp : s.phase = .busy)
    (hx : exec (decodeRequest s.req) s = .next t) : t.Inv ∧ t.cfg = s.cfg := by
  generalize hd : decodeRequest s.req = i at hx
  cases requestKind (hd ▸ decodeRequest_isRequest s.req : i.isRequest = true) with
  | direct h => exact direct_busy_inv h hi hb hp hd hx
  | init o => exact init_busy_inv hi hb hp hd hx
  | write o => exact write_busy_inv hi hb hp hd hx
  | erase o => exact erase_busy_inv hi hb hp hd hx
  | masserase o => exact masserase_busy_inv hi hb hp hd hx
  | reserved c o =>
    obtain ⟨-, hat⟩ := busy_of_controlOk hp hi.control
    rw [hd] at hat
    exact hat.elim

theorem accept_inv (hs : s.Sound) (hq : s.quiet) (hr : s.reqReady = true)
    (h : i.isRequest = true) (hx : exec i s = .next t) : t.Inv ∧ t.cfg = s.cfg := by
  cases requestKind h with
  | direct h =>
    rw [exec_direct h, directRequest_ready hr] at hx
    cases hx
    exact direct_accept_inv h hs hq
  | init o =>
    rw [exec_init, rangeRequest_ready hr] at hx
    cases hx
    exact ⟨inv_iff.mpr ⟨hs, controlOk_busy rfl rfl (decodeRequest_init o) (.inl ⟨rfl, hq⟩)⟩, rfl⟩
  | write o =>
    rw [exec_write, rangeRequest_ready hr] at hx
    cases hx
    exact ⟨inv_iff.mpr ⟨hs, controlOk_busy rfl rfl (decodeRequest_write o)
      ⟨rfl, .inr ⟨rfl, .inl ⟨rfl, hq, Nat.zero_le _, .inr ⟨rfl, rfl⟩⟩⟩⟩⟩, rfl⟩
  | erase o =>
    rw [exec_erase, rangeRequest_ready hr] at hx
    cases hx
    exact ⟨inv_iff.mpr ⟨hs, controlOk_busy rfl rfl (decodeRequest_erase o)
      ⟨⟨rfl, rfl, rfl⟩, .inr ⟨rfl, .inl ⟨rfl, hq, Nat.zero_le _, .inr ⟨rfl, rfl⟩⟩⟩⟩⟩, rfl⟩
  | masserase o =>
    rw [exec_masserase, rangeRequest_ready hr] at hx
    cases hx
    exact ⟨inv_iff.mpr ⟨hs, controlOk_busy rfl rfl (decodeRequest_masserase o) (.inr ⟨rfl, hq⟩)⟩,
      rfl⟩
  | reserved c o =>
    rw [exec_reserved_ready hr] at hx
    cases hx
    exact ⟨abort_inv (s := accept _ s) hs codes_le.2.2.2.2.2, rfl⟩

/-! ## The step -/

theorem move_inv (ho : s.cfg.ops.wf) (hi : s.Inv) (h : Move s t) : t.Inv ∧ t.cfg = s.cfg := by
  cases h with
  | frame f i hb hd h =>
    obtain ⟨j, x, hd', hj, hinv⟩ := called_frame_runs ho hi hb
    obtain rfl : i = j := by rw [hd] at hd'; cases hd'; rfl
    rw [hj] at h
    cases h
    exact ⟨hinv, rfl⟩
  | busy hb hp h => exact busy_inv hi hb hp h
  | accept w rest hb hr hof h =>
    exact accept_inv (s := { s with offers := rest }) (inv_iff.mp hi).1
      (quiet_of_ready hr hi.control) hr (decodeRequest_isRequest _) h
  | wait hb hr hof h => exact ⟨h ▸ hi, h ▸ rfl⟩

/-- Settles O45: by cases on what the step moves, and for a request in progress on its command;
inside a command operation by what one row of it can do. -/
theorem invariantKeptByEveryStep : Obligations.InvariantKeptByEveryStep := by
  intro s t ho hi hstep
  have hi' := applyInput_inv hi
  have ho' : s.applyInput.cfg.ops.wf := by rwa [applyInput_cfg]
  rw [← applyInput_cfg s]
  cases hr : s.resetAsserted with
  | false => exact move_inv ho' hi' (step_move hr hstep)
  | true =>
    rw [step_of_reset hr] at hstep
    obtain ⟨u, rfl, rfl | ⟨f, i, hb, hd, hx⟩⟩ := resetStep_eq_next hstep
    · exact ⟨controllerReset_inv (inv_iff.mp hi').1, rfl⟩
    · obtain ⟨hu, hcfg⟩ := move_inv ho' hi' (.frame f i hb hd hx)
      exact ⟨controllerReset_inv (inv_iff.mp hu).1, hcfg⟩

end
end Sys2Proof.Machine

/-! # Progress

From the invariant a step answers a next state, or stops at a buffer access that is not admitted
(R32, R64, R141). -/

namespace Sys2Proof.Machine

section
variable {i : Instr} {d : Direct} {s t u : State}

/-- The operation answers a next state. -/
def Moves (r : Res) : Prop := ∃ t, r = .next t

theorem moves_next (t : State) : Moves (.next t) := ⟨t, rfl⟩

/-! ## The shared operations -/

section
variable {k : State → Res} {b : Bool}

theorem onReturn_moves (hr : s.ret = some b) (hk : ∀ u, u.cfg = s.cfg → Moves (k u)) :
    Moves (onReturn s k) := by
  cases b with
  | false => rw [onReturn_false k hr]; exact moves_next _
  | true => rw [onReturn_true k hr]; exact hk _ rfl

theorem startWait_moves {p : SPhase} (hl : s.cfg.wipLimit ≠ some 0) : Moves (startWait p s) := by
  rw [startWait, if_neg hl]; exact moves_next _

theorem startLatch_moves (hl : s.cfg.welLimit ≠ some 0) : Moves (startLatch s) := by
  rw [startLatch, if_neg hl]; exact moves_next _

theorem waitReturn_moves (hr : s.ret = some b) (hk : ∀ u, u.cfg = s.cfg → Moves (k u)) :
    Moves (waitReturn s k) := by
  refine onReturn_moves hr fun u hu => ?_
  split
  · exact hk _ hu
  · split <;> exact moves_next _

theorem latchWrenReturn_moves (hr : s.ret = some b) : Moves (latchWrenReturn s) :=
  onReturn_moves hr fun _ _ => moves_next _

theorem latchRdsrReturn_moves (hr : s.ret = some b) (hk : ∀ u, u.cfg = s.cfg → Moves (k u)) :
    Moves (latchRdsrReturn s k) := by
  refine onReturn_moves hr fun u hu => ?_
  split
  · exact hk _ hu
  · split <;> exact moves_next _

end

/-- A frame under way that is not on the bus has returned. -/
theorem returns_of_inFrame {f : FrameCall} (hb : s.bus = none) (h : s.inFrame f) :
    ∃ b, s.ret = some b := by
  rcases h with ⟨h, -⟩ | ⟨-, ⟨h, -⟩ | ⟨h, -⟩⟩
  · rw [hb] at h; cases h
  · exact ⟨_, h⟩
  · exact ⟨_, h⟩

/-! ## The command operations -/

/-- From a position inside it, with nothing on the bus and no limit 0, a row of `seq` answers a next
state if its caller's does. -/
def SeqMoves (inside : State → Prop) (seq : (State → Res) → State → Res) : Prop :=
  ∀ ret s, (∀ u, Moves (ret u)) → s.cfg.Wf → s.bus = none → inside s → Moves (seq ret s)

theorem oneFrame_moves (call : State → FrameCall) (done : State → State) :
    SeqMoves (fun s => oneFrameAt (call s) s) (oneFrameSeq call done) := by
  intro ret s hret hw hb hin
  cases hs : s.sphase <;> simp only [oneFrameSeq, oneFrameAt, hs] at hin ⊢
  case check =>
    exact moves_next _
  case main =>
    obtain ⟨b, hr⟩ := returns_of_inFrame hb hin
    exact onReturn_moves hr fun _ _ => hret _

theorem reset_moves : SeqMoves resetAt resetSeq := by
  intro ret s hret hw hb hin
  cases hs : s.sphase <;> simp only [resetSeq, resetAt, hs] at hin ⊢
  case check =>
    exact moves_next _
  case main =>
    obtain ⟨b, hr⟩ : ∃ b, s.ret = some b := by
      rcases hin with ⟨-, h⟩ | ⟨-, -, h⟩ <;> exact returns_of_inFrame hb h
    refine onReturn_moves hr fun u _ => ?_
    split
    · exact moves_next _
    · exact hret u

theorem waitwip_moves : SeqMoves waitwipAt waitwipSeq := by
  intro ret s hret hw hb hin
  cases hs : s.sphase <;> simp only [waitwipSeq, waitwipAt, hs] at hin ⊢
  case check =>
    exact startWait_moves hw.wipLimit
  case preWip =>
    obtain ⟨b, hr⟩ := returns_of_inFrame hb hin
    exact waitReturn_moves hr fun u _ => hret u

theorem wrenw_moves : SeqMoves wrenwAt wrenwSeq := by
  intro ret s hret hw hb hin
  cases hs : s.sphase <;> simp only [wrenwSeq, wrenwAt, hs] at hin ⊢
  case check =>
    exact startLatch_moves hw.welLimit
  case welWren =>
    obtain ⟨b, hr⟩ := returns_of_inFrame hb hin
    exact latchWrenReturn_moves hr
  case welRdsr =>
    obtain ⟨b, hr⟩ := returns_of_inFrame hb hin
    exact latchRdsrReturn_moves hr fun u _ => hret u

theorem wrsr_moves : SeqMoves wrsrAt wrsrSeq := by
  intro ret s hret hw hb hin
  cases hs : s.sphase <;> simp only [wrsrSeq, wrsrAt, hs] at hin ⊢
  case check =>
    exact startLatch_moves hw.welLimit
  case welWren =>
    obtain ⟨b, hr⟩ := returns_of_inFrame hb hin
    exact latchWrenReturn_moves hr
  case welRdsr =>
    obtain ⟨b, hr⟩ := returns_of_inFrame hb hin
    exact latchRdsrReturn_moves hr fun u _ => moves_next _
  case main =>
    obtain ⟨b, hr⟩ := returns_of_inFrame hb (inMut_inFrame hin)
    exact onReturn_moves hr fun u _ => hret u

theorem erase_moves (call : State → FrameCall) (load : State → State) (past : State → Prop)
    (hload : ∀ s, (load s).cfg = s.cfg) :
    SeqMoves (fun s => eraseAt (call s) (past s) s) (eraseSeq call load) := by
  intro ret s hret hw hb hin
  cases hs : s.sphase <;> simp only [eraseSeq, eraseAt, hs] at hin ⊢
  case check =>
    exact startWait_moves ((hload s).symm ▸ hw.wipLimit)
  case preWip =>
    obtain ⟨b, hr⟩ := returns_of_inFrame hb hin.2
    exact waitReturn_moves hr fun u hu => startLatch_moves (hu ▸ hw.welLimit)
  case welWren =>
    obtain ⟨b, hr⟩ := returns_of_inFrame hb hin.2
    exact latchWrenReturn_moves hr
  case welRdsr =>
    obtain ⟨b, hr⟩ := returns_of_inFrame hb hin.2
    exact latchRdsrReturn_moves hr fun u _ => moves_next _
  case main =>
    obtain ⟨b, hr⟩ := returns_of_inFrame hb (inMut_inFrame hin.2)
    exact onReturn_moves hr fun u hu => startWait_moves (hu ▸ hw.wipLimit)
  case postWip =>
    obtain ⟨b, hr⟩ := returns_of_inFrame hb hin.2
    exact waitReturn_moves hr fun u _ => hret u

theorem se_moves : SeqMoves seAt seSeq :=
  erase_moves State.callSe _ (fun s => s.addr = sectorAddr s.sidx) (fun _ => rfl)

theorem ce_moves : SeqMoves ceAt ceSeq := erase_moves State.callCe _ (fun _ => True) (fun _ => rfl)

section
variable {ret : State → Res} (hret : ∀ u, Moves (ret u)) (hw : s.cfg.Wf) (hb : s.bus = none)
include hret hw hb

/-- R64: PP stops where the payload byte to be read is not admitted. -/
theorem pp_moves (hin : ppAt s) : Moves (ppSeq ret s) ∨
    (ppSeq ret s = .fault .stuckBufferRead ∧
      s.admitsRead (byteOffset s.off s.data.length) = false) := by
  cases hs : s.sphase <;> simp only [ppSeq, ppAt, hs] at hin ⊢
  case check =>
    left
    split
    · exact startWait_moves hw.wipLimit
    · exact moves_next _
  case preWip =>
    obtain ⟨b, hr⟩ := returns_of_inFrame hb hin.2
    exact .inl (waitReturn_moves hr fun u hu => startLatch_moves (hu ▸ hw.welLimit))
  case welWren =>
    obtain ⟨b, hr⟩ := returns_of_inFrame hb hin.2
    exact .inl (latchWrenReturn_moves hr)
  case welRdsr =>
    split
    next b hr => exact .inl (latchRdsrReturn_moves hr fun u _ => moves_next _)
    next =>
      unfold ppGather
      split
      · unfold memRead
        split
        · exact .inl (moves_next _)
        next hno => exact .inr ⟨rfl, by simpa using hno⟩
      · exact .inl (moves_next _)
  case main =>
    obtain ⟨b, hr⟩ := returns_of_inFrame hb (inMut_inFrame hin.2.2)
    exact .inl (onReturn_moves hr fun u _ => hret u)

/-- R64: READ stops where the byte to be written is not admitted. -/
theorem read_moves (hin : readAt s) : Moves (readSeq ret s) ∨
    (readSeq ret s = .fault .stuckBufferWrite ∧
      s.admitsWrite (byteOffset s.off s.pos) = false) := by
  cases hs : s.sphase <;> simp only [readSeq, readAt, hs] at hin ⊢
  case check =>
    exact .inl (startWait_moves hw.wipLimit)
  case preWip =>
    obtain ⟨b, hr⟩ := returns_of_inFrame hb hin
    exact .inl (waitReturn_moves hr fun u _ => moves_next _)
  case main =>
    split
    next b hr => exact .inl (onReturn_moves hr fun u _ => moves_next _)
    next =>
      unfold readMove
      split
      · unfold memWrite
        split
        · exact .inl (moves_next _)
        next hno => exact .inr ⟨rfl, by simpa using hno⟩
      · exact .inl (hret s)

end

/-! ## The requests in progress -/

/-- The two stops of R64. -/
def StopsAtBuffer (i : Instr) (s : State) (r : Res) : Prop :=
  (r = .fault .stuckBufferRead ∧ (∃ o, i = .pp o ∨ i = .write o) ∧
      s.admitsRead (byteOffset s.off s.data.length) = false) ∨
    (r = .fault .stuckBufferWrite ∧ (∃ o, i = .read o) ∧
      s.admitsWrite (byteOffset s.off s.pos) = false)

theorem endDirect_moves (u : State) : Moves (endDirect u) := moves_next _

theorem direct_seq_moves (h : directOf i = some d) (hw : s.cfg.Wf) (hb : s.bus = none)
    (hin : d.inside s) :
    Moves (d.seq endDirect s) ∨ StopsAtBuffer i s (d.seq endDirect s) := by
  cases i with
  | reset _ => cases h; exact .inl (reset_moves _ _ endDirect_moves hw hb hin)
  | rdid _ | rdsr1 _ | rdsr2 _ | wren _ | wrdi _ =>
    cases h; exact .inl (oneFrame_moves _ _ _ _ endDirect_moves hw hb hin)
  | wrsr _ => cases h; exact .inl (wrsr_moves _ _ endDirect_moves hw hb hin)
  | read o =>
    cases h
    exact (read_moves endDirect_moves hw hb hin).imp_right fun ⟨hf, ha⟩ => .inr ⟨hf, ⟨o, rfl⟩, ha⟩
  | pp o =>
    cases h
    exact (pp_moves endDirect_moves hw hb hin).imp_right
      fun ⟨hf, ha⟩ => .inl ⟨hf, ⟨o, .inl rfl⟩, ha⟩
  | se _ => cases h; exact .inl (se_moves _ _ endDirect_moves hw hb hin)
  | ce _ => cases h; exact .inl (ce_moves _ _ endDirect_moves hw hb hin)
  | waitwip _ => cases h; exact .inl (waitwip_moves _ _ endDirect_moves hw hb hin)
  | wrenw _ => cases h; exact .inl (wrenw_moves _ _ endDirect_moves hw hb hin)
  | _ => cases h

theorem loopTest_moves (load : State → State) (s : State) : Moves (loopTest load s) := by
  unfold loopTest
  split <;> exact moves_next _

/-- From every position of a request in progress its next row answers a next state, or stops as R64
says. -/
theorem exec_moves (hk : RequestKind i) (hw : s.cfg.Wf) (hb : s.bus = none) (hp : s.phase = .busy)
    (hat : busyAt i s) : Moves (exec i s) ∨ StopsAtBuffer i s (exec i s) := by
  cases hk with
  | direct h =>
    obtain ⟨hr, -, he | hin⟩ := (busyAt_direct h).mp hat
    · rw [exec_direct h, directRequest_finish hp hr he.1]
      exact .inl (moves_next _)
    · rw [exec_direct h, directRequest_busy hp hr (direct_inside_ne_finish h hin)]
      exact direct_seq_moves h hw hb hin
  | init o =>
    rw [exec_init]
    left
    rcases hat with ⟨hr, hin⟩ | ⟨hr, hin⟩ | ⟨hr, -⟩ <;> rw [rangeRequest_busy hp (by simp [hr])] <;>
      simp only [initSeq, hr]
    · exact reset_moves _ _ (fun _ => moves_next _) hw hb hin
    · exact oneFrame_moves _ _ _ _ (fun _ => moves_next _) hw hb hin
    · exact moves_next _
  | write o =>
    rw [exec_write]
    obtain ⟨-, ⟨hr, he, -⟩ | ⟨hr, hloop⟩⟩ := hat
    · rw [rangeRequest_finish hp hr he.1]
      exact .inl (moves_next _)
    · rw [rangeRequest_busy hp (by simp [hr])]
      rcases hloop with ht | ⟨ht, hin, -⟩
      · simp only [writeSeq, hr, ht.1, if_true]
        exact .inl (loopTest_moves _ _)
      · simp only [writeSeq, hr, ht, Bool.false_eq_true, if_false]
        exact (pp_moves (fun _ => moves_next _) hw hb hin).imp_right
          fun ⟨hf, ha⟩ => .inl ⟨hf, ⟨o, .inr rfl⟩, ha⟩
  | erase o =>
    rw [exec_erase]
    left
    obtain ⟨-, ⟨hr, he, -⟩ | ⟨hr, hloop⟩⟩ := hat
    · rw [rangeRequest_finish hp hr he.1]
      exact moves_next _
    · rw [rangeRequest_busy hp (by simp [hr])]
      rcases hloop with ht | ⟨ht, hin, -⟩
      · simp only [eraseRangeSeq, hr, ht.1, if_true]
        exact loopTest_moves _ _
      · simp only [eraseRangeSeq, hr, ht, Bool.false_eq_true, if_false]
        exact se_moves _ _ (fun _ => moves_next _) hw hb hin
  | masserase o =>
    rw [exec_masserase]
    left
    rcases hat with ⟨hr, he⟩ | ⟨hr, hin⟩
    · rw [rangeRequest_finish hp hr he.1]
      exact moves_next _
    · rw [rangeRequest_busy hp (by simp [hr])]
      simp only [massSeq, hr]
      exact ce_moves _ _ (fun _ => moves_next _) hw hb hin
  | reserved c o => exact hat.elim

/-- A request that a ready block takes off the port is one step. -/
theorem exec_ready_moves (hk : RequestKind i) (hr : s.reqReady = true) : Moves (exec i s) := by
  cases hk with
  | direct h => rw [exec_direct h, directRequest_ready hr]; exact moves_next _
  | init o => rw [exec_init, rangeRequest_ready hr]; exact moves_next _
  | write o => rw [exec_write, rangeRequest_ready hr]; exact moves_next _
  | erase o => rw [exec_erase, rangeRequest_ready hr]; exact moves_next _
  | masserase o => rw [exec_masserase, rangeRequest_ready hr]; exact moves_next _
  | reserved c o => rw [exec_reserved_ready hr]; exact moves_next _

/-! ## The step -/

theorem resetStep_moves (ho : s.cfg.ops.wf) (hi : s.Inv) : Moves (resetStep exec s) := by
  unfold resetStep
  cases hb : s.bus with
  | none => cases fetch s <;> exact moves_next _
  | some f =>
    obtain ⟨i, x, hd, hx, -⟩ := called_frame_runs ho hi hb
    rw [fetch_of_frame hb hd]
    simp only [hx]
    exact moves_next _

theorem runStep_moves (hw : s.cfg.Wf) (hi : s.Inv) :
    Moves (runStep exec s) ∨ StopsAtBuffer (decodeRequest s.req) s (runStep exec s) := by
  unfold runStep
  cases hb : s.bus with
  | some f =>
    obtain ⟨i, x, hd, hx, -⟩ := called_frame_runs hw.ops hi hb
    rw [fetch_of_frame hb hd]
    exact .inl ⟨_, hx⟩
  | none =>
    by_cases hp : s.phase = .busy
    · rw [fetch_of_busy hb hp]
      exact exec_moves (requestKind (decodeRequest_isRequest _)) hw hb hp
        (busy_of_controlOk hp hi.control).2
    · have hr := reqReady_of_not_busy hp
      left
      cases ho : s.offers with
      | cons w rest =>
        rw [fetch_of_offer hb hr ho]
        exact exec_ready_moves (requestKind (decodeRequest_isRequest _)) hr
      | nil => rw [fetch_of_no_offer hb hr ho]; exact moves_next _

theorem applyInput_admitsRead (s : State) (o : Word) :
    s.applyInput.admitsRead o = s.admitsRead o := by
  simp only [State.admitsRead, applyInput_regions]

theorem applyInput_admitsWrite (s : State) (o : Word) :
    s.applyInput.admitsWrite o = s.admitsWrite o := by
  simp only [State.admitsWrite, applyInput_regions]

/-- Settles O46: from each position of the invariant the next row of its command has what it needs,
but for the buffer access that R64 may refuse. -/
theorem invariantStatesNeverStop : Obligations.InvariantStatesNeverStop := by
  intro s hw hi
  have hi' := applyInput_inv hi
  have hw' : s.applyInput.cfg.Wf := by rwa [applyInput_cfg]
  cases hr : s.resetAsserted with
  | true => rw [step_of_reset hr]; exact .inl (resetStep_moves hw'.ops hi')
  | false =>
    rw [step_of_no_reset hr]
    simpa only [Moves, StopsAtBuffer, applyInput_req, applyInput_off, applyInput_data,
      applyInput_pos, applyInput_admitsRead, applyInput_admitsWrite] using runStep_moves hw' hi'

end
end Sys2Proof.Machine

/-! # The ports

What a step does to the offered requests, to the latched request (R41) and to the response registers
(R37). -/

namespace Sys2Proof.Machine

section
variable {i : Instr} {d : Direct} {s t u : State}

/-! ## One row of a command operation -/

/-- `t` has the ports of `s`; its result may be another only where the request has ended. -/
structure Carries (s t : State) : Prop where
  req : t.req = s.req
  offers : t.offers = s.offers
  rspSr : t.rspSr = s.rspSr
  rspId : t.rspId = s.rspId
  result : t.phase = .respond ∨ t.result = s.result

theorem Carries.refl (s : State) : Carries s s := ⟨rfl, rfl, rfl, rfl, .inr rfl⟩

theorem Carries.abort (h : Carries s u) (c : Byte) : Carries s (abort c u) :=
  ⟨h.req, h.offers, h.rspSr, h.rspId, .inl rfl⟩

/-- Where the outcome is a next state, it carries the ports of `s`. -/
def Keeps (s : State) (r : Res) : Prop := ∀ t, r = .next t → Carries s t

theorem keeps_fault (s : State) (f : Fault) : Keeps s (.fault f) := by
  intro _ ht
  cases ht

theorem keeps_next (h : Carries s t) : Keeps s (.next t) := by
  intro _ ht
  cases ht
  exact h

section
variable {k : State → Res} (hu : Carries s u)
include hu

theorem onReturn_keeps (hk : ∀ v, Carries s v → Keeps s (k v)) : Keeps s (onReturn u k) := by
  intro t h
  rcases onReturn_eq_next h with ⟨-, rfl⟩ | ⟨-, h⟩
  · exact hu.abort _
  · exact hk (taken u) { hu with } t h

theorem startWait_keeps {p : SPhase} : Keeps s (startWait p u) := by
  intro t h
  obtain ⟨-, rfl⟩ := startWait_eq_next h
  exact { hu with }

theorem startLatch_keeps : Keeps s (startLatch u) := by
  intro t h
  obtain ⟨-, rfl⟩ := startLatch_eq_next h
  exact { hu with }

theorem waitReturn_keeps (hk : ∀ v, Carries s v → Keeps s (k v)) : Keeps s (waitReturn u k) := by
  intro t h
  have hpolled : Carries s (polled (taken u)) := { hu with }
  rcases waitReturn_eq_next h with ⟨-, rfl⟩ | ⟨-, -, h⟩ | ⟨-, -, -, rfl⟩ | ⟨-, -, -, rfl⟩
  · exact hu.abort _
  · exact hk _ hpolled t h
  · exact hpolled.abort _
  · exact { hu with }

theorem latchWrenReturn_keeps : Keeps s (latchWrenReturn u) :=
  onReturn_keeps hu fun _ hv => keeps_next { hv with }

theorem latchRdsrReturn_keeps (hk : ∀ v, Carries s v → Keeps s (k v)) :
    Keeps s (latchRdsrReturn u k) := by
  intro t h
  have htried : Carries s (tried (taken u)) := { hu with }
  rcases latchRdsrReturn_eq_next h with ⟨-, rfl⟩ | ⟨-, -, h⟩ | ⟨-, -, -, rfl⟩ | ⟨-, -, -, rfl⟩
  · exact hu.abort _
  · exact hk _ htried t h
  · exact htried.abort _
  · exact { hu with }

end

/-- A row of `seq` carries the ports if its caller does. -/
def SeqKeeps (seq : (State → Res) → State → Res) : Prop :=
  ∀ ret s, (∀ u, Carries s u → Keeps s (ret u)) → Keeps s (seq ret s)

theorem oneFrame_keeps (call : State → FrameCall) {done : State → State}
    (hd : ∀ s u, Carries s u → Carries s (done u)) : SeqKeeps (oneFrameSeq call done) := by
  intro ret s hret
  have hs := Carries.refl s
  unfold oneFrameSeq
  split
  · exact keeps_next { hs with }
  · exact onReturn_keeps hs fun v hv => hret _ (hd s v hv)
  all_goals exact keeps_fault s _

theorem reset_keeps : SeqKeeps resetSeq := by
  intro ret s hret
  have hs := Carries.refl s
  unfold resetSeq
  split
  · exact keeps_next { hs with }
  · refine onReturn_keeps hs fun v hv => ?_
    split
    · exact keeps_next { hv with }
    · exact hret v hv
  all_goals exact keeps_fault s _

theorem waitwip_keeps : SeqKeeps waitwipSeq := by
  intro ret s hret
  have hs := Carries.refl s
  unfold waitwipSeq
  split
  · exact startWait_keeps hs
  · exact waitReturn_keeps hs hret
  all_goals exact keeps_fault s _

theorem wrenw_keeps : SeqKeeps wrenwSeq := by
  intro ret s hret
  have hs := Carries.refl s
  unfold wrenwSeq
  split
  · exact startLatch_keeps hs
  · exact latchWrenReturn_keeps hs
  · exact latchRdsrReturn_keeps hs hret
  all_goals exact keeps_fault s _

theorem wrsr_keeps : SeqKeeps wrsrSeq := by
  intro ret s hret
  have hs := Carries.refl s
  unfold wrsrSeq
  split
  · exact startLatch_keeps hs
  · exact latchWrenReturn_keeps hs
  · exact latchRdsrReturn_keeps hs fun v hv => keeps_next { hv with }
  · exact onReturn_keeps hs hret
  all_goals exact keeps_fault s _

theorem readMove_keeps {ret : State → Res} (hret : ∀ u, Carries s u → Keeps s (ret u)) :
    Keeps s (readMove ret s) := by
  have hs := Carries.refl s
  unfold readMove
  split
  · intro t h
    obtain ⟨-, h⟩ := memWrite_eq_next h
    cases h
    exact { hs with }
  · exact hret s hs

theorem read_keeps : SeqKeeps readSeq := by
  intro ret s hret
  have hs := Carries.refl s
  unfold readSeq
  split
  · exact startWait_keeps hs
  · exact waitReturn_keeps hs fun v hv => keeps_next { hv with }
  · split
    · exact onReturn_keeps hs fun v hv => keeps_next { hv with }
    · exact readMove_keeps hret
  all_goals exact keeps_fault s _

theorem ppGather_keeps (s : State) : Keeps s (ppGather s) := by
  have hs := Carries.refl s
  unfold ppGather
  split
  · intro t h
    obtain ⟨-, h⟩ := memRead_eq_next h
    cases h
    exact { hs with }
  · exact keeps_next { hs with }

theorem pp_keeps : SeqKeeps ppSeq := by
  intro ret s hret
  have hs := Carries.refl s
  unfold ppSeq
  split
  · split
    · exact startWait_keeps hs
    · exact keeps_next (hs.abort _)
  · exact waitReturn_keeps hs fun v hv => startLatch_keeps hv
  · exact latchWrenReturn_keeps hs
  · split
    · exact latchRdsrReturn_keeps hs fun v hv => keeps_next { hv with }
    · exact ppGather_keeps s
  · exact onReturn_keeps hs hret
  all_goals exact keeps_fault s _

theorem erase_keeps (call : State → FrameCall) {load : State → State}
    (hload : ∀ s, Carries s (load s)) : SeqKeeps (eraseSeq call load) := by
  intro ret s hret
  have hs := Carries.refl s
  unfold eraseSeq
  split
  · exact startWait_keeps (hload s)
  · exact waitReturn_keeps hs fun v hv => startLatch_keeps hv
  · exact latchWrenReturn_keeps hs
  · exact latchRdsrReturn_keeps hs fun v hv => keeps_next { hv with }
  · exact onReturn_keeps hs fun v hv => startWait_keeps hv
  · exact waitReturn_keeps hs hret
  · exact keeps_fault s _

theorem se_keeps : SeqKeeps seSeq :=
  erase_keeps State.callSe fun _ => ⟨rfl, rfl, rfl, rfl, .inr rfl⟩

theorem ce_keeps : SeqKeeps ceSeq := erase_keeps State.callCe Carries.refl

theorem rdid_keeps : SeqKeeps rdidSeq := by
  refine oneFrame_keeps State.callRdid fun s u hu => ?_
  exact { hu with }

theorem direct_keeps (h : directOf i = some d) : SeqKeeps d.seq := by
  cases i with
  | reset _ => cases h; exact reset_keeps
  | rdid _ => cases h; exact rdid_keeps
  | rdsr1 _ =>
    cases h
    refine oneFrame_keeps _ fun s u hu => ?_
    exact { hu with }
  | rdsr2 _ | wren _ | wrdi _ => cases h; exact oneFrame_keeps _ fun _ _ hu => hu
  | wrsr _ => cases h; exact wrsr_keeps
  | read _ => cases h; exact read_keeps
  | pp _ => cases h; exact pp_keeps
  | se _ => cases h; exact se_keeps
  | ce _ => cases h; exact ce_keeps
  | waitwip _ => cases h; exact waitwip_keeps
  | wrenw _ => cases h; exact wrenw_keeps
  | _ => cases h

/-! ## A request in progress -/

/-- What the next row of a request `i` in progress does to the ports. -/
structure BusyEffect (i : Instr) (s t : State) : Prop where
  req : t.req = s.req
  offers : t.offers = s.offers
  response : t.phase = .respond ∨
    (t.result = s.result ∧ t.rspSr = s.rspSr ∧ t.rspId = s.rspId)
  rspSr : t.rspSr = s.rspSr ∨ ∃ o, i = .rdsr1 o ∨ i = .rdsr2 o
  rspId : t.rspId = s.rspId ∨ ∃ o, i = .rdid o ∨ i = .init o

theorem Carries.busyEffect (h : Carries s t) : BusyEffect i s t :=
  ⟨h.req, h.offers, h.result.imp_right fun hr => ⟨hr, h.rspSr, h.rspId⟩, .inl h.rspSr, .inl h.rspId⟩

/-- The response of a direct request (R102, R163, R165, R166). -/
theorem direct_response_effect (h : directOf i = some d) (s : State) :
    BusyEffect i s (respondOk (d.rsp s)) := by
  cases i with
  | rdid o => cases h; exact ⟨rfl, rfl, .inl rfl, .inl rfl, .inr ⟨o, .inl rfl⟩⟩
  | rdsr1 o => cases h; exact ⟨rfl, rfl, .inl rfl, .inr ⟨o, .inl rfl⟩, .inl rfl⟩
  | rdsr2 o => cases h; exact ⟨rfl, rfl, .inl rfl, .inr ⟨o, .inr rfl⟩, .inl rfl⟩
  | _ => cases h <;> exact ⟨rfl, rfl, .inl rfl, .inl rfl, .inl rfl⟩

theorem respondOk_effect (i : Instr) (s : State) : BusyEffect i s (respondOk s) :=
  ⟨rfl, rfl, .inl rfl, .inl rfl, .inl rfl⟩

/-- INIT's comparison writes `rsp_id` and ends the request (R272). -/
theorem initCompare_effect (o : Operands) (s : State) :
    BusyEffect (.init o) s (initCompare s) := by
  unfold initCompare
  split <;> exact ⟨rfl, rfl, .inl rfl, .inl rfl, .inr ⟨o, .inr rfl⟩⟩

theorem initSeq_effect (o : Operands) (h : initSeq s = .next t) : BusyEffect (.init o) s t := by
  unfold initSeq at h
  split at h
  · refine (reset_keeps _ s (fun u hu => ?_) t h).busyEffect
    exact keeps_next { hu with }
  · refine (rdid_keeps _ s (fun u hu => ?_) t h).busyEffect
    exact keeps_next { hu with }
  · cases h; exact initCompare_effect o s
  all_goals cases h

theorem loopTest_keeps {load : State → State} (hload : Carries s (load s)) :
    Keeps s (loopTest load s) := by
  unfold loopTest
  split
  · exact keeps_next { hload with }
  · exact keeps_next { Carries.refl s with }

theorem loopReturn_keeps (hu : Carries s u) : Keeps s (loopReturn u) := keeps_next { hu with }

theorem writeSeq_keeps (s : State) : Keeps s (writeSeq s) := by
  unfold writeSeq
  split
  · split
    · exact loopTest_keeps ⟨rfl, rfl, rfl, rfl, .inr rfl⟩
    · exact pp_keeps _ s fun _ => loopReturn_keeps
  all_goals exact keeps_fault s _

theorem eraseRangeSeq_keeps (s : State) : Keeps s (eraseRangeSeq s) := by
  unfold eraseRangeSeq
  split
  · split
    · exact loopTest_keeps ⟨rfl, rfl, rfl, rfl, .inr rfl⟩
    · exact se_keeps _ s fun _ => loopReturn_keeps
  all_goals exact keeps_fault s _

theorem massSeq_keeps (s : State) : Keeps s (massSeq s) := by
  unfold massSeq
  split
  · exact ce_keeps _ s fun _ hu => keeps_next { hu with }
  all_goals exact keeps_fault s _

/-- The row of a range request in progress, from what its sequencer does. -/
theorem rangeRequest_effect {r : Request} {load : State → State} {seq : State → Res}
    (hp : s.phase = .busy) (hseq : seq s = .next t → BusyEffect i s t)
    (h : rangeRequest r load seq s = .next t) : BusyEffect i s t := by
  rcases rangeRequest_eq_next h with ⟨hr, -⟩ | ⟨-, -, -, rfl⟩ | ⟨-, -, h⟩
  · simp [State.reqReady, hp] at hr
  · exact respondOk_effect i s
  · exact hseq h

theorem exec_busy_effect (hk : RequestKind i) (hp : s.phase = .busy) (h : exec i s = .next t) :
    BusyEffect i s t := by
  cases hk with
  | direct hd =>
    rw [exec_direct hd] at h
    rcases directRequest_eq_next h with ⟨hr, -⟩ | ⟨-, -, -, rfl⟩ | ⟨-, -, -, h⟩
    · simp [State.reqReady, hp] at hr
    · exact direct_response_effect hd s
    · exact (direct_keeps hd endDirect s (fun _ hu => keeps_next { hu with }) t h).busyEffect
  | init o =>
    rw [exec_init] at h
    exact rangeRequest_effect hp (initSeq_effect o) h
  | write o =>
    rw [exec_write] at h
    exact rangeRequest_effect hp (fun h => (writeSeq_keeps s t h).busyEffect) h
  | erase o =>
    rw [exec_erase] at h
    exact rangeRequest_effect hp (fun h => (eraseRangeSeq_keeps s t h).busyEffect) h
  | masserase o =>
    rw [exec_masserase] at h
    exact rangeRequest_effect hp (fun h => (massSeq_keeps s t h).busyEffect) h
  | reserved c o => simp [exec, execReserved, hp] at h

/-! ## A request accepted -/

/-- Acceptance writes no response register, but for the result of a reserved code, which ends at
once (R105). -/
theorem exec_ready_response (hk : RequestKind i) (hr : s.reqReady = true)
    (h : exec i s = .next t) : t.rspSr = s.rspSr ∧ t.rspId = s.rspId ∧
      (t.phase = .respond ∨ t.result = s.result) := by
  cases hk with
  | direct hd =>
    rw [exec_direct hd, directRequest_ready hr] at h
    cases h
    cases i <;> cases hd <;> exact ⟨rfl, rfl, .inr rfl⟩
  | init o => rw [exec_init, rangeRequest_ready hr] at h; cases h; exact ⟨rfl, rfl, .inr rfl⟩
  | write o => rw [exec_write, rangeRequest_ready hr] at h; cases h; exact ⟨rfl, rfl, .inr rfl⟩
  | erase o => rw [exec_erase, rangeRequest_ready hr] at h; cases h; exact ⟨rfl, rfl, .inr rfl⟩
  | masserase o =>
    rw [exec_masserase, rangeRequest_ready hr] at h; cases h; exact ⟨rfl, rfl, .inr rfl⟩
  | reserved c o => rw [exec_reserved_ready hr] at h; cases h; exact ⟨rfl, rfl, .inl rfl⟩

/-! ## The step -/

/-- Settles O9: while the block is busy a step is a frame, which leaves the ports alone, or a row of
the request in progress. -/
theorem requestsAreHeldWhileBusy : Obligations.RequestsAreHeldWhileBusy := by
  refine ⟨fun s => reqReady_iff, fun s t hbusy hr hstep => ?_⟩
  rw [← applyInput_offers s, ← applyInput_req s]
  cases step_move hr hstep with
  | frame f i hb hd h =>
    obtain ⟨g, x, rfl⟩ := segments_of_frame hd h
    exact ⟨rfl, rfl⟩
  | busy hb hp h =>
    have heff := exec_busy_effect (requestKind (decodeRequest_isRequest _)) hp h
    exact ⟨heff.offers, heff.req⟩
  | accept w rest hb hready ho h => simp_all [State.reqReady]
  | wait hb hready ho h => simp_all [State.reqReady]

/-- Settles O50: only a row of the request in progress writes them, and it ends the request. -/
theorem responseRegistersWrittenAtTheEnd : Obligations.ResponseRegistersWrittenAtTheEnd := by
  intro s t hr hstep
  rw [← applyInput_result s, ← applyInput_rspSr s, ← applyInput_rspId s, ← applyInput_bus s,
    ← applyInput_phase s, ← applyInput_req s]
  cases step_move hr hstep with
  | frame f i hb hd h =>
    obtain ⟨g, x, rfl⟩ := segments_of_frame hd h
    simp
  | busy hb hp h =>
    have heff := exec_busy_effect (requestKind (decodeRequest_isRequest _)) hp h
    refine ⟨fun hne => heff.response.resolve_right fun ⟨h1, h2, h3⟩ => ?_, fun hne => ?_,
      fun hne => ?_⟩
    · simp [h1, h2, h3] at hne
    · exact ⟨hb, hp, heff.rspSr.resolve_left hne⟩
    · exact ⟨hb, hp, heff.rspId.resolve_left hne⟩
  | accept w rest hb hready ho h =>
    obtain ⟨hsr, hid, hres⟩ :=
      exec_ready_response (s := { s.applyInput with offers := rest })
        (requestKind (decodeRequest_isRequest _)) hready h
    refine ⟨fun hne => hres.resolve_right fun hres => ?_, fun hne => absurd hsr hne,
      fun hne => absurd hid hne⟩
    simp only [hres, hsr, hid, ne_eq, not_true_eq_false, or_self] at hne
  | wait hb hready ho h => subst h; simp

end
end Sys2Proof.Machine

/-! # The status scratch register

`sr` after a step is the byte of the status read that returned, or what it was (R38). -/

namespace Sys2Proof.Machine

section
variable {i : Instr} {d : Direct} {s t u : State} {v : Byte}

/-- `v` is what R38 has `sr` hold after a step from `s`: another byte only where the last frame read
it with RDSR1, and the byte read where an RDSR1 frame has just returned. -/
structure SrFollows (s : State) (v : Byte) : Prop where
  changed : v ≠ s.sr → lastFrame s.trace = some (s.callRdsr1, [v], .ok)
  read : ∀ b, s.ret = some true → lastFrame s.trace = some (s.callRdsr1, [b], .ok) → v = b

theorem SrFollows.of_read (h : lastFrame s.trace = some (s.callRdsr1, [v], .ok)) :
    SrFollows s v :=
  ⟨fun _ => h, fun b _ hb => by rw [h] at hb; cases hb; rfl⟩

theorem SrFollows.of_no_return (hr : s.ret ≠ some true) (hv : v = s.sr) : SrFollows s v :=
  ⟨fun hne => absurd hv hne, fun _ h => absurd h hr⟩

theorem SrFollows.of_quiet (hq : s.quiet) (hv : v = s.sr) : SrFollows s v :=
  .of_no_return (by simp [hq.2]) hv

/-- The return of a frame that is no RDSR1 leaves `sr` alone. -/
theorem SrFollows.of_other {f : FrameCall} (hin : s.inFrame f) (hf : f ≠ s.callRdsr1)
    (hv : v = s.sr) : SrFollows s v := by
  refine ⟨fun hne => absurd hv hne, fun b hr hl => ?_⟩
  rcases hin with ⟨-, h⟩ | ⟨-, ⟨-, hf', -⟩ | ⟨h, -⟩⟩
  · rw [h] at hr; cases hr
  · rw [hf'] at hl; exact absurd (congrArg Prod.fst (Option.some.inj hl)) hf
  · rw [h] at hr; cases hr

/-! ## The frames that are no status read -/

theorem ne_callRdsr1_of_rxn {f : FrameCall} (h : f.rxn ≠ 1) : f ≠ s.callRdsr1 :=
  fun hf => h (hf ▸ rfl)

theorem callRdsr2_ne (ho : s.cfg.ops.wf) : s.callRdsr2 ≠ s.callRdsr1 := by
  intro h
  have hop : s.cfg.ops.rdsr2 = s.cfg.ops.rdsr1 := by
    simpa [State.callRdsr2, State.callRdsr1, frameReceive] using h
  simp [Opcodes.wf, Opcodes.toList, hop] at ho

theorem callRead_ne : s.callRead ≠ s.callRdsr1 := by
  simp [State.callRead, State.callRdsr1, frameRead, frameReceive, addrBytes]

theorem callReset_ne : s.callReset ≠ s.callRdsr1 := by
  refine ne_callRdsr1_of_rxn ?_
  unfold State.callReset
  split <;> exact Nat.zero_ne_one

/-! ## The shared operations -/

/-- The operation leaves `sr` alone. -/
def KeepsSr (k : State → Res) : Prop := ∀ u w, k u = .next w → w.sr = u.sr

theorem onReturn_sr {k : State → Res} (h : onReturn s k = .next t) (hk : KeepsSr k) :
    t.sr = s.sr := by
  rcases onReturn_eq_next h with ⟨-, rfl⟩ | ⟨-, h⟩
  · rfl
  · exact hk (taken s) t h

theorem next_sr {g : State → State} (hg : ∀ u, (g u).sr = u.sr) : KeepsSr (fun u => .next (g u)) := by
  intro u w h
  cases h
  exact hg u

theorem startWait_sr (p : SPhase) : KeepsSr (startWait p) := by
  intro s t h
  obtain ⟨-, rfl⟩ := startWait_eq_next h
  rfl

theorem startLatch_sr : KeepsSr startLatch := by
  intro s t h
  obtain ⟨-, rfl⟩ := startLatch_eq_next h
  rfl

theorem latchWrenReturn_sr (hin : s.inFrame s.callWren) (h : latchWrenReturn s = .next t) :
    SrFollows s t.sr :=
  .of_other hin (ne_callRdsr1_of_rxn Nat.zero_ne_one)
    (onReturn_sr h (next_sr fun _ => rfl))

theorem waitReturn_sr {k : State → Res} (h : waitReturn s k = .next t) (hk : KeepsSr k)
    (hin : s.inFrame s.callRdsr1) : SrFollows s t.sr := by
  rcases waitReturn_eq_next h with ⟨hr, rfl⟩ | ⟨hr, -, h⟩ | ⟨hr, -, -, rfl⟩ | ⟨hr, -, -, rfl⟩
  · exact .of_no_return (by simp [hr]) rfl
  · rw [hk _ _ h]; exact .of_read (rx_single rfl hin hr)
  · exact .of_read (rx_single rfl hin hr)
  · exact .of_read (rx_single rfl hin hr)

theorem latchRdsrReturn_sr {k : State → Res} (h : latchRdsrReturn s k = .next t) (hk : KeepsSr k)
    (hin : s.inFrame s.callRdsr1) : SrFollows s t.sr := by
  rcases latchRdsrReturn_eq_next h with ⟨hr, rfl⟩ | ⟨hr, -, h⟩ | ⟨hr, -, -, rfl⟩ | ⟨hr, -, -, rfl⟩
  · exact .of_no_return (by simp [hr]) rfl
  · rw [hk _ _ h]; exact .of_read (rx_single rfl hin hr)
  · exact .of_read (rx_single rfl hin hr)
  · exact .of_read (rx_single rfl hin hr)

/-! ## The command operations -/

/-- A row of `seq` from a position inside it has `sr` follow R38 if its caller leaves `sr` alone. -/
def SeqSr (inside : State → Prop) (seq : (State → Res) → State → Res) : Prop :=
  ∀ ret s t, seq ret s = .next t → KeepsSr ret → s.cfg.ops.wf → inside s → SrFollows s t.sr

theorem oneFrame_sr {call : State → FrameCall} {done : State → State}
    (hcall : ∀ s : State, s.cfg.ops.wf → call s ≠ s.callRdsr1) (hdone : ∀ s, (done s).sr = s.sr) :
    SeqSr (fun s => oneFrameAt (call s) s) (oneFrameSeq call done) := by
  intro ret s t h hret ho hin
  cases hs : s.sphase <;> simp only [oneFrameSeq, oneFrameAt, hs] at h hin
  case check =>
    cases h; exact .of_quiet hin rfl
  case main =>
    exact .of_other hin (hcall s ho)
      (onReturn_sr h fun u w h => (hret _ _ h).trans (hdone u))

theorem rdsr1_sr : SeqSr (fun s => oneFrameAt s.callRdsr1 s) rdsr1Seq := by
  intro ret s t h hret ho hin
  cases hs : s.sphase <;> simp only [rdsr1Seq, oneFrameSeq, oneFrameAt, hs] at h hin
  case check =>
    cases h; exact .of_quiet hin rfl
  case main =>
    rcases onReturn_eq_next h with ⟨hr, rfl⟩ | ⟨hr, h⟩
    · exact .of_no_return (by simp [hr]) rfl
    · rw [hret _ _ h]; exact .of_read (rx_single rfl hin hr)

theorem reset_sr : SeqSr resetAt resetSeq := by
  intro ret s t h hret ho hin
  cases hs : s.sphase <;> simp only [resetSeq, resetAt, hs] at h hin
  case check =>
    cases h; exact .of_quiet hin rfl
  case main =>
    have hsr : t.sr = s.sr := by
      refine onReturn_sr h fun u w h => ?_
      split at h
      · cases h; rfl
      · exact hret u w h
    rcases hin with ⟨-, hin⟩ | ⟨-, -, hin⟩
    · exact .of_other hin callReset_ne hsr
    · exact .of_other hin (ne_callRdsr1_of_rxn Nat.zero_ne_one) hsr

theorem waitwip_sr : SeqSr waitwipAt waitwipSeq := by
  intro ret s t h hret ho hin
  cases hs : s.sphase <;> simp only [waitwipSeq, waitwipAt, hs] at h hin
  case check =>
    exact .of_quiet hin (startWait_sr _ _ _ h)
  case preWip =>
    exact waitReturn_sr h hret hin

theorem wrenw_sr : SeqSr wrenwAt wrenwSeq := by
  intro ret s t h hret ho hin
  cases hs : s.sphase <;> simp only [wrenwSeq, wrenwAt, hs] at h hin
  case check =>
    exact .of_quiet hin (startLatch_sr _ _ h)
  case welWren =>
    exact latchWrenReturn_sr hin h
  case welRdsr =>
    exact latchRdsrReturn_sr h hret hin

theorem wrsr_sr : SeqSr wrsrAt wrsrSeq := by
  intro ret s t h hret ho hin
  cases hs : s.sphase <;> simp only [wrsrSeq, wrsrAt, hs] at h hin
  case check =>
    exact .of_quiet hin (startLatch_sr _ _ h)
  case welWren =>
    exact latchWrenReturn_sr hin h
  case welRdsr =>
    exact latchRdsrReturn_sr h (next_sr fun _ => rfl) hin
  case main =>
    exact .of_other (inMut_inFrame hin) (ne_callRdsr1_of_rxn Nat.zero_ne_one)
      (onReturn_sr h hret)

theorem readMove_sr {ret : State → Res} (hret : KeepsSr ret) : KeepsSr (readMove ret) := by
  intro s t h
  unfold readMove at h
  split at h
  · obtain ⟨-, h⟩ := memWrite_eq_next h
    cases h; rfl
  · exact hret s t h

theorem read_sr : SeqSr readAt readSeq := by
  intro ret s t h hret ho hin
  cases hs : s.sphase <;> simp only [readSeq, readAt, hs] at h hin
  case check =>
    exact .of_quiet hin (startWait_sr _ _ _ h)
  case preWip =>
    exact waitReturn_sr h (next_sr fun _ => rfl) hin
  case main =>
    split at h
    next b hr =>
      have hsr : t.sr = s.sr := onReturn_sr h (next_sr fun _ => rfl)
      rcases hin with ⟨hc, -⟩ | hret' | ⟨hq, -⟩
      · exact .of_other (.inl hc) callRead_ne hsr
      · exact .of_other (.inr hret') callRead_ne hsr
      · exact .of_quiet hq hsr
    next hr => exact .of_no_return (by simp [hr]) (readMove_sr hret _ _ h)

theorem ppGather_sr : KeepsSr ppGather := by
  intro s t h
  unfold ppGather at h
  split at h
  · obtain ⟨-, h⟩ := memRead_eq_next h
    cases h; rfl
  · cases h; rfl

theorem pp_sr : SeqSr ppAt ppSeq := by
  intro ret s t h hret ho hin
  cases hs : s.sphase <;> simp only [ppSeq, ppAt, hs] at h hin
  case check =>
    split at h
    · exact .of_quiet hin (startWait_sr _ _ _ h)
    · cases h; exact .of_quiet hin rfl
  case preWip =>
    exact waitReturn_sr h startLatch_sr hin.2
  case welWren =>
    exact latchWrenReturn_sr hin.2 h
  case welRdsr =>
    split at h
    next b hr =>
      rcases hin.2 with hin | ⟨hq, -⟩
      · exact latchRdsrReturn_sr h (next_sr fun _ => rfl) hin
      · rw [hq.2] at hr; cases hr
    next hr => exact .of_no_return (by simp [hr]) (ppGather_sr _ _ h)
  case main =>
    exact .of_other (inMut_inFrame hin.2.2) (ne_callRdsr1_of_rxn Nat.zero_ne_one)
      (onReturn_sr h hret)

theorem erase_sr {call : State → FrameCall} {load : State → State} (past : State → Prop)
    (hcall : ∀ s : State, call s ≠ s.callRdsr1) (hload : ∀ s, (load s).sr = s.sr) :
    SeqSr (fun s => eraseAt (call s) (past s) s) (eraseSeq call load) := by
  intro ret s t h hret ho hin
  cases hs : s.sphase <;> simp only [eraseSeq, eraseAt, hs] at h hin
  case check =>
    exact .of_quiet hin ((startWait_sr _ _ _ h).trans (hload s))
  case preWip =>
    exact waitReturn_sr h startLatch_sr hin.2
  case welWren =>
    exact latchWrenReturn_sr hin.2 h
  case welRdsr =>
    exact latchRdsrReturn_sr h (next_sr fun _ => rfl) hin.2
  case main =>
    exact .of_other (inMut_inFrame hin.2) (hcall s) (onReturn_sr h (startWait_sr _))
  case postWip =>
    exact waitReturn_sr h hret hin.2

theorem se_sr : SeqSr seAt seSeq :=
  erase_sr (fun s => s.addr = sectorAddr s.sidx)
    (fun _ => ne_callRdsr1_of_rxn Nat.zero_ne_one) fun _ => rfl

theorem ce_sr : SeqSr ceAt ceSeq :=
  erase_sr (fun _ => True) (fun _ => ne_callRdsr1_of_rxn Nat.zero_ne_one) fun _ => rfl

theorem rdid_sr : SeqSr (fun s => oneFrameAt s.callRdid s) rdidSeq :=
  oneFrame_sr (fun _ _ => ne_callRdsr1_of_rxn (by decide : 3 ≠ 1)) fun _ => rfl

theorem direct_sr (h : directOf i = some d) : SeqSr d.inside d.seq := by
  cases i with
  | reset _ => cases h; exact reset_sr
  | rdid _ => cases h; exact rdid_sr
  | rdsr1 _ => cases h; exact rdsr1_sr
  | rdsr2 _ => cases h; exact oneFrame_sr (fun _ => callRdsr2_ne) fun _ => rfl
  | wren _ | wrdi _ =>
    cases h; exact oneFrame_sr (fun _ _ => ne_callRdsr1_of_rxn Nat.zero_ne_one) fun _ => rfl
  | wrsr _ => cases h; exact wrsr_sr
  | read _ => cases h; exact read_sr
  | pp _ => cases h; exact pp_sr
  | se _ => cases h; exact se_sr
  | ce _ => cases h; exact ce_sr
  | waitwip _ => cases h; exact waitwip_sr
  | wrenw _ => cases h; exact wrenw_sr
  | _ => cases h

/-! ## The requests -/

theorem loopTest_sr {load : State → State} (h : loopTest load s = .next t)
    (hload : (load s).sr = s.sr) : t.sr = s.sr := by
  rcases loopTest_eq_next h with ⟨-, rfl⟩ | ⟨-, rfl⟩
  · exact hload
  · rfl

theorem initCompare_sr (s : State) : (initCompare s).sr = s.sr := by
  unfold initCompare
  split <;> rfl

theorem exec_busy_sr (hk : RequestKind i) (ho : s.cfg.ops.wf) (hp : s.phase = .busy)
    (hat : busyAt i s) (h : exec i s = .next t) : SrFollows s t.sr := by
  cases hk with
  | direct hd =>
    rw [exec_direct hd] at h
    obtain ⟨hr, -, he | hin⟩ := (busyAt_direct hd).mp hat
    · rw [directRequest_finish hp hr he.1] at h
      cases h
      obtain ⟨sr, id, hrsp⟩ := direct_rsp hd s
      exact .of_quiet he.2 (by rw [hrsp]; rfl)
    · rw [directRequest_busy hp hr (direct_inside_ne_finish hd hin)] at h
      exact direct_sr hd _ _ _ h (next_sr fun _ => rfl) ho hin
  | init o =>
    rw [exec_init] at h
    rcases hat with ⟨hr, hin⟩ | ⟨hr, hin⟩ | ⟨hr, he⟩ <;>
      rw [rangeRequest_busy hp (by simp [hr])] at h <;> simp only [initSeq, hr] at h
    · exact reset_sr _ _ _ h (next_sr fun _ => rfl) ho hin
    · exact rdid_sr _ _ _ h (next_sr fun _ => rfl) ho hin
    · cases h
      exact .of_quiet he.2 (initCompare_sr s)
  | write o =>
    rw [exec_write] at h
    obtain ⟨-, ⟨hr, he, -⟩ | ⟨hr, hloop⟩⟩ := hat
    · rw [rangeRequest_finish hp hr he.1] at h
      cases h
      exact .of_quiet he.2 rfl
    · rw [rangeRequest_busy hp (by simp [hr])] at h
      rcases hloop with ⟨ht, hq, -⟩ | ⟨ht, hin, -⟩
      · simp only [writeSeq, hr, ht, if_true] at h
        exact .of_quiet hq (loopTest_sr h rfl)
      · simp only [writeSeq, hr, ht, Bool.false_eq_true, if_false] at h
        exact pp_sr _ _ _ h (next_sr fun _ => rfl) ho hin
  | erase o =>
    rw [exec_erase] at h
    obtain ⟨-, ⟨hr, he, -⟩ | ⟨hr, hloop⟩⟩ := hat
    · rw [rangeRequest_finish hp hr he.1] at h
      cases h
      exact .of_quiet he.2 rfl
    · rw [rangeRequest_busy hp (by simp [hr])] at h
      rcases hloop with ⟨ht, hq, -⟩ | ⟨ht, hin, -⟩
      · simp only [eraseRangeSeq, hr, ht, if_true] at h
        exact .of_quiet hq (loopTest_sr h rfl)
      · simp only [eraseRangeSeq, hr, ht, Bool.false_eq_true, if_false] at h
        exact se_sr _ _ _ h (next_sr fun _ => rfl) ho hin
  | masserase o =>
    rw [exec_masserase] at h
    rcases hat with ⟨hr, he⟩ | ⟨hr, hin⟩
    · rw [rangeRequest_finish hp hr he.1] at h
      cases h
      exact .of_quiet he.2 rfl
    · rw [rangeRequest_busy hp (by simp [hr])] at h
      simp only [massSeq, hr] at h
      exact ce_sr _ _ _ h (next_sr fun _ => rfl) ho hin
  | reserved c o => exact hat.elim

theorem exec_ready_sr (hk : RequestKind i) (hr : s.reqReady = true) (h : exec i s = .next t) :
    t.sr = s.sr := by
  cases hk with
  | direct hd =>
    rw [exec_direct hd, directRequest_ready hr] at h
    cases h
    cases i <;> cases hd <;> rfl
  | init o => rw [exec_init, rangeRequest_ready hr] at h; cases h; rfl
  | write o => rw [exec_write, rangeRequest_ready hr] at h; cases h; rfl
  | erase o => rw [exec_erase, rangeRequest_ready hr] at h; cases h; rfl
  | masserase o => rw [exec_masserase, rangeRequest_ready hr] at h; cases h; rfl
  | reserved c o => rw [exec_reserved_ready hr] at h; cases h; rfl

/-! ## The step -/

theorem move_sr (ho : s.cfg.ops.wf) (hi : s.Inv) (h : Move s t) : SrFollows s t.sr := by
  cases h with
  | frame f i hb hd h =>
    obtain ⟨g, x, rfl⟩ := segments_of_frame hd h
    obtain ⟨-, hr, -⟩ := busy_frame _ s f (busy_of_controlOk (busy_of_bus hi hb) hi.control).2 hb
    exact .of_no_return (by simp [hr]) rfl
  | busy hb hp h =>
    exact exec_busy_sr (requestKind (decodeRequest_isRequest _)) ho hp
      (busy_of_controlOk hp hi.control).2 h
  | accept w rest hb hr hof h =>
    exact .of_quiet (quiet_of_ready hr hi.control)
      (exec_ready_sr (s := { s with offers := rest }) (requestKind (decodeRequest_isRequest _)) hr h)
  | wait hb hr hof h => exact .of_quiet (quiet_of_ready hr hi.control) (h ▸ rfl)

/-- Settles O51: each position of the invariant knows the frame that returned, and only the row that
looks at an RDSR1's return writes `sr`. -/
theorem statusScratchFollowsStatusReads : Obligations.StatusScratchFollowsStatusReads := by
  intro s t ho hi hr hstep
  have ho' : s.applyInput.cfg.ops.wf := by rwa [applyInput_cfg]
  obtain ⟨hchanged, hread⟩ := move_sr ho' (applyInput_inv hi) (step_move hr hstep)
  simp only [State.callRdsr1, frameReceive, applyInput_cfg, applyInput_trace, applyInput_sr,
    applyInput_ret] at hchanged hread
  exact ⟨hchanged, hread⟩

end
end Sys2Proof.Machine

/-! # The status predicates (R42) -/

namespace Sys2Proof.Machine

/-- What is outside the mask does not reach a masked byte. -/
theorem merge_and_mask (sr x m : Byte) : ((sr &&& m) ||| (x &&& ~~~m)) &&& m = sr &&& m := by
  apply BitVec.eq_of_getLsbD_eq
  intro i hi
  simp only [BitVec.getLsbD_and, BitVec.getLsbD_or, BitVec.getLsbD_not, hi, decide_true,
    Bool.true_and]
  cases m.getLsbD i <;> simp

/-- Settles O29: each predicate reads the masked byte only. -/
theorem statusPredicates : Obligations.StatusPredicates := by
  intro c sr
  refine ⟨bne_iff_ne, bne_iff_ne, fun x => ?_, fun x => ?_⟩
  · rw [isBusy, merge_and_mask, isBusy]
  · rw [isWriteEnabled, merge_and_mask, isWriteEnabled]

end Sys2Proof.Machine

/-! # The chip's reactions, case by case -/

namespace Sys2Proof.Machine

section
variable {cfg : Config} {d : Draw} {c : Chip} {a : WireAddr} {b n : Nat}

/-! ## Completion and the enable-reset flag (R78, log 12) -/

@[simp] theorem settle_array (d : Draw) (c : Chip) : (c.settle d).array = c.array := by
  unfold Chip.settle; split <;> rfl

@[simp] theorem settle_sr1rest (d : Draw) (c : Chip) : (c.settle d).sr1rest = c.sr1rest := by
  unfold Chip.settle; split <;> rfl

@[simp] theorem settle_sr2 (d : Draw) (c : Chip) : (c.settle d).sr2 = c.sr2 := by
  unfold Chip.settle; split <;> rfl

@[simp] theorem settle_rstEnabled (d : Draw) (c : Chip) :
    (c.settle d).rstEnabled = c.rstEnabled := by
  unfold Chip.settle; split <;> rfl

theorem settle_of_completion (hw : c.wip = true) (hd : d.completes = true) :
    c.settle d = { c with wip := false, wel := false, op := none } := by
  simp [Chip.settle, hw, hd]

theorem settle_of_no_completion (h : c.wip = false ∨ d.completes = false) : c.settle d = c := by
  rcases h with h | h <;> simp [Chip.settle, h]

@[simp] theorem disarm_array (c : Chip) : c.disarm.array = c.array := rfl
@[simp] theorem disarm_sr1rest (c : Chip) : c.disarm.sr1rest = c.sr1rest := rfl
@[simp] theorem disarm_sr2 (c : Chip) : c.disarm.sr2 = c.sr2 := rfl
@[simp] theorem disarm_accepts (c : Chip) : c.disarm.accepts = c.accepts := rfl

/-! ## Reactions by what has arrived -/

@[simp] theorem reactWhole_cons (n : Nat) (f cut : Chip → Chip) (v : Byte) (vs : List Byte)
    (c : Chip) : reactWhole n f cut (v :: vs) c =
      if vs.length + 1 = n then f c.disarm else cut c.disarm := rfl

@[simp] theorem reactRst_cons (cfg : Config) (d : Draw) (v : Byte) (vs : List Byte) (c : Chip) :
    reactRst cfg d (v :: vs) c = if c.rstEnabled then c.powerOn cfg d else c := rfl

@[simp] theorem reactRstenRst_two (cfg : Config) (d : Draw) (v w : Byte) (vs : List Byte)
    (c : Chip) : reactRstenRst cfg d (v :: w :: vs) c =
      if cfg.chipNeedsSplit then (c.anyState cfg d).disarm else c.powerOn cfg d := rfl

theorem reactPp_no_payload {bs : List Byte} (hne : bs ≠ []) (h : bs.drop 4 = []) :
    reactPp cfg d a n bs c = c.disarm.cutProgram cfg d a n := by
  simp [reactPp, h, hne]

theorem reactPp_payload {bs : List Byte} (h : bs.drop 4 ≠ []) :
    reactPp cfg d a n bs c = c.disarm.pageProgram cfg d a (bs.drop 4) := by
  unfold reactPp
  split
  · contradiction
  · rename_i hbs; rw [hbs]

/-! ## The mutations: accepted, or ignored (R76-R78) -/

theorem accepts_iff : c.accepts = true ↔ c.wel = true ∧ c.wip = false := by simp [Chip.accepts]

theorem not_accepts (h : c.wel = false ∨ c.wip = true) : c.accepts = false := by
  rcases h with h | h <;> simp [Chip.accepts, h]

theorem pageProgram_inside {ds : List Byte} (ha : a.toNat < cfg.deviceSize)
    (hn : fitsPage a ds.length = true) : c.pageProgram cfg d a ds =
      if c.accepts then
        { c with
          array := c.array.program (programByte cfg.programRule) a.toNat ds
          wip := true
          op := some (a.toNat, ds.length) }
      else c := if_pos ⟨ha, hn⟩

theorem sectorErase_inside (ha : a.toNat < cfg.deviceSize) : c.sectorErase cfg d a =
      if c.accepts then
        { c with
          array := c.array.eraseRange (sectorBase a) sectorSize
          wip := true
          op := some (sectorBase a, sectorSize) }
      else c := if_pos ha

theorem fitsPage_ne_nil {ds : List Byte} (h : fitsPage a ds.length = true) : ds ≠ [] := by
  rintro rfl; simp [fitsPage] at h

/-- A part of a payload that fits its page fits it too. -/
theorem fitsPage_take {ds : List Byte} (k : Nat) (h : fitsPage a ds.length = true)
    (hk : ds.take k ≠ []) : fitsPage a (ds.take k).length = true := by
  have hpos := List.length_pos_iff.mpr hk
  have hle : (ds.take k).length ≤ ds.length := List.length_take_le' k ds
  simp only [fitsPage, Bool.and_eq_true, decide_eq_true_eq] at h ⊢
  omega

/-- R61: the sector of an address is the addresses with its quotient by SECTOR_SIZE. -/
theorem mem_sector_iff : (sectorBase a ≤ b ∧ b < sectorBase a + sectorSize) ↔
    b / sectorSize = a.toNat / sectorSize := by
  simp only [sectorBase, sectorSize]; omega

/-! ## Array bytes that a reaction leaves alone -/

theorem read_powerOn_other (h : ∀ a n, c.op = some (a, n) → b < a ∨ a + n ≤ b) :
    (c.powerOn cfg d).array.read b = c.array.read b := by
  simp only [Chip.powerOn]
  split
  next a n hop => exact Memory.read_pokeRange_other _ (by have := h a n hop; omega)
  next => rfl

theorem read_pageProgram_other {ds : List Byte} (ha : a.toNat < cfg.deviceSize)
    (hn : fitsPage a ds.length = true) (hb : b < a.toNat ∨ a.toNat + ds.length ≤ b) :
    (c.pageProgram cfg d a ds).array.read b = c.array.read b := by
  rw [pageProgram_inside ha hn]
  split
  · exact Memory.read_program_other hb
  · rfl

theorem read_sectorErase_other (ha : a.toNat < cfg.deviceSize)
    (hb : b / sectorSize ≠ a.toNat / sectorSize) :
    (c.sectorErase cfg d a).array.read b = c.array.read b := by
  rw [sectorErase_inside ha]
  split
  · exact (Memory.read_eraseRange ..).trans (if_neg (mt mem_sector_iff.mp hb))
  · rfl

theorem writeStatus_array (r1 r2 : Byte) : (c.writeStatus cfg d r1 r2).array = c.array := by
  unfold Chip.writeStatus; split <;> rfl

theorem wren_array : (c.wren d).array = c.array := by unfold Chip.wren; split <;> rfl

theorem reactWhole_keeps_byte {f cut : Chip → Chip}
    (hf : ∀ c, (f c).array.read b = c.array.read b)
    (hcut : ∀ c, (cut c).array.read b = c.array.read b) (n : Nat) (bs : List Byte) (c : Chip) :
    (reactWhole n f cut bs c).array.read b = c.array.read b := by
  cases bs with
  | nil => rfl
  | cons v vs =>
    rw [reactWhole_cons]
    split
    · exact hf c.disarm
    · exact hcut c.disarm

theorem reactRead_array (bs : List Byte) (c : Chip) : (reactRead bs c).array = c.array := by
  cases bs <;> rfl

theorem reactRsten_array (bs : List Byte) (c : Chip) : (reactRsten bs c).array = c.array := by
  cases bs <;> rfl

/-- However much of a page program's frame arrives, the bytes that it does not address stay. -/
theorem reactPp_keeps_byte {bs ds : List Byte} {k : Nat} (hbs : bs.drop 4 = ds.take k)
    (ha : a.toNat < cfg.deviceSize) (hn : fitsPage a ds.length = true)
    (hb : b < a.toNat ∨ a.toNat + ds.length ≤ b) :
    (reactPp cfg d a ds.length bs c).array.read b = c.array.read b := by
  by_cases hp : bs.drop 4 = []
  · by_cases hne : bs = []
    · rw [hne]; rfl
    · rw [reactPp_no_payload hne hp]; exact read_cutProgram_other d ha hn hb
  · rw [reactPp_payload hp, hbs]
    have hle : (ds.take k).length ≤ ds.length := List.length_take_le' k ds
    exact read_pageProgram_other (c := c.disarm) ha (fitsPage_take k hn (hbs ▸ hp)) (by omega)

end
end Sys2Proof.Machine

/-! # The chip under the SPI frames (20_memory.md section 4)

Which bytes of a frame reach the chip, whether the frame succeeds, and the chip side of each frame
kind. -/

namespace Sys2Proof.Machine

section
variable {s t : State} {cfg : Config} {d : Draw} {c : Chip} {f : FrameCall} {x : ChipSide}
  {i : Instr}

/-! ## What arrives of a frame (R80, R143) -/

/-- R80: the bytes that have reached the chip by the deselect. -/
def received (f : FrameCall) (d : Draw) : List Byte :=
  if d.hdrOk then (if d.payOk then f.bytes else f.hdr ++ f.tx.take d.cut) else f.hdr.take d.cut

/-- R145: every segment that the frame has succeeds. -/
def succeeds (f : FrameCall) (d : Draw) : Bool :=
  d.hdrOk && (d.payOk || (f.tx.isEmpty && f.rxn == 0))

theorem runSegments_chip : (runSegments f x d c).chip = x.react d (received f d) c := by
  unfold runSegments received
  cases hh : d.hdrOk with
  | false => simp
  | true =>
    cases hp : d.payOk with
    | true => simp
    | false =>
      by_cases htx : f.tx = [] <;> by_cases hrx : f.rxn = 0 <;> simp [htx, hrx, FrameCall.bytes]

theorem runSegments_succeeds : (runSegments f x d c).ok = succeeds f d := by
  unfold runSegments succeeds
  cases hh : d.hdrOk with
  | false => simp
  | true =>
    cases hp : d.payOk with
    | true => simp
    | false =>
      by_cases htx : f.tx = [] <;> by_cases hrx : f.rxn = 0 <;> simp [htx, hrx]

theorem received_of_failed_header (h : d.hdrOk = false) : received f d = f.hdr.take d.cut := by
  simp [received, h]

theorem received_of_failed_payload (h : d.hdrOk = true) (hp : d.payOk = false) :
    received f d = f.hdr ++ f.tx.take d.cut := by
  simp [received, h, hp]

theorem received_of_clean (h : cleanDraw d) : received f d = f.bytes := by
  simp [received, h.1, h.2]

theorem fails_of_header (h : d.hdrOk = false) : succeeds f d = false := by
  simp [succeeds, h]

theorem fails_of_payload (hp : d.payOk = false) (hf : f.tx ≠ [] ∨ f.rxn ≠ 0) :
    succeeds f d = false := by
  rcases hf with hf | hf <;> simp [succeeds, hp, hf]

@[simp] theorem frameOp_bytes (op : Byte) : (frameOp op).bytes = [op] := rfl
@[simp] theorem frameRstenRst_bytes (o : Opcodes) :
    (frameRstenRst o).bytes = [o.rsten, o.rst] := rfl
@[simp] theorem frameWrsr_bytes (o : Opcodes) (r1 r2 : Byte) :
    (frameWrsr o r1 r2).bytes = [o.wrsr, r1, r2] := rfl
@[simp] theorem frameSe_bytes (o : Opcodes) (a : WireAddr) :
    (frameSe o a).bytes = o.se :: addrBytes a := rfl
@[simp] theorem addrBytes_length (a : WireAddr) : (addrBytes a).length = 3 := rfl

/-! ## The chip side of each frame kind -/

/-- What the chip does with each frame kind's bytes and what it answers (R72-R80); tied to the
machine by `exec_eq_busFrame`. The instructions of the request port have no chip side. -/
@[simp] def chipSide (cfg : Config) : Instr → ChipSide
  | .spiRstenRst => { react := reactRstenRst cfg, answer := fun _ _ => [] }
  | .spiRsten => { react := fun _ => reactRsten, answer := fun _ _ => [] }
  | .spiRst => { react := reactRst cfg, answer := fun _ _ => [] }
  | .spiRdid => { react := fun _ => reactRead, answer := fun _ _ => answerRdid cfg }
  | .spiRdsr1 => { react := fun _ => reactRead, answer := answerRdsr1 cfg }
  | .spiRdsr2 => { react := fun _ => reactRead, answer := fun _ => answerRdsr2 }
  | .spiWrsr r1 r2 =>
    { react := fun d =>
        reactWhole 3 (fun c => c.writeStatus cfg d r1 r2) (fun c => c.cutStatus cfg d)
      answer := fun _ _ => [] }
  | .spiWren => { react := fun d => reactWhole 1 (fun c => c.wren d) id, answer := fun _ _ => [] }
  | .spiWrdi => { react := fun _ => reactWhole 1 Chip.wrdi id, answer := fun _ _ => [] }
  | .spiRead a n => { react := fun _ => reactRead, answer := fun d => answerRead cfg d a n }
  | .spiPp a ds => { react := fun d => reactPp cfg d a ds.length, answer := fun _ _ => [] }
  | .spiSe a =>
    { react := fun d =>
        reactWhole 4 (fun c => c.sectorErase cfg d a) (fun c => c.cutErase cfg d a)
      answer := fun _ _ => [] }
  | .spiCe =>
    { react := fun _ => reactWhole 1 (fun c => c.chipErase cfg) id, answer := fun _ _ => [] }
  | .reset _ | .rdid _ | .rdsr1 _ | .rdsr2 _ | .wrsr _ | .wren _ | .wrdi _ | .read _ | .pp _
  | .se _ | .ce _ | .waitwip _ | .wrenw _ | .init _ | .write _ | .erase _ | .masserase _
  | .reserved _ _ => { react := fun _ _ c => c, answer := fun _ _ => [] }

theorem exec_eq_busFrame (he : encode s.cfg.ops i = .frame f) :
    exec i s = busFrame f (chipSide s.cfg i) s := by
  cases i <;> cases he <;> rfl

theorem fitted_present {n : Nat} (h : cfg.chipPresent = true) : x.fitted cfg n = x := if_pos h

theorem fitted_absent {n : Nat} (h : cfg.chipPresent = false) :
    x.fitted cfg n = { react := fun _ _ c => c, answer := fun d _ => drawBytes d n } :=
  if_neg (by simp [h])

/-- What a frame on a fitted chip leaves, however its segments end. -/
theorem frame_next (hc : s.cs = false) (hp : s.cfg.chipPresent = true)
    (he : encode s.cfg.ops i = .frame f) :
    ∃ t, exec i s = .next t ∧ t.ret = some (succeeds f s.draw) ∧
      t.chip = (chipSide s.cfg i).react s.draw (received f s.draw) (s.chip.settle s.draw) := by
  refine ⟨_, (exec_eq_busFrame he).trans (busFrame_next f _ hc), ?_, ?_⟩
  · rw [segments_ret, State.frameResult, runSegments_succeeds]
  · rw [segments_chip, State.frameResult, runSegments_chip, fitted_present hp]

/-- What a frame whose segments succeed leaves and receives, a chip fitted or not. -/
theorem clean_frame_next (hc : s.cs = false) (hd : cleanDraw s.draw)
    (he : encode s.cfg.ops i = .frame f) :
    ∃ t, exec i s = .next t ∧ t.ret = some true ∧
      t.rx = (if f.rxn = 0 then []
        else ((chipSide s.cfg i).fitted s.cfg f.rxn).answer s.draw (s.chip.settle s.draw)) ∧
      t.chip = ((chipSide s.cfg i).fitted s.cfg f.rxn).react s.draw f.bytes
        (s.chip.settle s.draw) := by
  refine ⟨_, (exec_eq_busFrame he).trans (busFrame_next f _ hc), ?_⟩
  rw [segments_ret, segments_rx, segments_chip, State.frameResult, runSegments_ok hd.1 (.inl hd.2)]
  exact ⟨rfl, rfl, rfl⟩

/-- The same of a fitted chip. -/
theorem clean_frame_fitted (hc : s.cs = false) (hp : s.cfg.chipPresent = true)
    (hd : cleanDraw s.draw) (he : encode s.cfg.ops i = .frame f) :
    ∃ t, exec i s = .next t ∧ t.ret = some true ∧
      t.rx = (if f.rxn = 0 then []
        else (chipSide s.cfg i).answer s.draw (s.chip.settle s.draw)) ∧
      t.chip = (chipSide s.cfg i).react s.draw f.bytes (s.chip.settle s.draw) := by
  have h := clean_frame_next hc hd he
  rwa [fitted_present hp] at h

/-- An array byte that the chip side of a frame leaves alone, the frame leaves alone, whether a chip
is fitted or not. -/
theorem frame_keeps_byte {b : Nat} (hr : i.isRequest = false) (h : exec i s = .next t)
    (hkeep : ∀ f, encode s.cfg.ops i = .frame f → ∀ c,
      ((chipSide s.cfg i).react s.draw (received f s.draw) c).array.read b = c.array.read b) :
    t.chip.array.read b = s.chip.array.read b := by
  obtain ⟨f, -, he, -⟩ := exec_frame i s hr
  obtain ⟨-, rfl⟩ := busFrame_eq_next (exec_eq_busFrame he ▸ h)
  rw [segments_chip, State.frameResult, runSegments_chip]
  cases hp : s.cfg.chipPresent with
  | true => rw [fitted_present hp, hkeep f he, settle_array]
  | false => rw [fitted_absent hp, settle_array]

end
end Sys2Proof.Machine

/-! # Addresses (R62, R65, R114) -/

namespace Sys2Proof.Machine

theorem wireAddr_toNat (a : Word) : (wireAddr a).toNat = a.toNat % 2 ^ 24 := by
  simp [wireAddr, BitVec.extractLsb'_toNat]

theorem sectorAddr_toNat (x : Word) : (sectorAddr x).toNat = x.toNat * 4096 % 2 ^ 32 := by
  simp [sectorAddr, BitVec.toNat_mul, sectorSize]

/-- Three bytes spell their base 256 value, the first the highest. -/
theorem addrOfBytes_toNat (hi mid lo : Byte) :
    (addrOfBytes hi mid lo).toNat = hi.toNat * 65536 + mid.toNat * 256 + lo.toNat := by
  rw [addrOfBytes, BitVec.toNat_append, BitVec.toNat_append,
    ← Nat.shiftLeft_add_eq_or_of_lt mid.isLt, ← Nat.shiftLeft_add_eq_or_of_lt lo.isLt]
  simp only [Nat.shiftLeft_eq]
  omega

/-- Settles O28: the three bytes of an address spell it, and wrapping at 2^32 before 2^24 is the same
as wrapping at 2^24. -/
theorem addressAssembly : Obligations.AddressAssembly := by
  refine ⟨wireAddr_toNat, fun a => ?bytes, fun x => ⟨sectorAddr_toNat x, ?sector⟩⟩
  case bytes => exact ⟨_, _, _, rfl, by rw [← addrOfBytes_toNat, addrOfBytes_addrBytes]⟩
  case sector => rw [wireAddr_toNat, sectorAddr_toNat]; omega

/-! # What the reads answer (R71-R74) -/

section
variable {cfg : Config} {d : Draw} {c : Chip}

/-- R73: outside the two flags the status byte is the draw's. -/
theorem statusByte_rest : c.statusByte cfg d &&& ~~~(cfg.wipMask ||| cfg.welMask) =
    d.sr1 &&& ~~~(cfg.wipMask ||| cfg.welMask) := by
  apply BitVec.eq_of_getLsbD_eq
  intro i hi
  simp only [Chip.statusByte, restMask]
  cases c.wip <;> cases c.wel <;>
    simp only [Bool.false_eq_true, if_true, if_false, BitVec.getLsbD_and, BitVec.getLsbD_not,
      BitVec.getLsbD_or] <;> grind

theorem answerRead_length (a : WireAddr) (n : Nat) : (answerRead cfg d a n c).length = n := by
  simp [answerRead]

theorem answerRead_getElem? {a : WireAddr} {n k : Nat} (hw : c.wip = false) (hk : k < n)
    (ha : a.toNat + k < cfg.deviceSize) :
    (answerRead cfg d a n c)[k]? = some (c.array.read (a.toNat + k)) := by
  simp [answerRead, hw, hk, ha]

end

/-- Settles O32: the byte answered is the settled chip's status byte, whose flags the two predicates
of R42 read. -/
theorem statusOneAnswer : Obligations.StatusOneAnswer := by
  intro s hcfg hc hp hd
  obtain ⟨t, ht, hret, hrx, hchip⟩ := clean_frame_fitted (i := .spiRdsr1) hc hp hd rfl
  have hwip := isBusy_statusByte hcfg s.draw (s.chip.settle s.draw)
  have hwel := isWriteEnabled_statusByte hcfg s.draw (s.chip.settle s.draw)
  refine ⟨t, _, ht, hret, hrx, ?_, ?_, statusByte_rest, hchip⟩
  · rw [← hwip, isBusy, bne_iff_ne]
  · rw [← hwel, isWriteEnabled, bne_iff_ne]

/-- Settles O33: a fitted chip answers what it holds and its identity; with none fitted the bytes are
the draw's. -/
theorem identityAndStatusTwoAnswers : Obligations.IdentityAndStatusTwoAnswers := by
  intro s hc hd
  refine ⟨fun hp => ⟨?sr2, ?id⟩, fun hp => ⟨?absentSr2, ?absentId⟩⟩
  case sr2 =>
    obtain ⟨t, ht, hret, hrx, hchip⟩ := clean_frame_fitted (i := .spiRdsr2) hc hp hd rfl
    exact ⟨t, ht, hret, hrx.trans (congrArg (fun v => [v]) (settle_sr2 ..)), hchip⟩
  case id => exact clean_frame_fitted (i := .spiRdid) hc hp hd rfl
  case absentSr2 =>
    obtain ⟨t, ht, -, hrx, -⟩ := clean_frame_next (i := .spiRdsr2) hc hd rfl
    exact ⟨t, _, ht, by rw [hrx, fitted_absent hp]; rfl⟩
  case absentId =>
    obtain ⟨t, ht, -, hrx, -⟩ := clean_frame_next (i := .spiRdid) hc hd rfl
    exact ⟨t, _, _, _, ht, by rw [hrx, fitted_absent hp]; rfl⟩

/-- Settles O39: byte `k` of the answer is the array's at `a + k`; a READ of no byte receives none. -/
theorem readFrameAnswer : Obligations.ReadFrameAnswer := by
  intro s a n hc hp hd
  obtain ⟨t, ht, hret, hif, hchip⟩ := clean_frame_fitted (i := .spiRead a n) hc hp hd rfl
  have hrx : t.rx = answerRead s.cfg s.draw a n (s.chip.settle s.draw) := by
    rw [hif]
    cases n <;> rfl
  refine ⟨t, ht, hret, hrx ▸ answerRead_length a n, hchip, fun hw k hk ha => ?_⟩
  rw [hrx, answerRead_getElem? hw hk ha, settle_array]

end Sys2Proof.Machine

/-! # What the mutating and the reset frames do (R75-R79) -/

namespace Sys2Proof.Machine

/-- Settles O34: the two effects on the disarmed chip, and the two cases of the completion. -/
theorem writeEnableFrames : Obligations.WriteEnableFrames := by
  intro s hc hp hd
  obtain ⟨t, ht, hret, -, hwren⟩ := clean_frame_fitted (i := .spiWren) hc hp hd rfl
  obtain ⟨u, hu, huret, -, hwrdi⟩ := clean_frame_fitted (i := .spiWrdi) hc hp hd rfl
  refine ⟨fun h => ⟨t, ht, hret, ?taken⟩, fun h => ⟨t, ht, hret, ?dropped⟩, ⟨u, hu, huret, hwrdi⟩,
    fun hw hcomp => ?completes, settle_of_no_completion⟩
  case taken => simp [hwren, Chip.wren, h, Chip.disarm]
  case dropped => simp [hwren, Chip.wren, h, Chip.disarm]
  case completes => rw [settle_of_completion hw hcomp]; exact ⟨rfl, rfl⟩

section
variable {s : State} {cfg : Config} {d : Draw} {c : Chip} {a : WireAddr}

/-- A page program whose payload arrived whole. -/
theorem reactPp_framePp (o : Opcodes) {ds : List Byte} (hne : ds ≠ []) (n : Nat) :
    reactPp cfg d a n (framePp o a ds).bytes c = c.disarm.pageProgram cfg d a ds :=
  reactPp_payload (bs := (framePp o a ds).bytes) hne

/-- R76: an accepted page program sets WIP, leaves WEL set, and programs byte `k` at `a + k`. -/
theorem pageProgram_accepted {ds : List Byte} (hwf : Memory.wf c.array = true)
    (ha : a.toNat < cfg.deviceSize) (hn : fitsPage a ds.length = true) (hacc : c.accepts = true) :
    (c.pageProgram cfg d a ds).wip = true ∧ (c.pageProgram cfg d a ds).wel = true ∧
      (c.pageProgram cfg d a ds).sr1rest = c.sr1rest ∧ (c.pageProgram cfg d a ds).sr2 = c.sr2 ∧
      ∀ k v, ds[k]? = some v → (c.pageProgram cfg d a ds).array.read (a.toNat + k) =
        programByte cfg.programRule (c.array.read (a.toNat + k)) v := by
  rw [pageProgram_inside ha hn, if_pos hacc]
  refine ⟨rfl, (accepts_iff.mp hacc).1, rfl, rfl, fun k v hv => ?_⟩
  obtain ⟨hk, rfl⟩ := List.getElem?_eq_some_iff.mp hv
  exact Memory.read_program hwf hk

end

/-- Settles O35: the whole payload is programmed, and completion leaves array and status bits. -/
theorem programFrameEffect : Obligations.ProgramFrameEffect := by
  intro s a ds hc hp hd hwf hacc hn ha
  obtain ⟨t, ht, hret, -, hchip⟩ := clean_frame_fitted (i := .spiPp a ds) hc hp hd rfl
  replace hchip := hchip.trans (reactPp_framePp _ (fitsPage_ne_nil hn) _)
  obtain ⟨hwip, hwel, hr1, hr2, hbytes⟩ := pageProgram_accepted (d := s.draw)
    (c := (s.chip.settle s.draw).disarm) (by simpa using hwf) ha hn (by simpa using hacc)
  rw [← hchip] at hwip hwel hr1 hr2 hbytes
  refine ⟨t, ht, hret, hwip, hwel, by simpa using hr1, by simpa using hr2, by simpa using hbytes,
    fun x hx => ?_⟩
  rw [hchip, read_pageProgram_other ha hn hx, disarm_array, settle_array]

section
variable {cfg : Config} {d : Draw} {c : Chip} {a : WireAddr}

theorem sectorErase_accepted (ha : a.toNat < cfg.deviceSize) (hacc : c.accepts = true) :
    (c.sectorErase cfg d a).wip = true ∧ ∀ x, x / sectorSize = a.toNat / sectorSize →
      (c.sectorErase cfg d a).array.read x = erasedValue := by
  rw [sectorErase_inside ha, if_pos hacc]
  exact ⟨rfl, fun x hx => (Memory.read_eraseRange ..).trans (if_pos (mem_sector_iff.mpr hx))⟩

theorem chipErase_accepted (hacc : c.accepts = true) :
    (c.chipErase cfg).wip = true ∧
      ∀ x, x < cfg.deviceSize → (c.chipErase cfg).array.read x = erasedValue := by
  rw [Chip.chipErase, if_pos hacc]
  exact ⟨rfl, fun x hx => (Memory.read_eraseRange ..).trans (if_pos (by omega))⟩

/-- The bits of `new` inside the mask over `old`: inside the mask they are `new`'s. -/
theorem merge_inside (old new m : Byte) :
    ((old &&& ~~~m) ||| (new &&& m)) &&& m = new &&& m := by
  apply BitVec.eq_of_getLsbD_eq
  intro i hi
  simp only [BitVec.getLsbD_and, BitVec.getLsbD_or, BitVec.getLsbD_not]
  grind

/-- Outside the mask they are `old`'s. -/
theorem merge_outside (old new m : Byte) :
    ((old &&& ~~~m) ||| (new &&& m)) &&& ~~~m = old &&& ~~~m := by
  apply BitVec.eq_of_getLsbD_eq
  intro i hi
  simp only [BitVec.getLsbD_and, BitVec.getLsbD_or, BitVec.getLsbD_not]
  grind

/-- The same where no bit outside `r` can be set at all (R77: the flag positions of SR1). -/
theorem merge_masked (old new m r : Byte) :
    (((old &&& ~~~m) ||| (new &&& m)) &&& r) &&& ~~~r = 0 ∧
    (((old &&& ~~~m) ||| (new &&& m)) &&& r) &&& r &&& m = new &&& r &&& m ∧
    (((old &&& ~~~m) ||| (new &&& m)) &&& r) &&& r &&& ~~~m = old &&& r &&& ~~~m := by
  refine ⟨?_, ?_, ?_⟩ <;>
  · apply BitVec.eq_of_getLsbD_eq
    intro i hi
    simp only [BitVec.getLsbD_and, BitVec.getLsbD_or, BitVec.getLsbD_not]
    grind

theorem writeStatus_accepted {r1 r2 : Byte} (hacc : c.accepts = true) :
    c.writeStatus cfg d r1 r2 =
      { c with
        wip := true
        sr1rest := ((c.sr1rest &&& ~~~d.mask1) ||| (r1 &&& d.mask1)) &&& restMask cfg
        sr2 := (c.sr2 &&& ~~~d.mask2) ||| (r2 &&& d.mask2)
        op := some (0, 0) } := if_pos hacc

end

/-- Settles O36: each accepted command on the disarmed chip; a status write merges its two bytes under
the masks drawn. -/
theorem eraseAndStatusFrameEffects : Obligations.EraseAndStatusFrameEffects := by
  intro s hc hp hd hacc
  have hacc' : (s.chip.settle s.draw).disarm.accepts = true := by rwa [disarm_accepts]
  refine ⟨fun a ha => ?sector, ?chip, fun r1 r2 => ?status⟩
  case sector =>
    obtain ⟨t, ht, hret, -, hchip⟩ := clean_frame_fitted (i := .spiSe a) hc hp hd rfl
    obtain ⟨hwip, hin⟩ := sectorErase_accepted (d := s.draw) ha hacc'
    refine ⟨t, ht, hret, hchip ▸ hwip, hchip ▸ hin, fun x hx => ?_⟩
    rw [hchip]
    exact (read_sectorErase_other (c := (s.chip.settle s.draw).disarm) ha hx).trans (by simp)
  case chip =>
    obtain ⟨t, ht, hret, -, hchip⟩ := clean_frame_fitted (i := .spiCe) hc hp hd rfl
    obtain ⟨hwip, hin⟩ := chipErase_accepted (cfg := s.cfg) hacc'
    exact ⟨t, ht, hret, hchip ▸ hwip, hchip ▸ hin⟩
  case status =>
    obtain ⟨t, ht, hret, -, hchip⟩ := clean_frame_fitted (i := .spiWrsr r1 r2) hc hp hd rfl
    replace hchip := hchip.trans (writeStatus_accepted hacc')
    refine ⟨t, ht, hret, by rw [hchip], by rw [hchip]; rfl, ?_, ?_, ?_, ?_⟩
    · rw [hchip]; exact merge_inside ..
    · rw [hchip]; exact (merge_outside ..).trans (by simp)
    · rintro rest rfl
      rw [hchip]
      obtain ⟨hout, hwritten, hkept⟩ := merge_masked (s.chip.settle s.draw).sr1rest r1 s.draw.mask1
        (restMask s.cfg)
      exact ⟨hout, hwritten, hkept.trans (by rw [settle_sr1rest, restMask])⟩
    · intro x; rw [hchip]; exact congrArg (Memory.read · x) (settle_array ..)

/-- Settles O37: a chip that does not accept keeps all but the enable-reset flag. -/
theorem mutatingFramesIgnored : Obligations.MutatingFramesIgnored := by
  intro s i hc hp hd hw hi
  have hacc : (s.chip.settle s.draw).disarm.accepts = false := not_accepts hw
  obtain ⟨f, hf, heff⟩ : ∃ f, encode s.cfg.ops i = .frame f ∧
      (chipSide s.cfg i).react s.draw f.bytes (s.chip.settle s.draw) =
        (s.chip.settle s.draw).disarm := by
    rcases hi with ⟨r1, r2, rfl⟩ | rfl | ⟨a, rfl, ha⟩ | ⟨a, ds, rfl, hn, ha⟩
    · exact ⟨_, rfl, by simp [Chip.writeStatus, hacc]⟩
    · exact ⟨_, rfl, by simp [Chip.chipErase, hacc]⟩
    · exact ⟨_, rfl, by simp [sectorErase_inside ha, hacc]⟩
    · refine ⟨_, rfl, (reactPp_framePp _ (fitsPage_ne_nil hn) _).trans ?_⟩
      simp [pageProgram_inside ha hn, hacc]
  obtain ⟨t, ht, hret, -, hchip⟩ := clean_frame_fitted hc hp hd hf
  exact ⟨t, ht, hret, hchip.trans heff⟩

/-- R79: the power-on state has neither flag, and of the array only bytes that the operation in
progress was changing can differ. -/
theorem powerOn_effect (cfg : Config) (d : Draw) (c : Chip) :
    (c.powerOn cfg d).wip = false ∧ (c.powerOn cfg d).wel = false ∧
      (c.op = none → ∀ x, (c.powerOn cfg d).array.read x = c.array.read x) ∧
      ∀ a n, c.op = some (a, n) → ∀ x, (x < a ∨ a + n ≤ x) →
        (c.powerOn cfg d).array.read x = c.array.read x := by
  refine ⟨rfl, rfl, fun hop x => ?_, fun a n hop x hx => ?_⟩
  · exact read_powerOn_other (by simp [hop])
  · exact read_powerOn_other (by simpa [hop] using hx)

/-- Settles O38: a reset is the power-on state, which keeps the array but for the bytes that the
operation in progress was changing. -/
theorem resetFrameEffects : Obligations.ResetFrameEffects := by
  intro s hc hp hd
  obtain ⟨t, ht, hret, -, hpair⟩ := clean_frame_fitted (i := .spiRstenRst) hc hp hd rfl
  obtain ⟨u, hu, huret, -, hrsten⟩ := clean_frame_fitted (i := .spiRsten) hc hp hd rfl
  obtain ⟨v, hv, hvret, -, hrst⟩ := clean_frame_fitted (i := .spiRst) hc hp hd rfl
  have hpower := powerOn_effect s.cfg s.draw (s.chip.settle s.draw)
  rw [settle_array] at hpower
  refine ⟨fun h => ⟨t, ht, hret, ?pair⟩, ⟨u, hu, huret, hrsten⟩, fun h => ⟨v, hv, hvret, ?armed⟩,
    fun h => ⟨v, hv, hvret, ?unarmed⟩⟩
  case pair => rw [hpair]; simpa [h] using hpower
  case armed => rw [hrst]; simpa [h] using hpower
  case unarmed => simpa [h] using hrst

end Sys2Proof.Machine

/-! # What a frame leaves alone, and what a failed one leaves (R80, R63) -/

namespace Sys2Proof.Machine

section
variable {s : State} {cfg : Config} {d : Draw} {c : Chip} {a : WireAddr} {i : Instr}
  {f : FrameCall}

theorem read_of_below {m : Memory} {n b : Nat} (h : Memory.below m n = true) (hb : n ≤ b) :
    Memory.read m b = Memory.unlisted := by
  induction m with
  | nil => rfl
  | cons e m ih =>
    obtain ⟨he, hm⟩ := List.forall_mem_cons.mp (Memory.below_iff.mp h)
    rw [Memory.read, if_neg (by omega)]
    exact ih (Memory.below_iff.mpr hm)

/-- Of a page program's frame the chip has, after opcode and address, an initial part of the payload. -/
theorem received_framePp_drop (o : Opcodes) (a : WireAddr) (ds : List Byte) (d : Draw) :
    ∃ k, (received (framePp o a ds) d).drop 4 = ds.take k := by
  cases hh : d.hdrOk with
  | false =>
    refine ⟨0, ?_⟩
    rw [received_of_failed_header hh, List.take_zero, List.drop_eq_nil_iff]
    exact List.length_take_le' ..
  | true =>
    cases hp : d.payOk with
    | true => exact ⟨ds.length, by rw [received_of_clean ⟨hh, hp⟩, List.take_length]; rfl⟩
    | false => exact ⟨d.cut, by rw [received_of_failed_payload hh hp]; rfl⟩

end

/-- Settles O44: a frame is `segments`; the array bytes follow the chip side's reaction to whatever
arrived, and what is past the device is never listed. -/
theorem frameOfSpiFrames : Obligations.FrameOfSpiFrames := by
  intro i s t hr h
  obtain ⟨f, x, -, hx, hexec⟩ := exec_frame i s hr
  obtain ⟨-, ht⟩ := busFrame_eq_next (hexec ▸ h)
  refine ⟨by rw [ht]; rfl, fun hi b => frame_keeps_byte hr h fun _ _ c => ?noArray,
    fun a ds hi ha hn b hb => frame_keeps_byte hr h fun g hg c => ?program,
    fun a hi ha b hb => frame_keeps_byte hr h fun _ _ c => ?erase,
    fun b hb _ hok => ?pastDevice⟩
  case noArray =>
    rcases hi with rfl | rfl | rfl | rfl | rfl | rfl | ⟨r1, r2, rfl⟩ | ⟨a, n, rfl⟩
    · exact congrArg (Memory.read · b) (reactRsten_array ..)
    · exact congrArg (Memory.read · b) (reactRead_array ..)
    · exact congrArg (Memory.read · b) (reactRead_array ..)
    · exact congrArg (Memory.read · b) (reactRead_array ..)
    · exact reactWhole_keeps_byte (fun _ => by rw [wren_array]) (fun _ => rfl) ..
    · exact reactWhole_keeps_byte (f := Chip.wrdi) (cut := id) (fun _ => rfl) (fun _ => rfl) ..
    · exact reactWhole_keeps_byte (fun _ => by rw [writeStatus_array])
        (fun _ => by rw [cutStatus_array]) ..
    · exact congrArg (Memory.read · b) (reactRead_array ..)
  case program =>
    subst hi; cases hg
    obtain ⟨k, hk⟩ := received_framePp_drop s.cfg.ops a ds s.draw
    exact reactPp_keeps_byte hk ha hn hb
  case erase =>
    subst hi
    exact reactWhole_keeps_byte (fun _ => read_sectorErase_other ha hb)
      (fun _ => read_cutErase_other _ ha hb) ..
  case pastDevice =>
    have hok' : t.chip.Ok s.cfg := ht ▸ runSegments_chipOk hx.fitted (hok.settle _)
    rw [read_of_below hok'.arrayBelow hb, read_of_below hok.arrayBelow hb]

section
variable {s : State} {cfg : Config} {d : Draw} {c : Chip} {a : WireAddr} {i : Instr}
  {f : FrameCall}

/-! ## Failed frames -/

/-- R80: with no byte received nothing happens. -/
theorem react_nil (he : encode cfg.ops i = .frame f) : (chipSide cfg i).react d [] c = c := by
  cases i <;> cases he <;> rfl

/-- A reaction looks at what arrived, not at whether the segments succeeded. -/
theorem react_ignores_outcome (cfg : Config) (i : Instr) (d : Draw) (h p : Bool) (bs : List Byte)
    (c : Chip) :
    (chipSide cfg i).react { d with hdrOk := h, payOk := p } bs c = (chipSide cfg i).react d bs c := by
  cases i <;> rfl

/-- A failed segment all of whose bytes arrived, or a failed receive (R80, R143). -/
def AllArrived (f : FrameCall) (d : Draw) : Prop :=
  (d.hdrOk = false ∧ f.tx = [] ∧ f.hdr.length ≤ d.cut) ∨
    (d.hdrOk = true ∧ d.payOk = false ∧ f.tx = [] ∧ f.rxn ≠ 0) ∨
    (d.hdrOk = true ∧ d.payOk = false ∧ f.tx ≠ [] ∧ f.tx.length ≤ d.cut)

theorem received_of_allArrived (h : AllArrived f d) :
    received f d = f.bytes ∧ succeeds f d = false := by
  rcases h with ⟨hh, htx, hk⟩ | ⟨hh, hp, htx, hrx⟩ | ⟨hh, hp, htx, hk⟩
  · rw [received_of_failed_header hh, List.take_of_length_le hk]
    exact ⟨by simp [FrameCall.bytes, htx], fails_of_header hh⟩
  · rw [received_of_failed_payload hh hp]
    exact ⟨by simp [FrameCall.bytes, htx], fails_of_payload hp (.inr hrx)⟩
  · rw [received_of_failed_payload hh hp, List.take_of_length_le hk]
    exact ⟨rfl, fails_of_payload hp (.inl htx)⟩

/-- What the draw of a command cut short says of the chip `e` that it leaves of `c` (log 11): it was
ignored, or any status is left. -/
def CutShort (d : Draw) (c e : Chip) : Prop :=
  (d.ignoresCut = true → e = c) ∧
    (d.ignoresCut = false → e.wip = d.wip ∧ e.wel = d.wel ∧ e.sr2 = d.sr2)

theorem cutShort_ignored (h : d.ignoresCut = true) : CutShort d c c := by simp [CutShort, h]

theorem cutShort_anyWithin (h : ¬ d.ignoresCut = true) (cfg : Config) (a n : Nat) (c : Chip) :
    CutShort d c (c.anyWithin cfg d a n) := by simp [CutShort, h, Chip.anyWithin]

theorem cutStatus_cutShort (cfg : Config) (d : Draw) (c : Chip) :
    CutShort d c (c.cutStatus cfg d) := by
  unfold Chip.cutStatus
  split
  next h => exact cutShort_ignored h
  next h => exact cutShort_anyWithin h ..

theorem cutErase_cutShort (cfg : Config) (d : Draw) (a : WireAddr) (c : Chip) :
    CutShort d c (c.cutErase cfg d a) := by
  unfold Chip.cutErase
  split
  next h => exact cutShort_ignored h
  next h => split <;> exact cutShort_anyWithin h ..

theorem cutProgram_cutShort (cfg : Config) (d : Draw) (a : WireAddr) (n : Nat) (c : Chip) :
    CutShort d c (c.cutProgram cfg d a n) := by
  unfold Chip.cutProgram
  split
  next h => exact cutShort_ignored h
  next h => split <;> exact cutShort_anyWithin h ..

/-- A command of `n` bytes of whose header some bytes arrived but not all. -/
theorem reactWhole_cut {n k : Nat} {g cut : Chip → Chip} {bs : List Byte} (hk : 0 < k) (hkn : k < n)
    (hlen : bs.length = n) : reactWhole n g cut (bs.take k) c = cut c.disarm := by
  have hl : (bs.take k).length = k := by rw [List.length_take]; omega
  have hne : bs.take k ≠ [] := List.length_pos_iff.mp (by rwa [hl])
  rw [reactWhole, if_neg hne, if_neg (by omega)]

theorem reactRead_of_ne {bs : List Byte} (h : bs ≠ []) : reactRead bs c = c.disarm := if_neg h

theorem reactPp_cut_header (o : Opcodes) {k : Nat} (n : Nat) (ds : List Byte) (hk : 0 < k) :
    reactPp cfg d a n ((framePp o a ds).hdr.take k) c = c.disarm.cutProgram cfg d a n := by
  apply reactPp_no_payload
  · simp [framePp, hk.ne']
  · rw [List.drop_eq_nil_iff]; exact List.length_take_le' ..

theorem reactPp_cut_payload (o : Opcodes) {k : Nat} (n : Nat) {ds : List Byte}
    (hk : ds.take k ≠ []) :
    reactPp cfg d a n ((framePp o a ds).hdr ++ ds.take k) c =
      c.disarm.pageProgram cfg d a (ds.take k) :=
  reactPp_payload (bs := (framePp o a ds).hdr ++ ds.take k) hk

/-- R80, U20: a sector erase of which the opcode arrived and not the whole address, or a page program
of which the opcode arrived and no payload byte, is cut short. -/
theorem erase_or_program_cutShort {o : Opcodes} (he : encode o i = .frame f)
    (h : ((∃ a, i = .spiSe a) ∧ d.hdrOk = false ∧ 0 < d.cut ∧ d.cut < 4 ∨
      (∃ a ds, i = .spiPp a ds) ∧ d.hdrOk = false ∧ 0 < d.cut ∨
      (∃ a ds, i = .spiPp a ds ∧ ds ≠ []) ∧ d.hdrOk = true ∧ d.payOk = false ∧ d.cut = 0)) :
    succeeds f d = false ∧ CutShort d c.disarm ((chipSide cfg i).react d (received f d) c) := by
  rcases h with ⟨⟨a, rfl⟩, hh, h0, h4⟩ | ⟨⟨a, ds, rfl⟩, hh, h0⟩ | ⟨⟨a, ds, rfl, hds⟩, hh, hp, h0⟩
  · cases he
    rw [received_of_failed_header hh]
    have heff : (chipSide cfg (.spiSe a)).react d ((frameSe o a).hdr.take d.cut) c =
        c.disarm.cutErase cfg d a := reactWhole_cut h0 h4 rfl
    exact ⟨fails_of_header hh, heff ▸ cutErase_cutShort ..⟩
  · cases he
    rw [received_of_failed_header hh]
    have heff : (chipSide cfg (.spiPp a ds)).react d ((framePp o a ds).hdr.take d.cut) c =
        c.disarm.cutProgram cfg d a ds.length := reactPp_cut_header o ds.length ds h0
    exact ⟨fails_of_header hh, heff ▸ cutProgram_cutShort ..⟩
  · cases he
    rw [received_of_failed_payload hh hp, h0, List.take_zero, List.append_nil]
    have heff : reactPp cfg d a ds.length (framePp o a ds).hdr c =
        c.disarm.cutProgram cfg d a ds.length := reactPp_no_payload (by simp [framePp]) rfl
    exact ⟨fails_of_payload hp (.inl hds), by simpa [heff] using cutProgram_cutShort ..⟩

end

/-- Settles O40: the chip reacts to the bytes that arrived; which array bytes that can reach is O44. -/
theorem failedFramesApplyPrefix : Obligations.FailedFramesApplyPrefix := by
  intro s i f hc hp hr he
  obtain ⟨t, ht, hret, hchip⟩ := frame_next hc hp he
  obtain ⟨-, hnone, hprog, herase, -⟩ := frameOfSpiFrames i s t hr ht
  refine ⟨fun hh h0 => ?none, fun u hu hall => ?all, fun hi hh h1 => ?pair,
    fun hi hh h0 => ?read, fun hi hh h0 h3 => ?status, fun hcut => ?cut,
    fun a ds hi hwf hh hpay h0 hacc hn ha => ?payload⟩
  case none =>
    refine ⟨t, ht, by rw [hret, fails_of_header hh], ?_⟩
    rw [hchip, received_of_failed_header hh, h0]
    exact react_nil he
  case all =>
    obtain ⟨harrived, hfail⟩ := received_of_allArrived hall
    have hclean : cleanDraw u.draw := by rw [hu]; exact ⟨rfl, rfl⟩
    obtain ⟨v, hv, hvret, -, hvchip⟩ := clean_frame_fitted (s := u) (by rw [hu]; exact hc)
      (by rw [hu]; exact hp) hclean (by rw [hu]; exact he)
    refine ⟨t, v, ht, by rw [hret, hfail], hv, hvret, ?_⟩
    rw [hchip, hvchip, harrived, hu]
    exact (react_ignores_outcome ..).symm
  case pair =>
    subst hi; cases he
    refine ⟨t, ht, by rw [hret, fails_of_header hh], ?_⟩
    rw [hchip, received_of_failed_header hh, h1]
    rfl
  case read =>
    obtain ⟨a, n, rfl⟩ := hi; cases he
    refine ⟨t, ht, by rw [hret, fails_of_header hh], ?_⟩
    rw [hchip, received_of_failed_header hh]
    exact reactRead_of_ne (by simp [frameRead, h0.ne'])
  case status =>
    have harray := hnone (by simp only [hi, true_or, or_true])
    obtain ⟨r1, r2, rfl⟩ := hi; cases he
    rw [received_of_failed_header hh] at hchip
    replace hchip := hchip.trans (reactWhole_cut h0 h3 rfl)
    obtain ⟨hign, hany⟩ := cutStatus_cutShort s.cfg s.draw (s.chip.settle s.draw).disarm
    exact ⟨t, ht, by rw [hret, fails_of_header hh], fun h => hchip.trans (hign h),
      hchip ▸ hany, harray⟩
  case cut =>
    obtain ⟨hfail, hign, hany⟩ := erase_or_program_cutShort (cfg := s.cfg)
      (c := s.chip.settle s.draw) he hcut
    exact ⟨t, ht, by rw [hret, hfail], fun h => hchip.trans (hign h), hchip ▸ hany, herase, hprog⟩
  case payload =>
    subst hi; cases he
    have hne : ds.take s.draw.cut ≠ [] := by simp [fitsPage_ne_nil hn, h0.ne']
    have hn' := fitsPage_take _ hn hne
    rw [received_of_failed_payload hh hpay] at hchip
    replace hchip := hchip.trans (reactPp_cut_payload _ _ hne)
    obtain ⟨hwip, hwel, -, -, hbytes⟩ := pageProgram_accepted (d := s.draw)
      (c := (s.chip.settle s.draw).disarm) (by simpa using hwf) ha hn' (by simpa using hacc)
    rw [← hchip] at hwip hwel hbytes
    refine ⟨t, ht, ?_, hwip, hwel, fun k v hk hv => ?_, fun x hx => ?_⟩
    · rw [hret, fails_of_payload hpay (.inl (fitsPage_ne_nil hn))]
    · simpa using hbytes k v (by rwa [List.getElem?_take_of_lt hk])
    · rw [hchip, read_pageProgram_other ha hn' (by rw [List.length_take]; omega), disarm_array,
        settle_array]

end Sys2Proof.Machine

/-! # The encoding, read backwards (R101-R105, R112, R113)

What a request word and a frame that decode were encoded from. -/

namespace Sys2Proof

section
variable {o : Opcodes} {r r' : Request} {i j : Instr} {op : Byte} {args bytes : List Byte}
  {m n : Nat}

/-! ## Request words -/

theorem requestTable_encode (o : Opcodes) (a : Operands) : ∀ row ∈ requestTable,
    (row.2 a).wf = true ∧ encode o (row.2 a) = .request (Request.of row.1 a).word := by
  simp [requestTable, Instr.wf, encode]

/-- R105: a code in no row of the table is reserved. -/
theorem reservedCode_of_find {c : Byte}
    (h : requestTable.find? (fun row => row.1 == c) = none) : reservedCode c = true := by
  have hall : ∀ c : Byte, (requestTable.find? (fun row => row.1 == c)).isNone = true →
      reservedCode c = true := by decide
  exact hall c (Option.isNone_iff_eq_none.mpr h)

/-- A request decodes to a well-formed instruction, whose encoding is its word. -/
theorem decodeRequest_encodes (o : Opcodes) (r : Request) :
    (decodeRequest r).wf = true ∧ encode o (decodeRequest r) = .request r.word := by
  unfold decodeRequest
  split
  next row hrow =>
    have hcode : row.1 = r.cmd := by simpa using List.find?_some hrow
    have henc := requestTable_encode o r.operands row (List.mem_of_find?_eq_some hrow)
    rwa [hcode, Request.of_operands] at henc
  next hnone => exact ⟨reservedCode_of_find hnone, rfl⟩

/-- Only one request decodes to an instruction: the one it is encoded as. -/
theorem eq_of_decodeRequest (hd : decodeRequest r = i) (he : encode o i = .request r'.word) :
    r = r' := by
  subst hd
  have hword := (decodeRequest_encodes o r).2.symm.trans he
  rw [← Request.ofWord_word r, Code.request.inj hword, Request.ofWord_word]

/-! ## Frames -/

/-- The frame that `i` is encoded as sends these bytes and receives `n`. -/
def EncodesTo (o : Opcodes) (i : Instr) (bytes : List Byte) (n : Nat) : Prop :=
  ∃ g, encode o i = .frame g ∧ g.bytes = bytes ∧ g.rxn = n

theorem opOnly_encodes (he : encode o i = .frame (frameOp op)) (h : opOnly i args n = .ok j) :
    EncodesTo o j (op :: args) n := by
  unfold opOnly at h
  split at h <;> cases h
  exact ⟨_, he, rfl, rfl⟩

theorem opReceive_encodes (he : encode o i = .frame (frameReceive op m))
    (h : opReceive i m args n = .ok j) : EncodesTo o j (op :: args) n := by
  unfold opReceive at h
  split at h
  · split at h <;> cases h
    next hn => exact ⟨_, he, rfl, hn.symm⟩
  · cases h

theorem opReset_encodes (h : opReset o args n = .ok i) : EncodesTo o i (o.rsten :: args) n := by
  unfold opReset at h
  split at h
  · cases h
  next hn =>
    have hn : 0 = n := (not_not.mp hn).symm
    split at h
    · cases h; exact ⟨_, rfl, rfl, hn⟩
    · split at h <;> cases h
      next hb => exact ⟨_, rfl, by rw [hb]; rfl, hn⟩
    · cases h

theorem opStatus_encodes (h : opStatus args n = .ok i) : EncodesTo o i (o.wrsr :: args) n := by
  unfold opStatus at h
  split at h
  · cases h
  next hn => split at h <;> cases h; exact ⟨_, rfl, rfl, (not_not.mp hn).symm⟩

theorem opAddress_encodes {k : WireAddr → Except DecodeError Instr}
    (hk : ∀ a, k a = .ok i → EncodesTo o i (op :: addrBytes a) n) (h : opAddress args k = .ok i) :
    EncodesTo o i (op :: args) n := by
  unfold opAddress at h
  split at h
  · rw [← addrBytes_addrOfBytes]; exact hk _ h
  · cases h

theorem opProgram_encodes (h : opProgram args n = .ok i) : EncodesTo o i (o.pp :: args) n := by
  unfold opProgram at h
  split at h
  · cases h
  next hn =>
    split at h
    next x y z d ds =>
      split at h <;> cases h
      refine ⟨_, rfl, ?_, (not_not.mp hn).symm⟩
      simp [framePp, FrameCall.bytes, addrBytes_addrOfBytes]
    · cases h

/-- One test of the first byte against an opcode `b`. -/
theorem encodesTo_of_ite {b : Byte} {x y : Except DecodeError Instr}
    (hx : x = .ok i → EncodesTo o i (b :: args) n)
    (hy : y = .ok i → EncodesTo o i (op :: args) n) (h : (if op = b then x else y) = .ok i) :
    EncodesTo o i (op :: args) n := by
  split at h
  next hop => exact hop ▸ hx h
  next => exact hy h

theorem readFrame_encodes
    (h : opAddress args (fun a => .ok (.spiRead a n)) = .ok i) :
    EncodesTo o i (o.read :: args) n :=
  opAddress_encodes (fun a hk => by cases hk; exact ⟨_, rfl, rfl, rfl⟩) h

theorem seFrame_encodes
    (h : opAddress args (fun a => if n = 0 then .ok (.spiSe a) else .error .badLength) = .ok i) :
    EncodesTo o i (o.se :: args) n := by
  refine opAddress_encodes (fun a hk => ?_) h
  split at hk <;> cases hk
  next hn => exact ⟨_, rfl, rfl, hn.symm⟩

/-- R113: what an observer reads from a frame is encoded as the bytes sent and received. -/
theorem decodeBytes_encodes (h : decodeBytes o bytes n = .ok i) : EncodesTo o i bytes n := by
  cases bytes with
  | nil => cases h
  | cons op args =>
    revert h
    unfold decodeBytes
    exact encodesTo_of_ite opReset_encodes
      (encodesTo_of_ite (opOnly_encodes rfl)
      (encodesTo_of_ite (opReceive_encodes rfl)
      (encodesTo_of_ite (opReceive_encodes rfl)
      (encodesTo_of_ite (opReceive_encodes rfl)
      (encodesTo_of_ite opStatus_encodes
      (encodesTo_of_ite (opOnly_encodes rfl)
      (encodesTo_of_ite (opOnly_encodes rfl)
      (encodesTo_of_ite readFrame_encodes
      (encodesTo_of_ite opProgram_encodes
      (encodesTo_of_ite seFrame_encodes
      (encodesTo_of_ite (opOnly_encodes rfl) fun h => by cases h)))))))))))

end

/-- Settles O5: the family of `DecodeEncode`, one lemma for each constructor. -/
theorem decodeInvertsEncode : Obligations.DecodeInvertsEncode := by
  intro o i ho hw
  revert o ho hw
  change Laws.DecodeEncode.Statement i
  cases i with
  | reset a => exact Laws.DecodeEncode.reset a
  | rdid a => exact Laws.DecodeEncode.rdid a
  | rdsr1 a => exact Laws.DecodeEncode.rdsr1 a
  | rdsr2 a => exact Laws.DecodeEncode.rdsr2 a
  | wrsr a => exact Laws.DecodeEncode.wrsr a
  | wren a => exact Laws.DecodeEncode.wren a
  | wrdi a => exact Laws.DecodeEncode.wrdi a
  | read a => exact Laws.DecodeEncode.read a
  | pp a => exact Laws.DecodeEncode.pp a
  | se a => exact Laws.DecodeEncode.se a
  | ce a => exact Laws.DecodeEncode.ce a
  | waitwip a => exact Laws.DecodeEncode.waitwip a
  | wrenw a => exact Laws.DecodeEncode.wrenw a
  | init a => exact Laws.DecodeEncode.init a
  | write a => exact Laws.DecodeEncode.write a
  | erase a => exact Laws.DecodeEncode.erase a
  | masserase a => exact Laws.DecodeEncode.masserase a
  | reserved c a => exact Laws.DecodeEncode.reserved c a
  | spiRstenRst => exact Laws.DecodeEncode.spiRstenRst
  | spiRsten => exact Laws.DecodeEncode.spiRsten
  | spiRst => exact Laws.DecodeEncode.spiRst
  | spiRdid => exact Laws.DecodeEncode.spiRdid
  | spiRdsr1 => exact Laws.DecodeEncode.spiRdsr1
  | spiRdsr2 => exact Laws.DecodeEncode.spiRdsr2
  | spiWrsr r1 r2 => exact Laws.DecodeEncode.spiWrsr r1 r2
  | spiWren => exact Laws.DecodeEncode.spiWren
  | spiWrdi => exact Laws.DecodeEncode.spiWrdi
  | spiRead a n => exact Laws.DecodeEncode.spiRead a n
  | spiPp a ds => exact Laws.DecodeEncode.spiPp a ds
  | spiSe a => exact Laws.DecodeEncode.spiSe a
  | spiCe => exact Laws.DecodeEncode.spiCe

/-- Settles O6: a word is that of the request it decodes as, and a frame that decodes has the bytes of
its format. -/
theorem encodeInvertsDecode : Obligations.EncodeInvertsDecode := by
  refine ⟨fun o w i h => ?word, fun o f i h => ?frame⟩
  case word =>
    cases h
    obtain ⟨hwf, henc⟩ := decodeRequest_encodes o (Request.ofWord w)
    rw [Request.word_ofWord] at henc
    exact ⟨Machine.decodeRequest_isRequest _, hwf, henc⟩
  case frame => exact ⟨Machine.decodeFrame_isRequest h, decodeBytes_encodes h⟩

/-- Settles O4: the words are the numerals of the model's own tests. -/
theorem specWordsDecode : Obligations.SpecWordsDecode :=
  ⟨by decide, by decide, by decide, by decide, by decide, by decide, by decide, by decide, by decide⟩

/-- Settles O7: a field is a stretch of the word's bits, so a quotient and a remainder of its
number. -/
theorem requestWordFields : Obligations.RequestWordFields := by
  intro w
  refine ⟨?cmd, ?a0, ?a1, ?boff, Request.word_ofWord w⟩ <;>
    simp only [Request.ofWord, BitVec.extractLsb'_toNat, Nat.shiftRight_eq_div_pow]
  case cmd => have := w.isLt; omega
  case boff => simp

end Sys2Proof

namespace Sys2Proof.Machine

/-- Settles O27: each call is a frame of R112 by definition; RESET's by its framing. -/
theorem frameFormats : Obligations.FrameFormats := by
  intro s
  refine ⟨rfl, rfl, rfl, fun h => ?single, fun h => ?split, rfl, rfl, rfl, rfl, rfl, rfl, rfl, rfl⟩
  case single => rw [State.callReset, h]; rfl
  case split => rw [State.callReset, h]; rfl

end Sys2Proof.Machine

/-! # The frames that can stand on the bus (R116, R117, R121) -/

namespace Sys2Proof.Machine

section
variable {i : Instr} {s t : State} {f g : FrameCall} {o : Operands}

/-! ## The frame on the bus at each position of a command operation

A position with a Frame call under way names its frame; one without has none on the bus. -/

theorem oneFrameAt_frame (hb : s.bus = some f) (h : oneFrameAt g s) : f = g := by
  unfold oneFrameAt at h
  split at h
  · exact (not_quiet hb h).elim
  · exact called_eq hb h
  all_goals cases h

theorem resetAt_frame (hb : s.bus = some f) (h : resetAt s) :
    f = s.callReset ∨ (s.cfg.resetFraming = .split ∧ f = s.callRst) := by
  unfold resetAt at h
  split at h
  · exact (not_quiet hb h).elim
  · exact h.imp (fun ⟨_, h⟩ => called_eq hb h) fun ⟨hsplit, _, h⟩ => ⟨hsplit, called_eq hb h⟩
  all_goals cases h

theorem waitwipAt_frame (hb : s.bus = some f) (h : waitwipAt s) : f = s.callRdsr1 := by
  unfold waitwipAt at h
  split at h
  · exact (not_quiet hb h).elim
  · exact called_eq hb h
  all_goals cases h

theorem wrenwAt_frame (hb : s.bus = some f) (h : wrenwAt s) :
    f = s.callWren ∨ f = s.callRdsr1 := by
  unfold wrenwAt at h
  split at h
  · exact (not_quiet hb h).elim
  · exact .inl (called_eq hb h)
  · exact .inr (called_eq hb h)
  all_goals cases h

theorem wrsrAt_frame (hb : s.bus = some f) (h : wrsrAt s) :
    f = s.callWren ∨ f = s.callRdsr1 ∨ f = s.callWrsr := by
  unfold wrsrAt at h
  split at h
  · exact (not_quiet hb h).elim
  · exact .inl (called_eq hb h)
  · exact .inr (.inl (called_eq hb h))
  · exact .inr (.inr (called_eq hb (inMut_inFrame h)))
  all_goals cases h

theorem readAt_frame (hb : s.bus = some f) (h : readAt s) :
    f = s.callRdsr1 ∨ f = s.callRead := by
  unfold readAt at h
  split at h
  · exact (not_quiet hb h).elim
  · exact .inl (called_eq hb h)
  · rcases h with ⟨h, -⟩ | h | ⟨h, -⟩
    · exact .inr (called_eq hb (.inl h))
    · exact .inr (called_eq hb (.inr h))
    · exact (not_quiet hb h).elim
  all_goals cases h

theorem ppAt_frame (hb : s.bus = some f) (h : ppAt s) :
    f = s.callWren ∨ f = s.callRdsr1 ∨ (f = s.callPp ∧ s.data.length = s.len.toNat) := by
  unfold ppAt at h
  split at h
  · exact (not_quiet hb h).elim
  · exact .inr (.inl (called_eq hb h.2))
  · exact .inl (called_eq hb h.2)
  · rcases h.2 with h | ⟨h, -⟩
    · exact .inr (.inl (called_eq hb h))
    · exact (not_quiet hb h).elim
  · obtain ⟨-, hlen, h⟩ := h
    exact .inr (.inr ⟨called_eq hb (inMut_inFrame h), hlen⟩)
  all_goals cases h

theorem eraseAt_frame {past : Prop} (hb : s.bus = some f) (h : eraseAt g past s) :
    f = s.callWren ∨ f = s.callRdsr1 ∨ (f = g ∧ past) := by
  unfold eraseAt at h
  split at h
  · exact (not_quiet hb h).elim
  · exact .inr (.inl (called_eq hb h.2))
  · exact .inl (called_eq hb h.2)
  · exact .inr (.inl (called_eq hb h.2))
  · exact .inr (.inr ⟨called_eq hb (inMut_inFrame h.2), h.1⟩)
  · exact .inr (.inl (called_eq hb h.2))
  · cases h

theorem ceAt_frame (hb : s.bus = some f) (h : ceAt s) :
    f = s.callWren ∨ f = s.callRdsr1 ∨ f = s.callCe :=
  (eraseAt_frame hb h).imp_right (Or.imp_right And.left)

/-! ## The request in progress -/

theorem directAt_of_bus {loaded : Prop} {inside : State → Prop} (hb : s.bus = some f)
    (h : directAt loaded inside s) : loaded ∧ inside s := by
  obtain ⟨-, hl, ⟨-, hq⟩ | hin⟩ := h
  · exact (not_quiet hb hq).elim
  · exact ⟨hl, hin⟩

/-- While a WRITE has a frame on the bus it is inside a chunk's page program. -/
theorem busyAt_write_of_bus (hb : s.bus = some f) (h : busyAt (.write o) s) :
    s.n = chunkCount s.req.a1 ∧ ppAt s ∧ s.chunkLoaded := by
  obtain ⟨hn, ⟨-, ⟨-, hq⟩, -⟩ | ⟨-, ⟨-, hq, -⟩ | ⟨-, hin, hl⟩⟩⟩ := h
  · exact (not_quiet hb hq).elim
  · exact (not_quiet hb hq).elim
  · exact ⟨hn, hin, hl⟩

/-- While an ERASE has a frame on the bus it is inside a sector's erase. -/
theorem busyAt_erase_of_bus (hb : s.bus = some f) (h : busyAt (.erase o) s) :
    s.eraseLoaded ∧ seAt s ∧ s.sectorLoaded := by
  obtain ⟨hl, ⟨-, ⟨-, hq⟩, -⟩ | ⟨-, ⟨-, hq, -⟩ | ⟨-, hin, hs⟩⟩⟩ := h
  · exact (not_quiet hb hq).elim
  · exact (not_quiet hb hq).elim
  · exact ⟨hl, hin, hs⟩

end

/-- Settles O48: the state after the step is one of the invariant, whose position names the frame on
the bus, and whose operand registers hold what the request in progress loads. -/
theorem framesOfEachCommand : Obligations.FramesOfEachCommand := by
  intro s t f ho hi hstep hb
  obtain ⟨hi, -⟩ := invariantKeptByEveryStep s t ho hi hstep
  obtain ⟨-, hat⟩ := busy_of_controlOk (busy_of_bus hi hb) hi.control
  generalize hd : decodeRequest t.req = i at hat
  have hreq {r : Request} (he : encode t.cfg.ops i = .request r.word) : t.req = r :=
    eq_of_decodeRequest hd he
  cases i with
  | reset _ => exact resetAt_frame hb (directAt_of_bus hb hat).2
  | rdid _ | rdsr1 _ | rdsr2 _ | wren _ | wrdi _ =>
    exact oneFrameAt_frame hb (directAt_of_bus hb hat).2
  | waitwip _ => exact waitwipAt_frame hb (directAt_of_bus hb hat).2
  | wrenw _ => exact wrenwAt_frame hb (directAt_of_bus hb hat).2
  | wrsr o =>
    obtain ⟨⟨h1, h2⟩, hin⟩ := directAt_of_bus hb hat
    have hr := hreq (r := Request.of 0x05 o) rfl
    refine (wrsrAt_frame hb hin).imp_right (Or.imp_right fun hf => ?_)
    rw [hf, State.callWrsr, h1, h2, hr]; rfl
  | read o =>
    obtain ⟨⟨ha, hl, -⟩, hin⟩ := directAt_of_bus hb hat
    have hr := hreq (r := Request.of 0x08 o) rfl
    refine (readAt_frame hb hin).imp_right fun hf => ?_
    rw [hf, State.callRead, ha, hl, hr]; rfl
  | pp o =>
    obtain ⟨⟨ha, hl, -⟩, hin⟩ := directAt_of_bus hb hat
    have hr := hreq (r := Request.of 0x09 o) rfl
    refine (ppAt_frame hb hin).imp_right (Or.imp_right fun ⟨hf, hlen⟩ => ⟨t.data, ?_, ?_⟩)
    · rw [hf, State.callPp, ha, hr]; rfl
    · rw [hlen, hl, hr]; rfl
  | se o =>
    obtain ⟨hl, hin⟩ := directAt_of_bus hb hat
    have hr := hreq (r := Request.of 0x0A o) rfl
    refine (eraseAt_frame hb hin).imp_right (Or.imp_right fun ⟨hf, ha⟩ => ?_)
    rw [hf, State.callSe, ha, hl, hr]; rfl
  | ce _ => exact ceAt_frame hb (directAt_of_bus hb hat).2
  | init _ =>
    rcases hat with ⟨-, hin⟩ | ⟨-, hin⟩ | ⟨-, -, hq⟩
    · exact (resetAt_frame hb hin).imp_right .inl
    · exact .inr (.inr (oneFrameAt_frame hb hin))
    · exact (not_quiet hb hq).elim
  | write o =>
    obtain ⟨hn, hin, hlt, ha, -, hl⟩ := busyAt_write_of_bus hb hat
    have hr := hreq (r := Request.of 0x11 o) rfl
    rw [hn] at hlt hl
    rw [hr] at hlt ha hl
    refine (ppAt_frame hb hin).imp_right
      (Or.imp_right fun ⟨hf, hlen⟩ => ⟨t.data, ?_, hl ▸ hlen, hlt⟩)
    rw [hf, State.callPp, ha]; rfl
  | erase o =>
    obtain ⟨⟨hbase, heidx, hn⟩, hin, hlt, hsidx⟩ := busyAt_erase_of_bus hb hat
    have hr := hreq (r := Request.of 0x12 o) rfl
    rw [hn, heidx, hbase, hr] at hlt
    refine (eraseAt_frame hb hin).imp_right (Or.imp_right fun ⟨hf, ha⟩ => ⟨?_, hlt⟩)
    rw [hf, State.callSe, ha, hsidx, hbase, hr]; rfl
  | masserase _ =>
    rcases hat with ⟨-, -, hq⟩ | ⟨-, hin⟩
    · exact (not_quiet hb hq).elim
    · exact ceAt_frame hb hin
  | _ => exact hat.elim

end Sys2Proof.Machine

/-! # Acceptance and the response (R100-R105) -/

namespace Sys2Proof.Machine

section
variable {i : Instr} {d : Direct} {r : Request} {s t : State} {o : Operands}

/-! ## The two ends of a direct request -/

theorem exec_direct_ready (h : directOf i = some d) (hr : s.reqReady = true)
    (ht : d.load (accept d.req s) = t) : exec i s = .next t := by
  rw [exec_direct h, directRequest_ready hr, ht]

theorem exec_direct_finish (h : directOf i = some d) (hrow : s.inRow .none .finish)
    (ht : respondOk (d.rsp s) = t) : exec i s = .next t := by
  obtain ⟨hp, hr, hf, -⟩ := hrow
  rw [exec_direct h, directRequest_finish hp hr hf, ht]

theorem rangeRequest_of_inRow_finish {load : State → State} {seq : State → Res}
    (hrow : s.inRow .none .finish) : rangeRequest r load seq s = .next (respondOk s) := by
  obtain ⟨hp, hr, hf, -⟩ := hrow
  exact rangeRequest_finish hp hr hf

/-- R100: a ready block runs the request at the head of the port, after the outside's edits. -/
theorem step_of_offer {w : BitVec 104} {rest : List (BitVec 104)} (hr : s.reqReady = true)
    (hb : s.bus = none) (ho : s.offers = w :: rest) (hn : s.resetAsserted = false) :
    step s = exec (decodeRequest (Request.ofWord w)) { s.applyInput with offers := rest } := by
  obtain ⟨-, -, -, hoffer, -⟩ := stepRunsDecodedInstruction s hn
  exact hoffer w rest hb hr ho

theorem reservedCode_of_decode {c : Byte} (hd : decodeRequest r = .reserved c o) :
    reservedCode c = true := by
  have hwf := (decodeRequest_encodes Opcodes.default r).1
  rwa [hd] at hwf

/-- What acceptance leaves of a direct request, whatever it loads. -/
theorem direct_accepted (h : directOf i = some d) (ht : d.load (accept d.req s) = t) :
    t.req = d.req ∧ t.offers = s.offers ∧ t.trace = s.trace ∧ t.chip = s.chip ∧
      t.rspValid = false ∧ t.phase = .busy ∧ t.sphase = .check ∧ t.rphase = .none := by
  subst ht
  cases i <;> cases h <;> exact ⟨rfl, rfl, rfl, rfl, rfl, rfl, rfl, rfl⟩

/-- R103: the codes of the direct requests are below those of the range and sequence commands. -/
theorem direct_code (h : directOf i = some d) : d.req.cmd.toNat < 0x10 := by
  cases i <;> cases h <;> exact of_decide_eq_true rfl

theorem encode_direct (o : Opcodes) (h : directOf i = some d) :
    encode o i = .request d.req.word := by
  cases i <;> cases h <;> rfl

/-! ## Counts and fields in natural arithmetic -/

theorem extractLsb'_low (x : Word) : x.extractLsb' 0 8 = BitVec.ofNat 8 x.toNat := by
  apply BitVec.eq_of_toNat_eq
  simp [BitVec.extractLsb'_toNat]

/-- R280: the ceiling of `size / PAGE_SIZE`. -/
theorem chunkCount_eq (size : Word) :
    chunkCount size = BitVec.ofNat 32 ((size.toNat + 255) / 256) := by
  unfold chunkCount
  congr 1
  split <;> simp only [pageSize] at * <;> omega

theorem sectorIndex_toNat (a : Word) : (sectorIndex a).toNat = a.toNat / 4096 := by
  have hlt : a.toNat / 4096 < 2 ^ 32 := lt_of_le_of_lt (Nat.div_le_self ..) a.isLt
  rw [sectorIndex, BitVec.toNat_ofNat, Nat.mod_eq_of_lt hlt]

/-- R290, R291: the count of an ERASE whose range does not go down, and of one whose range does. -/
theorem eraseCount_toNat (u : EraseUnderflow) (x y : Word) :
    (x.toNat ≤ y.toNat → (eraseCount u x y).toNat = y.toNat - x.toNat) ∧
    (y.toNat < x.toNat → u = .wrap → (eraseCount u x y).toNat = 2 ^ 32 - (x.toNat - y.toNat)) ∧
    (y.toNat < x.toNat → u = .empty → eraseCount u x y = 0) := by
  unfold eraseCount
  refine ⟨fun h => ?up, fun h hu => ?wrap, fun h hu => ?empty⟩
  case up =>
    rw [if_pos (BitVec.le_def.mpr h)]
    exact BitVec.toNat_sub_of_le (BitVec.le_def.mpr h)
  case wrap =>
    have hlt := x.isLt
    rw [if_neg (by bv_omega), hu, BitVec.toNat_sub]
    omega
  case empty => rw [if_neg (by bv_omega), hu]

end

/-- Settles O13: the ranges of the codes in numbers; a code decodes to RESERVED exactly where it is in
no row of the table; and the abort that acceptance of one is. -/
theorem reservedCodesEndWithErrCmd : Obligations.ReservedCodesEndWithErrCmd := by
  refine ⟨fun c => ?codes, fun c o => ⟨fun h => decodeRequest_reserved h o, fun h => ?decoded⟩,
    fun c o s _ hr => exec_reserved_ready hr⟩
  case codes =>
    have hhigh : 0x14 ≤ c.toNat ↔ ∃ k, 4 ≤ k ∧ c.toNat = 0x10 + k :=
      ⟨fun h => ⟨c.toNat - 0x10, by omega, by omega⟩, fun ⟨k, h4, hk⟩ => by omega⟩
    simp only [reservedCode, Bool.or_eq_true, beq_iff_eq, decide_eq_true_eq, or_assoc, hhigh]
  case decoded => exact reservedCode_of_decode h

/-- Settles O11: each command's acceptance is its load on the accepted state; the counts and the
status bytes in natural arithmetic. -/
theorem operandsAreLoaded : Obligations.OperandsAreLoaded := by
  intro s o hr
  refine ⟨fun p hp => ?plain, ?wrsr, fun p hp => ?transfer, exec_direct_ready rfl hr rfl,
    (exec_init o s).trans (rangeRequest_ready hr), ?write,
    ⟨_, (exec_erase o s).trans (rangeRequest_ready hr), rfl, ?count⟩,
    (exec_masserase o s).trans (rangeRequest_ready hr)⟩
  case plain =>
    simp only [List.mem_cons, List.not_mem_nil, or_false] at hp
    rcases hp with rfl | rfl | rfl | rfl | rfl | rfl | rfl | rfl | rfl <;>
      exact exec_direct_ready rfl hr rfl
  case wrsr => exact exec_direct_ready rfl hr (by rw [← extractLsb'_low, ← extractLsb'_low]; rfl)
  case transfer =>
    simp only [List.mem_cons, List.not_mem_nil, or_false] at hp
    rcases hp with rfl | rfl <;> exact exec_direct_ready rfl hr rfl
  case write => rw [exec_write, rangeRequest_ready hr, ← chunkCount_eq]; rfl
  case count =>
    have h := eraseCount_toNat s.cfg.eraseUnderflow (sectorIndex o.a0) (sectorIndex o.a1)
    rwa [sectorIndex_toNat, sectorIndex_toNat] at h

/-- Settles O10: by the kind of the request that the word decodes to, which is the request it was
encoded from; a direct request has a code below 0x10. -/
theorem acceptanceStartsTheOperation : Obligations.AcceptanceStartsTheOperation := by
  intro s w rest hr hb ho hn
  rw [step_of_offer hr hb ho hn, ← applyInput_trace s, ← applyInput_chip s]
  replace hr : ({ s.applyInput with offers := rest } : State).reqReady = true := by
    simpa [reqReady_iff] using hr
  generalize s.applyInput = u at hr
  generalize Request.ofWord w = r
  have hreq {i : Instr} {r' : Request} (hd : decodeRequest r = i)
      (he : encode u.cfg.ops i = .request r'.word) : r = r' := eq_of_decodeRequest hd he
  generalize hd : decodeRequest r = i
  cases requestKind (hd ▸ decodeRequest_isRequest r : i.isRequest = true) with
  | direct h =>
    obtain rfl := hreq hd (encode_direct _ h)
    have hlt := direct_code h
    obtain ⟨h1, h2, h3, h4, h5, h6, h7, h8⟩ := direct_accepted h rfl
    refine ⟨_, exec_direct_ready h hr rfl, h1, h2, h3, h4,
      fun _ => ⟨h5, h6, by simp only [State.reqReady, h6], h7⟩, fun _ _ => h8, ?_, ?_, ?_, ?_⟩ <;>
      exact fun hc => absurd (hc ▸ hlt) (by decide)
  | init o =>
    obtain rfl := hreq hd (r' := Request.of 0x10 o) rfl
    refine ⟨_, (exec_init o _).trans (rangeRequest_ready hr), rfl, rfl, rfl, rfl,
      fun _ => ⟨rfl, rfl, rfl, rfl⟩, ?_⟩
    simp [Request.of]
  | write o =>
    obtain rfl := hreq hd (r' := Request.of 0x11 o) rfl
    refine ⟨_, (exec_write o _).trans (rangeRequest_ready hr), rfl, rfl, rfl, rfl,
      fun _ => ⟨rfl, rfl, rfl, rfl⟩, ?_⟩
    simp [Request.of, loadWrite]
  | erase o =>
    obtain rfl := hreq hd (r' := Request.of 0x12 o) rfl
    refine ⟨_, (exec_erase o _).trans (rangeRequest_ready hr), rfl, rfl, rfl, rfl,
      fun _ => ⟨rfl, rfl, rfl, rfl⟩, ?_⟩
    simp [Request.of, loadErase]
  | masserase o =>
    obtain rfl := hreq hd (r' := Request.of 0x13 o) rfl
    refine ⟨_, (exec_masserase o _).trans (rangeRequest_ready hr), rfl, rfl, rfl, rfl,
      fun _ => ⟨rfl, rfl, rfl, rfl⟩, ?_⟩
    simp [Request.of]
  | reserved c o =>
    obtain rfl := hreq hd (r' := Request.of c o) rfl
    have hc : reservedCode (Request.of c o).cmd = true := reservedCode_of_decode hd
    have hnot : ¬ reservedCode (Request.of c o).cmd = false := by simp [hc]
    refine ⟨_, exec_reserved_ready hr, rfl, rfl, rfl, rfl, fun h => absurd h hnot,
      fun h => absurd h hnot, ?_, ?_, ?_, ?_⟩ <;>
      exact fun h => absurd (h ▸ hc) (by decide)

/-- Settles O25: at END every command responds, the reads with what they read; with nothing offered
the block waits. -/
theorem responseStep : Obligations.ResponseStep := by
  intro s o
  refine ⟨fun hrow => ⟨fun i hi => ?plain, exec_direct_finish rfl hrow rfl,
    exec_direct_finish rfl hrow rfl, fun b hb => ?rdsr2⟩, fun hp hb ho hn => ?wait⟩
  case plain =>
    simp only [List.mem_cons, List.not_mem_nil, or_false] at hi
    rcases hi with rfl | rfl | rfl | rfl | rfl | rfl | rfl | rfl | rfl | rfl | hi
    iterate 10 exact exec_direct_finish rfl hrow rfl
    rcases hi with rfl | rfl | rfl
    · exact (exec_write o s).trans (rangeRequest_of_inRow_finish hrow)
    · exact (exec_erase o s).trans (rangeRequest_of_inRow_finish hrow)
    · exact (exec_masserase o s).trans (rangeRequest_of_inRow_finish hrow)
  case rdsr2 =>
    have hbyte : s.rxByte 0 = b := by simp [State.rxByte, hb]
    exact exec_direct_finish rfl hrow (by rw [← hbyte]; rfl)
  case wait =>
    have hf : fetch s.applyInput = .wait s.applyInput :=
      fetch_of_no_offer (by simpa using hb) (reqReady_iff.mpr (.inr (by simpa using hp)))
        (by simpa using ho)
    rw [step_of_no_reset hn, runStep, hf]

end Sys2Proof.Machine

/-! # The fields that a command ignores (R103, R104)

A step commutes with `State.used`: no sequencer reads the latched request or the port, but WRITE's
chunks, and WRITE ignores no field; acceptance reads the fields that `Request.used` keeps. -/

namespace Sys2Proof.Machine

section
variable {i : Instr} {d : Direct} {r : Request} {s : State} {f : FrameCall} {k ret : State → Res}

/-- The outcome with the ignored fields of the next state's requests replaced. -/
def usedOutcome : Res → Res
  | .next t => .next t.used
  | .fault e => .fault e
  | .refused e => .refused e

/-- `k` sees no ignored field. -/
def IgnoresUnused (k : State → Res) : Prop := ∀ s, k s.used = usedOutcome (k s)

@[simp] theorem used_phase (s : State) : s.used.phase = s.phase := rfl
@[simp] theorem used_sphase (s : State) : s.used.sphase = s.sphase := rfl
@[simp] theorem used_rphase (s : State) : s.used.rphase = s.rphase := rfl
@[simp] theorem used_ret (s : State) : s.used.ret = s.ret := rfl
@[simp] theorem used_bus (s : State) : s.used.bus = s.bus := rfl

/-! ## The shared operations -/

theorem ite_used {c : Prop} [Decidable c] {a b a' b' : Res} (ha : a' = usedOutcome a)
    (hb : b' = usedOutcome b) : (if c then a' else b') = usedOutcome (if c then a else b) := by
  split <;> assumption

theorem onReturn_used (hk : IgnoresUnused k) : IgnoresUnused (fun s => onReturn s k) := by
  intro s
  cases hr : s.ret with
  | none => simp only [onReturn, used_ret, hr, usedOutcome]
  | some b =>
    cases b with
    | false => simp only [onReturn_false k hr, onReturn_false (s := s.used) k hr]; rfl
    | true => simp only [onReturn_true k hr, onReturn_true (s := s.used) k hr]; exact hk (taken s)

theorem startWait_used (p : SPhase) : IgnoresUnused (startWait p) := fun _ => ite_used rfl rfl

theorem startLatch_used : IgnoresUnused startLatch := fun _ => ite_used rfl rfl

theorem waitReturn_used (hk : IgnoresUnused k) : IgnoresUnused (fun s => waitReturn s k) :=
  onReturn_used fun t => ite_used (hk (polled t)) (ite_used rfl rfl)

theorem latchWrenReturn_used : IgnoresUnused latchWrenReturn := onReturn_used fun _ => rfl

theorem latchRdsrReturn_used (hk : IgnoresUnused k) :
    IgnoresUnused (fun s => latchRdsrReturn s k) :=
  onReturn_used fun t => ite_used (hk (tried t)) (ite_used rfl rfl)

/-! ## The command operations -/

section
variable (hret : IgnoresUnused ret)
include hret

theorem oneFrame_used {call : State → FrameCall} {done : State → State}
    (hcall : ∀ s, call s.used = call s) (hdone : ∀ s, done s.used = (done s).used) :
    IgnoresUnused (oneFrameSeq call done ret) := by
  intro s
  cases hs : s.sphase <;> simp only [oneFrameSeq, used_sphase, hs, usedOutcome]
  case check => rw [hcall]; rfl
  case main => exact onReturn_used (fun t => by rw [hdone]; exact hret _) s

theorem reset_used : IgnoresUnused (resetSeq ret) := by
  intro s
  cases hs : s.sphase <;> simp only [resetSeq, used_sphase, hs, usedOutcome]
  case check => rfl
  case main =>
    refine onReturn_used (fun t => ?_) s
    exact ite_used rfl (hret t)

theorem waitwip_used : IgnoresUnused (waitwipSeq ret) := by
  intro s
  cases hs : s.sphase <;> simp only [waitwipSeq, used_sphase, hs, usedOutcome]
  case check => exact startWait_used _ s
  case preWip => exact waitReturn_used hret s

theorem wrenw_used : IgnoresUnused (wrenwSeq ret) := by
  intro s
  cases hs : s.sphase <;> simp only [wrenwSeq, used_sphase, hs, usedOutcome]
  case check => exact startLatch_used s
  case welWren => exact latchWrenReturn_used s
  case welRdsr => exact latchRdsrReturn_used hret s

theorem wrsr_used : IgnoresUnused (wrsrSeq ret) := by
  intro s
  cases hs : s.sphase <;> simp only [wrsrSeq, used_sphase, hs, usedOutcome]
  case check => exact startLatch_used s
  case welWren => exact latchWrenReturn_used s
  case welRdsr => exact latchRdsrReturn_used (fun _ => rfl) s
  case main => exact onReturn_used hret s

theorem readMove_used : IgnoresUnused (readMove ret) :=
  fun s => ite_used (ite_used rfl rfl) (hret s)

theorem read_used : IgnoresUnused (readSeq ret) := by
  intro s
  cases hs : s.sphase <;> simp only [readSeq, used_sphase, hs, usedOutcome]
  case check => exact startWait_used _ s
  case preWip => exact waitReturn_used (fun _ => rfl) s
  case main =>
    cases hr : s.ret <;> simp only [used_ret, hr]
    case none => exact readMove_used hret s
    case some => exact onReturn_used (fun _ => rfl) s

omit hret in
theorem ppGather_used : IgnoresUnused ppGather := fun _ => ite_used (ite_used rfl rfl) rfl

theorem pp_used : IgnoresUnused (ppSeq ret) := by
  intro s
  cases hs : s.sphase <;> simp only [ppSeq, used_sphase, hs, usedOutcome]
  case check => exact ite_used (startWait_used _ s) rfl
  case preWip => exact waitReturn_used startLatch_used s
  case welWren => exact latchWrenReturn_used s
  case welRdsr =>
    cases hr : s.ret <;> simp only [used_ret, hr]
    case none => exact ppGather_used s
    case some => exact latchRdsrReturn_used (fun _ => rfl) s
  case main => exact onReturn_used hret s

theorem erase_used {call : State → FrameCall} {load : State → State}
    (hcall : ∀ s, call s.used = call s) (hload : ∀ s, load s.used = (load s).used) :
    IgnoresUnused (eraseSeq call load ret) := by
  intro s
  cases hs : s.sphase <;> simp only [eraseSeq, used_sphase, hs, usedOutcome]
  case check => rw [hload]; exact startWait_used _ (load s)
  case preWip => exact waitReturn_used startLatch_used s
  case welWren => exact latchWrenReturn_used s
  case welRdsr => exact latchRdsrReturn_used (fun t => by rw [hcall]; rfl) s
  case main => exact onReturn_used (startWait_used _) s
  case postWip => exact waitReturn_used hret s

theorem se_used : IgnoresUnused (seSeq ret) := erase_used hret (fun _ => rfl) (fun _ => rfl)

theorem ce_used : IgnoresUnused (ceSeq ret) := erase_used hret (fun _ => rfl) (fun _ => rfl)

theorem rdid_used : IgnoresUnused (rdidSeq ret) := oneFrame_used hret (fun _ => rfl) (fun _ => rfl)

theorem direct_seq_used (h : directOf i = some d) : IgnoresUnused (d.seq ret) := by
  cases i with
  | reset _ => cases h; exact reset_used hret
  | rdid _ | rdsr1 _ | rdsr2 _ | wren _ | wrdi _ =>
    cases h; exact oneFrame_used hret (fun _ => rfl) (fun _ => rfl)
  | wrsr _ => cases h; exact wrsr_used hret
  | read _ => cases h; exact read_used hret
  | pp _ => cases h; exact pp_used hret
  | se _ => cases h; exact se_used hret
  | ce _ => cases h; exact ce_used hret
  | waitwip _ => cases h; exact waitwip_used hret
  | wrenw _ => cases h; exact wrenw_used hret
  | _ => cases h

end

/-! ## The range and sequence commands -/

theorem initCompare_used (s : State) : initCompare s.used = (initCompare s).used := by
  have hmatch : idMatch s.used.cfg s.used.id = idMatch s.cfg s.id := rfl
  unfold initCompare
  rw [hmatch]
  split <;> rfl

theorem initSeq_used : IgnoresUnused initSeq := by
  intro s
  cases hr : s.rphase <;> simp only [initSeq, used_rphase, hr, usedOutcome]
  case initReset => exact reset_used (fun _ => rfl) s
  case initId => exact rdid_used (fun _ => rfl) s
  case initCmp => rw [initCompare_used]

theorem loopTest_used {load : State → State} (hload : load s.used = (load s).used) :
    loopTest load s.used = usedOutcome (loopTest load s) :=
  ite_used (by rw [hload]; rfl) rfl

/-- WRITE's chunks read the latched request, which is a WRITE's and has no ignored field. -/
theorem writeSeq_used (hreq : Request.used s.req = s.req) :
    writeSeq s.used = usedOutcome (writeSeq s) := by
  have hload : loadChunk s.used = (loadChunk s).used := by
    simp only [loadChunk, State.used, hreq]
  cases hr : s.rphase <;> simp only [writeSeq, used_rphase, hr, usedOutcome]
  case writeLoop => exact ite_used (loopTest_used hload) (pp_used (fun _ => rfl) s)

theorem eraseRangeSeq_used : IgnoresUnused eraseRangeSeq := by
  intro s
  cases hr : s.rphase <;> simp only [eraseRangeSeq, used_rphase, hr, usedOutcome]
  case eraseLoop => exact ite_used (loopTest_used rfl) (se_used (fun _ => rfl) s)

theorem massSeq_used : IgnoresUnused massSeq := by
  intro s
  cases hr : s.rphase <;> simp only [massSeq, used_rphase, hr, usedOutcome]
  case mass => exact ce_used (fun _ => rfl) s

/-! ## Requests -/

theorem directRequest_used {load rsp : State → State} {seq : (State → Res) → State → Res}
    (hload : load (accept (Request.used r) s.used) = (load (accept r s)).used)
    (hrsp : rsp s.used = (rsp s).used) (hseq : IgnoresUnused (seq endDirect)) :
    directRequest (Request.used r) load rsp seq s.used = usedOutcome (directRequest r load rsp seq s) := by
  cases hp : s.phase <;> simp only [directRequest, used_phase, hp, usedOutcome, hload]
  case busy =>
    cases hr : s.rphase <;> simp only [used_rphase, hr]
    case none =>
      cases hs : s.sphase <;> simp only [used_sphase, hs]
      case finish => rw [hrsp]; rfl
      all_goals exact hseq s

theorem rangeRequest_used {load : State → State} {seq : State → Res}
    (hload : load (accept (Request.used r) s.used) = (load (accept r s)).used)
    (hseq : s.phase = .busy → seq s.used = usedOutcome (seq s)) :
    rangeRequest (Request.used r) load seq s.used = usedOutcome (rangeRequest r load seq s) := by
  cases hp : s.phase <;> simp only [rangeRequest, used_phase, hp, usedOutcome, hload]
  case busy =>
    cases hr : s.rphase <;> simp only [used_rphase, hr]
    case none =>
      cases hs : s.sphase <;> simp only [used_sphase, hs]
      case finish => rfl
    all_goals exact hseq hp

/-- R104: WRSR reads the low bytes of its operands. -/
theorem low_byte_of_masked (x : Word) : (x &&& 0xFF).extractLsb' 0 8 = x.extractLsb' 0 8 := by
  have hmask : x.toNat &&& 255 = x.toNat % 2 ^ 8 := Nat.and_two_pow_sub_one_eq_mod x.toNat 8
  apply BitVec.eq_of_toNat_eq
  simp [BitVec.extractLsb'_toNat, hmask]

/-- A direct request without its ignored fields is the same row of the table. -/
theorem directOf_used (h : directOf i = some d) :
    directOf (decodeRequest (Request.used d.req)) = some { d with req := Request.used d.req } := by
  cases i <;> cases h <;> rfl

theorem direct_load_used (h : directOf i = some d) (s : State) :
    d.load (accept (Request.used d.req) s.used) = (d.load (accept d.req s)).used := by
  cases i with
  | wrsr o =>
    cases h
    exact congrArg₂
      (fun x y => ({ accept (Request.of 0x05 o) s with wsr1 := x, wsr2 := y } : State).used)
      (low_byte_of_masked o.a0) (low_byte_of_masked o.a1)
  | _ => cases h <;> rfl

theorem direct_rsp_used (h : directOf i = some d) (s : State) : d.rsp s.used = (d.rsp s).used := by
  cases i <;> cases h <;> rfl

/-- The operands of a request none of whose fields is read. -/
def noOperands : Operands := { a0 := 0, a1 := 0, boff := 0 }

theorem used_reserved {c : Byte} {o : Operands} (h : reservedCode c = true) :
    Request.used (Request.of c o) = Request.of c noOperands := by
  simp only [Request.used, decodeRequest_reserved h]; rfl

theorem exec_reserved_used {c : Byte} {o : Operands} (h : reservedCode c = true) :
    exec (.reserved c noOperands) s.used = usedOutcome (exec (.reserved c o) s) := by
  by_cases hp : s.phase = .busy
  · simp only [exec, execReserved, used_phase, hp, usedOutcome]
  · have hr := reqReady_of_not_busy hp
    rw [exec_reserved_ready hr, exec_reserved_ready (s := s.used) hr, ← used_reserved (o := o) h]
    rfl

/-- A request in progress is the latched one; one that is accepted finds the block ready. -/
theorem exec_request_used (hreq : s.phase = .busy → s.req = r) :
    exec (decodeRequest (Request.used r)) s.used = usedOutcome (exec (decodeRequest r) s) := by
  have hsame {i : Instr} {r' : Request} (hd : decodeRequest r = i)
      (he : encode s.cfg.ops i = .request r'.word) : r = r' := eq_of_decodeRequest hd he
  generalize hd : decodeRequest r = i
  cases requestKind (hd ▸ decodeRequest_isRequest r : i.isRequest = true) with
  | direct h =>
    obtain rfl := hsame hd (encode_direct _ h)
    have hseq := direct_seq_used (ret := endDirect) (fun _ => rfl) h
    rw [exec_direct (directOf_used h), exec_direct h]
    exact directRequest_used (direct_load_used h s) (direct_rsp_used h s) hseq
  | init o =>
    obtain rfl := hsame hd (r' := Request.of 0x10 o) rfl
    exact rangeRequest_used (r := Request.of 0x10 o)
      (load := fun t => { t with rphase := .initReset }) rfl fun _ => initSeq_used s
  | write o =>
    obtain rfl := hsame hd (r' := Request.of 0x11 o) rfl
    exact rangeRequest_used (r := Request.of 0x11 o) rfl fun hp =>
      writeSeq_used (by rw [hreq hp]; rfl)
  | erase o =>
    obtain rfl := hsame hd (r' := Request.of 0x12 o) rfl
    exact rangeRequest_used (r := Request.of 0x12 o) rfl fun _ => eraseRangeSeq_used s
  | masserase o =>
    obtain rfl := hsame hd (r' := Request.of 0x13 o) rfl
    exact rangeRequest_used (r := Request.of 0x13 o)
      (load := fun t => { t with rphase := .mass }) rfl fun _ => massSeq_used s
  | reserved c o =>
    obtain rfl := hsame hd (r' := Request.of c o) rfl
    have hc := reservedCode_of_decode hd
    rw [used_reserved hc, decodeRequest_reserved hc]
    exact exec_reserved_used hc

/-! ## Frames -/

theorem exec_frame_used (h : i.isRequest = false) (s : State) :
    exec i s.used = usedOutcome (exec i s) := by
  obtain ⟨f, -, he, -⟩ := exec_frame i s h
  rw [exec_eq_busFrame he, exec_eq_busFrame (s := s.used) he]
  cases hc : s.cs with
  | true => rw [busFrame_selected _ _ hc, busFrame_selected (s := s.used) _ _ hc]; rfl
  | false => rw [busFrame_next _ _ hc, busFrame_next (s := s.used) _ _ hc]; rfl

/-! ## The step -/

theorem applyInput_used (s : State) : s.used.applyInput = s.applyInput.used := by
  cases hi : s.inputs with
  | nil => rw [applyInput_of_nil hi, applyInput_of_nil (s := s.used) hi]
  | cons x xs => rw [applyInput_of_cons hi, applyInput_of_cons (s := s.used) hi]; rfl

theorem runStep_used : IgnoresUnused (runStep exec) := by
  intro s
  unfold runStep
  cases hb : s.bus with
  | some f =>
    cases hd : decodeFrame s.cfg.ops f with
    | error e => rw [fetch_of_unknown_frame hb hd, fetch_of_unknown_frame (s := s.used) hb hd]; rfl
    | ok i =>
      rw [fetch_of_frame hb hd, fetch_of_frame (s := s.used) hb hd]
      exact exec_frame_used (decodeFrame_isRequest hd) s
  | none =>
    by_cases hp : s.phase = .busy
    · rw [fetch_of_busy hb hp, fetch_of_busy (s := s.used) hb hp]
      exact exec_request_used fun _ => rfl
    · have hr := reqReady_of_not_busy hp
      cases ho : s.offers with
      | nil =>
        have ho' : s.used.offers = [] := by simp [State.used, ho]
        rw [fetch_of_no_offer hb hr ho, fetch_of_no_offer (s := s.used) hb hr ho']
        rfl
      | cons w rest =>
        have ho' : s.used.offers = (Request.used (Request.ofWord w)).word ::
            rest.map (fun w => (Request.used (Request.ofWord w)).word) := by simp [State.used, ho]
        rw [fetch_of_offer hb hr ho, fetch_of_offer (s := s.used) hb hr ho', Request.ofWord_word]
        exact exec_request_used (s := { s with offers := rest }) fun h => absurd h hp

theorem resetStep_used : IgnoresUnused (resetStep exec) := by
  intro s
  unfold resetStep
  cases hb : s.bus with
  | none => rw [used_bus, hb]; cases fetch s <;> cases fetch s.used <;> rfl
  | some f =>
    cases hd : decodeFrame s.cfg.ops f with
    | error e =>
      rw [fetch_of_unknown_frame hb hd, fetch_of_unknown_frame (s := s.used) hb hd, used_bus, hb]
      rfl
    | ok i =>
      rw [fetch_of_frame hb hd, fetch_of_frame (s := s.used) hb hd, used_bus, hb]
      simp only [exec_frame_used (decodeFrame_isRequest hd)]
      cases exec i s <;> rfl

theorem step_used : IgnoresUnused step := by
  intro s
  have hreset : s.used.resetAsserted = s.resetAsserted := rfl
  cases hr : s.resetAsserted with
  | true =>
    rw [step_of_reset hr, step_of_reset (hreset.trans hr), applyInput_used]
    exact resetStep_used _
  | false =>
    rw [step_of_no_reset hr, step_of_no_reset (hreset.trans hr), applyInput_used]
    exact runStep_used _

end

/-- Settles O12: a step commutes with replacing the ignored fields, whatever it ends in. -/
theorem ignoredFieldsChangeNothing : Obligations.IgnoredFieldsChangeNothing := by
  intro s
  refine ⟨fun t h => ?_, fun f h => ?_, fun r h => ?_⟩ <;> rw [step_used s, h] <;> rfl

end Sys2Proof.Machine

/-! # A failed segment (R144, R322)

From every position of the invariant a Frame call that has returned not ok ends the request. -/

namespace Sys2Proof.Machine

section
variable {i : Instr} {s : State}

/-- Where a Frame call has returned not ok, the next row of `seq` ends the request with ERR_BUS,
whatever its caller is. -/
def SeqFails (inside : State → Prop) (seq : (State → Res) → State → Res) : Prop :=
  ∀ ret s, s.ret = some false → inside s → seq ret s = .next (abort codeBus s)

theorem not_quiet_of_ret {b : Bool} (hr : s.ret = some b) (h : s.quiet) : False := by
  rw [h.2] at hr; cases hr

theorem waitReturn_false (k : State → Res) (hr : s.ret = some false) :
    waitReturn s k = .next (abort codeBus s) := onReturn_false _ hr

theorem latchWrenReturn_false (hr : s.ret = some false) :
    latchWrenReturn s = .next (abort codeBus s) := onReturn_false _ hr

theorem latchRdsrReturn_false (k : State → Res) (hr : s.ret = some false) :
    latchRdsrReturn s k = .next (abort codeBus s) := onReturn_false _ hr

/-! ## The command operations -/

theorem oneFrame_fails (call : State → FrameCall) (done : State → State) :
    SeqFails (fun s => oneFrameAt (call s) s) (oneFrameSeq call done) := by
  intro ret s hr hin
  cases hs : s.sphase <;> simp only [oneFrameSeq, oneFrameAt, hs] at hin ⊢
  case check => exact (not_quiet_of_ret hr hin).elim
  case main => exact onReturn_false _ hr

theorem reset_fails : SeqFails resetAt resetSeq := by
  intro ret s hr hin
  cases hs : s.sphase <;> simp only [resetSeq, resetAt, hs] at hin ⊢
  case check => exact (not_quiet_of_ret hr hin).elim
  case main => exact onReturn_false _ hr

theorem waitwip_fails : SeqFails waitwipAt waitwipSeq := by
  intro ret s hr hin
  cases hs : s.sphase <;> simp only [waitwipSeq, waitwipAt, hs] at hin ⊢
  case check => exact (not_quiet_of_ret hr hin).elim
  case preWip => exact waitReturn_false _ hr

theorem wrenw_fails : SeqFails wrenwAt wrenwSeq := by
  intro ret s hr hin
  cases hs : s.sphase <;> simp only [wrenwSeq, wrenwAt, hs] at hin ⊢
  case check => exact (not_quiet_of_ret hr hin).elim
  case welWren => exact latchWrenReturn_false hr
  case welRdsr => exact latchRdsrReturn_false _ hr

theorem wrsr_fails : SeqFails wrsrAt wrsrSeq := by
  intro ret s hr hin
  cases hs : s.sphase <;> simp only [wrsrSeq, wrsrAt, hs] at hin ⊢
  case check => exact (not_quiet_of_ret hr hin).elim
  case welWren => exact latchWrenReturn_false hr
  case welRdsr => exact latchRdsrReturn_false _ hr
  case main => exact onReturn_false _ hr

theorem read_fails : SeqFails readAt readSeq := by
  intro ret s hr hin
  cases hs : s.sphase <;> simp only [readSeq, readAt, hs, hr] at hin ⊢
  case check => exact (not_quiet_of_ret hr hin).elim
  case preWip => exact waitReturn_false _ hr
  case main => exact onReturn_false _ hr

theorem pp_fails : SeqFails ppAt ppSeq := by
  intro ret s hr hin
  cases hs : s.sphase <;> simp only [ppSeq, ppAt, hs, hr] at hin ⊢
  case check => exact (not_quiet_of_ret hr hin).elim
  case preWip => exact waitReturn_false _ hr
  case welWren => exact latchWrenReturn_false hr
  case welRdsr => exact latchRdsrReturn_false _ hr
  case main => exact onReturn_false _ hr

theorem erase_fails (call : State → FrameCall) (load : State → State) (past : State → Prop) :
    SeqFails (fun s => eraseAt (call s) (past s) s) (eraseSeq call load) := by
  intro ret s hr hin
  cases hs : s.sphase <;> simp only [eraseSeq, eraseAt, hs] at hin ⊢
  case check => exact (not_quiet_of_ret hr hin).elim
  case preWip | postWip => exact waitReturn_false _ hr
  case welWren => exact latchWrenReturn_false hr
  case welRdsr => exact latchRdsrReturn_false _ hr
  case main => exact onReturn_false _ hr

theorem se_fails : SeqFails seAt seSeq :=
  erase_fails State.callSe _ (fun s => s.addr = sectorAddr s.sidx)

theorem ce_fails : SeqFails ceAt ceSeq := erase_fails State.callCe _ (fun _ => True)

/-! ## The requests in progress -/

theorem direct_fails {d : Direct} (h : directOf i = some d) : SeqFails d.inside d.seq := by
  cases i with
  | reset _ => cases h; exact reset_fails
  | rdid _ | rdsr1 _ | rdsr2 _ | wren _ | wrdi _ => cases h; exact oneFrame_fails _ _
  | wrsr _ => cases h; exact wrsr_fails
  | read _ => cases h; exact read_fails
  | pp _ => cases h; exact pp_fails
  | se _ => cases h; exact se_fails
  | ce _ => cases h; exact ce_fails
  | waitwip _ => cases h; exact waitwip_fails
  | wrenw _ => cases h; exact wrenw_fails
  | _ => cases h

/-- The position of a request whose frame has failed is inside one of its command operations, and
that operation's row ends the request. -/
theorem exec_fails (hk : RequestKind i) (hp : s.phase = .busy) (hr : s.ret = some false)
    (hat : busyAt i s) : exec i s = .next (abort codeBus s) := by
  have hnq : ¬ s.quiet := not_quiet_of_ret hr
  cases hk with
  | direct h =>
    obtain ⟨hrp, -, ⟨-, hq⟩ | hin⟩ := (busyAt_direct h).mp hat
    · exact absurd hq hnq
    · rw [exec_direct h, directRequest_busy hp hrp (direct_inside_ne_finish h hin)]
      exact direct_fails h _ s hr hin
  | init o =>
    rw [exec_init]
    rcases hat with ⟨hrp, hin⟩ | ⟨hrp, hin⟩ | ⟨-, -, hq⟩
    · rw [rangeRequest_busy hp (by simp [hrp]), initSeq, hrp]
      exact reset_fails _ s hr hin
    · rw [rangeRequest_busy hp (by simp [hrp]), initSeq, hrp]
      exact oneFrame_fails State.callRdid _ _ s hr hin
    · exact absurd hq hnq
  | write o =>
    rw [exec_write]
    obtain ⟨-, ⟨-, ⟨-, hq⟩, -⟩ | ⟨hrp, ⟨-, hq, -⟩ | ⟨ht, hin, -⟩⟩⟩ := hat
    · exact absurd hq hnq
    · exact absurd hq hnq
    · rw [rangeRequest_busy hp (by simp [hrp]), writeSeq, hrp, ht]
      exact pp_fails _ s hr hin
  | erase o =>
    rw [exec_erase]
    obtain ⟨-, ⟨-, ⟨-, hq⟩, -⟩ | ⟨hrp, ⟨-, hq, -⟩ | ⟨ht, hin, -⟩⟩⟩ := hat
    · exact absurd hq hnq
    · exact absurd hq hnq
    · rw [rangeRequest_busy hp (by simp [hrp]), eraseRangeSeq, hrp, ht]
      exact se_fails _ s hr hin
  | masserase o =>
    rw [exec_masserase]
    rcases hat with ⟨-, -, hq⟩ | ⟨hrp, hin⟩
    · exact absurd hq hnq
    · rw [rangeRequest_busy hp (by simp [hrp]), massSeq, hrp]
      exact ce_fails _ s hr hin
  | reserved c o => exact hat.elim

end

/-- Settles O30: a return is waiting only while a request is in progress with nothing on the bus, so
the step is the failed frame's row. -/
theorem failedSegmentAbortsRequest : Obligations.FailedSegmentAbortsRequest := by
  intro s hi hr hin
  have hp : s.phase = .busy := by
    by_contra hp
    exact not_quiet_of_ret hr (quiet_of_ready (reqReady_of_not_busy hp) hi.control)
  obtain ⟨-, hat⟩ := busy_of_controlOk hp hi.control
  have hb : s.bus = none := by
    cases hb : s.bus with
    | none => rfl
    | some f =>
      obtain ⟨-, hnone, -⟩ := busy_frame _ s f hat hb
      rw [hr] at hnone; cases hnone
  have hfetch : fetch s.applyInput = .run (decodeRequest s.req) s := by
    rw [applyInput_of_nil hin, fetch_of_busy hb hp]
  rw [step_of_fetch_run (by rw [State.resetAsserted, hin]) hfetch]
  exact exec_fails (requestKind (decodeRequest_isRequest _)) hp hr hat

end Sys2Proof.Machine

/-! # What a frame records (R141-R147) -/

namespace Sys2Proof.Machine

section
variable {i : Instr} {f : FrameCall} {x : ChipSide} {d : Draw} {c : Chip} {cfg : Config}

/-! ## The outcome of each way a frame ends -/

theorem succeeds_iff : succeeds f d = true ↔
    d.hdrOk = true ∧ (f.tx ≠ [] → d.payOk = true) ∧ (f.rxn ≠ 0 → d.payOk = true) := by
  cases hp : d.payOk <;> simp [succeeds, hp]

theorem runSegments_failPayload (h : d.hdrOk = true) (hp : d.payOk = false) (ht : f.tx ≠ []) :
    runSegments f x d c = { chip := x.react d (f.hdr ++ f.tx.take d.cut) c, ok := false, rx := []
                            outcome := .failPayload } := by
  simp [runSegments, h, hp, ht]

theorem runSegments_failReceive (h : d.hdrOk = true) (hp : d.payOk = false) (ht : f.tx = [])
    (hn : f.rxn ≠ 0) :
    runSegments f x d c = { chip := x.react d f.hdr c, ok := false, rx := drawBytes d f.rxn
                            outcome := .failReceive } := by
  simp [runSegments, h, hp, ht, hn]

theorem runSegments_ok_iff_outcome (hx : x.Ok cfg f.rxn) :
    (runSegments f x d c).ok = true ↔ (runSegments f x d c).outcome = .ok := by
  refine ⟨fun h => (runSegments_of_ok hx h).1, fun h => ?_⟩
  by_contra hok
  exact runSegments_of_fail (Bool.eq_false_iff.mpr hok) h

/-! ## The bus events of a frame that succeeds -/

/-- R112, R145: a frame sends a payload or receives, not both. -/
theorem tx_nil_or_rxn_zero {o : Opcodes} (he : encode o i = .frame f) : f.tx = [] ∨ f.rxn = 0 := by
  cases i with
  | spiPp a ds => cases he; exact .inr rfl
  | _ => cases he <;> exact .inl rfl

theorem frameEvents_header_only {rx : List Byte} (ht : f.tx = []) (hn : f.rxn = 0) :
    frameEvents cfg f rx .ok = [.sel, .tx f.hdr true, .desel] := by
  simp [frameEvents, ht, hn]

theorem frameEvents_sent {rx : List Byte} (ht : f.tx ≠ []) (hn : f.rxn = 0) :
    frameEvents cfg f rx .ok = [.sel, .tx f.hdr true, .tx f.tx true, .desel] := by
  simp [frameEvents, ht, hn]

theorem frameEvents_received {rx : List Byte} (ht : f.tx = []) (hn : f.rxn ≠ 0) :
    frameEvents cfg f rx .ok =
      [.sel, .tx f.hdr true, .rx f.rxn (List.replicate f.rxn cfg.dummyTx) rx true, .desel] := by
  simp [frameEvents, ht, hn]

end

/-- Settles O31: on a deselected bus the frame leaves `segments`, whose result is that of the first
segment to fail, or of the whole frame. -/
theorem framesCompleteAndAreRecorded : Obligations.FramesCompleteAndAreRecorded := by
  intro i s f hi he
  obtain ⟨g, x, hg, hx, hexec⟩ := exec_frame i s hi
  obtain rfl : f = g := by rw [he] at hg; cases hg; rfl
  rw [hexec]
  refine ⟨busFrame_selected f x, fun hc => ⟨_, _, _, busFrame_next f x hc, hc, rfl, rfl, rfl, ?_⟩⟩
  simp only [segments_rx, State.frameResult]
  have hfit := hx.fitted
  have hone := tx_nil_or_rxn_zero he
  have hout := runSegments_ok_iff_outcome (d := s.draw) (c := s.chip.settle s.draw) hfit
  refine ⟨by rw [runSegments_succeeds, succeeds_iff], hout,
    fun hok => (runSegments_of_ok hfit hok).2, fun hh => ?header, fun hh hp ht => ?payload,
    fun hh hp ht hn => ?receive, fun hok ht hn => ?headerOnly, fun hok ht => ?sent,
    fun hok hn => ?received⟩
  case header => rw [runSegments_failHeader hh]; exact ⟨rfl, rfl⟩
  case payload => rw [runSegments_failPayload hh hp ht]; exact ⟨rfl, rfl⟩
  case receive =>
    rw [runSegments_failReceive hh hp ht hn]
    exact ⟨rfl, by simp [drawBytes], rfl⟩
  case headerOnly => rw [hout.mp hok, frameEvents_header_only ht hn]
  case sent => rw [hout.mp hok, frameEvents_sent ht (hone.resolve_left ht)]
  case received => rw [hout.mp hok, frameEvents_received (hone.resolve_right hn) hn]

end Sys2Proof.Machine

/-! # The rows of the register commands (R172, R206)

Where a request is at a row of a command operation, `exec` is that operation's row; the rows of each
operation are then said once, for the direct request and for the sub-command alike. -/

namespace Sys2Proof.Machine

section
variable {i : Instr} {r : RPhase} {s : State} {seq : (State → Res) → State → Res}
  {g done : State → State} {call : State → FrameCall}

theorem sphase_of_inRow {p : SPhase} (h : s.inRow r p) : s.sphase = p := by
  obtain ⟨-, -, hs, -⟩ := h
  exact hs

/-! ## The operation that a request runs -/

/-- At `rphase` r the request `i` runs the command operation `seq`, whose return is `g`. -/
def Runs (i : Instr) (r : RPhase) (seq : (State → Res) → State → Res) (g : State → State) : Prop :=
  ∀ s p, s.inRow r p → p ≠ .finish → exec i s = seq (fun t => .next (g t)) s

theorem direct_runs {d : Direct} (h : directOf i = some d) (hd : d.seq = seq) :
    Runs i .none seq toEnd := by
  rintro s p ⟨hp, hr, hs, -⟩ hne
  rw [exec_direct h, directRequest_busy hp hr (hs ▸ hne), hd]
  rfl

theorem init_runs_reset (o : Operands) : Runs (.init o) .initReset resetSeq
    (fun t => { t with rphase := .initId, sphase := .check }) := by
  rintro s p ⟨hp, hr, -, -⟩ -
  rw [exec_init, rangeRequest_busy hp (by simp [hr]), initSeq, hr]

theorem init_runs_rdid (o : Operands) : Runs (.init o) .initId rdidSeq
    (fun t => { t with rphase := .initCmp, sphase := .finish }) := by
  rintro s p ⟨hp, hr, -, -⟩ -
  rw [exec_init, rangeRequest_busy hp (by simp [hr]), initSeq, hr]

/-! ## The commands of one frame -/

section
variable (h : Runs i r (oneFrameSeq call done) g)
include h

theorem oneFrame_exec_main (hrow : s.inRow r .main) :
    exec i s = onReturn s (fun t => .next (g (done t))) := by
  rw [h s _ hrow (by simp), oneFrameSeq, sphase_of_inRow hrow]

theorem oneFrame_callRow : CallRow i r .check .main (fun s => s) call := fun s hrow => by
  rw [h s _ hrow (by simp), oneFrameSeq, sphase_of_inRow hrow]; rfl

theorem oneFrame_failRow : FailRow i r .main := fun _ hrow hr =>
  (oneFrame_exec_main h hrow).trans (onReturn_false _ hr)

theorem oneFrame_returnRow : ReturnRow i r .main (fun t => g (done t)) := fun _ hrow hr =>
  (oneFrame_exec_main h hrow).trans (onReturn_true _ hr)

end

theorem rxByte_of_one {b : Byte} (h : s.rx = [b]) : s.rxByte 0 = b := by
  rw [State.rxByte, h]; rfl

theorem rxByte_of_three {m t c : Byte} (h : s.rx = [m, t, c]) :
    s.rxByte 0 = m ∧ s.rxByte 1 = t ∧ s.rxByte 2 = c := by
  simp only [State.rxByte, h]; exact ⟨rfl, rfl, rfl⟩

/-- Settles O15: the rows of each operation of one frame, with what RDID and RDSR1 store. -/
theorem oneFrameCommandRows : Obligations.OneFrameCommandRows := by
  intro o
  have hrdid : Runs (.rdid o) .none rdidSeq toEnd := direct_runs rfl rfl
  have hrdsr1 : Runs (.rdsr1 o) .none rdsr1Seq toEnd := direct_runs rfl rfl
  have hrdsr2 : Runs (.rdsr2 o) .none rdsr2Seq toEnd := direct_runs rfl rfl
  have hwren : Runs (.wren o) .none wrenSeq toEnd := direct_runs rfl rfl
  have hwrdi : Runs (.wrdi o) .none wrdiSeq toEnd := direct_runs rfl rfl
  have hinit := init_runs_rdid o
  refine ⟨fun p hp => ?calls, fun s m t c hrow hr hrx => ?rdid, fun s m t c hrow hr hrx => ?init,
    fun s b hrow hb => ?rdsr1, oneFrame_returnRow hrdsr2, oneFrame_returnRow hwren,
    oneFrame_returnRow hwrdi⟩
  case calls =>
    simp only [List.mem_cons, List.not_mem_nil, or_false] at hp
    rcases hp with rfl | rfl | rfl | rfl | rfl | rfl
    · exact ⟨oneFrame_callRow hrdid, oneFrame_failRow hrdid⟩
    · exact ⟨oneFrame_callRow hrdsr1, oneFrame_failRow hrdsr1⟩
    · exact ⟨oneFrame_callRow hrdsr2, oneFrame_failRow hrdsr2⟩
    · exact ⟨oneFrame_callRow hwren, oneFrame_failRow hwren⟩
    · exact ⟨oneFrame_callRow hwrdi, oneFrame_failRow hwrdi⟩
    · exact ⟨oneFrame_callRow hinit, oneFrame_failRow hinit⟩
  case rdid =>
    obtain ⟨rfl, rfl, rfl⟩ := rxByte_of_three hrx
    exact oneFrame_returnRow hrdid s hrow hr
  case init =>
    obtain ⟨rfl, rfl, rfl⟩ := rxByte_of_three hrx
    exact oneFrame_returnRow hinit s hrow hr
  case rdsr1 =>
    obtain rfl := rxByte_of_one hb.2
    exact oneFrame_returnRow hrdsr1 s hrow hb.1

/-! ## RESET -/

section
variable (h : Runs i r resetSeq g)
include h

theorem reset_exec_main (hrow : s.inRow r .main) : exec i s = onReturn s (fun t =>
    if t.cfg.resetFraming = .split ∧ t.pos = 0 then
      .next (callFrame .main t.callRst { t with pos := 1 })
    else .next (g t)) := by
  rw [h s _ hrow (by simp), resetSeq, sphase_of_inRow hrow]

theorem reset_callRow :
    CallRow i r .check .main (fun s => { s with pos := 0 }) State.callReset := fun s hrow => by
  rw [h s _ hrow (by simp), resetSeq, sphase_of_inRow hrow]; rfl

theorem reset_failRow : FailRow i r .main := fun _ hrow hr =>
  (reset_exec_main h hrow).trans (onReturn_false _ hr)

/-- The last frame has returned: the only one under SINGLE, the second under SPLIT. -/
theorem reset_lastReturn (hrow : s.inRow r .main) (hr : s.ret = some true)
    (hlast : ¬ (s.cfg.resetFraming = .split ∧ s.pos = 0)) :
    exec i s = .next (g { s with ret := none }) :=
  (reset_exec_main h hrow).trans ((onReturn_true _ hr).trans (if_neg hlast))

theorem reset_firstReturn (hrow : s.inRow r .main) (hr : s.ret = some true)
    (hfirst : s.cfg.resetFraming = .split ∧ s.pos = 0) :
    exec i s = .next { s with pos := 1, bus := some s.callRst, ret := none } := by
  refine (reset_exec_main h hrow).trans ((onReturn_true _ hr).trans ((if_pos hfirst).trans ?_))
  rw [← sphase_of_inRow hrow]; rfl

end

/-- Settles O14: the rows of `resetSeq`, run by RESET and by INIT. -/
theorem resetCommandRows : Obligations.ResetCommandRows := by
  intro o p hp
  have hruns : Runs p.1 p.2.1 resetSeq p.2.2 := by
    simp only [List.mem_cons, List.not_mem_nil, or_false] at hp
    rcases hp with rfl | rfl
    · exact direct_runs rfl rfl
    · exact init_runs_reset o
  exact ⟨reset_callRow hruns, reset_failRow hruns,
    fun s hrow hr hsingle => reset_lastReturn hruns hrow hr (by simp [hsingle]),
    fun s hrow hr hsplit hpos => reset_firstReturn hruns hrow hr ⟨hsplit, hpos⟩,
    fun s hrow hr _ hpos => reset_lastReturn hruns hrow hr (fun hc => hpos hc.2)⟩

/-! ## WRENW's rows, whoever runs them (R203, R206) -/

theorem limitReached_of_atLimit {l : Option Nat} {n : Word} (h : atLimit l n) :
    limitReached l n = true := by
  obtain ⟨m, rfl, hm⟩ := h
  exact decide_eq_true hm

theorem limitReached_of_underLimit {l : Option Nat} {n : Word} (h : underLimit l n) :
    limitReached l n = false := by
  cases l with
  | none => rfl
  | some m => exact decide_eq_false (Nat.not_le.mpr (h m rfl))

theorem startLatch_of_limit (h : s.cfg.welLimit ≠ some 0) : startLatch s = .next (enterLatch s) :=
  if_neg h

theorem startLatch_of_zero (h : s.cfg.welLimit = some 0) : startLatch s = .fault .zeroLimit :=
  if_pos h

theorem latchWrenReturn_true (h : s.ret = some true) :
    latchWrenReturn s = .next (callFrame .welRdsr s.callRdsr1 (taken s)) := onReturn_true _ h

section
variable {k : State → Res} {b : Byte} (hb : s.gotByte b)
include hb

theorem latchRdsrReturn_set (h : b &&& s.cfg.welMask ≠ 0) : latchRdsrReturn s k =
    k { s with ret := none, sr := b, tries := s.tries + 1 } := by
  obtain ⟨hr, hrx⟩ := hb
  obtain rfl := rxByte_of_one hrx
  exact (onReturn_true _ hr).trans (if_pos (bne_iff_ne.mpr h))

theorem latchRdsrReturn_again (h : b &&& s.cfg.welMask = 0)
    (hl : underLimit s.cfg.welLimit (s.tries + 1)) : latchRdsrReturn s k =
    .next (callFrame .welWren s.callWren { s with sr := b, tries := s.tries + 1 }) := by
  obtain ⟨hr, hrx⟩ := hb
  obtain rfl := rxByte_of_one hrx
  refine (onReturn_true _ hr).trans ((if_neg (mt bne_iff_ne.mp (not_not.mpr h))).trans ?_)
  exact if_neg (Bool.eq_false_iff.mp (limitReached_of_underLimit hl))

theorem latchRdsrReturn_limit (h : b &&& s.cfg.welMask = 0)
    (hl : atLimit s.cfg.welLimit (s.tries + 1)) : latchRdsrReturn s k =
    .next (abort codeTimeout { s with sr := b, tries := s.tries + 1 }) := by
  obtain ⟨hr, hrx⟩ := hb
  obtain rfl := rxByte_of_one hrx
  refine (onReturn_true _ hr).trans ((if_neg (mt bne_iff_ne.mp (not_not.mpr h))).trans ?_)
  exact if_pos (limitReached_of_atLimit hl)

end

/-- The rows of WRENW, of a request that runs its two returns in the two phases of the loop. -/
theorem latchRows_of {after : State → State}
    (hwren : ∀ s, s.inRow r .welWren → exec i s = latchWrenReturn s)
    (hrdsr : ∀ s, s.inRow r .welRdsr → s.ret ≠ none →
      exec i s = latchRdsrReturn s (fun t => .next (after t))) : LatchRows i r after where
  sent s hrow hr := (hwren s hrow).trans (latchWrenReturn_true hr)
  set s _ hrow hb hm := (hrdsr s hrow (by simp [hb.1])).trans (latchRdsrReturn_set hb hm)
  again s _ hrow hb hm hl := (hrdsr s hrow (by simp [hb.1])).trans (latchRdsrReturn_again hb hm hl)
  limit s _ hrow hb hm hl := (hrdsr s hrow (by simp [hb.1])).trans (latchRdsrReturn_limit hb hm hl)
  failWren s hrow hr := (hwren s hrow).trans (latchWrenReturn_false hr)
  failRdsr s hrow hr := (hrdsr s hrow (by simp [hr])).trans (latchRdsrReturn_false _ hr)

/-! ## WRSR -/

/-- Settles O16: the rows of `wrsrSeq`; its loop is WRENW's, with the frame called where the latch
is seen set. -/
theorem statusWriteRows : Obligations.StatusWriteRows := by
  intro o
  have hruns : Runs (.wrsr o) .none wrsrSeq toEnd := direct_runs rfl rfl
  have hcheck : ∀ s, s.inRow .none .check → exec (.wrsr o) s = startLatch s := fun s hrow => by
    rw [hruns s _ hrow (by simp), wrsrSeq, (sphase_of_inRow hrow)]
  have hmain : ∀ s, s.inRow .none .main → exec (.wrsr o) s = onReturn s endDirect :=
    fun s hrow => by rw [hruns s _ hrow (by simp), wrsrSeq, (sphase_of_inRow hrow)]; rfl
  refine ⟨fun s hrow hl => (hcheck s hrow).trans (startLatch_of_limit hl),
    fun s hrow hl => (hcheck s hrow).trans (startLatch_of_zero hl),
    latchRows_of (fun s hrow => ?_) (fun s hrow _ => ?_),
    fun s hrow hr => (hmain s hrow).trans (onReturn_true _ hr),
    fun s hrow hr => (hmain s hrow).trans (onReturn_false _ hr)⟩
  · rw [hruns s _ hrow (by simp), wrsrSeq, (sphase_of_inRow hrow)]
  · rw [hruns s _ hrow (by simp), wrsrSeq, (sphase_of_inRow hrow)]; rfl

end
end Sys2Proof.Machine

/-! # What the requests leave unchanged (R161-R171, R200, R203, R105)

A property that does not speak of the control registers, nor of the registers that a command writes,
holds after a row of the command if it held before. -/

namespace Sys2Proof.Machine

section
variable {P : State → Prop} {i : Instr} {d : Direct} {s t : State} {k ret : State → Res}

/-- Where the outcome is a next state, it has the property. -/
def Leads (P : State → Prop) (r : Res) : Prop := ∀ t, r = .next t → P t

theorem leads_next (h : P t) : Leads P (.next t) := by
  rintro _ ⟨⟩
  exact h

theorem leads_fault (f : Fault) : Leads P (.fault f) := fun _ h => by cases h

/-- The property does not speak of the control registers, and is kept where chip-select is
released. -/
structure OffControl (P : State → Prop) : Prop where
  control : ∀ u v : State, P u → P { u.withControlOf v with cs := u.cs }
  release : ∀ u : State, P u → P { u with cs := false }

/-- The property does not speak of what WAITWIP writes. -/
structure OffWait (P : State → Prop) : Prop where
  entry : ∀ u : State, P u → P { u with polls := 0 }
  polled : ∀ u, P u → P (polled u)

/-- The property does not speak of what WRENW writes. -/
structure OffLatch (P : State → Prop) : Prop where
  entry : ∀ u : State, P u → P { u with tries := 0 }
  tried : ∀ u, P u → P (tried u)

/-! ## The shared operations -/

section
variable (hP : OffControl P)
include hP

theorem OffControl.callFrame (p : SPhase) (f : FrameCall) (h : P s) : P (callFrame p f s) :=
  hP.control s (Machine.callFrame p f s) h

theorem OffControl.taken (h : P s) : P (taken s) := hP.control s (Machine.taken s) h

theorem OffControl.abort (c : Byte) (h : P s) : P (abort c s) :=
  hP.control _ (Machine.abort c s) (hP.release s h)

theorem onReturn_leads (h : P s) (hk : ∀ u, P u → Leads P (k u)) : Leads P (onReturn s k) := by
  intro t ht
  rcases onReturn_eq_next ht with ⟨-, rfl⟩ | ⟨-, ht⟩
  · exact hP.abort _ h
  · exact hk _ (hP.taken h) t ht

theorem startWait_leads (hw : OffWait P) (p : SPhase) (h : P s) : Leads P (startWait p s) := by
  intro t ht
  obtain ⟨-, rfl⟩ := startWait_eq_next ht
  exact hP.callFrame _ _ (hw.entry s h)

theorem waitReturn_leads (hw : OffWait P) (h : P s) (hk : ∀ u, P u → Leads P (k u)) :
    Leads P (waitReturn s k) := by
  refine onReturn_leads hP h fun u hu => ?_
  replace hu := hw.polled u hu
  split
  · exact hk _ hu
  · split
    · exact leads_next (hP.abort _ hu)
    · exact leads_next (hP.callFrame _ _ hu)

theorem startLatch_leads (hl : OffLatch P) (h : P s) : Leads P (startLatch s) := by
  intro t ht
  obtain ⟨-, rfl⟩ := startLatch_eq_next ht
  exact hP.callFrame _ _ (hl.entry s h)

theorem latchWrenReturn_leads (h : P s) : Leads P (latchWrenReturn s) :=
  onReturn_leads hP h fun _ hu => leads_next (hP.callFrame _ _ hu)

theorem latchRdsrReturn_leads (hl : OffLatch P) (h : P s) (hk : ∀ u, P u → Leads P (k u)) :
    Leads P (latchRdsrReturn s k) := by
  refine onReturn_leads hP h fun u hu => ?_
  replace hu := hl.tried u hu
  split
  · exact hk _ hu
  · split
    · exact leads_next (hP.abort _ hu)
    · exact leads_next (hP.callFrame _ _ hu)

/-! ## The command operations -/

section
variable (h : P s) (hret : ∀ u, P u → Leads P (ret u))
include h hret

theorem oneFrame_leads (call : State → FrameCall) {done : State → State}
    (hdone : ∀ u, P u → P (done u)) : Leads P (oneFrameSeq call done ret s) := by
  unfold oneFrameSeq
  split
  · exact leads_next (hP.callFrame _ _ h)
  · exact onReturn_leads hP h fun u hu => hret _ (hdone u hu)
  all_goals exact leads_fault _

theorem reset_leads (hpos : ∀ (u : State) n, P u → P { u with pos := n }) :
    Leads P (resetSeq ret s) := by
  unfold resetSeq
  split
  · exact leads_next (hP.callFrame _ _ (hpos s 0 h))
  · refine onReturn_leads hP h fun u hu => ?_
    split
    · exact leads_next (hP.callFrame _ _ (hpos u 1 hu))
    · exact hret u hu
  all_goals exact leads_fault _

theorem waitwip_leads (hw : OffWait P) : Leads P (waitwipSeq ret s) := by
  unfold waitwipSeq
  split
  · exact startWait_leads hP hw _ h
  · exact waitReturn_leads hP hw h hret
  all_goals exact leads_fault _

theorem wrenw_leads (hl : OffLatch P) : Leads P (wrenwSeq ret s) := by
  unfold wrenwSeq
  split
  · exact startLatch_leads hP hl h
  · exact latchWrenReturn_leads hP h
  · exact latchRdsrReturn_leads hP hl h hret
  all_goals exact leads_fault _

theorem wrsr_leads (hl : OffLatch P) : Leads P (wrsrSeq ret s) := by
  unfold wrsrSeq
  split
  · exact startLatch_leads hP hl h
  · exact latchWrenReturn_leads hP h
  · exact latchRdsrReturn_leads hP hl h fun _ hu => leads_next (hP.callFrame _ _ hu)
  · exact onReturn_leads hP h hret
  all_goals exact leads_fault _

theorem read_leads (hw : OffWait P) (hpos : ∀ (u : State) n, P u → P { u with pos := n })
    (hmem : ∀ (u : State) m l, P u → P { u with buffer := m, trace := l }) :
    Leads P (readSeq ret s) := by
  unfold readSeq
  split
  · exact startWait_leads hP hw _ h
  · exact waitReturn_leads hP hw h fun _ hu => leads_next (hP.callFrame _ _ hu)
  · split
    · exact onReturn_leads hP h fun u hu => leads_next (hpos u 0 hu)
    · unfold readMove
      split
      · intro t ht
        obtain ⟨-, ht⟩ := memWrite_eq_next ht
        cases ht
        exact hpos _ _ (hmem s _ _ h)
      · exact hret s h
  all_goals exact leads_fault _

theorem pp_leads (hw : OffWait P) (hl : OffLatch P)
    (hdata : ∀ (u : State) ds, P u → P { u with data := ds })
    (htrace : ∀ (u : State) l, P u → P { u with trace := l }) : Leads P (ppSeq ret s) := by
  unfold ppSeq
  split
  · split
    · exact startWait_leads hP hw _ h
    · exact leads_next (hP.abort _ h)
  · exact waitReturn_leads hP hw h fun _ => startLatch_leads hP hl
  · exact latchWrenReturn_leads hP h
  · split
    · exact latchRdsrReturn_leads hP hl h fun u hu => leads_next (hdata u [] hu)
    · unfold ppGather
      split
      · intro t ht
        obtain ⟨-, ht⟩ := memRead_eq_next ht
        cases ht
        exact hdata _ _ (htrace s _ h)
      · exact leads_next (hP.callFrame _ _ h)
  · exact onReturn_leads hP h hret
  all_goals exact leads_fault _

theorem erase_leads (hw : OffWait P) (hl : OffLatch P) (call : State → FrameCall)
    {load : State → State} (hload : ∀ u, P u → P (load u)) :
    Leads P (eraseSeq call load ret s) := by
  unfold eraseSeq
  split
  · exact startWait_leads hP hw _ (hload s h)
  · exact waitReturn_leads hP hw h fun _ => startLatch_leads hP hl
  · exact latchWrenReturn_leads hP h
  · exact latchRdsrReturn_leads hP hl h fun _ hu => leads_next (hP.callFrame _ _ hu)
  · exact onReturn_leads hP h fun _ => startWait_leads hP hw _
  · exact waitReturn_leads hP hw h hret
  · exact leads_fault _

end

/-! ## The requests -/

theorem endDirect_leads (h : P s) : Leads P (endDirect s) :=
  leads_next (hP.control s (toEnd s) h)

end

theorem direct_leads (h : directOf i = some d) (hacc : P (d.load (accept d.req s)))
    (hrsp : P (respondOk (d.rsp s))) (hseq : Leads P (d.seq endDirect s)) :
    Leads P (exec i s) := by
  intro t ht
  rw [exec_direct h] at ht
  rcases directRequest_eq_next ht with ⟨-, rfl⟩ | ⟨-, -, -, rfl⟩ | ⟨-, -, -, ht⟩
  · exact hacc
  · exact hrsp
  · exact hseq t ht

theorem rangeRequest_leads {r : Request} {load : State → State} {seq : State → Res}
    (hacc : P (load (accept r s))) (hrsp : P (respondOk s)) (hseq : Leads P (seq s)) :
    Leads P (rangeRequest r load seq s) := by
  intro t ht
  rcases rangeRequest_eq_next ht with ⟨-, rfl⟩ | ⟨-, -, -, rfl⟩ | ⟨-, -, ht⟩
  · exact hacc
  · exact hrsp
  · exact hseq t ht

theorem reserved_leads {c : Byte} {o : Operands}
    (h : P (abort codeCmd (accept (Request.of c o) s))) : Leads P (exec (.reserved c o) s) := by
  by_cases hp : s.phase = .busy
  · simp only [exec, execReserved, hp]
    exact leads_fault _
  · rw [exec_reserved_ready (reqReady_of_not_busy hp)]
    exact leads_next h

/-! ## Chip-select -/

/-- Chip-select is as in `s`, or released. -/
def CsReleased (s t : State) : Prop := t.cs = s.cs ∨ t.cs = false

theorem csReleased_offControl (s : State) : OffControl (CsReleased s) :=
  ⟨fun _ _ h => h, fun _ _ => .inr rfl⟩

theorem csReleased_offWait (s : State) : OffWait (CsReleased s) := ⟨fun _ h => h, fun _ h => h⟩

theorem csReleased_offLatch (s : State) : OffLatch (CsReleased s) := ⟨fun _ h => h, fun _ h => h⟩

theorem csReleased_refl (s : State) : CsReleased s s := .inl rfl

section
variable (hret : ∀ u, CsReleased s u → Leads (CsReleased s) (ret u))
include hret

theorem pp_csReleased : Leads (CsReleased s) (ppSeq ret s) :=
  pp_leads (csReleased_offControl s) (csReleased_refl s) hret (csReleased_offWait s)
    (csReleased_offLatch s) (fun _ _ h => h) (fun _ _ h => h)

theorem se_csReleased : Leads (CsReleased s) (seSeq ret s) :=
  erase_leads (csReleased_offControl s) (csReleased_refl s) hret (csReleased_offWait s)
    (csReleased_offLatch s) _ fun _ h => h

theorem ce_csReleased : Leads (CsReleased s) (ceSeq ret s) :=
  erase_leads (csReleased_offControl s) (csReleased_refl s) hret (csReleased_offWait s)
    (csReleased_offLatch s) _ fun _ h => h

theorem rdid_csReleased : Leads (CsReleased s) (rdidSeq ret s) :=
  oneFrame_leads (csReleased_offControl s) (csReleased_refl s) hret _ fun _ h => h

theorem reset_csReleased : Leads (CsReleased s) (resetSeq ret s) :=
  reset_leads (csReleased_offControl s) (csReleased_refl s) hret fun _ _ h => h

theorem direct_seq_csReleased (h : directOf i = some d) : Leads (CsReleased s) (d.seq ret s) := by
  have hP := csReleased_offControl s
  have hs := csReleased_refl s
  cases i with
  | reset _ => cases h; exact reset_csReleased hret
  | rdid _ => cases h; exact rdid_csReleased hret
  | rdsr1 _ | rdsr2 _ | wren _ | wrdi _ =>
    cases h; exact oneFrame_leads hP hs hret _ fun _ h => h
  | wrsr _ => cases h; exact wrsr_leads hP hs hret (csReleased_offLatch s)
  | read _ =>
    cases h
    exact read_leads hP hs hret (csReleased_offWait s) (fun _ _ h => h) (fun _ _ _ h => h)
  | pp _ => cases h; exact pp_csReleased hret
  | se _ => cases h; exact se_csReleased hret
  | ce _ => cases h; exact ce_csReleased hret
  | waitwip _ => cases h; exact waitwip_leads hP hs hret (csReleased_offWait s)
  | wrenw _ => cases h; exact wrenw_leads hP hs hret (csReleased_offLatch s)
  | _ => cases h

end

theorem direct_csReleased (h : directOf i = some d) : Leads (CsReleased s) (exec i s) := by
  refine direct_leads h ?_ ?_
    (direct_seq_csReleased (fun _ => endDirect_leads (csReleased_offControl s)) h) <;>
  · cases i <;> cases h <;> exact .inl rfl

theorem loopTest_csReleased {load : State → State} (hload : (load s).cs = s.cs) :
    Leads (CsReleased s) (loopTest load s) := by
  intro t ht
  rcases loopTest_eq_next ht with ⟨-, rfl⟩ | ⟨-, rfl⟩
  · exact .inl hload
  · exact .inl rfl

theorem initSeq_csReleased (s : State) : Leads (CsReleased s) (initSeq s) := by
  unfold initSeq
  split
  · exact reset_csReleased fun _ h => leads_next h
  · exact rdid_csReleased fun _ h => leads_next h
  · refine leads_next ?_
    unfold initCompare
    split
    · exact .inl rfl
    · exact .inr rfl
  all_goals exact leads_fault _

theorem writeSeq_csReleased (s : State) : Leads (CsReleased s) (writeSeq s) := by
  unfold writeSeq
  split
  · split
    · exact loopTest_csReleased rfl
    · exact pp_csReleased fun _ h => leads_next h
  all_goals exact leads_fault _

theorem eraseRangeSeq_csReleased (s : State) : Leads (CsReleased s) (eraseRangeSeq s) := by
  unfold eraseRangeSeq
  split
  · split
    · exact loopTest_csReleased rfl
    · exact se_csReleased fun _ h => leads_next h
  all_goals exact leads_fault _

theorem massSeq_csReleased (s : State) : Leads (CsReleased s) (massSeq s) := by
  unfold massSeq
  split
  · exact ce_csReleased fun _ h => leads_next h
  all_goals exact leads_fault _

/-- No request command asserts chip-select. -/
theorem request_csReleased (h : i.isRequest = true) : Leads (CsReleased s) (exec i s) := by
  cases requestKind h with
  | direct h => exact direct_csReleased h
  | init o =>
    rw [exec_init]; exact rangeRequest_leads (.inl rfl) (.inl rfl) (initSeq_csReleased s)
  | write o =>
    rw [exec_write]; exact rangeRequest_leads (.inl rfl) (.inl rfl) (writeSeq_csReleased s)
  | erase o =>
    rw [exec_erase]; exact rangeRequest_leads (.inl rfl) (.inl rfl) (eraseRangeSeq_csReleased s)
  | masserase o =>
    rw [exec_masserase]; exact rangeRequest_leads (.inl rfl) (.inl rfl) (massSeq_csReleased s)
  | reserved c o => exact reserved_leads (.inr rfl)

/-! ## The other registers -/

/-- `g` takes from its argument the registers that may change, and the others from the state before;
`u` differs from that state in these only. -/
def Within (g : State → State) (u : State) : Prop := u = g u

section
variable {g : State → State}

/-- An update of registers that `g` takes from its argument. -/
theorem within_update {f : State → State} (hf : ∀ u, f (g u) = g (f (g u))) (u : State)
    (h : Within g u) : Within g (f u) :=
  calc f u = f (g u) := congrArg f h
    _ = g (f (g u)) := hf u
    _ = g (f u) := congrArg (fun v => g (f v)) h.symm

theorem within_offControl
    (hc : ∀ u v, { (g u).withControlOf v with cs := (g u).cs } =
      g { (g u).withControlOf v with cs := (g u).cs })
    (hr : ∀ u, { g u with cs := false } = g { g u with cs := false }) : OffControl (Within g) where
  control u v := within_update (f := fun u => { u.withControlOf v with cs := u.cs }) (hc · v) u
  release := within_update (f := fun u => { u with cs := false }) hr

theorem within_offWait (he : ∀ u, { g u with polls := 0 } = g { g u with polls := 0 })
    (hp : ∀ u, polled (g u) = g (polled (g u))) : OffWait (Within g) where
  entry := within_update (f := fun u => { u with polls := 0 }) he
  polled := within_update hp

theorem within_offLatch (he : ∀ u, { g u with tries := 0 } = g { g u with tries := 0 })
    (ht : ∀ u, tried (g u) = g (tried (g u))) : OffLatch (Within g) where
  entry := within_update (f := fun u => { u with tries := 0 }) he
  tried := within_update ht

/-- A direct request whose rows change what `g` names, and whose acceptance and response do. -/
theorem direct_within (hP : OffControl (Within g)) (ht : exec i s = .next t)
    (h : directOf i = some d) (hacc : Within g (d.load (accept d.req s)))
    (hrsp : Within g (respondOk (d.rsp s)))
    (hseq : ∀ ret, (∀ u, Within g u → Leads (Within g) (ret u)) → Leads (Within g) (d.seq ret s)) :
    t = g t :=
  direct_leads h hacc hrsp (hseq _ fun _ => endDirect_leads hP) t ht

end
end

/-- Settles O41: each command's rows write the control registers and the registers named; of
chip-select, that every sequencer only ever releases it. -/
theorem frameOfRegisterCommands : Obligations.FrameOfRegisterCommands := by
  intro o s t
  refine ⟨fun i hi => ?none, fun c => ?reserved, ?reset, ?rdid, ?rdsr1, ?rdsr2, ?waitwip, ?wrenw,
    ?wrsr, fun i hi => request_csReleased hi t⟩
  case none =>
    have hP : OffControl (Within s.withControlOf) :=
      within_offControl (fun _ _ => rfl) fun _ => rfl
    simp only [List.mem_cons, List.not_mem_nil, or_false] at hi
    rcases hi with rfl | rfl <;>
      exact fun ht => direct_within hP ht rfl rfl rfl
        fun _ hret => oneFrame_leads hP (s := s) rfl hret _ fun _ h => h
  case reserved => exact reserved_leads (P := Within s.withControlOf) rfl t
  case reset =>
    have hP := within_offControl (fun _ _ => rfl) (fun _ => rfl)
      (g := fun u => { s.withControlOf u with pos := u.pos })
    exact fun ht => direct_within hP ht rfl rfl rfl fun _ hret => reset_leads hP rfl hret
      fun u n => within_update (f := fun u => { u with pos := n }) (fun _ => rfl) u
  case rdid =>
    have hP := within_offControl (fun _ _ => rfl) (fun _ => rfl)
      (g := fun u => { s.withControlOf u with id := u.id, rspId := u.rspId })
    exact fun ht => direct_within hP ht rfl rfl rfl fun _ hret =>
      oneFrame_leads hP (s := s) rfl hret _ (within_update fun _ => rfl)
  case rdsr1 =>
    have hP := within_offControl (fun _ _ => rfl) (fun _ => rfl)
      (g := fun u => { s.withControlOf u with sr := u.sr, rspSr := u.rspSr })
    exact fun ht => direct_within hP ht rfl rfl rfl fun _ hret =>
      oneFrame_leads hP (s := s) rfl hret _
        (within_update (f := fun u => { u with sr := u.rxByte 0 }) fun _ => rfl)
  case rdsr2 =>
    have hP := within_offControl (fun _ _ => rfl) (fun _ => rfl)
      (g := fun u => { s.withControlOf u with rspSr := u.rspSr })
    exact fun ht => direct_within hP ht rfl rfl rfl fun _ hret =>
      oneFrame_leads hP (s := s) rfl hret _ fun _ h => h
  case waitwip =>
    have hP := within_offControl (fun _ _ => rfl) (fun _ => rfl)
      (g := fun u => { s.withControlOf u with sr := u.sr, polls := u.polls })
    exact fun ht => direct_within hP ht rfl rfl rfl fun _ hret =>
      waitwip_leads hP rfl hret (within_offWait (fun _ => rfl) fun _ => rfl)
  case wrenw =>
    have hP := within_offControl (fun _ _ => rfl) (fun _ => rfl)
      (g := fun u => { s.withControlOf u with sr := u.sr, tries := u.tries })
    exact fun ht => direct_within hP ht rfl rfl rfl fun _ hret =>
      wrenw_leads hP rfl hret (within_offLatch (fun _ => rfl) fun _ => rfl)
  case wrsr =>
    have hP := within_offControl (g := fun u => { s.withControlOf u with
        sr := u.sr, tries := u.tries, wsr1 := u.wsr1, wsr2 := u.wsr2 })
      (fun _ _ => rfl) fun _ => rfl
    exact fun ht => direct_within hP ht rfl rfl rfl fun _ hret =>
      wrsr_leads hP rfl hret (within_offLatch (fun _ => rfl) fun _ => rfl)

end Sys2Proof.Machine

/-! # A request of one frame, from the port to the response (R26, R100-R102, R145)

The five steps: acceptance, the frame's call, the frame, its return, the response. -/

namespace Sys2Proof.Machine

section
variable {i j : Instr} {d : Direct} {s t : State} {f : FrameCall} {r : Request}
  {rest : List (BitVec 104)} {act done : State → State} {call : State → FrameCall}

/-! ## One step, by what it runs -/

theorem steps_succ (n : Nat) (h : step s = .next t) : steps (n + 1) s = steps n t := by
  rw [steps, h]

theorem resetAsserted_of_nil (hin : s.inputs = []) : s.resetAsserted = false := by
  rw [State.resetAsserted, hin]

theorem step_accept (ho : s.offered r rest) :
    step s = exec (decodeRequest r) { s with offers := rest } := by
  obtain ⟨hr, hb, -, hin, hof⟩ := ho
  rw [step_of_offer hr hb hof (resetAsserted_of_nil hin), applyInput_of_nil hin,
    Request.ofWord_word]

theorem step_busy (hin : s.inputs = []) (hb : s.bus = none) (hp : s.phase = .busy)
    (hi : decodeRequest s.req = i) (hx : exec i s = .next t) : step s = .next t := by
  rw [step_of_fetch_run (resetAsserted_of_nil hin)
    (by rw [applyInput_of_nil hin]; exact fetch_of_busy hb hp), hi, hx]

/-- A frame of the block on a released bus. -/
theorem step_frame (hin : s.inputs = []) (hb : s.bus = some f) (hc : s.cs = false)
    (hd : decodeFrame s.cfg.ops f = .ok j) (he : encode s.cfg.ops j = .frame f) :
    step s = .next (segments f (chipSide s.cfg j) s) := by
  rw [step_of_fetch_run (resetAsserted_of_nil hin)
    (by rw [applyInput_of_nil hin]; exact fetch_of_frame hb hd), exec_eq_busFrame he]
  exact busFrame_next f _ hc

/-- What a clean frame on a fitted chip returns. -/
theorem frameResult_clean {x : ChipSide} (hp : s.cfg.chipPresent = true) (hd : cleanDraw s.draw) :
    s.frameResult f x = { chip := x.react s.draw f.bytes (s.chip.settle s.draw), ok := true
                          rx := if f.rxn = 0 then [] else x.answer s.draw (s.chip.settle s.draw)
                          outcome := .ok } := by
  rw [State.frameResult, fitted_present hp, runSegments_ok hd.1 (.inl hd.2)]

/-! ## The run -/

theorem inRow_none {p : SPhase} (hp : s.phase = .busy) (hr : s.rphase = .none)
    (hs : s.sphase = p) : s.inRow .none p :=
  ⟨hp, hr, hs, by rw [State.testing, hr]; simp⟩

/-- The request `r`, offered in `s`, has been accepted and has called its frame `f`; `n` is the
count of frames done, which RESET writes. -/
def State.calling (s : State) (r : Request) (rest : List (BitVec 104)) (f : FrameCall) (n : Nat) :
    State :=
  callFrame .main f { accept r { s with offers := rest } with pos := n }

section
variable (h : directOf i = some d)
include h

/-- Acceptance, and the row of CHECK. -/
theorem calling_of_offered (ho : s.offered d.req rest) (hload : ∀ u, d.load u = u)
    (hact : ∀ u, ∃ n, act u = { u with pos := n })
    (hcall : CallRow i .none .check .main act call)
    (hf : call (act (accept d.req { s with offers := rest })) = f) :
    ∃ n, ∀ m, steps (m + 2) s = steps m (s.calling d.req rest f n) := by
  obtain ⟨hready, hb, -, hin, -⟩ := id ho
  obtain ⟨n, hn⟩ := hact (accept d.req { s with offers := rest })
  have haccept : step s = .next (accept d.req { s with offers := rest }) := by
    rw [step_accept ho, decodeRequest_direct h]
    exact exec_direct_ready h hready (hload _)
  have hcheck : step (accept d.req { s with offers := rest }) =
      .next (s.calling d.req rest f n) := by
    refine step_busy hin hb rfl (decodeRequest_direct h)
      ((hcall _ (inRow_none rfl rfl rfl)).trans ?_)
    rw [hf, hn]
    rfl
  exact ⟨n, fun m => (steps_succ _ haccept).trans (steps_succ _ hcheck)⟩

/-- The row of MAIN, and the response. -/
theorem respond_of_returned {u : State} (hrow : u.inRow .none .main)
    (hin : u.inputs = []) (hb : u.bus = none) (hq : u.req = d.req)
    (hret : exec i u = .next (toEnd (done (taken u))))
    (hdone : ∀ u, ∃ sr id, done u = { u with sr := sr, id := id }) (m : Nat) :
    steps (m + 2) u = steps m (respondOk (d.rsp (toEnd (done (taken u))))) := by
  obtain ⟨hp, hr, -, -⟩ := id hrow
  obtain ⟨sr, id, hd⟩ := hdone (taken u)
  have hi : decodeRequest u.req = i := hq ▸ decodeRequest_direct h
  refine (steps_succ _ (step_busy hin hb hp hi hret)).trans (steps_succ _ ?_)
  rw [hd]
  exact step_busy hin hb hp hi (exec_direct_finish h (inRow_none hp hr rfl) rfl)

end

/-- `u` is where a frame `f` that the chip answered as `x` does has just returned, in a request that
was offered in `s`. -/
structure Answered (s u : State) (f : FrameCall) (x : ChipSide) : Prop where
  rx : u.rx = if f.rxn = 0 then [] else x.answer s.draw (s.chip.settle s.draw)
  chip : u.chip = x.react s.draw f.bytes (s.chip.settle s.draw)
  sr : u.sr = s.sr
  trace : u.trace = .frame f u.rx .ok :: s.trace

/-- A direct request whose operation is one frame, on a fitted chip that answers it. -/
theorem oneFrame_run (h : directOf i = some d) (ho : s.offered d.req rest)
    (hload : ∀ u, d.load u = u) (hp : s.cfg.chipPresent = true) (hd : cleanDraw s.draw)
    (hact : ∀ u, ∃ n, act u = { u with pos := n })
    (hcall : CallRow i .none .check .main act call)
    (hf : call (act (accept d.req { s with offers := rest })) = f)
    (hdec : decodeFrame s.cfg.ops f = .ok j) (he : encode s.cfg.ops j = .frame f)
    (hret : ∀ u : State, u.cfg = s.cfg → u.inRow .none .main → u.ret = some true →
      exec i u = .next (toEnd (done (taken u))))
    (hdone : ∀ u, ∃ sr id, done u = { u with sr := sr, id := id }) :
    ∃ u, steps 5 s = .next (respondOk (d.rsp (toEnd (done u)))) ∧
      (respondOk (d.rsp (toEnd (done u)))).endedOk rest ∧ Answered s u f (chipSide s.cfg j) := by
  obtain ⟨-, -, hcs, hin, -⟩ := id ho
  obtain ⟨n, hsteps⟩ := calling_of_offered h ho hload hact hcall hf
  have hframe := step_frame (s := s.calling d.req rest f n) hin rfl hcs hdec he
  have hres := frameResult_clean (s := s.calling d.req rest f n) (f := f)
    (x := chipSide s.cfg j) hp hd
  have hrow : (segments f (chipSide s.cfg j) (s.calling d.req rest f n)).inRow .none .main :=
    inRow_none rfl rfl rfl
  have hok : (segments f (chipSide s.cfg j) (s.calling d.req rest f n)).ret = some true := by
    rw [segments_ret, hres]
  have hend := respond_of_returned h hrow hin rfl rfl (hret _ rfl hrow hok) hdone 0
  refine ⟨_, (hsteps 3).trans ((steps_succ _ hframe).trans hend), ?_, ?_⟩
  · obtain ⟨sr, id, hdone⟩ := hdone
      (taken (segments f (chipSide s.cfg j) (s.calling d.req rest f n)))
    obtain ⟨rspSr, rspId, hrsp⟩ := direct_rsp h (toEnd _)
    rw [hdone, hrsp]
    exact ⟨rfl, rfl, rfl, hcs, ⟨rfl, rfl⟩, rfl⟩
  · exact ⟨congrArg FrameResult.rx hres, congrArg FrameResult.chip hres, rfl,
      congrArg (fun o => Event.frame f _ o :: s.trace) (congrArg FrameResult.outcome hres)⟩

/-- The commands of `oneFrameSeq`. -/
theorem oneFrameSeq_run (h : directOf i = some d) (hseq : d.seq = oneFrameSeq call done)
    (ho : s.offered d.req rest) (hload : ∀ u, d.load u = u) (hp : s.cfg.chipPresent = true)
    (hd : cleanDraw s.draw) (hf : call (accept d.req { s with offers := rest }) = f)
    (hdec : decodeFrame s.cfg.ops f = .ok j) (he : encode s.cfg.ops j = .frame f)
    (hdone : ∀ u, ∃ sr id, done u = { u with sr := sr, id := id }) :
    ∃ u, steps 5 s = .next (respondOk (d.rsp (toEnd (done u)))) ∧
      (respondOk (d.rsp (toEnd (done u)))).endedOk rest ∧ Answered s u f (chipSide s.cfg j) :=
  oneFrame_run h ho hload hp hd (fun _ => ⟨_, rfl⟩) (oneFrame_callRow (direct_runs h hseq)) hf hdec
    he (fun u _ => oneFrame_returnRow (direct_runs h hseq) u) hdone

theorem callReset_single (h : s.cfg.resetFraming = .single) :
    s.callReset = frameRstenRst s.cfg.ops := by rw [State.callReset, h]

/-- RESET under SINGLE. -/
theorem reset_run {o : Operands} (ho : s.offered (Request.of 0x01 o) rest) (hw : s.cfg.ops.wf)
    (hp : s.cfg.chipPresent = true) (hd : cleanDraw s.draw)
    (hsingle : s.cfg.resetFraming = .single) :
    ∃ u, steps 5 s = .next (respondOk (toEnd u)) ∧ (respondOk (toEnd u)).endedOk rest ∧
      Answered s u (frameRstenRst s.cfg.ops) (chipSide s.cfg .spiRstenRst) := by
  have hruns : Runs (.reset o) .none resetSeq toEnd := direct_runs rfl rfl
  refine oneFrame_run (i := .reset o) (done := fun u => u) rfl ho (fun _ => rfl) hp hd
    (fun _ => ⟨0, rfl⟩) (reset_callRow hruns) (callReset_single hsingle)
    (Laws.DecodeEncode.spiRstenRst s.cfg.ops hw rfl) rfl (fun u hcfg hrow hr => ?_)
    fun _ => ⟨_, _, rfl⟩
  exact reset_lastReturn hruns hrow hr (by simp [hcfg, hsingle])

end

/-- Settles O54: each run ends in the response to what its frame received, on the chip that its
frame left. -/
theorem oneFrameRequestsRunToResponse : Obligations.OneFrameRequestsRunToResponse := by
  intro s r rest ho hw hp hd
  have hoffered (c : Byte) (hc : r.cmd = c) : s.offered (Request.of c r.operands) rest := by
    rw [← hc]; exact ho
  refine ⟨fun hc => ?rdid, fun hc => ?rdsr1, fun hc => ?rdsr2, fun hc => ?wren, fun hc => ?wrdi,
    fun hc hsingle hpair => ?reset⟩
  case rdid =>
    obtain ⟨u, hrun, hend, hu⟩ := oneFrameSeq_run (i := .rdid r.operands) (j := .spiRdid) rfl rfl
      (hoffered _ hc) (fun _ => rfl) hp hd rfl (Laws.DecodeEncode.spiRdid _ hw.ops rfl) rfl
      fun _ => ⟨_, _, rfl⟩
    have hrx : u.rx = [s.cfg.chipId.mfr, s.cfg.chipId.type, s.cfg.chipId.cap] := hu.rx
    obtain ⟨hm, ht, hcap⟩ := rxByte_of_three hrx
    refine ⟨_, hrun, hend, ?_, hu.trace.trans (by rw [hrx]; rfl)⟩
    show Ident.mk (u.rxByte 0) (u.rxByte 1) (u.rxByte 2) = s.cfg.chipId
    rw [hm, ht, hcap]
  case rdsr1 =>
    obtain ⟨u, hrun, hend, hu⟩ := oneFrameSeq_run (i := .rdsr1 r.operands) (j := .spiRdsr1) rfl rfl
      (hoffered _ hc) (fun _ => rfl) hp hd rfl (Laws.DecodeEncode.spiRdsr1 _ hw.ops rfl) rfl
      fun _ => ⟨_, _, rfl⟩
    have hb : u.rxByte 0 = (s.chip.settle s.draw).statusByte s.cfg s.draw := rxByte_of_one hu.rx
    refine ⟨_, hrun, hend, ?_⟩
    show (isBusy s.cfg (u.rxByte 0) = true ↔ _) ∧ (isWriteEnabled s.cfg (u.rxByte 0) = true ↔ _)
    rw [hb, isBusy_statusByte hw, isWriteEnabled_statusByte hw]
    exact ⟨Iff.rfl, Iff.rfl⟩
  case rdsr2 =>
    obtain ⟨u, hrun, hend, hu⟩ := oneFrameSeq_run (i := .rdsr2 r.operands) (j := .spiRdsr2) rfl rfl
      (hoffered _ hc) (fun _ => rfl) hp hd rfl (Laws.DecodeEncode.spiRdsr2 _ hw.ops rfl) rfl
      fun _ => ⟨_, _, rfl⟩
    have hb : u.rxByte 0 = (s.chip.settle s.draw).sr2 := rxByte_of_one hu.rx
    exact ⟨_, hrun, hend, hb.trans (settle_sr2 ..), hu.sr⟩
  case wren =>
    obtain ⟨u, hrun, hend, hu⟩ := oneFrameSeq_run (i := .wren r.operands) (j := .spiWren) rfl rfl
      (hoffered _ hc) (fun _ => rfl) hp hd rfl (Laws.DecodeEncode.spiWren _ hw.ops rfl) rfl
      fun _ => ⟨_, _, rfl⟩
    have hchip : u.chip = (s.chip.settle s.draw).disarm.wren s.draw := hu.chip
    refine ⟨_, hrun, hend, fun hdrop => (congrArg Chip.wel hchip).trans ?_⟩
    rw [Chip.wren, if_neg (by simp [hdrop])]
  case wrdi =>
    obtain ⟨u, hrun, hend, hu⟩ := oneFrameSeq_run (i := .wrdi r.operands) (j := .spiWrdi) rfl rfl
      (hoffered _ hc) (fun _ => rfl) hp hd rfl (Laws.DecodeEncode.spiWrdi _ hw.ops rfl) rfl
      fun _ => ⟨_, _, rfl⟩
    exact ⟨_, hrun, hend, congrArg Chip.wel hu.chip⟩
  case reset =>
    obtain ⟨u, hrun, hend, hu⟩ := reset_run (hoffered _ hc) hw.ops hp hd hsingle
    have hchip : u.chip = (s.chip.settle s.draw).powerOn s.cfg s.draw :=
      hu.chip.trans (if_neg (by simp [hpair]))
    exact ⟨_, hrun, hend, congrArg Chip.wip hchip, congrArg Chip.wel hchip⟩

end Sys2Proof.Machine

/-! # The status read before a mutation or a READ (R208, R86)

The invariant says of every position with a mutating frame just called that the latch was seen, and
of READ's that the chip was seen idle; no other position has such a frame on the bus. -/

namespace Sys2Proof.Machine

/-- The frames of the mutating commands (R77, R78). -/
def mutates : Instr → Bool
  | .spiWrsr _ _ | .spiPp _ _ | .spiSe _ | .spiCe => true
  | _ => false

/-- The frame that reads the array (R72). -/
def readsArray : Instr → Bool
  | .spiRead _ _ => true
  | _ => false

theorem mutates_spiRead (a : WireAddr) (n : Nat) : mutates (.spiRead a n) = false := rfl

/-- What the last frame recorded must show before the frame `f` is sent: the latch set if `f`
mutates (R208), the chip idle if it reads the array (R86). -/
def State.cleared (s : State) (f : FrameCall) : Prop :=
  ∀ i, decodeFrame s.cfg.ops f = .ok i →
    (mutates i = true → s.latchSeen) ∧ (readsArray i = true → s.idleSeen)

section
variable {i j : Instr} {s t : State} {f g : FrameCall} (ho : s.cfg.ops.wf)

include ho

/-- A frame's bytes name one instruction, so what must precede it is what that one needs. -/
theorem cleared_of_encode (hj : j.wf = true) (he : encode s.cfg.ops j = .frame f)
    (hm : mutates j = true → s.latchSeen) (hr : readsArray j = true → s.idleSeen) :
    s.cleared f := by
  intro i hi
  have hdec : decode s.cfg.ops (.frame f) = .ok j := he ▸ decodeInvertsEncode _ j ho hj
  obtain rfl : i = j := Except.ok.inj (hi.symm.trans hdec)
  exact ⟨hm, hr⟩

/-! ## The frames that nothing has to precede -/

theorem cleared_free (hj : j.wf = true) (he : encode s.cfg.ops j = .frame f)
    (hm : mutates j = false) (hr : readsArray j = false) : s.cleared f :=
  cleared_of_encode ho hj he (by simp [hm]) (by simp [hr])

theorem cleared_callRdsr1 : s.cleared s.callRdsr1 :=
  cleared_free (j := .spiRdsr1) ho rfl rfl rfl rfl
theorem cleared_callRdsr2 : s.cleared s.callRdsr2 :=
  cleared_free (j := .spiRdsr2) ho rfl rfl rfl rfl
theorem cleared_callRdid : s.cleared s.callRdid :=
  cleared_free (j := .spiRdid) ho rfl rfl rfl rfl
theorem cleared_callWren : s.cleared s.callWren :=
  cleared_free (j := .spiWren) ho rfl rfl rfl rfl
theorem cleared_callWrdi : s.cleared s.callWrdi :=
  cleared_free (j := .spiWrdi) ho rfl rfl rfl rfl
theorem cleared_callRst : s.cleared s.callRst :=
  cleared_free (j := .spiRst) ho rfl rfl rfl rfl

theorem cleared_callReset : s.cleared s.callReset := by
  unfold State.callReset
  split
  · exact cleared_free (j := .spiRstenRst) ho rfl rfl rfl rfl
  · exact cleared_free (j := .spiRsten) ho rfl rfl rfl rfl

/-! ## The positions of each command operation with a frame on the bus -/

variable (hb : s.bus = some f)
include hb

/-- The main frame of a mutating command stands on the bus only right after the latch was seen. -/
theorem cleared_of_inMutation (h : s.inMutation g) (hj : j.wf = true)
    (he : encode s.cfg.ops j = .frame g) (hr : readsArray j = false) : s.cleared f := by
  have hlatch : s.latchSeen := by
    rcases h with ⟨-, hlatch⟩ | ⟨hnone, -⟩
    · exact hlatch
    · rw [hb] at hnone; cases hnone
  rw [called_eq hb (inMut_inFrame h)]
  exact cleared_of_encode ho hj he (fun _ => hlatch) (by simp [hr])

theorem resetAt_cleared (h : resetAt s) : s.cleared f := by
  rcases resetAt_frame hb h with rfl | ⟨-, rfl⟩
  · exact cleared_callReset ho
  · exact cleared_callRst ho

theorem waitwipAt_cleared (h : waitwipAt s) : s.cleared f :=
  waitwipAt_frame hb h ▸ cleared_callRdsr1 ho

theorem wrenwAt_cleared (h : wrenwAt s) : s.cleared f := by
  rcases wrenwAt_frame hb h with rfl | rfl
  · exact cleared_callWren ho
  · exact cleared_callRdsr1 ho

theorem wrsrAt_cleared (h : wrsrAt s) : s.cleared f := by
  unfold wrsrAt at h
  split at h
  · exact (not_quiet hb h).elim
  · exact called_eq hb h ▸ cleared_callWren ho
  · exact called_eq hb h ▸ cleared_callRdsr1 ho
  · exact cleared_of_inMutation (j := .spiWrsr _ _) ho hb h rfl rfl rfl
  all_goals cases h

theorem readAt_cleared (h : readAt s) : s.cleared f := by
  unfold readAt at h
  split at h
  · exact (not_quiet hb h).elim
  · exact called_eq hb h ▸ cleared_callRdsr1 ho
  · rcases h with ⟨hc, hidle⟩ | ⟨hnone, -⟩ | ⟨hq, -⟩
    · have hlen : (Instr.spiRead (wireAddr s.addr) s.len.toNat).wf = true := by
        simpa only [Instr.wf, decide_eq_true_eq] using s.len.isLt
      rw [called_eq hb (.inl hc)]
      exact cleared_of_encode ho hlen rfl (by rw [mutates_spiRead]; nofun) fun _ => hidle
    · rw [hb] at hnone; cases hnone
    · exact (not_quiet hb hq).elim
  all_goals cases h

theorem ppAt_cleared (h : ppAt s) : s.cleared f := by
  unfold ppAt at h
  split at h
  · exact (not_quiet hb h).elim
  · exact called_eq hb h.2 ▸ cleared_callRdsr1 ho
  · exact called_eq hb h.2 ▸ cleared_callWren ho
  · rcases h.2 with h | ⟨hq, -⟩
    · exact called_eq hb h ▸ cleared_callRdsr1 ho
    · exact (not_quiet hb hq).elim
  · obtain ⟨hfit, hlen, h⟩ := h
    exact cleared_of_inMutation (j := .spiPp (wireAddr s.addr) s.data) ho hb h
      (fits_wire hfit hlen) rfl rfl
  all_goals cases h

/-- SE and CE, with the main frame `g` of `j`, which is well-formed past CHECK. -/
theorem eraseAt_cleared {past : Prop} (hj : past → j.wf = true)
    (he : encode s.cfg.ops j = .frame g) (hr : readsArray j = false) (h : eraseAt g past s) :
    s.cleared f := by
  unfold eraseAt at h
  split at h
  · exact (not_quiet hb h).elim
  · exact called_eq hb h.2 ▸ cleared_callRdsr1 ho
  · exact called_eq hb h.2 ▸ cleared_callWren ho
  · exact called_eq hb h.2 ▸ cleared_callRdsr1 ho
  · exact cleared_of_inMutation ho hb h.2 (hj h.1) he hr
  · exact called_eq hb h.2 ▸ cleared_callRdsr1 ho
  · cases h

theorem seAt_cleared (h : seAt s) : s.cleared f :=
  eraseAt_cleared (j := .spiSe (wireAddr s.addr)) ho hb
    (fun ha => decide_eq_true (by rw [ha, sector_aligned])) rfl rfl h

theorem ceAt_cleared (h : ceAt s) : s.cleared f :=
  eraseAt_cleared (j := .spiCe) ho hb (fun _ => rfl) rfl rfl h

/-! ## The request in progress -/

theorem busyAt_cleared (h : busyAt i s) : s.cleared f := by
  cases i with
  | reset _ => exact resetAt_cleared ho hb (directAt_of_bus hb h).2
  | rdid _ => exact oneFrameAt_frame hb (directAt_of_bus hb h).2 ▸ cleared_callRdid ho
  | rdsr1 _ => exact oneFrameAt_frame hb (directAt_of_bus hb h).2 ▸ cleared_callRdsr1 ho
  | rdsr2 _ => exact oneFrameAt_frame hb (directAt_of_bus hb h).2 ▸ cleared_callRdsr2 ho
  | wren _ => exact oneFrameAt_frame hb (directAt_of_bus hb h).2 ▸ cleared_callWren ho
  | wrdi _ => exact oneFrameAt_frame hb (directAt_of_bus hb h).2 ▸ cleared_callWrdi ho
  | wrsr _ => exact wrsrAt_cleared ho hb (directAt_of_bus hb h).2
  | read _ => exact readAt_cleared ho hb (directAt_of_bus hb h).2
  | pp _ => exact ppAt_cleared ho hb (directAt_of_bus hb h).2
  | se _ => exact seAt_cleared ho hb (directAt_of_bus hb h).2
  | ce _ => exact ceAt_cleared ho hb (directAt_of_bus hb h).2
  | waitwip _ => exact waitwipAt_cleared ho hb (directAt_of_bus hb h).2
  | wrenw _ => exact wrenwAt_cleared ho hb (directAt_of_bus hb h).2
  | init _ =>
    rcases h with ⟨-, hin⟩ | ⟨-, hin⟩ | ⟨-, -, hq⟩
    · exact resetAt_cleared ho hb hin
    · exact oneFrameAt_frame hb hin ▸ cleared_callRdid ho
    · exact (not_quiet hb hq).elim
  | write _ => exact ppAt_cleared ho hb (busyAt_write_of_bus hb h).2.1
  | erase _ => exact seAt_cleared ho hb (busyAt_erase_of_bus hb h).2.1
  | masserase _ =>
    rcases h with ⟨-, -, hq⟩ | ⟨-, hin⟩
    · exact (not_quiet hb hq).elim
    · exact ceAt_cleared ho hb hin
  | _ => exact h.elim

end

/-- Settles O47: the state after the step is one of the invariant, whose position has a mutating or
a READ frame on the bus only with the status read that R208 or R86 asks for as the last frame. -/
theorem mutationFollowsTheLatch : Obligations.MutationFollowsTheLatch := by
  intro s t f i ho hi hstep hb hdec
  obtain ⟨hinv, hcfg⟩ := invariantKeptByEveryStep s t ho hi hstep
  rw [← hcfg] at ho hdec ⊢
  obtain ⟨-, hat⟩ := busy_of_controlOk (busy_of_bus hinv hb) hinv.control
  obtain ⟨hlatch, hidle⟩ := busyAt_cleared ho hb hat i hdec
  refine ⟨fun hm => ?latch, fun hr => ?idle⟩
  case latch =>
    have hmut : mutates i = true := by
      rcases hm with ⟨r1, r2, rfl⟩ | ⟨a, d, rfl⟩ | ⟨a, rfl⟩ | rfl <;> rfl
    obtain ⟨hlast, hset⟩ := hlatch hmut
    exact ⟨t.sr, hlast, bne_iff_ne.mp hset⟩
  case idle =>
    obtain ⟨a, n, rfl⟩ := hr
    obtain ⟨hlast, hclear⟩ := hidle rfl
    exact ⟨t.sr, hlast, bne_eq_false_iff_eq.mp hclear⟩

end Sys2Proof.Machine

/-! # The rows of the two waits (R200, R203, R206)

WAITWIP's rows, whoever runs them, and WAITWIP and WRENW as direct requests. -/

namespace Sys2Proof.Machine

section
variable {i : Instr} {r : RPhase} {s : State} {k : State → Res} {b : Byte}

/-! ## WAITWIP's rows, whoever runs them -/

theorem startWait_of_zero {p : SPhase} (h : s.cfg.wipLimit = some 0) :
    startWait p s = .fault .zeroLimit := if_pos h

theorem startWait_of_limit {p : SPhase} (h : s.cfg.wipLimit ≠ some 0) :
    startWait p s = .next (callFrame p s.callRdsr1 { s with polls := 0 }) := if_neg h

section
variable (hb : s.gotByte b)
include hb

theorem waitReturn_idle (h : b &&& s.cfg.wipMask = 0) : waitReturn s k =
    k { s with ret := none, sr := b, polls := s.polls + 1 } := by
  obtain ⟨hr, hrx⟩ := hb
  obtain rfl := rxByte_of_one hrx
  have hidle : (!isBusy s.cfg (s.rxByte 0)) = true := by simp [isBusy, h]
  exact (onReturn_true _ hr).trans (if_pos hidle)

theorem waitReturn_again (h : b &&& s.cfg.wipMask ≠ 0)
    (hl : underLimit s.cfg.wipLimit (s.polls + 1)) : waitReturn s k =
    .next (callFrame s.sphase s.callRdsr1 { s with sr := b, polls := s.polls + 1 }) := by
  obtain ⟨hr, hrx⟩ := hb
  obtain rfl := rxByte_of_one hrx
  have hbusy : ¬ (!isBusy s.cfg (s.rxByte 0)) = true := by simpa [isBusy] using h
  refine (onReturn_true _ hr).trans ((if_neg hbusy).trans ?_)
  exact if_neg (Bool.eq_false_iff.mp (limitReached_of_underLimit hl))

theorem waitReturn_limit (h : b &&& s.cfg.wipMask ≠ 0)
    (hl : atLimit s.cfg.wipLimit (s.polls + 1)) : waitReturn s k =
    .next (abort codeTimeout { s with sr := b, polls := s.polls + 1 }) := by
  obtain ⟨hr, hrx⟩ := hb
  obtain rfl := rxByte_of_one hrx
  have hbusy : ¬ (!isBusy s.cfg (s.rxByte 0)) = true := by simpa [isBusy] using h
  refine (onReturn_true _ hr).trans ((if_neg hbusy).trans ?_)
  exact if_pos (limitReached_of_atLimit hl)

end

/-- A wait begins where the request runs WAITWIP's entry, after `act`. -/
theorem waitEntry_of {p q : SPhase} {act : State → State} (hcfg : ∀ s, (act s).cfg = s.cfg)
    (h : ∀ s, s.inRow r p → exec i s = startWait q (act s)) : WaitEntry i r p q act where
  start s hrow hl := by
    have hcall : (act s).callRdsr1 = s.callRdsr1 :=
      congrArg (fun c : Config => frameReceive c.ops.rdsr1 1) (hcfg s)
    rw [h s hrow, startWait_of_limit (by rwa [hcfg]), hcall]
    rfl
  zero s hrow hl := (h s hrow).trans (startWait_of_zero (by rwa [hcfg]))

/-- The rows of WAITWIP, of a request that runs its return in phase `p`. The caller goes on with
`k`, which leads to `after` where `pre` holds. -/
theorem pollRows_of {p : SPhase} {pre : State → Prop} {after : State → State}
    (h : ∀ s, s.inRow r p → exec i s = waitReturn s k)
    (hk : ∀ s u : State, pre s → u.cfg = s.cfg → k u = .next (after u)) :
    PollRows i r p pre after where
  idle s _ hrow hb hm hpre := (h s hrow).trans ((waitReturn_idle hb hm).trans (hk s _ hpre rfl))
  again s _ hrow hb hm hl := (h s hrow).trans (waitReturn_again hb hm hl)
  limit s _ hrow hb hm hl := (h s hrow).trans (waitReturn_limit hb hm hl)
  fail s hrow hr := (h s hrow).trans (waitReturn_false k hr)

/-! ## The direct requests, phase by phase -/

section
variable {o : Operands}

theorem waitwip_runs (o : Operands) : Runs (.waitwip o) .none waitwipSeq toEnd :=
  direct_runs rfl rfl

theorem wrenw_runs (o : Operands) : Runs (.wrenw o) .none wrenwSeq toEnd := direct_runs rfl rfl

theorem exec_waitwip_check (h : s.inRow .none .check) :
    exec (.waitwip o) s = startWait .preWip s := by
  rw [waitwip_runs o s _ h (by simp), waitwipSeq, sphase_of_inRow h]

theorem exec_waitwip_preWip (h : s.inRow .none .preWip) :
    exec (.waitwip o) s = waitReturn s endDirect := by
  rw [waitwip_runs o s _ h (by simp), waitwipSeq, sphase_of_inRow h]; rfl

theorem exec_wrenw_check (h : s.inRow .none .check) : exec (.wrenw o) s = startLatch s := by
  rw [wrenw_runs o s _ h (by simp), wrenwSeq, sphase_of_inRow h]

theorem exec_wrenw_welWren (h : s.inRow .none .welWren) :
    exec (.wrenw o) s = latchWrenReturn s := by
  rw [wrenw_runs o s _ h (by simp), wrenwSeq, sphase_of_inRow h]

theorem exec_wrenw_welRdsr (h : s.inRow .none .welRdsr) :
    exec (.wrenw o) s = latchRdsrReturn s endDirect := by
  rw [wrenw_runs o s _ h (by simp), wrenwSeq, sphase_of_inRow h]; rfl

end
end

/-- Settles O17: WAITWIP's entry at CHECK and its return in PRE_WIP, which leads to END. -/
theorem waitwipRows : Obligations.WaitwipRows := fun _ =>
  ⟨waitEntry_of (fun _ => rfl) fun _ => exec_waitwip_check,
    pollRows_of (fun _ => exec_waitwip_preWip) fun _ _ _ _ => rfl⟩

/-- Settles O18: WRENW's entry at CHECK and the two returns of its loop, which leads to END. -/
theorem wrenwRows : Obligations.WrenwRows := fun _ =>
  ⟨fun _ hrow hl => (exec_wrenw_check hrow).trans (startLatch_of_limit hl),
    fun _ hrow hl => (exec_wrenw_check hrow).trans (startLatch_of_zero hl),
    latchRows_of (fun _ => exec_wrenw_welWren) fun _ hrow _ => exec_wrenw_welRdsr hrow⟩

end Sys2Proof.Machine

/-! # WRENW and a chip that drops write enables (R203)

One try of the loop is a write enable and a status read that shows whether the latch took it; the
run is as many tries as the chip drops, and one more. -/

namespace Sys2Proof.Machine

/-- What a try leaves of the record, newest first: its write enable, and the status read that
answered `b`. -/
def tryRecord (c : Config) (b : Byte) : List Event :=
  [.frame (frameReceive c.ops.rdsr1 1) [b] .ok, .frame (frameOp c.ops.wren) [] .ok]

/-- A direct WRENW in progress at phase `p` of its loop: the answers `ds` are to come, the chip is
idle and its latch is `latch`. -/
structure Trying (c : Config) (rest : List (BitVec 104)) (o : Operands) (p : SPhase)
    (ds : List Draw) (latch : Bool) (u : State) : Prop where
  row : u.inRow .none p
  cs : u.cs = false
  inputs : u.inputs = []
  req : decodeRequest u.req = .wrenw o
  cfg : u.cfg = c
  offers : u.offers = rest
  draws : u.draws = ds
  wip : u.chip.wip = false
  wel : u.chip.wel = latch

section
variable {c : Config} {rest : List (BitVec 104)} {o : Operands} {p : SPhase} {d d' : Draw}
  {ds : List Draw} {latch latch' : Bool} {b : Byte} {u v : State} {f : FrameCall} {i : Instr}

/-! ## One step of the loop -/

/-- A row that goes to phase `q` and leaves alone what the loop rests on. -/
theorem Trying.next (h : Trying c rest o p ds latch u) (q : SPhase)
    (hv : v = { u with sphase := q, sr := v.sr, tries := v.tries, bus := v.bus, ret := v.ret }) :
    Trying c rest o q ds latch v := by
  obtain ⟨hp, hr, -, -⟩ := h.row
  rw [hv]
  exact { h with row := inRow_none hp hr rfl }

theorem Trying.step_row (h : Trying c rest o p ds latch u) (hb : u.bus = none)
    (hx : exec (.wrenw o) u = .next v) : step u = .next v := by
  obtain ⟨hp, -⟩ := id h.row
  exact step_busy h.inputs hb hp h.req hx

/-- A clean frame of the loop, on the fitted chip, which is idle and so has nothing to complete. -/
theorem Trying.step_frame (h : Trying c rest o p (d :: ds) latch u) (hw : c.ops.wf)
    (hp : c.chipPresent = true) (hd : cleanDraw d) (hb : u.bus = some f) (hi : i.wf = true)
    (he : encode c.ops i = .frame f) : ∃ v, step u = .next v ∧ v.bus = none ∧
      v.ret = some true ∧ v.rx = (if f.rxn = 0 then [] else (chipSide c i).answer d u.chip) ∧
      v.chip = (chipSide c i).react d f.bytes u.chip ∧ v.trace = .frame f v.rx .ok :: u.trace ∧
      (v.chip.wip = false → v.chip.wel = latch' → Trying c rest o p ds latch' v) := by
  obtain rfl := h.cfg
  have hdec : decode u.cfg.ops (.frame f) = .ok i := he ▸ decodeInvertsEncode _ i hw hi
  have hdraw : u.draw = d := by rw [State.draw, h.draws]
  have hres := frameResult_clean (f := f) (x := chipSide u.cfg i) hp (hdraw.symm ▸ hd)
  rw [hdraw, settle_of_no_completion (.inl h.wip)] at hres
  refine ⟨_, Machine.step_frame h.inputs hb h.cs hdec he, rfl, ?_, ?_, ?_, ?_,
    fun hwip hwel => ⟨h.row, h.cs, h.inputs, h.req, rfl, h.offers, ?_, hwip, hwel⟩⟩
  · rw [segments_ret, hres]
  · rw [segments_rx, hres]
  · rw [segments_chip, hres]
  · rw [segments_trace, segments_rx, hres]
  · rw [segments_draws, h.draws]; rfl

section
variable (hw : c.Wf) (hp : c.chipPresent = true)
include hw hp

/-- R75: a write enable sets the latch of the idle chip, unless it is dropped. -/
theorem Trying.step_wren (h : Trying c rest o p (d :: ds) latch u) (hd : cleanDraw d)
    (hb : u.bus = some (frameOp c.ops.wren)) : ∃ v, step u = .next v ∧ v.bus = none ∧
      v.ret = some true ∧ v.trace = .frame (frameOp c.ops.wren) [] .ok :: u.trace ∧
      Trying c rest o p ds (!d.dropWren || latch) v := by
  obtain ⟨v, hstep, hbus, hret, hrx, hchip, htrace, hv⟩ :=
    h.step_frame (i := .spiWren) hw.ops hp hd hb rfl rfl
  replace hchip : v.chip = u.chip.disarm.wren d := hchip
  rw [show v.rx = [] from hrx] at htrace
  refine ⟨v, hstep, hbus, hret, htrace, hv ?_ ?_⟩ <;> rw [hchip, Chip.wren] <;>
    cases d.dropWren <;> simp [Chip.disarm, h.wip, h.wel]

/-- R73: a status read leaves the chip's flags and answers with them. -/
theorem Trying.step_rdsr1 (h : Trying c rest o p (d :: ds) latch u) (hd : cleanDraw d)
    (hb : u.bus = some (frameReceive c.ops.rdsr1 1)) :
    ∃ v b, step u = .next v ∧ v.bus = none ∧ v.gotByte b ∧ isWriteEnabled c b = latch ∧
      v.trace = .frame (frameReceive c.ops.rdsr1 1) [b] .ok :: u.trace ∧
      Trying c rest o p ds latch v := by
  obtain ⟨v, hstep, hbus, hret, hrx, hchip, htrace, hv⟩ :=
    h.step_frame (i := .spiRdsr1) hw.ops hp hd hb rfl rfl
  replace hrx : v.rx = [u.chip.statusByte c d] := hrx
  replace hchip : v.chip = u.chip.disarm := hchip
  rw [hrx] at htrace
  have hbyte := (isWriteEnabled_statusByte hw d u.chip).trans h.wel
  exact ⟨v, _, hstep, hbus, ⟨hret, hrx⟩, hbyte, htrace, hv (hchip ▸ h.wip) (hchip ▸ h.wel)⟩

/-! ## The tries -/

/-- A try, up to the return of its status read: the byte shows the latch set if and only if the chip
took the write enable. -/
theorem Trying.one_try (h : Trying c rest o .welWren (d :: d' :: ds) false u) (hd : cleanDraw d)
    (hd' : cleanDraw d') (hb : u.bus = some (frameOp c.ops.wren)) :
    ∃ v b, (∀ m, steps (m + 3) u = steps m v) ∧ v.bus = none ∧ v.gotByte b ∧
      isWriteEnabled c b = !d.dropWren ∧ v.trace = tryRecord c b ++ u.trace ∧
      Trying c rest o .welRdsr ds (!d.dropWren) v := by
  obtain ⟨v, hsent, hbus, hret, htrace, hv⟩ := h.step_wren hw hp hd hb
  have hrow := hv.step_row hbus ((exec_wrenw_welWren hv.row).trans (latchWrenReturn_true hret))
  obtain ⟨w, b, hread, hbus', hgot, hbyte, htrace', hw'⟩ :=
    (hv.next .welRdsr (v := callFrame .welRdsr v.callRdsr1 (taken v)) rfl).step_rdsr1 hw hp hd'
      (by rw [callFrame_bus, State.callRdsr1, hv.cfg])
  rw [Bool.or_false] at hbyte hw'
  refine ⟨w, b, fun m => ?_, hbus', hgot, hbyte, ?_, hw'⟩
  · rw [steps_succ _ hsent, steps_succ _ hrow, steps_succ _ hread]
  · rw [htrace', callFrame_trace, taken_trace, htrace]; rfl

/-- The tries whose write enable is dropped; `bs` are the bytes read, newest first. -/
theorem Trying.dropped_tries (hlim : c.welLimit = none) (hd : cleanDraw d) (hd' : cleanDraw d')
    (hdrop : d.dropWren = true) (N : Nat) :
    ∀ u, Trying c rest o .welWren ((List.replicate N [d, d']).flatten ++ ds) false u →
      u.bus = some (frameOp c.ops.wren) →
      ∃ (v : State) (bs : List Byte), (∀ m, steps (m + 4 * N) u = steps m v) ∧
        v.bus = some (frameOp c.ops.wren) ∧ bs.length = N ∧ (∀ b ∈ bs, isWriteEnabled c b = false) ∧
        v.trace = bs.flatMap (tryRecord c) ++ u.trace ∧ Trying c rest o .welWren ds false v := by
  induction N with
  | zero => exact fun u h hb => ⟨u, [], fun _ => rfl, hb, rfl, by simp, rfl, h⟩
  | succ N ih =>
    intro u h hb
    obtain ⟨v, b, hsteps, hbus, hgot, hbyte, htrace, hv⟩ := Trying.one_try hw hp h hd hd' hb
    rw [hdrop, Bool.not_true] at hbyte hv
    have hclear : b &&& v.cfg.welMask = 0 := by
      rw [hv.cfg]; exact bne_eq_false_iff_eq.mp hbyte
    have hagain := hv.step_row hbus ((exec_wrenw_welRdsr hv.row).trans
      (latchRdsrReturn_again hgot hclear fun l hl => by rw [hv.cfg, hlim] at hl; cases hl))
    have hcalled := hv.next .welWren
      (v := callFrame .welWren v.callWren { v with sr := b, tries := v.tries + 1 }) rfl
    obtain ⟨w, bs, hsteps', hbus', hlen, hbytes, htrace', hw'⟩ := ih _ hcalled
      (by rw [callFrame_bus, State.callWren, hv.cfg])
    refine ⟨w, bs ++ [b], fun m => ?_, hbus', by simp [hlen], ?_, ?_, hw'⟩
    · rw [show m + 4 * (N + 1) = m + 4 * N + 1 + 3 by omega, hsteps, steps_succ _ hagain, hsteps']
    · simpa [or_imp, forall_and, hbyte] using hbytes
    · rw [htrace', callFrame_trace, htrace]; simp

end

/-- The last try's return leads to END and the response (R206, R102). -/
theorem Trying.respond (h : Trying c rest o .welRdsr ds latch u) (hb : u.bus = none)
    (hgot : u.gotByte b) (hset : isWriteEnabled c b = true) :
    ∃ t, steps 2 u = .next t ∧ t.endedOk rest ∧ t.chip = u.chip ∧ t.trace = u.trace := by
  have hmask : b &&& u.cfg.welMask ≠ 0 := by rw [h.cfg]; exact bne_iff_ne.mp hset
  have hend := h.step_row hb ((exec_wrenw_welRdsr h.row).trans (latchRdsrReturn_set hgot hmask))
  have hfin := h.next .finish
    (v := toEnd { u with ret := none, sr := b, tries := u.tries + 1 }) rfl
  have hresp := hfin.step_row hb (exec_direct_finish rfl hfin.row rfl)
  exact ⟨_, (steps_succ _ hend).trans (steps_succ _ hresp),
    ⟨rfl, rfl, rfl, h.cs, ⟨hb, rfl⟩, h.offers⟩, rfl, rfl⟩

/-- Acceptance, and the row of CHECK, which calls the first write enable. -/
theorem trying_of_offered (ho : u.offered (Request.of 0x0D o) rest) (hlim : u.cfg.welLimit = none)
    (hwip : u.chip.wip = false) (hwel : u.chip.wel = false) :
    ∃ v, (∀ m, steps (m + 2) u = steps m v) ∧ v.bus = some (frameOp u.cfg.ops.wren) ∧
      v.trace = u.trace ∧ Trying u.cfg rest o .welWren u.draws false v := by
  obtain ⟨hready, hb, hcs, hin, -⟩ := id ho
  have haccept : step u = .next (accept (Request.of 0x0D o) { u with offers := rest }) := by
    rw [step_accept ho, decodeRequest_wrenw]
    exact exec_direct_ready rfl hready rfl
  have hcheck : Trying u.cfg rest o .check u.draws false
      (accept (Request.of 0x0D o) { u with offers := rest }) :=
    ⟨inRow_none rfl rfl rfl, hcs, hin, decodeRequest_wrenw o, rfl, rfl, rfl, hwip, hwel⟩
  have hcall := hcheck.step_row hb ((exec_wrenw_check hcheck.row).trans
    (startLatch_of_limit (by rw [hcheck.cfg, hlim]; nofun)))
  exact ⟨_, fun m => (steps_succ _ haccept).trans (steps_succ _ hcall), rfl, rfl,
    hcheck.next .welWren rfl⟩

/-! ## The record of the tries -/

theorem tries_length (c : Config) (bs : List Byte) :
    (bs.flatMap (tryRecord c)).length = 2 * bs.length := by
  induction bs with
  | nil => rfl
  | cons b bs ih =>
    rw [List.flatMap_cons, List.length_append, ih, List.length_cons, Nat.mul_succ, Nat.add_comm]
    rfl

/-- Entry `2 k` is the status read of the `k`th try, counted from the last, entry `2 k + 1` its
write enable. -/
theorem tries_getElem? (tr : List Event) {bs : List Byte} {k : Nat} (h : bs[k]? = some b) :
    (bs.flatMap (tryRecord c) ++ tr)[2 * k]? =
        some (.frame (frameReceive c.ops.rdsr1 1) [b] .ok) ∧
      (bs.flatMap (tryRecord c) ++ tr)[2 * k + 1]? = some (.frame (frameOp c.ops.wren) [] .ok) := by
  induction bs generalizing k with
  | nil => cases h
  | cons x bs ih =>
    cases k with
    | zero => cases h; exact ⟨rfl, rfl⟩
    | succ k => exact ih h

end

/-- Settles O59: acceptance and the call of the first write enable, the N dropped tries, the try
that is taken, the response. -/
theorem wrenwSendsOnePairPerTry : Obligations.WrenwSendsOnePairPerTry := by
  intro N s r rest dr ok ho hcmd hw hlim hp hwip hwel hdr hok hdrop htake hdraws
  obtain ⟨o, rfl⟩ : ∃ o, r = Request.of 0x0D o := ⟨r.operands, by rw [← hcmd]; rfl⟩
  obtain ⟨v₀, hstart, hbus₀, htrace₀, hv₀⟩ := trying_of_offered ho hlim hwip hwel
  rw [hdraws] at hv₀
  obtain ⟨u, bs, hsteps, hbus, hlen, hclear, htrace, hu⟩ :=
    Trying.dropped_tries hw hp hlim hdr hok hdrop N v₀ hv₀ hbus₀
  obtain ⟨v, b, hsteps', hbus', hgot, hset, htrace', hv⟩ := hu.one_try hw hp hok hok hbus
  rw [htake, Bool.not_false] at hset hv
  obtain ⟨t, hend, hended, hchip, hrecord⟩ := hv.respond hbus' hgot hset
  have hbytes : t.trace = (b :: bs).flatMap (tryRecord s.cfg) ++ s.trace := by
    rw [hrecord, htrace', htrace, htrace₀]; simp
  have hlatch (k : Nat) (x : Byte) (hx : (b :: bs)[k]? = some x) :
      isWriteEnabled s.cfg x = true ↔ k = 0 := by
    cases k with
    | zero => cases hx; simpa using hset
    | succ k => simpa using hclear x (List.mem_of_getElem? hx)
  have hentry (k : Nat) (hk : k ≤ N) : ∃ x, (b :: bs)[k]? = some x :=
    ⟨_, List.getElem?_eq_getElem (by rw [List.length_cons]; omega)⟩
  refine ⟨t, ?run, hended, hchip ▸ hv.wel, ?length, fun k hk => ?read, fun k hk => ?sent⟩
  case run => rw [show 4 * N + 7 = 2 + 3 + 4 * N + 2 by omega, hstart, hsteps, hsteps', hend]
  case length => rw [hbytes, List.length_append, tries_length, List.length_cons, hlen]; omega
  case read =>
    obtain ⟨x, hx⟩ := hentry k hk
    refine ⟨x, hbytes ▸ (tries_getElem? s.trace hx).1, ?_⟩
    rw [← hlatch k x hx, isWriteEnabled, bne_iff_ne]
  case sent =>
    obtain ⟨x, hx⟩ := hentry k hk
    exact hbytes ▸ (tries_getElem? s.trace hx).2

end Sys2Proof.Machine

/-! # The waits end under fairness (R81, R202, R205)

A direct WAITWIP or WRENW that never responds goes round its loop for ever. F1 then gives a status
read that finds the chip idle, which ends WAITWIP; F1 and F2 give a write enable that an idle chip
accepts, whose status read ends WRENW. -/

namespace Sys2Proof.Machine

/-- The direct request `i` is in progress inside its command operation, on a fitted chip, and no
reset comes before the next step. -/
structure InOperation (i : Instr) (inside : State → Prop) (s : State) : Prop where
  noReset : s.resetAsserted = false
  wf : s.cfg.Wf
  present : s.cfg.chipPresent = true
  busy : s.phase = .busy
  req : decodeRequest s.req = i
  rphase : s.rphase = .none
  inside : inside s

/-- A step that does not leave the operation. -/
structure StaysInside (i : Instr) (inside : State → Prop) (s t : State) : Prop where
  before : InOperation i inside s
  after : InOperation i inside t
  step : step s = .next t

/-- A run that never leaves the operation (R205). -/
def Hangs (i : Instr) (inside : State → Prop) (ρ : Nat → State) : Prop :=
  ∀ m, StaysInside i inside (ρ m) (ρ (m + 1))

section
variable {i j : Instr} {d : Direct} {inside : State → Prop} {s t : State} {f : FrameCall}
  {ρ : Nat → State} {o : Operands} {m : Nat}

/-! ## A direct request that never responds -/

/-- One row of the operation ends the request or leaves it in progress. -/
theorem direct_row_phase (hd : directOf i = some d) (hin : d.inside s) (hb : s.bus = none)
    (hx : d.seq endDirect s = .next t) : t.phase = .respond ∨ t.phase = s.phase := by
  obtain ⟨b, hspec, -⟩ := direct_spec hd
  rcases hspec s _ t hin hb (direct_inside_ne_finish hd hin) hx with
    ⟨c, u, rfl, -⟩ | ⟨-, ht⟩ | ⟨u, hend, -, hu⟩
  · exact .inl rfl
  · exact .inr ht.phase
  · cases hend; exact .inr hu.phase

/-- A step of a direct request that does not end it: the request stays in progress, and it was
inside its operation. -/
theorem direct_stays (hd : directOf i = some d) (hi : s.Inv) (hp : s.phase = .busy)
    (hq : decodeRequest s.req = i) (hr : s.resetAsserted = false) (hstep : step s = .next t)
    (hn : t.phase ≠ .respond) :
    t.phase = .busy ∧ decodeRequest t.req = i ∧ s.rphase = .none ∧ d.inside s := by
  have hpos (u : State) (hu : u.Inv) (hp : u.phase = .busy) (hq : decodeRequest u.req = i) :
      u.rphase = .none ∧ (u.ended ∨ d.inside u) := by
    obtain ⟨-, hat⟩ := busy_of_controlOk hp hu.control
    obtain ⟨hrp, -, hin⟩ := (busyAt_direct hd).mp (hq ▸ hat)
    exact ⟨hrp, hin⟩
  obtain ⟨-, hreq⟩ := requestsAreHeldWhileBusy.2 s t (by simp [State.reqReady, hp]) hr hstep
  obtain ⟨hrp, hin⟩ := hpos s hi hp hq
  suffices t.phase = .busy ∧ d.inside s from ⟨this.1, hreq ▸ hq, hrp, this.2⟩
  cases step_move hr hstep with
  | frame f j hb hdec hx =>
    obtain ⟨g, y, rfl⟩ := segments_of_frame hdec hx
    exact ⟨by simpa using hp, hin.resolve_left fun he => not_quiet (by simpa using hb) he.2⟩
  | busy hb hp' hx =>
    obtain ⟨hrp', hin'⟩ := hpos _ (applyInput_inv hi) hp' (by rwa [applyInput_req])
    rw [applyInput_req, hq] at hx
    have hne : s.sphase ≠ .finish := by
      intro hs
      rw [exec_direct_finish hd (inRow_none hp' hrp' (by simpa using hs)) rfl] at hx
      cases hx
      exact hn rfl
    rw [exec_direct hd, directRequest_busy hp' hrp' (by simpa using hne)] at hx
    have hin' := hin'.resolve_left fun he => hne (by simpa using he.1)
    exact ⟨((direct_row_phase hd hin' hb hx).resolve_left hn).trans hp',
      hin.resolve_left fun he => hne he.1⟩
  | accept w rest hb hready => simp [State.reqReady, hp] at hready
  | wait hb hready => simp [State.reqReady, hp] at hready

theorem hangs_of_silence (hd : directOf i = some d) (hrun : IsRun ρ)
    (hr : ∀ m, (ρ m).resetAsserted = false) (hw : (ρ 0).cfg.Wf) (hi : (ρ 0).Inv)
    (hc : (ρ 0).cfg.chipPresent = true) (hp : (ρ 0).phase = .busy)
    (hq : decodeRequest (ρ 0).req = i) (hn : ∀ m, (ρ m).phase ≠ .respond) :
    Hangs i d.inside ρ := by
  have key (m : Nat) : (ρ m).Inv ∧ (ρ m).cfg = (ρ 0).cfg ∧ (ρ m).phase = .busy ∧
      decodeRequest (ρ m).req = i := by
    induction m with
    | zero => exact ⟨hi, rfl, hp, hq⟩
    | succ m ih =>
      obtain ⟨hi, hcfg, hp, hq⟩ := ih
      obtain ⟨hi', hcfg'⟩ := invariantKeptByEveryStep _ _ (hcfg ▸ hw.ops) hi (hrun m)
      obtain ⟨hp', hq', -⟩ := direct_stays hd hi hp hq (hr m) (hrun m) (hn (m + 1))
      exact ⟨hi', hcfg'.trans hcfg, hp', hq'⟩
  have hin (m : Nat) : InOperation i d.inside (ρ m) := by
    obtain ⟨hi, hcfg, hp, hq⟩ := key m
    obtain ⟨-, -, hrp, hin⟩ := direct_stays hd hi hp hq (hr m) (hrun m) (hn (m + 1))
    exact ⟨hr m, hcfg ▸ hw, hcfg ▸ hc, hp, hq, hrp, hin⟩
  exact fun m => ⟨hin m, hin (m + 1), hrun m⟩

/-! ## One step inside the operation -/

section
variable (h : StaysInside i inside s t)
include h

theorem StaysInside.not_respond : t.phase ≠ .respond := by
  rw [h.after.busy]; nofun

theorem StaysInside.row (hb : s.bus = none) : exec i s.applyInput = .next t := by
  obtain ⟨-, -, hrow, -⟩ := stepRunsDecodedInstruction s h.before.noReset
  rw [← h.before.req, ← hrow hb h.before.busy, h.step]

theorem StaysInside.inRow {p : SPhase} (hs : s.sphase = p) : s.applyInput.inRow .none p :=
  inRow_none (by simpa using h.before.busy) (by simpa using h.before.rphase) (by simpa using hs)

variable (hb : s.bus = some f) (hj : j.wf = true) (he : encode s.cfg.ops j = .frame f)
include hb hj he

theorem StaysInside.frame : t = segments f (chipSide s.cfg j) s.applyInput := by
  obtain ⟨hframe, -⟩ := stepRunsDecodedInstruction s h.before.noReset
  have hdec : decode s.cfg.ops (.frame f) = .ok j :=
    he ▸ decodeInvertsEncode _ j h.before.wf.ops hj
  have hx := (hframe f j hb hdec).symm.trans h.step
  have he' : encode s.applyInput.cfg.ops j = .frame f := by rwa [applyInput_cfg]
  rw [exec_eq_busFrame he', applyInput_cfg] at hx
  exact (busFrame_eq_next hx).2

theorem StaysInside.frame_position : t.bus = none ∧ t.sphase = s.sphase := by
  rw [h.frame hb hj he]
  exact ⟨rfl, applyInput_sphase s⟩

/-- What the chip does with the bytes of a frame that arrived. -/
theorem StaysInside.frame_chip : t.chip = (chipSide s.cfg j).react s.applyInput.draw
    (received f s.applyInput.draw) (s.chip.settle s.applyInput.draw) := by
  rw [h.frame hb hj he, segments_chip, State.frameResult, runSegments_chip,
    fitted_present (by simpa using h.before.present), applyInput_chip]

end

/-! ## The two frames of the waits -/

theorem reactRead_wip (bs : List Byte) (c : Chip) : (reactRead bs c).wip = c.wip := by
  cases bs <;> rfl

theorem reactRead_wel (bs : List Byte) (c : Chip) : (reactRead bs c).wel = c.wel := by
  cases bs <;> rfl

theorem wren_wip (d : Draw) (c : Chip) : (c.wren d).wip = c.wip := by
  unfold Chip.wren; split <;> rfl

theorem reactWren_wip (d : Draw) (bs : List Byte) (c : Chip) :
    (reactWhole 1 (fun c => c.wren d) id bs c).wip = c.wip := by
  cases bs with
  | nil => rfl
  | cons v vs =>
    rw [reactWhole_cons]
    split
    · exact wren_wip d c.disarm
    · rfl

section
variable (h : StaysInside i inside s t)
include h

/-- A write enable, however it ends, leaves an idle chip idle (R75). -/
theorem StaysInside.wren_wip (hb : s.bus = some s.callWren) (hw : s.chip.wip = false) :
    t.chip.wip = false := by
  have hchip := h.frame_chip (j := .spiWren) hb rfl rfl
  rw [settle_of_no_completion (.inl hw)] at hchip
  rw [hchip]
  exact (reactWren_wip _ _ s.chip).trans hw

/-- A status read, however it ends, leaves the latch of an idle chip (R73). -/
theorem StaysInside.rdsr1_wel (hb : s.bus = some s.callRdsr1) (hw : s.chip.wip = false) :
    t.chip.wel = s.chip.wel := by
  have hchip := h.frame_chip (j := .spiRdsr1) hb rfl rfl
  rw [settle_of_no_completion (.inl hw)] at hchip
  rw [hchip]
  exact reactRead_wel _ s.chip

/-- A status read that succeeds answers with the flags that it leaves (R73). -/
theorem StaysInside.rdsr1_answer (hb : s.bus = some s.callRdsr1) (hret : t.ret = some true) :
    isBusy t.cfg (t.rxByte 0) = t.chip.wip ∧ isWriteEnabled t.cfg (t.rxByte 0) = t.chip.wel := by
  have hw := h.before.wf
  have hp : s.applyInput.cfg.chipPresent = true := by simpa using h.before.present
  have hchip : t.chip = reactRead (received s.callRdsr1 s.applyInput.draw)
    (s.chip.settle s.applyInput.draw) := h.frame_chip (j := .spiRdsr1) hb rfl rfl
  have ht := h.frame (j := .spiRdsr1) hb rfl rfl
  have hclean : cleanDraw s.applyInput.draw := by
    rw [ht, segments_ret, State.frameResult, runSegments_succeeds] at hret
    simpa [succeeds, cleanDraw, State.callRdsr1, frameReceive] using hret
  have hrx : t.rx = [(s.chip.settle s.applyInput.draw).statusByte s.cfg s.applyInput.draw] := by
    rw [ht, segments_rx, frameResult_clean hp hclean, applyInput_chip]
    rfl
  have hcfg : t.cfg = s.cfg := by rw [ht, segments_cfg, applyInput_cfg]
  rw [rxByte_of_one hrx, hcfg, isBusy_statusByte hw, isWriteEnabled_statusByte hw, hchip,
    reactRead_wip, reactRead_wel]
  exact ⟨rfl, rfl⟩

end

/-! ## WAITWIP -/

/-- Where a status read of the wait has returned, it succeeded and found the chip busy, and the next
one is called. -/
theorem waitwip_goes_on (h : StaysInside (.waitwip o) waitwipAt s t) (hb : s.bus = none)
    (hs : s.sphase = .preWip) :
    s.ret = some true ∧ isBusy s.cfg (s.rxByte 0) = true ∧ t.bus = some t.callRdsr1 := by
  rcases waitReturn_eq_next ((exec_waitwip_preWip (h.inRow hs)).symm.trans (h.row hb)) with
    ⟨-, rfl⟩ | ⟨-, -, hend⟩ | ⟨-, -, -, rfl⟩ | ⟨hret, hbusy, -, rfl⟩
  · exact absurd rfl h.not_respond
  · cases hend
    exact False.elim h.after.inside
  · exact absurd rfl h.not_respond
  · simp only [applyInput_ret] at hret
    exact ⟨hret, by simpa [State.rxByte] using hbusy, rfl⟩

theorem waitwip_phase_of_bus (hin : waitwipAt s) (hb : s.bus = some f) : s.sphase = .preWip := by
  cases hs : s.sphase <;> simp only [waitwipAt, hs] at hin
  case check => exact (not_quiet hb hin).elim
  case preWip => rfl

/-- In every step of the wait, or in the next one, the status is read. -/
theorem waitwip_reads (h : StaysInside (.waitwip o) waitwipAt s t) :
    s.bus = some s.callRdsr1 ∨ t.bus = some t.callRdsr1 := by
  have hin := h.before.inside
  cases hs : s.sphase <;> simp only [waitwipAt, hs] at hin
  case check =>
    obtain ⟨-, rfl⟩ := startWait_eq_next
      ((exec_waitwip_check (h.inRow hs)).symm.trans (h.row hin.1))
    exact .inr rfl
  case preWip =>
    rcases hin with ⟨hb, -⟩ | ⟨hb, -⟩
    · exact .inl hb
    · exact .inr (waitwip_goes_on h hb hs).2.2

/-- Under F1 a WAITWIP does not hang: a read that finds the chip idle ends it. -/
theorem waitwip_not_hangs (hf : FairWip ρ) : ¬ Hangs (.waitwip o) waitwipAt ρ := by
  intro h
  have hreads (k : Nat) : ∃ m, k ≤ m ∧ statusReadAt ρ m := by
    rcases waitwip_reads (h k) with hb | hb
    · exact ⟨k, Nat.le_refl k, hb⟩
    · exact ⟨k + 1, Nat.le_succ k, hb⟩
  obtain ⟨m, -, hread, hidle⟩ := hf hreads 0
  obtain ⟨hb, hs⟩ := (h m).frame_position (j := .spiRdsr1) hread rfl rfl
  have hphase := hs.trans (waitwip_phase_of_bus (h m).before.inside hread)
  obtain ⟨hret, hbusy, -⟩ := waitwip_goes_on (h (m + 1)) hb hphase
  obtain ⟨hanswer, -⟩ := (h m).rdsr1_answer hread hret
  rw [hanswer, hidle] at hbusy
  cases hbusy

/-! ## WRENW -/

/-- Where a write enable of the loop has returned, the status is read. -/
theorem wrenw_sent (h : StaysInside (.wrenw o) wrenwAt s t) (hb : s.bus = none)
    (hs : s.sphase = .welWren) : t.bus = some t.callRdsr1 ∧ t.chip = s.chip := by
  rcases latchWrenReturn_eq_next ((exec_wrenw_welWren (h.inRow hs)).symm.trans (h.row hb)) with
    ⟨-, rfl⟩ | ⟨-, rfl⟩
  · exact absurd rfl h.not_respond
  · exact ⟨rfl, by simp⟩

/-- Where a status read of the loop has returned, it succeeded and found the latch clear, and the
write enable is called again. -/
theorem wrenw_goes_on (h : StaysInside (.wrenw o) wrenwAt s t) (hb : s.bus = none)
    (hs : s.sphase = .welRdsr) :
    s.ret = some true ∧ isWriteEnabled s.cfg (s.rxByte 0) = false ∧ t.bus = some t.callWren ∧
      t.chip = s.chip := by
  rcases latchRdsrReturn_eq_next ((exec_wrenw_welRdsr (h.inRow hs)).symm.trans (h.row hb)) with
    ⟨-, rfl⟩ | ⟨-, -, hend⟩ | ⟨-, -, -, rfl⟩ | ⟨hret, hclear, -, rfl⟩
  · exact absurd rfl h.not_respond
  · cases hend
    exact False.elim h.after.inside
  · exact absurd rfl h.not_respond
  · simp only [applyInput_ret] at hret
    exact ⟨hret, by simpa [State.rxByte] using hclear, rfl, by simp⟩

theorem wrenw_phase_of_wren (hin : wrenwAt s) (hb : s.bus = some s.callWren) :
    s.sphase = .welWren := by
  cases hs : s.sphase <;> simp only [wrenwAt, hs] at hin
  case check => exact (not_quiet hb hin).elim
  case welWren => rfl
  case welRdsr => exact absurd (called_eq hb hin) (ne_callRdsr1_of_rxn Nat.zero_ne_one)

theorem wrenw_phase_of_rdsr1 (hin : wrenwAt s) (hb : s.bus = some s.callRdsr1) :
    s.sphase = .welRdsr := by
  cases hs : s.sphase <;> simp only [wrenwAt, hs] at hin
  case check => exact (not_quiet hb hin).elim
  case welWren => exact absurd (called_eq hb hin).symm (ne_callRdsr1_of_rxn Nat.zero_ne_one)
  case welRdsr => rfl

section
variable (h : Hangs (.wrenw o) wrenwAt ρ)
include h

/-- A write enable is followed by its return and its status read. -/
theorem wrenw_read_after_wren (hb : (ρ m).bus = some (ρ m).callWren) :
    statusReadAt ρ (m + 2) ∧ (ρ (m + 2)).chip = (ρ (m + 1)).chip := by
  obtain ⟨hb', hs⟩ := (h m).frame_position (j := .spiWren) hb rfl rfl
  exact wrenw_sent (h (m + 1)) hb' (hs.trans (wrenw_phase_of_wren (h m).before.inside hb))

/-- A status read is followed by its return, which found the latch clear, and the next write
enable. -/
theorem wrenw_wren_after_read (hread : statusReadAt ρ m) : (ρ (m + 1)).chip.wel = false ∧
    (ρ (m + 2)).bus = some (ρ (m + 2)).callWren ∧ (ρ (m + 2)).chip = (ρ (m + 1)).chip := by
  obtain ⟨hb, hs⟩ := (h m).frame_position (j := .spiRdsr1) hread rfl rfl
  obtain ⟨hret, hclear, hnext⟩ := wrenw_goes_on (h (m + 1)) hb
    (hs.trans (wrenw_phase_of_rdsr1 (h m).before.inside hread))
  obtain ⟨-, hanswer⟩ := (h m).rdsr1_answer hread hret
  exact ⟨hanswer ▸ hclear, hnext⟩

/-- From every position of the loop a write enable or a status read is at most one step away. -/
theorem wrenw_reads (k : Nat) : ∃ m, k ≤ m ∧ statusReadAt ρ m := by
  have hin := (h k).before.inside
  cases hs : (ρ k).sphase <;> simp only [wrenwAt, hs] at hin
  case check =>
    obtain ⟨-, ht⟩ := startLatch_eq_next
      ((exec_wrenw_check ((h k).inRow hs)).symm.trans ((h k).row hin.1))
    exact ⟨k + 3, by omega, (wrenw_read_after_wren h (m := k + 1) (ht ▸ rfl)).1⟩
  case welWren =>
    rcases hin with ⟨hb, -⟩ | ⟨hb, -⟩
    · exact ⟨k + 2, by omega, (wrenw_read_after_wren h hb).1⟩
    · exact ⟨k + 1, by omega, (wrenw_sent (h k) hb hs).1⟩
  case welRdsr =>
    rcases hin with ⟨hb, -⟩ | ⟨hb, -⟩
    · exact ⟨k, Nat.le_refl k, hb⟩
    · obtain ⟨-, -, hnext, -⟩ := wrenw_goes_on (h k) hb hs
      exact ⟨k + 3, by omega, (wrenw_read_after_wren h (m := k + 1) hnext).1⟩

/-- A read that finds the chip idle is followed by a write enable on the idle chip. -/
theorem wrenw_idle_wren (hread : statusReadAt ρ m) (hidle : (ρ (m + 1)).chip.wip = false) :
    wrenIdleAt ρ (m + 2) := by
  obtain ⟨-, hb, hchip⟩ := wrenw_wren_after_read h hread
  exact ⟨hb, (h (m + 2)).wren_wip hb (hchip ▸ hidle)⟩

end

/-- Under F1 and F2 a WRENW does not hang: the read after a write enable that an idle chip accepted
shows the latch set. -/
theorem wrenw_not_hangs (hf : FairWip ρ) (hg : FairWren ρ) : ¬ Hangs (.wrenw o) wrenwAt ρ := by
  intro h
  have hwrens (k : Nat) : ∃ m, k ≤ m ∧ wrenIdleAt ρ m := by
    obtain ⟨m, hm, hread, hidle⟩ := hf (wrenw_reads h) k
    exact ⟨m + 2, by omega, wrenw_idle_wren h hread hidle⟩
  obtain ⟨m, -, ⟨hb, hidle⟩, hset⟩ := hg hwrens 0
  obtain ⟨hread, hchip⟩ := wrenw_read_after_wren h hb
  obtain ⟨hclear, -⟩ := wrenw_wren_after_read h hread
  rw [(h (m + 2)).rdsr1_wel hread (hchip ▸ hidle), hchip, hset] at hclear
  cases hclear

end

/-- Settles O60: a run that never responds stays inside the operation, which neither wait does under
its fairness. -/
theorem waitsEndUnderFairness : Obligations.WaitsEndUnderFairness := by
  intro ρ hrun hr hw hi hc hp hf
  refine ⟨fun ⟨o, hq⟩ => ?waitwip, fun ⟨o, hq⟩ hg => ?wrenw⟩
  all_goals by_contra hn
  all_goals rw [not_exists] at hn
  case waitwip =>
    exact waitwip_not_hangs hf
      (hangs_of_silence (i := .waitwip o) rfl hrun hr hw hi hc hp hq hn)
  case wrenw =>
    exact wrenw_not_hangs hf hg (hangs_of_silence (i := .wrenw o) rfl hrun hr hw hi hc hp hq hn)

end Sys2Proof.Machine

/-! # The rows of the array commands (R230, R235, R240, R245, R250)

As for the register commands: the rows of each operation are said once, of whatever request runs it,
and hold of the direct request and of the range command that runs it as its sub-command. -/

namespace Sys2Proof.Machine

/-! ## What runs the array operations -/

theorem atTest_of_inRow {s : State} {r : RPhase} {p : SPhase} (h : s.inRow r p)
    (hr : r = .writeLoop ∨ r = .eraseLoop) : s.atTest = false := by
  obtain ⟨-, rfl, -, ht⟩ := h
  rcases hr with hr | hr <;> simpa [State.testing, hr] using ht

theorem write_runs (o : Operands) : Runs (.write o) .writeLoop ppSeq toNextIteration := by
  intro s p hrow _
  have htest := atTest_of_inRow hrow (.inl rfl)
  obtain ⟨hp, hr, -, -⟩ := hrow
  rw [exec_write, rangeRequest_busy hp (by simp [hr]), writeSeq, hr]
  exact if_neg (by simp [htest])

theorem erase_runs (o : Operands) : Runs (.erase o) .eraseLoop seSeq toNextIteration := by
  intro s p hrow _
  have htest := atTest_of_inRow hrow (.inr rfl)
  obtain ⟨hp, hr, -, -⟩ := hrow
  rw [exec_erase, rangeRequest_busy hp (by simp [hr]), eraseRangeSeq, hr]
  exact if_neg (by simp [htest])

theorem masserase_runs (o : Operands) : Runs (.masserase o) .mass ceSeq
    (fun t => { t with sphase := .finish, rphase := .none }) := by
  rintro s p ⟨hp, hr, -, -⟩ -
  rw [exec_masserase, rangeRequest_busy hp (by simp [hr]), massSeq, hr]

section
variable {i : Instr} {r : RPhase} {s : State} {g : State → State}

/-! ## PP -/

section
variable (h : Runs i r ppSeq g)
include h

theorem pp_exec_check (hrow : s.inRow r .check) : exec i s =
    if ppFits s.addr s.len then startWait .preWip s else .next (abort codeParam s) := by
  rw [h s _ hrow (by simp), ppSeq, sphase_of_inRow hrow]

theorem pp_exec_preWip (hrow : s.inRow r .preWip) : exec i s = waitReturn s startLatch := by
  rw [h s _ hrow (by simp), ppSeq, sphase_of_inRow hrow]

theorem pp_exec_welWren (hrow : s.inRow r .welWren) : exec i s = latchWrenReturn s := by
  rw [h s _ hrow (by simp), ppSeq, sphase_of_inRow hrow]

theorem pp_exec_welRdsr (hrow : s.inRow r .welRdsr) (hr : s.ret ≠ none) :
    exec i s = latchRdsrReturn s (fun t => .next { t with data := [] }) := by
  obtain ⟨b, hb⟩ := Option.ne_none_iff_exists'.mp hr
  rw [h s _ hrow (by simp), ppSeq, sphase_of_inRow hrow]
  simp only [hb]

theorem pp_exec_gather (hrow : s.inRow r .welRdsr) (hr : s.ret = none) :
    exec i s = ppGather s := by
  rw [h s _ hrow (by simp), ppSeq, sphase_of_inRow hrow]
  simp only [hr]

theorem pp_exec_main (hrow : s.inRow r .main) :
    exec i s = onReturn s (fun t => .next (g t)) := by
  rw [h s _ hrow (by simp), ppSeq, sphase_of_inRow hrow]

/-- R236: the row of a chunk that does not fit its page. -/
theorem pp_straddles (hrow : s.inRow r .check) (hfit : ppFits s.addr s.len = false) :
    exec i s = .next (abort codeParam s) :=
  (pp_exec_check h hrow).trans (if_neg (by simp [hfit]))

theorem programRows_of : ProgramRows i r g where
  fits _ hrow hfit hl :=
    (pp_exec_check h hrow).trans ((if_pos hfit).trans (startWait_of_limit hl))
  straddles _ := pp_straddles h
  zero _ hrow hfit hl := (pp_exec_check h hrow).trans ((if_pos hfit).trans (startWait_of_zero hl))
  wait := pollRows_of (fun _ => pp_exec_preWip h)
    fun _ _ hl hcfg => startLatch_of_limit (by rwa [hcfg])
  latch := latchRows_of (fun _ => pp_exec_welWren h) fun _ => pp_exec_welRdsr h
  gather _ hrow hr hk hadm := (pp_exec_gather h hrow hr).trans ((if_pos hk).trans (if_pos hadm))
  stuck _ hrow hr hk hadm :=
    (pp_exec_gather h hrow hr).trans ((if_pos hk).trans (if_neg (by simp [hadm])))
  main s hrow hr hk := by
    refine (pp_exec_gather h hrow hr).trans ((if_neg (Nat.not_lt.mpr hk)).trans ?_)
    rw [callFrame, ← hr]
  ended _ hrow hr := (pp_exec_main h hrow).trans (onReturn_true _ hr)
  fail _ hrow hr := (pp_exec_main h hrow).trans (onReturn_false _ hr)

end

/-! ## SE and CE -/

section
variable {call : State → FrameCall} {act : State → State} (h : Runs i r (eraseSeq call act) g)
include h

theorem erase_exec_check (hrow : s.inRow r .check) : exec i s = startWait .preWip (act s) := by
  rw [h s _ hrow (by simp), eraseSeq, sphase_of_inRow hrow]

theorem erase_exec_preWip (hrow : s.inRow r .preWip) : exec i s = waitReturn s startLatch := by
  rw [h s _ hrow (by simp), eraseSeq, sphase_of_inRow hrow]

theorem erase_exec_welWren (hrow : s.inRow r .welWren) : exec i s = latchWrenReturn s := by
  rw [h s _ hrow (by simp), eraseSeq, sphase_of_inRow hrow]

theorem erase_exec_welRdsr (hrow : s.inRow r .welRdsr) :
    exec i s = latchRdsrReturn s (fun t => .next (callFrame .main (call t) t)) := by
  rw [h s _ hrow (by simp), eraseSeq, sphase_of_inRow hrow]

theorem erase_exec_main (hrow : s.inRow r .main) :
    exec i s = onReturn s (startWait .postWip) := by
  rw [h s _ hrow (by simp), eraseSeq, sphase_of_inRow hrow]

theorem erase_exec_postWip (hrow : s.inRow r .postWip) :
    exec i s = waitReturn s (fun t => .next (g t)) := by
  rw [h s _ hrow (by simp), eraseSeq, sphase_of_inRow hrow]

theorem eraseRows_of (hcfg : ∀ s, (act s).cfg = s.cfg) : EraseRows i r act call g where
  enter := waitEntry_of hcfg fun _ => erase_exec_check h
  wait := pollRows_of (fun _ => erase_exec_preWip h)
    fun _ _ hl hc => startLatch_of_limit (by rwa [hc])
  latch := latchRows_of (fun _ => erase_exec_welWren h) fun s hrow _ => by
    rw [erase_exec_welRdsr h hrow]; rfl
  post _ hrow hr hl :=
    (erase_exec_main h hrow).trans ((onReturn_true _ hr).trans (startWait_of_limit hl))
  fail _ hrow hr := (erase_exec_main h hrow).trans (onReturn_false _ hr)
  postWait := pollRows_of (fun _ => erase_exec_postWip h) fun _ _ _ _ => rfl

end
end

/-- Settles O20: the rows of `ppSeq`, run by PP and by WRITE. -/
theorem pageProgramRows : Obligations.PageProgramRows := fun o =>
  ⟨programRows_of (direct_runs (i := .pp o) rfl rfl), programRows_of (write_runs o)⟩

/-- Settles O21: the rows of `eraseSeq` with SE's frame and address, run by SE and by ERASE. -/
theorem sectorEraseRows : Obligations.SectorEraseRows := fun o =>
  ⟨eraseRows_of (direct_runs (i := .se o) rfl rfl) fun _ => rfl,
    eraseRows_of (erase_runs o) fun _ => rfl⟩

/-- Settles O22: the rows of `eraseSeq` with CE's frame, run by CE and by MASSERASE. -/
theorem chipEraseRows : Obligations.ChipEraseRows := fun o =>
  ⟨eraseRows_of (direct_runs (i := .ce o) rfl rfl) fun _ => rfl,
    eraseRows_of (masserase_runs o) fun _ => rfl⟩

end Sys2Proof.Machine

/-! # READ's rows, and what the array commands leave unchanged (R230, R235, R236, R240, R245) -/

namespace Sys2Proof.Machine

section
variable {s t : State} {o : Operands} {v : Byte}

/-! ## READ -/

theorem read_runs (o : Operands) : Runs (.read o) .none readSeq toEnd := direct_runs rfl rfl

theorem read_exec_check (hrow : s.inRow .none .check) :
    exec (.read o) s = startWait .preWip s := by
  rw [read_runs o s _ hrow (by simp), readSeq, sphase_of_inRow hrow]

theorem read_exec_preWip (hrow : s.inRow .none .preWip) : exec (.read o) s =
    waitReturn s (fun t => .next (callFrame .main t.callRead t)) := by
  rw [read_runs o s _ hrow (by simp), readSeq, sphase_of_inRow hrow]

theorem read_exec_main (hrow : s.inRow .none .main) (hr : s.ret ≠ none) :
    exec (.read o) s = onReturn s (fun t => .next { t with pos := 0 }) := by
  obtain ⟨b, hb⟩ := Option.ne_none_iff_exists'.mp hr
  rw [read_runs o s _ hrow (by simp), readSeq, sphase_of_inRow hrow]
  simp only [hb]

theorem read_exec_move (hrow : s.inRow .none .main) (hr : s.ret = none) :
    exec (.read o) s = readMove endDirect s := by
  rw [read_runs o s _ hrow (by simp), readSeq, sphase_of_inRow hrow]
  simp only [hr]
  rfl

/-- One received byte is written to the buffer. -/
theorem read_stores (h : s.storing) (hv : s.rx[s.pos]? = some v)
    (hadm : s.admitsWrite (byteOffset s.off s.pos) = true) :
    exec (.read o) s = .next { s with
      buffer := s.buffer.write (byteOffset s.off s.pos).toNat v
      pos := s.pos + 1
      trace := .memWrite (byteOffset s.off s.pos) v :: s.trace } := by
  obtain ⟨hrow, hr, hlt⟩ := h
  have hbyte : s.rxByte s.pos = v := by rw [State.rxByte, List.getD_eq_getElem?_getD, hv]; rfl
  rw [read_exec_move hrow hr, readMove, if_pos hlt, hbyte]
  exact if_pos hadm

/-- Every received byte is written: READ returns. -/
theorem read_ends (hrow : s.inRow .none .main) (hr : s.ret = none) (hpos : s.len.toNat ≤ s.pos) :
    exec (.read o) s = .next (toEnd s) :=
  (read_exec_move hrow hr).trans (if_neg (Nat.not_lt.mpr hpos))

end

/-- Settles O19: the rows of `readSeq`; a store is one write to the buffer. -/
theorem readRows : Obligations.ReadRows := by
  intro o
  refine ⟨waitEntry_of (fun _ => rfl) fun _ => read_exec_check,
    pollRows_of (k := fun t => .next { t with sphase := .main, bus := some t.callRead })
      (fun _ hrow => (read_exec_preWip hrow).trans rfl) fun _ _ _ _ => rfl,
    fun _ hrow hr => (read_exec_main hrow (by simp [hr])).trans (onReturn_false _ hr),
    fun _ hrow hr => (read_exec_main hrow (by simp [hr])).trans (onReturn_true _ hr),
    fun s v hst hv hwf hadm => ?stores, fun s hst hadm => ?stuck, fun _ => read_ends⟩
  case stores =>
    exact ⟨_, read_stores hst hv hadm, rfl, Memory.read_write_same _ _ hwf,
      fun _ ha => Memory.read_write_other _ ha⟩
  case stuck =>
    obtain ⟨hrow, hr, hlt⟩ := hst
    rw [read_exec_move hrow hr, readMove, if_pos hlt]
    exact if_neg (by simp [hadm])

/-! ## The page-boundary check -/

theorem ppFits_iff (addr len : Word) : ppFits addr len = true ↔
    1 ≤ len.toNat ∧ len.toNat ≤ 256 ∧ addr.toNat % 256 + len.toNat ≤ 256 := by
  simp [ppFits, and_assoc]

/-- Settles O26: the check by definition, a wire address keeps its low byte, and the row of a chunk
that does not fit. -/
theorem pageBoundaryCheck : Obligations.PageBoundaryCheck := by
  refine ⟨ppFits_iff, fun addr => ?wire, fun o p hp s hrow hfit => ?rejected⟩
  case wire => rw [wireAddr_toNat]; omega
  case rejected =>
    have hrejects : exec p.1 s = .next (abort codeParam s) := by
      simp only [List.mem_cons, List.not_mem_nil, or_false] at hp
      rcases hp with rfl | rfl
      · exact pp_straddles (direct_runs (i := .pp o) rfl rfl) hrow hfit
      · exact pp_straddles (write_runs o) hrow hfit
    exact ⟨_, hrejects, rfl, rfl, rfl, rfl, rfl⟩

/-! ## What is left unchanged -/

section
variable {s t : State} {o : Operands}

/-- A row of READ that is not a store leaves the buffer alone. -/
theorem readSeq_keeps_buffer (hst : ¬ (s.sphase = .main ∧ s.ret = none ∧ s.pos < s.len.toNat)) :
    Leads (fun t => t.buffer = s.buffer) (readSeq endDirect s) := by
  have hP : OffControl (fun t : State => t.buffer = s.buffer) := ⟨fun _ _ h => h, fun _ h => h⟩
  have hw : OffWait (fun t : State => t.buffer = s.buffer) := ⟨fun _ h => h, fun _ h => h⟩
  unfold readSeq
  split
  · exact startWait_leads hP hw _ rfl
  · exact waitReturn_leads hP hw rfl fun _ hu => leads_next hu
  · rename_i hs
    split
    · exact onReturn_leads hP rfl fun _ hu => leads_next hu
    · rename_i hr
      rw [readMove, if_neg fun hlt => hst ⟨hs, hr, hlt⟩]
      exact endDirect_leads hP rfl
  all_goals exact leads_fault _

theorem read_keeps_buffer (hst : ¬ s.storing) (ht : exec (.read o) s = .next t) :
    t.buffer = s.buffer := by
  rw [exec_read] at ht
  rcases directRequest_eq_next ht with ⟨-, rfl⟩ | ⟨-, -, -, rfl⟩ | ⟨hp, hr, -, ht⟩
  · rfl
  · rfl
  · refine readSeq_keeps_buffer (fun ⟨hs, hret, hlt⟩ => hst ?_) t ht
    exact ⟨inRow_none hp hr hs, hret, hlt⟩

/-- A store changes one byte of the buffer. -/
theorem read_keeps_other_bytes (hst : s.storing) (ht : exec (.read o) s = .next t) {a : Nat}
    (ha : a ≠ (byteOffset s.off s.pos).toNat) : t.buffer.read a = s.buffer.read a := by
  obtain ⟨hrow, hr, hlt⟩ := hst
  rw [read_exec_move hrow hr, readMove, if_pos hlt] at ht
  obtain ⟨-, ht⟩ := memWrite_eq_next ht
  cases ht
  exact Memory.read_write_other _ ha

end

/-- Settles O42: each command's rows write the control registers and the registers named; of the
buffer, only READ's store writes, and one byte. -/
theorem frameOfArrayCommands : Obligations.FrameOfArrayCommands := by
  intro o s t
  refine ⟨fun ht => ⟨?read, fun a hst => read_keeps_other_bytes hst ht,
    fun a hst => by rw [read_keeps_buffer hst ht]⟩, ?pp, ?se, ?ce⟩
  case read =>
    have hP := within_offControl (g := fun u => { s.withControlOf u with
        sr := u.sr, polls := u.polls, addr := u.addr, len := u.len, off := u.off
        pos := u.pos, buffer := u.buffer, trace := u.trace }) (fun _ _ => rfl) fun _ => rfl
    exact direct_within hP ht rfl rfl rfl fun _ hret => read_leads hP rfl hret
      (within_offWait (fun _ => rfl) fun _ => rfl)
      (fun u n => within_update (f := fun u => { u with pos := n }) (fun _ => rfl) u)
      (fun u m l =>
        within_update (f := fun u => { u with buffer := m, trace := l }) (fun _ => rfl) u)
  case pp =>
    have hP := within_offControl (g := fun u => { s.withControlOf u with
        sr := u.sr, polls := u.polls, tries := u.tries, addr := u.addr, len := u.len
        off := u.off, data := u.data, trace := u.trace }) (fun _ _ => rfl) fun _ => rfl
    exact fun ht => direct_within hP ht rfl rfl rfl fun _ hret => pp_leads hP rfl hret
      (within_offWait (fun _ => rfl) fun _ => rfl) (within_offLatch (fun _ => rfl) fun _ => rfl)
      (fun u ds => within_update (f := fun u => { u with data := ds }) (fun _ => rfl) u)
      (fun u l => within_update (f := fun u => { u with trace := l }) (fun _ => rfl) u)
  case se =>
    have hP := within_offControl (g := fun u => { s.withControlOf u with
        sr := u.sr, polls := u.polls, tries := u.tries, addr := u.addr, sidx := u.sidx })
      (fun _ _ => rfl) fun _ => rfl
    exact fun ht => direct_within hP ht rfl rfl rfl fun _ hret =>
      erase_leads hP (s := s) rfl hret
      (within_offWait (fun _ => rfl) fun _ => rfl) (within_offLatch (fun _ => rfl) fun _ => rfl) _
      (within_update (f := fun u => { u with addr := sectorAddr u.sidx }) fun _ => rfl)
  case ce =>
    have hP := within_offControl (g := fun u => { s.withControlOf u with
        sr := u.sr, polls := u.polls, tries := u.tries }) (fun _ _ => rfl) fun _ => rfl
    exact fun ht => direct_within hP ht rfl rfl rfl fun _ hret =>
      erase_leads hP (s := s) rfl hret
      (within_offWait (fun _ => rfl) fun _ => rfl) (within_offLatch (fun _ => rfl) fun _ => rfl) _
      fun _ h => h

end Sys2Proof.Machine

/-! # READ, PP, SE and CE from the port to the response (R26, R100-R102, R250)

A run is put together from the rows: a request under way is where its waits, its write-enable loop
and its frames have taken it from the state `s` that acceptance left, with the answers `ds` still to
come and the chip as `c`. -/

namespace Sys2Proof.Machine

/-! ## A request under way -/

/-- `s` with the registers that the waits, the write-enable loop and the frames of a request write
taken from `u`. -/
def State.driven (s u : State) : State :=
  { s with
    sphase := u.sphase, sr := u.sr, polls := u.polls, tries := u.tries, bus := u.bus, ret := u.ret
    rx := u.rx, trace := u.trace, chip := u.chip, draws := u.draws, drawCount := u.drawCount }

/-- The direct request `i` is in progress at phase `p`: from `s` on only what `State.driven` names
has changed, the answers `ds` are to come, and the chip is `c`. -/
structure Underway (i : Instr) (s : State) (p : SPhase) (ds : List Draw) (c : Chip) (u : State) :
    Prop where
  row : u.inRow .none p
  cs : u.cs = false
  inputs : u.inputs = []
  req : decodeRequest u.req = i
  draws : u.draws = ds
  chip : u.chip = c
  since : Within s.driven u

/-- The chip after a write enable that it took (R75). -/
def Chip.enabled (c : Chip) : Chip := { c with wel := true, rstEnabled := false }

section
variable {i j : Instr} {d : Direct} {s t u v : State} {p q : SPhase} {d₁ d₂ d₃ : Draw}
  {ds : List Draw} {c : Chip} {f : FrameCall} {rest : List (BitVec 104)} {pre : State → Prop}
  {act after : State → State}

/-- Whatever reads none of the registers of `State.driven` is as in `s`. -/
theorem Underway.keeps {α : Type} (h : Underway i s p ds c u) (g : State → α)
    (hg : g (s.driven u) = g s) : g u = g s := (congrArg g h.since).trans hg

theorem driven_trans (h : Within s.driven u) (hv : Within u.driven v) : Within s.driven v :=
  calc v = u.driven v := hv
    _ = (s.driven u).driven v := congrArg (State.driven · v) h

theorem Underway.cfg (h : Underway i s p ds c u) : u.cfg = s.cfg := h.keeps _ rfl

/-- A row that goes to phase `q` and writes registers of the waits and of the Frame call only. -/
theorem Underway.next (h : Underway i s p ds c u) (hq : v.sphase = q)
    (hv : v = { u with sphase := v.sphase, sr := v.sr, polls := v.polls, tries := v.tries
                       bus := v.bus, ret := v.ret }) : Underway i s q ds c v := by
  obtain ⟨hp, hr, -, -⟩ := h.row
  subst hq
  rw [hv]
  exact { h with row := inRow_none hp hr rfl, since := driven_trans h.since rfl }

theorem Underway.step_row (h : Underway i s p ds c u) (hb : u.bus = none)
    (hx : exec i u = .next v) : step u = .next v := by
  obtain ⟨hp, -⟩ := id h.row
  exact step_busy h.inputs hb hp h.req hx

/-- A clean frame on the fitted chip. -/
theorem Underway.step_frame (h : Underway i s p (d₁ :: ds) c u) (hw : s.cfg.ops.wf)
    (hp : s.cfg.chipPresent = true) (hd : cleanDraw d₁) (hb : u.bus = some f) (hj : j.wf = true)
    (he : encode s.cfg.ops j = .frame f) : ∃ v, step u = .next v ∧ v.bus = none ∧
      v.ret = some true ∧
      v.rx = (if f.rxn = 0 then [] else (chipSide s.cfg j).answer d₁ (c.settle d₁)) ∧
      Underway i s p ds ((chipSide s.cfg j).react d₁ f.bytes (c.settle d₁)) v := by
  have hcfg := h.cfg
  obtain rfl := h.chip
  rw [← hcfg] at hw hp he ⊢
  have hdec : decode u.cfg.ops (.frame f) = .ok j := he ▸ decodeInvertsEncode _ j hw hj
  have hdraw : u.draw = d₁ := by rw [State.draw, h.draws]
  have hres := frameResult_clean (f := f) (x := chipSide u.cfg j) hp (hdraw.symm ▸ hd)
  rw [hdraw] at hres
  refine ⟨_, Machine.step_frame h.inputs hb h.cs hdec he, rfl,
    congrArg (fun r : FrameResult => some r.ok) hres, congrArg (·.rx) hres, h.row, h.cs, h.inputs,
    h.req, ?_, congrArg (·.chip) hres, driven_trans h.since rfl⟩
  rw [segments_draws, h.draws]
  rfl

/-! ## From the port to the first status read -/

theorem direct_load_keeps (h : directOf i = some d) (s : State) : (d.load s).cs = s.cs ∧
    (d.load s).bus = s.bus ∧ (d.load s).inputs = s.inputs ∧ (d.load s).draws = s.draws := by
  cases i <;> cases h <;> exact ⟨rfl, rfl, rfl, rfl⟩

/-- Acceptance, and the row of CHECK, which calls the first status read of a wait after `act`. -/
theorem underway_of_offered (h : directOf i = some d) (ho : s.offered d.req rest)
    (ht : d.load (accept d.req { s with offers := rest }) = t)
    (hds : s.draws = ds) (hact : ∀ u : State, ∃ a, act u = { u with addr := a })
    (hx : t.inRow .none .check → exec i t = .next
      { act t with polls := 0, sphase := .preWip, bus := some t.callRdsr1, ret := none }) :
    ∃ u, (∀ n, steps (n + 2) s = steps n u) ∧ u.bus = some s.callRdsr1 ∧
      Underway i (act t) .preWip ds s.chip u := by
  obtain ⟨hready, hb, hcs, hin, -⟩ := id ho
  have haccept : step s = .next t := by
    rw [step_accept ho, decodeRequest_direct h]
    exact exec_direct_ready h hready ht
  obtain ⟨hreq, -, -, hchip, -, hp, hs, hr⟩ := direct_accepted h ht
  obtain ⟨hcs', hb', hin', hdraws⟩ := direct_load_keeps h (accept d.req { s with offers := rest })
  obtain ⟨hcfg, -⟩ := direct_load h (accept d.req { s with offers := rest })
  rw [ht] at hcs' hb' hin' hdraws hcfg
  have hi : decodeRequest t.req = i := hreq ▸ decodeRequest_direct h
  have hcheck := step_busy (hin'.trans hin) (hb'.trans hb) hp hi (hx (inRow_none hp hr hs))
  refine ⟨_, fun n => (steps_succ _ haccept).trans (steps_succ _ hcheck),
    congrArg (fun k : Config => some (frameReceive k.ops.rdsr1 1)) hcfg, ?_⟩
  obtain ⟨a, ha⟩ := hact t
  rw [ha]
  exact ⟨inRow_none hp hr rfl, hcs'.trans hcs, hin'.trans hin, hi, hdraws.trans hds, hchip, rfl⟩

/-- END, and the response. -/
theorem Underway.respond (h : Underway i s .finish ds c u) (hd : directOf i = some d)
    (hrsp : d.rsp u = u) (hb : u.bus = none) (hr : u.ret = none) (ho : s.offers = rest) :
    steps 1 u = .next (respondOk u) ∧ (respondOk u).endedOk rest :=
  ⟨steps_succ 0 (h.step_row hb (exec_direct_finish hd h.row (by rw [hrsp]))),
    rfl, rfl, rfl, h.cs, ⟨hb, hr⟩, (congrArg State.offers h.since).trans ho⟩

/-! ## The waits and the write enable, on a fitted chip -/

/-- A status read that finds the chip idle ends the wait. -/
theorem Underway.wait (h : Underway i s p (d₁ :: ds) c u) (hw : s.cfg.Wf)
    (hp : s.cfg.chipPresent = true) (hrows : PollRows i .none p pre after) (hd : cleanDraw d₁)
    (hb : u.bus = some s.callRdsr1) (hidle : (c.settle d₁).wip = false)
    (hpre : ∀ v : State, v.cfg = s.cfg → pre v) :
    ∃ v, (∀ n, steps (n + 2) u = steps n (after v)) ∧ v.bus = none ∧ v.ret = none ∧
      Underway i s p ds (c.settle d₁).disarm v := by
  obtain ⟨w, hframe, hbus, hret, hrx, hunder⟩ :=
    h.step_frame (j := .spiRdsr1) hw.ops hp hd hb rfl rfl
  replace hrx : w.rx = [(c.settle d₁).statusByte s.cfg d₁] := hrx
  have hclear : (c.settle d₁).statusByte s.cfg d₁ &&& w.cfg.wipMask = 0 := by
    rw [hunder.cfg]
    exact bne_eq_false_iff_eq.mp ((isBusy_statusByte hw ..).trans hidle)
  have hrow := hunder.step_row hbus
    (hrows.idle w _ hunder.row ⟨hret, hrx⟩ hclear (hpre w hunder.cfg))
  exact ⟨_, fun n => (steps_succ _ hframe).trans (steps_succ _ hrow), hbus, rfl,
    hunder.next (sphase_of_inRow hunder.row) rfl⟩

/-- A write enable that the idle chip takes, and the status read that shows the latch set. -/
theorem Underway.latch (h : Underway i s .welWren (d₁ :: d₂ :: ds) c u) (hw : s.cfg.Wf)
    (hp : s.cfg.chipPresent = true) (hrows : LatchRows i .none after) (hd : cleanDraw d₁)
    (hd' : cleanDraw d₂) (hdrop : d₁.dropWren = false) (hb : u.bus = some s.callWren)
    (hidle : c.wip = false) :
    ∃ v, (∀ n, steps (n + 4) u = steps n (after v)) ∧ v.bus = none ∧ v.ret = none ∧
      Underway i s .welRdsr ds c.enabled v := by
  obtain ⟨w, hwren, hbus, hret, -, hunder⟩ :=
    h.step_frame (j := .spiWren) hw.ops hp hd hb rfl rfl
  have htaken : (chipSide s.cfg .spiWren).react d₁ s.callWren.bytes (c.settle d₁) =
      c.enabled := by
    rw [settle_of_no_completion (.inl hidle)]
    exact if_neg (by simp [hdrop])
  rw [htaken] at hunder
  have hsent := hunder.step_row hbus (hrows.sent w hunder.row hret)
  replace hunder := hunder.next rfl
    (v := { w with ret := none, sphase := .welRdsr, bus := some w.callRdsr1 }) rfl
  obtain ⟨x, hread, hbus', hret', hrx, hunder'⟩ :=
    hunder.step_frame (j := .spiRdsr1) hw.ops hp hd'
      (congrArg some (hunder.keeps State.callRdsr1 rfl)) rfl rfl
  rw [settle_of_no_completion (c := c.enabled) (.inl hidle)] at hrx hunder'
  replace hrx : x.rx = [c.enabled.statusByte s.cfg d₂] := hrx
  have hset : c.enabled.statusByte s.cfg d₂ &&& x.cfg.welMask ≠ 0 := by
    rw [hunder'.cfg]
    exact bne_iff_ne.mp (isWriteEnabled_statusByte hw ..)
  have hrow := hunder'.step_row hbus' (hrows.set x _ hunder'.row ⟨hret', hrx⟩ hset)
  exact ⟨_, fun n => (steps_succ _ hwren).trans ((steps_succ _ hsent).trans
    ((steps_succ _ hread).trans (steps_succ _ hrow))), hbus', rfl,
    hunder'.next (sphase_of_inRow hunder'.row) rfl⟩

/-- The wait and the write-enable loop before a mutation, on an idle chip. -/
theorem Underway.waitAndLatch (h : Underway i s .preWip (d₁ :: d₂ :: d₃ :: ds) c u)
    (hw : s.cfg.Wf) (hp : s.cfg.chipPresent = true)
    (hwait : PollRows i .none .preWip (fun s => s.cfg.welLimit ≠ some 0) enterLatch)
    (hlatch : LatchRows i .none after)
    (hd₁ : cleanDraw d₁) (hd₂ : cleanDraw d₂) (hd₃ : cleanDraw d₃) (hdrop : d₂.dropWren = false)
    (hb : u.bus = some s.callRdsr1) (hidle : c.wip = false) :
    ∃ v, (∀ n, steps (n + 6) u = steps n (after v)) ∧ v.bus = none ∧ v.ret = none ∧
      Underway i s .welRdsr ds c.enabled v := by
  obtain ⟨w, hsteps, -, -, hunder⟩ := h.wait hw hp hwait hd₁ hb
    (by rwa [settle_of_no_completion (.inl hidle)]) fun v hv => hv ▸ hw.welLimit
  rw [settle_of_no_completion (.inl hidle)] at hunder
  replace hunder := hunder.next (v := enterLatch w) rfl rfl
  obtain ⟨v, hsteps', hbus, hret, hv⟩ :=
    hunder.latch hw hp hlatch hd₂ hd₃ hdrop (congrArg some (hunder.keeps State.callWren rfl)) hidle
  exact ⟨v, fun n => (hsteps (n + 4)).trans (hsteps' n), hbus, hret, hv⟩

end
end Sys2Proof.Machine

/-! # A PP request programs its page (R235, R251, R76) -/

namespace Sys2Proof.Machine

/-- The first `m` bytes of the transfer that the registers name, as the buffer holds them (R235). -/
def State.payload (s : State) (m : Nat) : List Byte :=
  (List.range m).map fun k => s.buffer.read (byteOffset s.off k).toNat

theorem payload_length (s : State) (m : Nat) : (s.payload m).length = m := by
  simp [State.payload]

theorem payload_succ (s : State) (m : Nat) : s.payload (m + 1) =
    s.payload m ++ [s.buffer.read (byteOffset s.off m).toNat] := by
  simp [State.payload, List.range_succ]

theorem payload_getElem? (s : State) {m k : Nat} (hk : k < m) :
    (s.payload m)[k]? = some (s.buffer.read (byteOffset s.off k).toNat) := by
  simp [State.payload, hk]

section
variable {i : Instr} {s u : State} {p : SPhase} {d : Draw} {ds : List Draw} {c : Chip}

/-- An update after which `u` differs from another state in `g'`'s registers only. -/
theorem within_rebase {g g' f : State → State} (h : Within g u)
    (hf : ∀ w, f (g w) = g' (f (g w))) : Within g' (f u) :=
  calc f u = f (g u) := congrArg f h
    _ = g' (f (g u)) := hf u
    _ = g' (f u) := congrArg (fun v => g' (f v)) h.symm

/-- The payload and the record move on. -/
theorem Underway.setData (h : Underway i s p ds c u) (bs : List Byte) (tr : List Event) :
    Underway i { s with data := bs } p ds c { u with data := bs, trace := tr } :=
  { h with
    since := within_rebase (f := fun w => { w with data := bs, trace := tr }) h.since
      fun _ => rfl }

/-- The first `m` payload bytes are read, one a step. -/
theorem Underway.gather {done : State → State}
    (h : Underway i { s with data := [] } .welRdsr ds c u) (hrows : ProgramRows i .none done)
    (hb : u.bus = none) (hr : u.ret = none)
    (hadm : ∀ k, k < s.len.toNat → s.admitsRead (byteOffset s.off k) = true) (m : Nat)
    (hm : m ≤ s.len.toNat) : ∃ v, (∀ n, steps (n + m) u = steps n v) ∧ v.bus = none ∧
      v.ret = none ∧ Underway i { s with data := s.payload m } .welRdsr ds c v := by
  induction m with
  | zero => exact ⟨u, fun _ => rfl, hb, hr, h⟩
  | succ m ih =>
    obtain ⟨v, hsteps, hb, hr, hv⟩ := ih (by omega)
    have hlen : v.data.length = m :=
      (congrArg List.length (hv.keeps State.data rfl)).trans (payload_length s m)
    have hdata : v.data ++ [v.buffer.read (byteOffset v.off v.data.length).toNat] =
        s.payload (m + 1) := by
      rw [payload_succ, hlen, hv.keeps State.data rfl, hv.keeps State.off rfl,
        hv.keeps State.buffer rfl]
    have hrow := hrows.gather v hv.row hr (by rw [hlen, hv.keeps State.len rfl]; exact hm) (by
      rw [hlen, hv.keeps State.off rfl]
      exact (hv.keeps (fun w => w.admitsRead (byteOffset s.off m)) rfl).trans (hadm m hm))
    rw [hdata] at hrow
    have hstep := hv.step_row hb hrow
    refine ⟨_, fun n => Eq.trans ?_ (steps_succ n hstep), hb, hr, hv.setData _ _⟩
    rw [show n + (m + 1) = n + 1 + m by omega, hsteps]

/-- The chip `e` is `c` busy with the program of `bs` at address `a` (R76). -/
structure Programmed (cfg : Config) (a : Nat) (bs : List Byte) (c e : Chip) : Prop where
  busy : e.wip = true
  bytes : ∀ k v, bs[k]? = some v →
    e.array.read (a + k) = programByte cfg.programRule (c.array.read (a + k)) v
  others : ∀ x, (x < a ∨ a + bs.length ≤ x) → e.array.read x = c.array.read x

/-- The page program of an idle chip that has taken the write enable. -/
theorem reactPp_enabled {cfg : Config} {a : WireAddr} {bs : List Byte}
    (hwf : Memory.wf c.array = true) (hidle : c.wip = false) (ha : a.toNat < cfg.deviceSize)
    (hn : fitsPage a bs.length = true) : Programmed cfg a.toNat bs c
      (reactPp cfg d a bs.length (framePp cfg.ops a bs).bytes (c.enabled.settle d)) := by
  have hacc : c.enabled.disarm.accepts = true := accepts_iff.mpr ⟨rfl, hidle⟩
  obtain ⟨hwip, -, -, -, hbytes⟩ :=
    pageProgram_accepted (c := c.enabled.disarm) (d := d) hwf ha hn hacc
  rw [settle_of_no_completion (c := c.enabled) (.inl hidle),
    reactPp_framePp _ (fitsPage_ne_nil hn)]
  exact ⟨hwip, hbytes, fun x hx => read_pageProgram_other ha hn hx⟩

/-- From the latch seen set to END: the payload, the call of the frame, the frame, its return. -/
theorem Underway.program (h : Underway i { s with data := [] } .welRdsr (d :: ds) c.enabled u)
    (hrows : ProgramRows i .none toEnd) (hw : s.cfg.Wf) (hp : s.cfg.chipPresent = true)
    (hd : cleanDraw d) (hb : u.bus = none) (hr : u.ret = none) (hwf : Memory.wf c.array = true)
    (hidle : c.wip = false) (hfit : ppFits s.addr s.len = true)
    (hin : (wireAddr s.addr).toNat < s.cfg.deviceSize)
    (hadm : ∀ k, k < s.len.toNat → s.admitsRead (byteOffset s.off k) = true) :
    ∃ v e, (∀ n, steps (n + 3 + s.len.toNat) u = steps n v) ∧ v.bus = none ∧ v.ret = none ∧
      Underway i { s with data := s.payload s.len.toNat } .finish ds e v ∧
      Programmed s.cfg (wireAddr s.addr).toNat (s.payload s.len.toNat) c e := by
  have hlen := payload_length s s.len.toNat
  have hfits : fitsPage (wireAddr s.addr) (s.payload s.len.toNat).length = true :=
    fits_wire hfit hlen
  obtain ⟨v, hsteps, hbv, hrv, hv⟩ := h.gather hrows hb hr hadm _ (Nat.le_refl _)
  have hall : v.len.toNat ≤ v.data.length := by
    rw [hv.keeps State.data rfl, hv.keeps State.len rfl]
    exact hlen.ge
  have hcall := hv.step_row hbv (hrows.main v hv.row hrv hall)
  have hcalled := hv.next (v := { v with sphase := .main, bus := some v.callPp }) rfl rfl
  obtain ⟨w, hframe, hbw, hrw, -, hunder⟩ := hcalled.step_frame
    (j := .spiPp (wireAddr s.addr) (s.payload s.len.toNat)) hw.ops hp hd
    (congrArg some (hv.keeps State.callPp rfl)) hfits rfl
  have hreturn := hunder.step_row hbw (hrows.ended w hunder.row hrw)
  refine ⟨_, _, fun n => Eq.trans ?_ (steps_succ n hreturn), hbw, rfl, hunder.next rfl rfl,
    reactPp_enabled hwf hidle hin hfits⟩
  rw [hsteps, steps_succ _ hcall, steps_succ _ hframe]

end

/-- Settles O56: acceptance and the call of the first status read, the wait and the write-enable
loop, the payload and its frame, the response. -/
theorem pageProgramRequestProgramsThePage : Obligations.PageProgramRequestProgramsThePage := by
  intro s r rest d₁ d₂ d₃ d₄ ds ho hcmd hw hi hp hidle hdraws hd₁ hd₂ hd₃ hd₄ hdrop hfit hin hadm
  obtain ⟨o, rfl⟩ : ∃ o, r = Request.of 0x09 o := ⟨r.operands, by rw [← hcmd]; rfl⟩
  obtain ⟨hrows, -⟩ := pageProgramRows o
  obtain ⟨u₁, hsteps₁, hbus₁, hu₁⟩ := underway_of_offered (i := .pp o) (act := fun t => t) rfl
    ho rfl hdraws (fun _ => ⟨_, rfl⟩) fun hrow => hrows.fits _ hrow hfit hw.wipLimit
  obtain ⟨u₂, hsteps₂, hbus₂, hret₂, hu₂⟩ :=
    hu₁.waitAndLatch hw hp hrows.wait hrows.latch hd₁ hd₂ hd₃ hdrop hbus₁ hidle
  obtain ⟨u₃, e, hsteps₃, hbus₃, hret₃, hu₃, he⟩ :=
    (hu₂.setData [] u₂.trace).program hrows hw hp hd₄ hbus₂ hret₂ hi.chip.arrayWf hidle hfit hin
      hadm
  obtain ⟨hresp, hend⟩ := hu₃.respond rfl rfl hbus₃ hret₃ rfl
  refine ⟨_, ?run, hend, hu₃.chip ▸ he.busy, hu₃.keeps State.buffer rfl, fun k hk => ?byte,
    fun x hx => ?other⟩
  case run =>
    rw [show 12 + (Request.of 0x09 o).a1.toNat = 1 + 3 + (Request.of 0x09 o).a1.toNat + 6 + 2 by
      omega]
    exact (hsteps₁ _).trans ((hsteps₂ _).trans ((hsteps₃ 1).trans hresp))
  case byte => exact hu₃.chip ▸ he.bytes k _ (payload_getElem? _ hk)
  case other => exact hu₃.chip ▸ he.others x (by rwa [payload_length])

end Sys2Proof.Machine

/-! # SE and CE requests erase and wait for completion (R240, R245, R252, R77) -/

namespace Sys2Proof.Machine

section
variable {i j : Instr} {s u : State} {c : Chip} {d₁ d₂ d₃ d₄ d₅ : Draw} {ds : List Draw}
  {f : FrameCall} {act : State → State} {call : State → FrameCall}

/-- The chip when its operation has completed and its status is read (R78, R73). -/
def Chip.completed (c : Chip) : Chip :=
  { c with wip := false, wel := false, op := none, rstEnabled := false }

/-- From the first wait to END: the frame leaves the chip busy, and the last status read finds it
done. -/
theorem Underway.erase (h : Underway i s .preWip (d₁ :: d₂ :: d₃ :: d₄ :: d₅ :: ds) c u)
    (hrows : EraseRows i .none act call toEnd) (hw : s.cfg.Wf) (hp : s.cfg.chipPresent = true)
    (hd₁ : cleanDraw d₁) (hd₂ : cleanDraw d₂) (hd₃ : cleanDraw d₃) (hd₄ : cleanDraw d₄)
    (hd₅ : cleanDraw d₅) (hdrop : d₂.dropWren = false) (hcompletes : d₅.completes = true)
    (hb : u.bus = some s.callRdsr1) (hidle : c.wip = false) (hj : j.wf = true)
    (he : encode s.cfg.ops j = .frame f) (hcall : ∀ v, call (s.driven v) = f)
    (hbusy : ((chipSide s.cfg j).react d₄ f.bytes c.enabled).wip = true) :
    ∃ v, (∀ n, steps (n + 10) u = steps n v) ∧ v.bus = none ∧ v.ret = none ∧
      Underway i s .finish ds ((chipSide s.cfg j).react d₄ f.bytes c.enabled).completed v := by
  obtain ⟨v, hsteps, -, -, hv⟩ :=
    h.waitAndLatch hw hp hrows.wait hrows.latch hd₁ hd₂ hd₃ hdrop hb hidle
  have hcalled := hv.next (v := { v with sphase := .main, bus := some (call v) }) rfl rfl
  obtain ⟨w, hframe, hbw, hrw, -, hunder⟩ := hcalled.step_frame hw.ops hp hd₄
    (congrArg some ((congrArg call hv.since).trans (hcall v))) hj he
  rw [settle_of_no_completion (c := c.enabled) (.inl hidle)] at hunder
  have hpost := hunder.step_row hbw
    (hrows.post w hunder.row hrw (by rw [hunder.cfg]; exact hw.wipLimit))
  have hwaits := hunder.next rfl
    (v := { w with polls := 0, sphase := .postWip, bus := some w.callRdsr1, ret := none }) rfl
  have hdone := settle_of_completion hbusy hcompletes
  obtain ⟨x, hsteps', hbx, hrx, hx⟩ := hwaits.wait hw hp hrows.postWait hd₅
    (congrArg some (hunder.keeps State.callRdsr1 rfl)) (by rw [hdone]) fun _ _ => trivial
  rw [hdone] at hx
  refine ⟨toEnd x, fun n => Eq.trans ?_ (hsteps' n), hbx, hrx, hx.next rfl rfl⟩
  rw [show n + 10 = n + 2 + 1 + 1 + 6 by omega, hsteps, steps_succ _ hframe, steps_succ _ hpost]

end

/-- Settles O57: acceptance and the call of the first status read, the erase up to END, the
response; SE and CE differ in the frame and in the bytes it erases. -/
theorem eraseRequestsEraseAndComplete : Obligations.EraseRequestsEraseAndComplete := by
  intro s r rest d₁ d₂ d₃ d₄ d₅ ds ho hw hp hidle hdraws hd₁ hd₂ hd₃ hd₄ hd₅ hdrop hcompletes
  have hacc : s.chip.enabled.disarm.accepts = true := accepts_iff.mpr ⟨rfl, hidle⟩
  refine ⟨fun hcmd hin => ?se, fun hcmd => ?ce⟩
  case se =>
    obtain ⟨o, rfl⟩ : ∃ o, r = Request.of 0x0A o := ⟨r.operands, by rw [← hcmd]; rfl⟩
    obtain ⟨hrows, -⟩ := sectorEraseRows o
    obtain ⟨hbusy, herased⟩ := sectorErase_accepted (d := d₄) hin hacc
    have hsector (x : Nat) : x / 4096 = o.a0.toNat % 4096 ↔
        x / sectorSize = (wireAddr (sectorAddr o.a0)).toNat / sectorSize := by
      rw [wireAddr_toNat, sectorAddr_toNat]
      simp only [sectorSize]
      omega
    obtain ⟨u₁, hsteps₁, hbus₁, hu₁⟩ := underway_of_offered (i := .se o) rfl ho rfl hdraws
      (fun _ => ⟨_, rfl⟩) fun hrow => hrows.enter.start _ hrow hw.wipLimit
    obtain ⟨u₂, hsteps₂, hbus₂, hret₂, hu₂⟩ := hu₁.erase
      (j := .spiSe (wireAddr (sectorAddr o.a0))) hrows hw hp hd₁ hd₂ hd₃ hd₄ hd₅ hdrop hcompletes
      hbus₁ hidle (decide_eq_true (sector_aligned o.a0)) rfl (fun _ => rfl) hbusy
    obtain ⟨hresp, hend⟩ := hu₂.respond rfl rfl hbus₂ hret₂ rfl
    refine ⟨_, (hsteps₁ 11).trans ((hsteps₂ 1).trans hresp), hend, congrArg Chip.wip hu₂.chip,
      congrArg Chip.wel hu₂.chip, fun x hx => ?_, fun x hx => ?_⟩
    · exact hu₂.chip ▸ herased x ((hsector x).mp hx)
    · exact hu₂.chip ▸ read_sectorErase_other hin (mt (hsector x).mpr hx)
  case ce =>
    obtain ⟨o, rfl⟩ : ∃ o, r = Request.of 0x0B o := ⟨r.operands, by rw [← hcmd]; rfl⟩
    obtain ⟨hrows, -⟩ := chipEraseRows o
    obtain ⟨hbusy, herased⟩ := chipErase_accepted (cfg := s.cfg) hacc
    obtain ⟨u₁, hsteps₁, hbus₁, hu₁⟩ := underway_of_offered (i := .ce o) rfl ho rfl hdraws
      (fun _ => ⟨_, rfl⟩) fun hrow => hrows.enter.start _ hrow hw.wipLimit
    obtain ⟨u₂, hsteps₂, hbus₂, hret₂, hu₂⟩ := hu₁.erase (j := .spiCe) hrows hw hp hd₁ hd₂ hd₃ hd₄
      hd₅ hdrop hcompletes hbus₁ hidle rfl rfl (fun _ => rfl) hbusy
    obtain ⟨hresp, hend⟩ := hu₂.respond rfl rfl hbus₂ hret₂ rfl
    exact ⟨_, (hsteps₁ 11).trans ((hsteps₂ 1).trans hresp), hend, congrArg Chip.wip hu₂.chip,
      congrArg Chip.wel hu₂.chip, fun x hx => hu₂.chip ▸ herased x hx⟩

end Sys2Proof.Machine

/-! # A READ request fills the buffer (R230, R66, R72, R88) -/

namespace Sys2Proof.Machine

/-! ## The bytes stored so far -/

/-- R64: the offsets of a transfer are distinct, since its length is below 2^32. -/
theorem byteOffset_ne {off : Word} {k m : Nat} (hk : k < 2 ^ 32) (hm : m < 2 ^ 32) (h : k ≠ m) :
    (byteOffset off k).toNat ≠ (byteOffset off m).toNat := by
  simp only [byteOffset, BitVec.toNat_add, BitVec.toNat_ofNat]
  omega

/-- The memory `b'` is `b` with `val k` written at `off +32 k`, for every `k` below `m`. -/
structure Filled (b : Memory) (off : Word) (val : Nat → Byte) (m : Nat) (b' : Memory) : Prop where
  wf : Memory.wf b' = true
  stored : ∀ k, k < m → b'.read (byteOffset off k).toNat = val k
  others : ∀ a, (∀ k, k < m → a ≠ (byteOffset off k).toNat) → b'.read a = b.read a

section
variable {b b' : Memory} {off : Word} {val : Nat → Byte} {m : Nat}

theorem filled_zero (h : Memory.wf b = true) : Filled b off val 0 b :=
  ⟨h, fun _ hk => absurd hk (Nat.not_lt_zero _), fun _ _ => rfl⟩

theorem Filled.write (h : Filled b off val m b') (hm : m < 2 ^ 32) :
    Filled b off val (m + 1) (b'.write (byteOffset off m).toNat (val m)) where
  wf := Memory.write_wf _ _ h.wf
  stored k hk := by
    by_cases hkm : k = m
    · rw [hkm, Memory.read_write_same _ _ h.wf]
    · rw [Memory.read_write_other _ (byteOffset_ne (by omega) hm hkm), h.stored k (by omega)]
  others a ha := by
    rw [Memory.read_write_other _ (ha m (Nat.lt_succ_self m)),
      h.others a fun k hk => ha k (Nat.lt_succ_of_lt hk)]

end

section
variable {s u : State} {o : Operands} {p : SPhase} {d₁ d₂ : Draw} {ds : List Draw} {c : Chip}
  {val : Nat → Byte} {m : Nat} {b : Memory}

/-- READ's frame has returned: no byte is written yet. -/
theorem Underway.restart {i : Instr} (h : Underway i s p ds c u) :
    Underway i { s with pos := 0 } p ds c { u with pos := 0 } :=
  { h with since := within_rebase (f := fun w => { w with pos := 0 }) h.since fun _ => rfl }

/-- The position, the buffer and the record move on. -/
theorem Underway.setBuffer {i : Instr} (h : Underway i s p ds c u) (n : Nat) (b : Memory)
    (tr : List Event) : Underway i { s with pos := n, buffer := b } p ds c
      { u with pos := n, buffer := b, trace := tr } :=
  { h with
    since := within_rebase (f := fun w => { w with pos := n, buffer := b, trace := tr })
      h.since fun _ => rfl }

/-- The first `m` received bytes are written to the buffer, one a step. -/
theorem Underway.move (h : Underway (.read o) { s with pos := 0 } .main ds c u)
    (hb : u.bus = none) (hr : u.ret = none) (hwf : Memory.wf s.buffer = true)
    (hrx : ∀ k, k < s.len.toNat → u.rx[k]? = some (val k))
    (hadm : ∀ k, k < s.len.toNat → s.admitsWrite (byteOffset s.off k) = true) (m : Nat)
    (hm : m ≤ s.len.toNat) : ∃ v b, (∀ n, steps (n + m) u = steps n v) ∧ v.bus = none ∧
      v.ret = none ∧ v.rx = u.rx ∧ Filled s.buffer s.off val m b ∧
      Underway (.read o) { s with pos := m, buffer := b } .main ds c v := by
  induction m with
  | zero => exact ⟨u, s.buffer, fun _ => rfl, hb, hr, rfl, filled_zero hwf, h⟩
  | succ m ih =>
    obtain ⟨v, b, hsteps, hb, hr, hvrx, hfill, hv⟩ := ih (by omega)
    have hpos : v.pos = m := hv.keeps State.pos rfl
    have hoffset : byteOffset v.off v.pos = byteOffset s.off m := by
      rw [hpos, hv.keeps State.off rfl]
    have hwrite : v.buffer.write (byteOffset v.off v.pos).toNat (val m) =
        b.write (byteOffset s.off m).toNat (val m) := by
      rw [hoffset, hv.keeps State.buffer rfl]
    have hstoring : v.storing := ⟨hv.row, hr, by rw [hpos, hv.keeps State.len rfl]; exact hm⟩
    have hstep := hv.step_row hb (read_stores (v := val m) hstoring
      (by rw [hvrx, hpos]; exact hrx m hm) (by
        rw [hoffset]
        exact (hv.keeps (fun w => w.admitsWrite (byteOffset s.off m)) rfl).trans (hadm m hm)))
    rw [hwrite, hpos] at hstep
    refine ⟨_, _, fun n => Eq.trans ?_ (steps_succ n hstep), hb, hr, hvrx,
      hfill.write (by have := s.len.isLt; omega), hv.setBuffer _ _ _⟩
    rw [show n + (m + 1) = n + 1 + m by omega, hsteps]

/-- What an idle chip answers to READ's frame (R72): the array's bytes. -/
theorem callRead_answer {k : Nat} (hidle : c.wip = false) (hk : k < s.len.toNat)
    (hin : (wireAddr s.addr).toNat + s.len.toNat ≤ s.cfg.deviceSize) :
    (if s.callRead.rxn = 0 then []
      else answerRead s.cfg d₁ (wireAddr s.addr) s.len.toNat c)[k]? =
      some (c.array.read ((wireAddr s.addr).toNat + k)) := by
  have hne : s.callRead.rxn ≠ 0 := Nat.ne_of_gt (Nat.lt_of_le_of_lt (Nat.zero_le k) hk)
  rw [if_neg hne]
  exact answerRead_getElem? hidle hk (by omega)

/-- From the frame's call to END: the frame, its return, the stores. -/
theorem Underway.fill (h : Underway (.read o) s .main (d₁ :: ds) c u) (hw : s.cfg.Wf)
    (hp : s.cfg.chipPresent = true) (hd : cleanDraw d₁) (hb : u.bus = some s.callRead)
    (hidle : c.wip = false) (hwf : Memory.wf s.buffer = true)
    (hin : (wireAddr s.addr).toNat + s.len.toNat ≤ s.cfg.deviceSize)
    (hadm : ∀ k, k < s.len.toNat → s.admitsWrite (byteOffset s.off k) = true) :
    ∃ v b, (∀ n, steps (n + 3 + s.len.toNat) u = steps n v) ∧ v.bus = none ∧ v.ret = none ∧
      Filled s.buffer s.off (fun k => c.array.read ((wireAddr s.addr).toNat + k)) s.len.toNat b ∧
      Underway (.read o) { s with pos := s.len.toNat, buffer := b } .finish ds c.disarm v := by
  obtain ⟨v, hframe, hbv, hrv, hrx, hv⟩ := h.step_frame
    (j := .spiRead (wireAddr s.addr) s.len.toNat) hw.ops hp hd hb (decide_eq_true s.len.isLt) rfl
  rw [settle_of_no_completion (.inl hidle)] at hrx hv
  have hreturn := hv.step_row hbv
    ((read_exec_main hv.row (by simp [hrv])).trans (onReturn_true _ hrv))
  have hstart := (hv.next (v := { v with ret := none }) (sphase_of_inRow hv.row) rfl).restart
  obtain ⟨w, b, hsteps, hbw, hrw, -, hfill, hunder⟩ := hstart.move hbv rfl hwf
    (fun k hk => (congrArg (·[k]?) hrx).trans (callRead_answer hidle hk hin)) hadm _ (Nat.le_refl _)
  have hend := hunder.step_row hbw (read_ends hunder.row hrw (by
    rw [hunder.keeps State.pos rfl, hunder.keeps State.len rfl]))
  refine ⟨_, b, fun n => Eq.trans ?_ (steps_succ n hend), hbw, hrw, hfill, hunder.next rfl rfl⟩
  rw [show n + 3 + s.len.toNat = n + 1 + s.len.toNat + 1 + 1 by omega, steps_succ _ hframe,
    steps_succ _ hreturn]
  exact hsteps (n + 1)

end

/-- Settles O58: acceptance and the call of the first status read, the wait, the frame and the
stores, the response. -/
theorem readRequestFillsTheBuffer : Obligations.ReadRequestFillsTheBuffer := by
  intro s r rest d₁ d₂ ds ho hcmd hw hi hp hidle hdraws hd₁ hd₂ hin hadm
  obtain ⟨o, rfl⟩ : ∃ o, r = Request.of 0x08 o := ⟨r.operands, by rw [← hcmd]; rfl⟩
  obtain ⟨henter, hwait, -⟩ := readRows o
  obtain ⟨u₁, hsteps₁, hbus₁, hu₁⟩ := underway_of_offered (i := .read o) rfl ho rfl hdraws
    (fun _ => ⟨_, rfl⟩) fun hrow => henter.start _ hrow hw.wipLimit
  obtain ⟨u₂, hsteps₂, -, -, hu₂⟩ := hu₁.wait hw hp hwait hd₁ hbus₁
    (by rwa [settle_of_no_completion (.inl hidle)]) fun _ _ => trivial
  rw [settle_of_no_completion (.inl hidle)] at hu₂
  have hcalled := hu₂.next (v := { u₂ with sphase := .main, bus := some u₂.callRead }) rfl rfl
  obtain ⟨u₃, b, hsteps₃, hbus₃, hret₃, hfill, hu₃⟩ := hcalled.fill hw hp hd₂
    (congrArg some (hu₂.keeps State.callRead rfl)) hidle hi.bufferWf hin hadm
  obtain ⟨hresp, hend⟩ := hu₃.respond rfl rfl hbus₃ hret₃ rfl
  have hbuffer : u₃.buffer = b := hu₃.keeps State.buffer rfl
  refine ⟨_, ?run, hend, fun k hk => ?byte, fun a ha => ?other, ?array⟩
  case run =>
    rw [show 8 + (Request.of 0x08 o).a1.toNat = 1 + 3 + (Request.of 0x08 o).a1.toNat + 2 + 2 by
      omega]
    exact (hsteps₁ _).trans ((hsteps₂ _).trans ((hsteps₃ 1).trans hresp))
  case byte => exact hbuffer ▸ hfill.stored k hk
  case other => exact hbuffer ▸ hfill.others a ha
  case array => rw [respondOk_chip, hu₃.chip]; rfl

end Sys2Proof.Machine

/-! # The range and sequence commands (R270, R280, R290, R296)

Their own rows: INIT's comparison and the loop tests; and what the four commands leave unchanged. -/

namespace Sys2Proof.Machine

section
variable {P : State → Prop} {s : State} {o : Operands} {c : Config}

/-! ## INIT's comparison -/

theorem idMatch_iff {d : Ident} : idMatch c d = true ↔
    d.mfr = c.expId.mfr ∧ d.type = c.expId.type ∧ d.cap = c.expId.cap := by
  simp [idMatch, and_assoc]

theorem initCompare_match (h : idMatch s.cfg s.id = true) :
    initCompare s = respondOk { s with rspId := s.id, rphase := .none } := if_pos h

theorem initCompare_mismatch (h : idMatch s.cfg s.id = false) :
    initCompare s = abort codeId { s with rspId := s.id } := if_neg (by simp [h])

theorem init_exec_compare (hp : s.phase = .busy) (hr : s.rphase = .initCmp) :
    exec (.init o) s = .next (initCompare s) := by
  rw [exec_init, rangeRequest_busy hp (by simp [hr]), initSeq, hr]

/-! ## The loop tests -/

theorem loopTest_of_lt {load : State → State} (h : s.i < s.n) :
    loopTest load s = .next { load s with sphase := .check, atTest := false } := if_pos h

theorem loopTest_of_le {load : State → State} (h : s.n.toNat ≤ s.i.toNat) :
    loopTest load s = .next { s with sphase := .finish, rphase := .none, atTest := false } :=
  if_neg (BitVec.not_lt.mpr h)

theorem write_exec_test (h : s.inTest .writeLoop) :
    exec (.write o) s = loopTest loadChunk s := by
  obtain ⟨hp, hr, ht⟩ := h
  rw [exec_write, rangeRequest_busy hp (by simp [hr]), writeSeq, hr]
  exact if_pos ht

theorem erase_exec_test (h : s.inTest .eraseLoop) :
    exec (.erase o) s = loopTest loadRangeSector s := by
  obtain ⟨hp, hr, ht⟩ := h
  rw [exec_erase, rangeRequest_busy hp (by simp [hr]), eraseRangeSeq, hr]
  exact if_pos ht

/-! ## The addresses and lengths of the chunks -/

theorem chunkStart_eq (a i : Word) : chunkStart a i = a + 256 * i := by
  apply BitVec.eq_of_toNat_eq
  simp [chunkStart, pageSize, Nat.mul_comm]

theorem chunkLen_partial {size i n : Word} (hi : i.toNat + 1 = n.toNat)
    (hs : size.toNat % 256 ≠ 0) : (chunkLen size i n).toNat = size.toNat % 256 := by
  rw [chunkLen, if_pos ⟨hi, hs⟩, BitVec.toNat_ofNat]
  exact Nat.mod_eq_of_lt (lt_of_le_of_lt (Nat.mod_le ..) size.isLt)

theorem chunkLen_full {size i n : Word} (h : i.toNat + 1 ≠ n.toNat ∨ size.toNat % 256 = 0) :
    chunkLen size i n = 256 := if_neg (by simpa [pageSize, imp_iff_not_or] using h)

/-! ## The sequencers, off the registers that a property speaks of -/

section
variable (hP : OffControl P) (h : P s)
include hP h

/-- END of a loop's sub-command. -/
theorem loopReturn_leads (hloop : ∀ (u : State) i b, P u → P { u with i := i, atTest := b }) :
    Leads P (loopReturn s) :=
  leads_next (hP.control { s with i := s.i + 1, atTest := true } (toEnd s) (hloop s _ _ h))

theorem loopTest_leads {load : State → State} (hload : ∀ u, P u → P (load u))
    (hloop : ∀ (u : State) i b, P u → P { u with i := i, atTest := b }) :
    Leads P (loopTest load s) := by
  intro t ht
  rcases loopTest_eq_next ht with ⟨-, rfl⟩ | ⟨-, rfl⟩
  · exact hP.control { load s with atTest := false } { load s with sphase := .check }
      (hloop _ (load s).i _ (hload s h))
  · exact hP.control { s with atTest := false } { s with sphase := .finish, rphase := .none }
      (hloop s s.i _ h)

theorem initCompare_keeps (hid : ∀ (u : State) x, P u → P { u with rspId := x }) :
    P (initCompare s) := by
  cases hm : idMatch s.cfg s.id with
  | true =>
    rw [initCompare_match hm]
    exact hP.control { s with rspId := s.id } (respondOk { s with rphase := .none }) (hid s _ h)
  | false =>
    rw [initCompare_mismatch hm]
    exact hP.abort _ (hid s _ h)

theorem initSeq_leads (hpos : ∀ (u : State) n, P u → P { u with pos := n })
    (hstore : ∀ u, P u → P (storeId u)) (hid : ∀ (u : State) x, P u → P { u with rspId := x }) :
    Leads P (initSeq s) := by
  unfold initSeq
  split
  · exact reset_leads hP h
      (fun u hu => leads_next (hP.control u { u with rphase := .initId, sphase := .check } hu)) hpos
  · exact oneFrame_leads hP h
      (fun u hu => leads_next (hP.control u { u with rphase := .initCmp, sphase := .finish } hu))
      _ hstore
  · exact leads_next (initCompare_keeps hP h hid)
  all_goals exact leads_fault _

section
variable (hw : OffWait P) (hl : OffLatch P)
include hw hl

theorem writeSeq_leads (hload : ∀ u, P u → P (loadChunk u))
    (hloop : ∀ (u : State) i b, P u → P { u with i := i, atTest := b })
    (hdata : ∀ (u : State) ds, P u → P { u with data := ds })
    (htrace : ∀ (u : State) l, P u → P { u with trace := l }) : Leads P (writeSeq s) := by
  unfold writeSeq
  split
  · split
    · exact loopTest_leads hP h hload hloop
    · exact pp_leads hP h (fun _ hu => loopReturn_leads hP hu hloop) hw hl hdata htrace
  all_goals exact leads_fault _

theorem eraseRangeSeq_leads (hload : ∀ u, P u → P (loadRangeSector u))
    (hloop : ∀ (u : State) i b, P u → P { u with i := i, atTest := b })
    (haddr : ∀ (u : State) a, P u → P { u with addr := a }) : Leads P (eraseRangeSeq s) := by
  unfold eraseRangeSeq
  split
  · split
    · exact loopTest_leads hP h hload hloop
    · exact erase_leads hP h (fun _ hu => loopReturn_leads hP hu hloop) hw hl _
        fun u => haddr u (sectorAddr u.sidx)
  all_goals exact leads_fault _

theorem massSeq_leads : Leads P (massSeq s) := by
  unfold massSeq
  split
  · exact erase_leads hP h
      (fun u hu => leads_next (hP.control u { u with sphase := .finish, rphase := .none } hu))
      hw hl _ fun _ hu => hu
  all_goals exact leads_fault _

end
end

/-- A range request whose rows change what `g` names, and whose acceptance and response do. -/
theorem range_within {g load : State → State} {r : Request} {seq : State → Res} {i : Instr}
    {t : State} (hseq : Leads (Within g) (seq s)) (hx : exec i s = rangeRequest r load seq s)
    (hacc : Within g (load (accept r s))) (hrsp : Within g (respondOk s))
    (ht : exec i s = .next t) : t = g t := rangeRequest_leads hacc hrsp hseq t (hx ▸ ht)

end

/-- Settles O23: the two outcomes of `initCompare`. -/
theorem identityComparisonStep : Obligations.IdentityComparisonStep := by
  intro o s hp hr
  rw [init_exec_compare hp hr]
  refine ⟨fun heq => ?agree, fun hne => ?differ⟩
  case agree => rw [initCompare_match (idMatch_iff.mpr (by simp [heq]))]; rfl
  case differ =>
    have hm : idMatch s.cfg s.id = false := by
      rw [Bool.eq_false_iff, Ne, idMatch_iff]
      rintro ⟨hm, ht, hc⟩
      exact hne.elim (· hm) (Or.elim · (· ht) (· hc))
    rw [initCompare_mismatch hm]
    rfl

/-- Settles O24: the two outcomes of `loopTest`, with the chunk's registers in word arithmetic. -/
theorem rangeLoopRows : Obligations.RangeLoopRows := by
  intro o s
  refine ⟨fun h hlt => ⟨chunkLen s.req.a1 s.i s.n, ?chunk, chunkLen_partial, chunkLen_full⟩,
    fun h hle => (write_exec_test h).trans (loopTest_of_le hle),
    fun h hlt => (erase_exec_test h).trans (loopTest_of_lt hlt),
    fun h hle => (erase_exec_test h).trans (loopTest_of_le hle)⟩
  case chunk =>
    rw [write_exec_test h, loopTest_of_lt hlt, loadChunk, chunkStart_eq, chunkStart_eq]

/-- Settles O43: each command's rows write the control registers and the registers named. -/
theorem frameOfRangeCommands : Obligations.FrameOfRangeCommands := by
  intro o s t
  refine ⟨?init, ?write, ?erase, ?mass⟩
  case init =>
    have hP := within_offControl (fun _ _ => rfl) (fun _ => rfl)
      (g := fun u => { s.withControlOf u with id := u.id, rspId := u.rspId, pos := u.pos })
    have hseq := initSeq_leads hP (s := s) rfl
      (fun u n => within_update (f := fun u => { u with pos := n }) (fun _ => rfl) u)
      (within_update fun _ => rfl)
      fun u x => within_update (f := fun u => { u with rspId := x }) (fun _ => rfl) u
    exact range_within hseq (exec_init o s) rfl rfl
  case write =>
    have hP := within_offControl (fun _ _ => rfl) (fun _ => rfl)
      (g := fun u => { s.withControlOf u with
        sr := u.sr, polls := u.polls, tries := u.tries, addr := u.addr, len := u.len
        off := u.off, data := u.data, trace := u.trace, i := u.i, n := u.n, atTest := u.atTest })
    have hseq := writeSeq_leads hP (s := s) rfl
      (within_offWait (fun _ => rfl) fun _ => rfl) (within_offLatch (fun _ => rfl) fun _ => rfl)
      (within_update fun _ => rfl)
      (fun u i b => within_update (f := fun u => { u with i := i, atTest := b }) (fun _ => rfl) u)
      (fun u ds => within_update (f := fun u => { u with data := ds }) (fun _ => rfl) u)
      fun u l => within_update (f := fun u => { u with trace := l }) (fun _ => rfl) u
    exact range_within hseq (exec_write o s) rfl rfl
  case erase =>
    have hP := within_offControl (fun _ _ => rfl) (fun _ => rfl)
      (g := fun u => { s.withControlOf u with
        sr := u.sr, polls := u.polls, tries := u.tries, addr := u.addr, sidx := u.sidx
        i := u.i, n := u.n, base := u.base, eidx := u.eidx, atTest := u.atTest })
    have hseq := eraseRangeSeq_leads hP (s := s) rfl
      (within_offWait (fun _ => rfl) fun _ => rfl) (within_offLatch (fun _ => rfl) fun _ => rfl)
      (within_update fun _ => rfl)
      (fun u i b => within_update (f := fun u => { u with i := i, atTest := b }) (fun _ => rfl) u)
      fun u a => within_update (f := fun u => { u with addr := a }) (fun _ => rfl) u
    exact range_within hseq (exec_erase o s) rfl rfl
  case mass =>
    have hP := within_offControl (fun _ _ => rfl) (fun _ => rfl)
      (g := fun u => { s.withControlOf u with sr := u.sr, polls := u.polls, tries := u.tries })
    have hseq := massSeq_leads hP (s := s) rfl
      (within_offWait (fun _ => rfl) fun _ => rfl)
      (within_offLatch (fun _ => rfl) fun _ => rfl)
    exact range_within hseq (exec_masserase o s) rfl rfl

end Sys2Proof.Machine

/-! # The chunks of a WRITE and the sectors of an ERASE (R280-R283, R290)

How many they are and how long, and that a step changes no array byte outside the one in progress. -/

namespace Sys2Proof.Machine

/-! ## The chunks in natural arithmetic -/

theorem chunkCount_toNat (size : Word) : (chunkCount size).toNat = (size.toNat + 255) / 256 := by
  have := size.isLt
  rw [chunkCount_eq, BitVec.toNat_ofNat]
  omega

theorem chunkLen_bounds {size i : Word} (n : Word) :
    1 ≤ (chunkLen size i n).toNat ∧ (chunkLen size i n).toNat ≤ 256 := by
  by_cases h : i.toNat + 1 ≠ n.toNat ∨ size.toNat % 256 = 0
  · rw [chunkLen_full h]
    decide
  · obtain ⟨hi, hs⟩ := not_or.mp h
    rw [chunkLen_partial (not_not.mp hi) hs]
    omega

theorem ofNat_toNat_of_lt {n : Word} {i : Nat} (h : i < n.toNat) :
    (BitVec.ofNat 32 i).toNat = i := by
  have := n.isLt
  rw [BitVec.toNat_ofNat]
  omega

/-- The chunks before the last one are whole pages. -/
theorem chunks_before_last (size n : Word) (m : Nat) (hm : m < n.toNat) :
    ((List.range m).map fun i => (chunkLen size (BitVec.ofNat 32 i) n).toNat).sum = 256 * m := by
  have hfull : ∀ i ∈ List.range m, (chunkLen size (BitVec.ofNat 32 i) n).toNat = 256 := by
    intro i hi
    have hi := List.mem_range.mp hi
    rw [chunkLen_full (.inl (by rw [ofNat_toNat_of_lt (n := n)] <;> omega))]
    rfl
  rw [List.map_congr_left hfull]
  simp [Nat.mul_comm]

theorem chunks_sum (size : Word) : ((List.range (chunkCount size).toNat).map
    fun i => (chunkLen size (BitVec.ofNat 32 i) (chunkCount size)).toNat).sum = size.toNat := by
  have hcount := chunkCount_toNat size
  cases hn : (chunkCount size).toNat with
  | zero => simp; omega
  | succ m =>
    have hlast : (BitVec.ofNat 32 m).toNat = m :=
      ofNat_toNat_of_lt (n := chunkCount size) (by omega)
    rw [List.range_succ, List.map_append, List.sum_append,
      chunks_before_last _ _ _ (by omega)]
    simp only [List.map_cons, List.map_nil, List.sum_singleton]
    by_cases hs : size.toNat % 256 = 0
    · rw [chunkLen_full (.inr hs), show BitVec.toNat (256 : Word) = 256 from rfl]
      omega
    · rw [chunkLen_partial (by omega) hs]
      omega

/-! ## A step of a request in progress, byte by byte of the array -/

section
variable {i : Instr} {s t u v : State} {f : FrameCall} {a : WireAddr} {b : Nat} {o : Operands}

/-- An array byte stays if the rows of the request leave the chip alone and the frame on the bus
leaves the byte alone, with a reset (log 27) as without. -/
theorem busy_step_keeps_byte (hp : s.phase = .busy) (h : step s = .next t)
    (hrow : ∀ u v, exec (decodeRequest s.req) u = .next v → v.chip = u.chip)
    (hframe : ∀ f i u v, s.bus = some f → decodeFrame s.cfg.ops f = .ok i → u.cfg = s.cfg →
      exec i u = .next v → v.chip.array.read b = u.chip.array.read b) :
    t.chip.array.read b = s.chip.array.read b := by
  rw [← applyInput_chip s]
  rw [← applyInput_req s] at hrow
  rw [← applyInput_bus s, ← applyInput_cfg s] at hframe
  cases hr : s.resetAsserted with
  | false =>
    cases step_move hr h with
    | frame f i hb hd hx => exact hframe f i _ t hb hd rfl hx
    | busy _ _ hx => rw [hrow _ t hx]
    | accept _ _ _ hready | wait _ hready =>
      simp [State.reqReady, hp] at hready
  | true =>
    rw [step_of_reset hr] at h
    obtain ⟨u, rfl, rfl | ⟨f, i, hb, hd, hx⟩⟩ := resetStep_eq_next h
    · rfl
    · exact hframe f i _ u hb hd rfl hx

theorem encoded_frame_decodes (ho : s.cfg.ops.wf) (hi : i.wf = true)
    (he : encode s.cfg.ops i = .frame f) : decodeFrame s.cfg.ops f = .ok i :=
  (he ▸ decodeInvertsEncode _ i ho hi : decode s.cfg.ops (.frame f) = .ok i)

/-- While a page program has a frame on the bus its chunk fits its page. -/
theorem ppAt_fits (hb : s.bus = some f) (h : ppAt s) : ppFits s.addr s.len = true := by
  unfold ppAt at h
  split at h
  · exact (not_quiet hb h).elim
  iterate 4 exact h.1
  all_goals cases h

/-- The frames of the waits and of the write-enable loop reach no array byte. -/
theorem latch_frame_keeps_byte (ho : s.cfg.ops.wf) (hf : f = s.callWren ∨ f = s.callRdsr1)
    (hd : decodeFrame s.cfg.ops f = .ok i) (hx : exec i u = .next v) :
    v.chip.array.read b = u.chip.array.read b := by
  obtain ⟨-, hkeep, -⟩ := frameOfSpiFrames i u v (decodeFrame_isRequest hd) hx
  rcases hf with rfl | rfl
  · cases (encoded_frame_decodes (i := .spiWren) ho rfl rfl).symm.trans hd
    exact hkeep (by simp) b
  · cases (encoded_frame_decodes (i := .spiRdsr1) ho rfl rfl).symm.trans hd
    exact hkeep (by simp) b

/-- A frame of a page program changes no array byte outside the transfer in progress. -/
theorem ppAt_frame_keeps_byte (ho : s.cfg.ops.wf) (hb : s.bus = some f) (hat : ppAt s)
    (hd : decodeFrame s.cfg.ops f = .ok i) (hcfg : u.cfg = s.cfg) (hx : exec i u = .next v)
    (ha : (wireAddr s.addr).toNat < s.cfg.deviceSize)
    (hout : b < (wireAddr s.addr).toNat ∨ (wireAddr s.addr).toNat + s.len.toNat ≤ b) :
    v.chip.array.read b = u.chip.array.read b := by
  rcases ppAt_frame hb hat with hf | hf | ⟨rfl, hlen⟩
  · exact latch_frame_keeps_byte ho (.inl hf) hd hx
  · exact latch_frame_keeps_byte ho (.inr hf) hd hx
  · have hfit := fits_wire (ppAt_fits hb hat) hlen
    cases (encoded_frame_decodes (i := .spiPp (wireAddr s.addr) s.data) ho hfit rfl).symm.trans hd
    obtain ⟨-, -, hkeep, -⟩ := frameOfSpiFrames _ u v rfl hx
    exact hkeep _ _ rfl (hcfg ▸ ha) hfit b (hlen ▸ hout)

/-- A frame of a sector erase changes no array byte outside the sector in progress. -/
theorem seAt_frame_keeps_byte (ho : s.cfg.ops.wf) (hb : s.bus = some f) (hat : seAt s)
    (hd : decodeFrame s.cfg.ops f = .ok i) (hcfg : u.cfg = s.cfg) (hx : exec i u = .next v)
    (ha : (wireAddr (sectorAddr s.sidx)).toNat < s.cfg.deviceSize)
    (hout : b / 4096 ≠ (wireAddr (sectorAddr s.sidx)).toNat / 4096) :
    v.chip.array.read b = u.chip.array.read b := by
  rcases eraseAt_frame hb hat with hf | hf | ⟨rfl, haddr⟩
  · exact latch_frame_keeps_byte ho (.inl hf) hd hx
  · exact latch_frame_keeps_byte ho (.inr hf) hd hx
  · rw [← haddr] at ha hout
    have hwf : (Instr.spiSe (wireAddr s.addr)).wf = true := by
      rw [haddr]
      exact decide_eq_true (sector_aligned s.sidx)
    cases (encoded_frame_decodes (i := .spiSe (wireAddr s.addr)) ho hwf rfl).symm.trans hd
    obtain ⟨-, -, -, hkeep, -⟩ := frameOfSpiFrames _ u v rfl hx
    exact hkeep _ rfl (hcfg ▸ ha) b hout

/-- A step of a WRITE in progress changes no array byte outside its chunk (R283). -/
theorem write_step_keeps_byte (ho : s.cfg.ops.wf) (hi : s.Inv) (hp : s.phase = .busy)
    (h : step s = .next t) (hd : decodeRequest s.req = .write o)
    (ha : a = wireAddr (chunkStart o.a0 s.i)) (hin : a.toNat < s.cfg.deviceSize)
    (hout : b < a.toNat ∨ a.toNat + (chunkLen o.a1 s.i (chunkCount o.a1)).toNat ≤ b) :
    t.chip.array.read b = s.chip.array.read b := by
  obtain ⟨-, hat⟩ := busy_of_controlOk hp hi.control
  have hreq : s.req = Request.of 0x11 o := eq_of_decodeRequest (o := s.cfg.ops) hd rfl
  rw [hd] at hat
  refine busy_step_keeps_byte hp h (fun u v hx => ?_) fun f i u v hb hdf hcfg hx => ?_
  · obtain ⟨-, hframe, -⟩ := frameOfRangeCommands o u v
    exact (congrArg State.chip (hframe (hd ▸ hx)) :)
  · obtain ⟨hn, hpp, -, haddr, -, hlen⟩ := busyAt_write_of_bus hb hat
    rw [hn, hreq] at hlen
    rw [hreq] at haddr
    replace ha : a = wireAddr s.addr := haddr ▸ ha
    rw [ha] at hin hout
    exact ppAt_frame_keeps_byte ho hb hpp hdf hcfg hx hin (hlen ▸ hout)

/-- A step of an ERASE in progress changes no array byte outside its sector (R290). -/
theorem erase_step_keeps_byte (ho : s.cfg.ops.wf) (hi : s.Inv) (hp : s.phase = .busy)
    (h : step s = .next t) (hd : decodeRequest s.req = .erase o)
    (ha : a = wireAddr ((sectorIndex o.a0 + s.i) * 4096)) (hin : a.toNat < s.cfg.deviceSize)
    (hout : b / 4096 ≠ a.toNat / 4096) : t.chip.array.read b = s.chip.array.read b := by
  obtain ⟨-, hat⟩ := busy_of_controlOk hp hi.control
  have hreq : s.req = Request.of 0x12 o := eq_of_decodeRequest (o := s.cfg.ops) hd rfl
  rw [hd] at hat
  refine busy_step_keeps_byte hp h (fun u v hx => ?_) fun f i u v hb hdf hcfg hx => ?_
  · obtain ⟨-, -, hframe, -⟩ := frameOfRangeCommands o u v
    exact (congrArg State.chip (hframe (hd ▸ hx)) :)
  · obtain ⟨⟨hbase, -⟩, hse, -, hsidx⟩ := busyAt_erase_of_bus hb hat
    rw [hbase, hreq] at hsidx
    replace ha : a = wireAddr (sectorAddr s.sidx) := by rw [ha, hsidx]; rfl
    rw [ha] at hin hout
    exact seAt_frame_keeps_byte ho hb hse hdf hcfg hx hin hout

end

/-- Settles O52: the counts and lengths in natural arithmetic; of a step, that the rows of a range
command leave the chip alone and its frames reach no byte outside the chunk or sector. -/
theorem rangeDecomposition : Obligations.RangeDecomposition := by
  refine ⟨fun size => ⟨chunkCount_toNat size, fun _ _ => chunkLen_bounds _, chunks_sum size⟩,
    fun u x y => (eraseCount_toNat u x y).1, fun x y h => ⟨?wrap, ?empty⟩,
    fun s t a o ho hi hp hstep hin =>
      ⟨fun hd ha b => write_step_keeps_byte ho hi hp hstep hd ha hin,
        fun hd ha b => erase_step_keeps_byte ho hi hp hstep hd ha hin⟩⟩
  case wrap => exact (eraseCount_toNat .wrap x y).2.1 h rfl
  case empty => exact (eraseCount_toNat .empty x y).2.2 h rfl

end Sys2Proof.Machine

/-! # Range requests from the port to the response (R270-R272, R280, R281, R290) -/

namespace Sys2Proof.Machine

/-! ## Acceptance and the loop test -/

/-- The range request `r`, offered in `s`, has been accepted and is at the test of its loop `q`,
which has `n` iterations. -/
def State.looping (s : State) (r : Request) (rest : List (BitVec 104)) (q : RPhase)
    (n base eidx : Word) : State :=
  { accept r { s with offers := rest } with
    rphase := q, n := n, i := 0, base := base, eidx := eidx, atTest := true }

section
variable {i : Instr} {r : Request} {rest : List (BitVec 104)} {s t : State} {q : RPhase}
  {n base eidx : Word} {load next : State → State} {seq : State → Res}

theorem range_step_accept (ho : s.offered r rest) (hd : decodeRequest r = i)
    (hx : ∀ u, exec i u = rangeRequest r load seq u)
    (ht : load (accept r { s with offers := rest }) = t) : step s = .next t := by
  obtain ⟨hready, -⟩ := id ho
  rw [step_accept ho, hd, hx, ← ht]
  exact rangeRequest_ready hready

theorem looping_inTest : (s.looping r rest q n base eidx).inTest q := ⟨rfl, rfl, rfl⟩

theorem looping_step (ho : s.offered r rest) (hd : decodeRequest r = i)
    (hx : exec i (s.looping r rest q n base eidx) = .next t) :
    step (s.looping r rest q n base eidx) = .next t := by
  obtain ⟨-, hb, -, hin, -⟩ := ho
  exact step_busy hin hb rfl hd hx

/-- A loop of no iteration ends with OK and sends nothing. -/
theorem empty_range_run (ho : s.offered r rest) (hret : s.ret = none) (hd : decodeRequest r = i)
    (hx : ∀ u, exec i u = rangeRequest r load seq u)
    (htest : ∀ u, u.inTest q → exec i u = loopTest next u)
    (hload : load (accept r { s with offers := rest }) = s.looping r rest q 0 base eidx) :
    ∃ t, steps 3 s = .next t ∧ t.endedOk rest ∧ t.trace = s.trace ∧ t.chip = s.chip := by
  obtain ⟨-, hb, hcs, hin, -⟩ := id ho
  have haccept := range_step_accept ho hd hx hload
  have htested := looping_step (n := 0) (base := base) (eidx := eidx) ho hd
    ((htest _ looping_inTest).trans (loopTest_of_le (Nat.zero_le _)))
  have hrespond := step_busy (s := { s.looping r rest q 0 base eidx with
      sphase := .finish, rphase := .none, atTest := false }) hin hb rfl hd
    ((hx _).trans (rangeRequest_finish rfl rfl rfl))
  exact ⟨_, (steps_succ 2 haccept).trans ((steps_succ 1 htested).trans (steps_succ 0 hrespond)),
    ⟨rfl, rfl, rfl, hcs, ⟨hb, hret⟩, rfl⟩, rfl, rfl⟩

end

section
variable {s : State} {o : Operands} {rest : List (BitVec 104)}

/-- R281: a first chunk of a whole page that starts inside a page does not fit it. -/
theorem first_chunk_straddles {a size : Word} (ha : a.toNat % 256 ≠ 0) (hs : 256 ≤ size.toNat) :
    ppFits (chunkStart a 0) (chunkLen size 0 (chunkCount size)) = false := by
  have hfull : chunkLen size 0 (chunkCount size) = 256 := by
    refine chunkLen_full ?_
    rw [chunkCount_toNat, show (0 : Word).toNat = 0 from rfl]
    omega
  have hstart : chunkStart a 0 = a := by simp [chunkStart]
  rw [hfull, hstart, Bool.eq_false_iff, Ne, ppFits_iff]
  rintro ⟨-, -, hfit⟩
  replace hfit : a.toNat % 256 + 256 ≤ 256 := hfit
  omega

theorem unaligned_write_run (ho : s.offered (Request.of 0x11 o) rest)
    (ha : o.a0.toNat % 256 ≠ 0) (hs : 256 ≤ o.a1.toNat) :
    ∃ t, steps 3 s = .next t ∧ t.phase = .respond ∧ t.result = 0x03 ∧ t.trace = s.trace ∧
      t.chip = s.chip := by
  obtain ⟨-, hb, -, hin, -⟩ := id ho
  have hcount : 0 < (chunkCount o.a1).toNat := by rw [chunkCount_toNat]; omega
  have haccept : step s = .next (s.looping (Request.of 0x11 o) rest .writeLoop (chunkCount o.a1)
    s.base s.eidx) := range_step_accept ho rfl (exec_write o) rfl
  have htested := looping_step (base := s.base) (eidx := s.eidx) ho rfl
    ((write_exec_test looping_inTest).trans (loopTest_of_lt (BitVec.lt_def.mpr hcount)))
  have hrejected := step_busy (i := .write o) (s := { loadChunk (s.looping (Request.of 0x11 o) rest
      .writeLoop (chunkCount o.a1) s.base s.eidx) with sphase := .check, atTest := false }) hin hb
    rfl rfl (pp_straddles (write_runs o) ⟨rfl, rfl, rfl, rfl⟩ (first_chunk_straddles ha hs))
  exact ⟨_, (steps_succ 2 haccept).trans ((steps_succ 1 htested).trans (steps_succ 0 hrejected)),
    rfl, rfl, rfl, rfl⟩

end

/-- Settles O53: the loops of no iteration, and the first chunk that leaves its page. -/
theorem degenerateRangesSendNothing : Obligations.DegenerateRangesSendNothing := by
  intro s r rest ho
  have hoffered (c : Byte) (hc : r.cmd = c) : s.offered (Request.of c r.operands) rest := by
    rw [← hc]; exact ho
  refine ⟨fun hc => unaligned_write_run (hoffered _ hc), fun hc hsize hret => ?write,
    fun hc hsame hret => ?erase⟩
  case write =>
    refine empty_range_run (base := s.base) (eidx := s.eidx) (hoffered _ hc) hret rfl
      (exec_write _) (fun u => write_exec_test) ?_
    have hcount : chunkCount r.a1 = 0 := by rw [hsize]; rfl
    rw [← hcount]
    rfl
  case erase =>
    refine empty_range_run (base := sectorIndex r.a0) (eidx := sectorIndex r.a1) (hoffered _ hc)
      hret rfl (exec_erase _) (fun u => erase_exec_test) ?_
    have hcount : eraseCount s.cfg.eraseUnderflow (sectorIndex r.a0) (sectorIndex r.a1) = 0 := by
      have hindex : sectorIndex r.a0 = sectorIndex r.a1 := congrArg (BitVec.ofNat 32) hsame
      apply BitVec.eq_of_toNat_eq
      rw [hindex, (eraseCount_toNat ..).1 (Nat.le_refl _), Nat.sub_self]
      rfl
    rw [← hcount]
    rfl

end Sys2Proof.Machine

/-! # INIT from the port to the response (R270-R272, V6)

Two sub-commands of one frame, RESET and RDID, and the comparison. -/

namespace Sys2Proof.Machine

/-- INIT is in progress at `rphase` r and `sphase` p, with `b` on the bus and the answers `ds` to
come. -/
structure Initialising (cfg : Config) (o : Operands) (r : RPhase) (p : SPhase)
    (b : Option FrameCall) (ds : List Draw) (u : State) : Prop where
  row : u.inRow r p
  bus : u.bus = b
  cs : u.cs = false
  inputs : u.inputs = []
  req : decodeRequest u.req = .init o
  draws : u.draws = ds
  cfg : u.cfg = cfg

section
variable {cfg : Config} {o : Operands} {r : RPhase} {p : SPhase} {d : Draw} {ds : List Draw}
  {s u v : State} {f : FrameCall} {i : Instr} {rest : List (BitVec 104)}
  {act done : State → State} {call : State → FrameCall}

theorem Initialising.step_row (h : Initialising cfg o r p none ds u)
    (hx : exec (.init o) u = .next v) : step u = .next v := by
  obtain ⟨hp, -⟩ := h.row
  exact step_busy h.inputs h.bus hp h.req hx

/-- A clean frame on the fitted chip. -/
theorem Initialising.step_frame (h : Initialising cfg o r p (some f) (d :: ds) u)
    (hw : cfg.ops.wf) (hp : cfg.chipPresent = true) (hd : cleanDraw d) (hi : i.wf = true)
    (he : encode cfg.ops i = .frame f) : ∃ v c, step u = .next v ∧ v.ret = some true ∧
      v.rx = (if f.rxn = 0 then [] else (chipSide cfg i).answer d c) ∧
      Initialising cfg o r p none ds v := by
  obtain ⟨hrow, hb, hcs, hin, hreq, hdraws, rfl⟩ := h
  obtain rfl : u.draw = d := by rw [State.draw, hdraws]
  have hres := frameResult_clean (f := f) (x := chipSide u.cfg i) hp hd
  exact ⟨_, _, Machine.step_frame hin hb hcs (encoded_frame_decodes hw hi he) he,
    congrArg (fun r : FrameResult => some r.ok) hres, congrArg FrameResult.rx hres,
    hrow, rfl, hcs, hin, hreq, congrArg List.tail hdraws, rfl⟩

/-- A sub-command of one frame: the call, the frame, its return. -/
theorem Initialising.sub_command (h : Initialising cfg o r .check none (d :: ds) u)
    (hw : cfg.ops.wf) (hp : cfg.chipPresent = true) (hd : cleanDraw d) (hi : i.wf = true)
    (he : encode cfg.ops i = .frame f) (hcall : CallRow (.init o) r .check .main act call)
    (hact : ∃ n, act u = { u with pos := n }) (hf : call (act u) = f)
    (hreturn : ∀ v, v.inRow r .main → v.cfg = cfg → v.ret = some true →
      exec (.init o) v = .next (done { v with ret := none })) :
    ∃ v c, (∀ n, steps (n + 3) u = steps n (done v)) ∧
      v.rx = (if f.rxn = 0 then [] else (chipSide cfg i).answer d c) ∧
      Initialising cfg o r .main none ds v := by
  obtain ⟨n, hn⟩ := hact
  have hcalled := h.step_row (hcall u h.row)
  rw [hf, hn] at hcalled
  obtain ⟨hphase, hr, -, htest⟩ := h.row
  have hcalling : Initialising cfg o r .main (some f) (d :: ds)
      { u with pos := n, sphase := .main, bus := some f, ret := none } :=
    { h with row := ⟨hphase, hr, rfl, htest⟩, bus := rfl }
  obtain ⟨w, c, hframe, hret, hrx, hunder⟩ := hcalling.step_frame hw hp hd hi he
  have hreturned := hunder.step_row (hreturn w hunder.row hunder.cfg hret)
  exact ⟨{ w with ret := none }, c, fun n => (steps_succ _ hcalled).trans
    ((steps_succ _ hframe).trans (steps_succ _ hreturned)), hrx, { hunder with }⟩

theorem initialising_of_offered (ho : s.offered (Request.of 0x10 o) rest) (hds : s.draws = ds) :
    ∃ u, step s = .next u ∧ Initialising s.cfg o .initReset .check none ds u := by
  obtain ⟨-, hb, hcs, hin, -⟩ := id ho
  exact ⟨_, range_step_accept ho rfl (exec_init o) rfl,
    ⟨rfl, rfl, rfl, by simp [State.testing]⟩, hb, hcs, hin, rfl, hds, rfl⟩

/-- RESET under SINGLE, which leads to RDID's CHECK. -/
theorem Initialising.reset (h : Initialising cfg o .initReset .check none (d :: ds) u)
    (hw : cfg.ops.wf) (hp : cfg.chipPresent = true) (hd : cleanDraw d)
    (hsingle : cfg.resetFraming = .single) : ∃ v, (∀ n, steps (n + 3) u = steps n v) ∧
      Initialising cfg o .initId .check none ds v := by
  have hruns := init_runs_reset o
  obtain ⟨v, -, hsteps, -, hv⟩ := h.sub_command (i := .spiRstenRst) hw hp hd rfl rfl
    (reset_callRow hruns) ⟨0, rfl⟩ (by
      rw [← h.cfg] at hsingle ⊢
      exact callReset_single hsingle)
    fun v hrow hcfg hr => reset_lastReturn hruns hrow hr (by simp [hcfg, hsingle])
  obtain ⟨hphase, -⟩ := hv.row
  exact ⟨_, hsteps, { hv with row := ⟨hphase, rfl, rfl, by simp [State.testing]⟩ }⟩

/-- RDID, which leads to the comparison of what the chip answers. -/
theorem Initialising.identify (h : Initialising cfg o .initId .check none (d :: ds) u)
    (hw : cfg.ops.wf) (hp : cfg.chipPresent = true) (hd : cleanDraw d) :
    ∃ v, (∀ n, steps (n + 3) u = steps n v) ∧ v.id = cfg.chipId ∧
      Initialising cfg o .initCmp .finish none ds v := by
  have hruns := init_runs_rdid o
  obtain ⟨v, c, hsteps, hrx, hv⟩ := h.sub_command (i := .spiRdid)
    (done := fun t => { storeId t with rphase := .initCmp, sphase := .finish }) hw hp hd rfl rfl
    (oneFrame_callRow hruns) ⟨u.pos, rfl⟩ (by rw [← h.cfg]; rfl)
    fun v hrow _ => oneFrame_returnRow hruns v hrow
  have hanswer : v.rx = [cfg.chipId.mfr, cfg.chipId.type, cfg.chipId.cap] := hrx
  obtain ⟨hm, ht, hc⟩ := rxByte_of_three hanswer
  obtain ⟨hphase, -⟩ := hv.row
  refine ⟨_, hsteps, ?_, { hv with row := ⟨hphase, rfl, rfl, by simp [State.testing]⟩ }⟩
  show Ident.mk (v.rxByte 0) (v.rxByte 1) (v.rxByte 2) = cfg.chipId
  rw [hm, ht, hc]

/-- R272: the result of the comparison. -/
theorem initCompare_responds (u : State) : (initCompare u).phase = .respond ∧
    (initCompare u).rspValid = true ∧ (initCompare u).rspId = u.id ∧
    (initCompare u).result = if idMatch u.cfg u.id then 0x00 else 0x02 := by
  cases hm : idMatch u.cfg u.id with
  | true => rw [initCompare_match hm]; exact ⟨rfl, rfl, rfl, rfl⟩
  | false => rw [initCompare_mismatch hm]; exact ⟨rfl, rfl, rfl, rfl⟩

end

/-- Settles O55: acceptance, the two sub-commands, the comparison. -/
theorem initSucceedsIffIdentityMatches : Obligations.InitSucceedsIffIdentityMatches := by
  intro s r rest d₁ d₂ ds ho hcmd hw hp hsingle hdraws hd₁ hd₂
  obtain ⟨o, rfl⟩ : ∃ o, r = Request.of 0x10 o := ⟨r.operands, by rw [← hcmd]; rfl⟩
  obtain ⟨u₁, haccept, hu₁⟩ := initialising_of_offered ho hdraws
  obtain ⟨u₂, hsteps₂, hu₂⟩ := hu₁.reset hw hp hd₁ hsingle
  obtain ⟨u₃, hsteps₃, hid, hu₃⟩ := hu₂.identify hw hp hd₂
  obtain ⟨hphase, hrphase, -⟩ := hu₃.row
  have hcompare := hu₃.step_row (init_exec_compare hphase hrphase)
  obtain ⟨hrespond, hvalid, hrsp, hresult⟩ := initCompare_responds u₃
  rw [hu₃.cfg, hid] at hresult
  have hrun : steps 8 s = .next (initCompare u₃) := (steps_succ 7 haccept).trans
    ((hsteps₂ 4).trans ((hsteps₃ 1).trans (steps_succ 0 hcompare)))
  refine ⟨_, hrun, hrespond, hvalid, hrsp.trans hid, ?_⟩
  rw [← idMatch_iff, hresult]
  cases idMatch s.cfg s.cfg.chipId <;> simp

end Sys2Proof.Machine

/-! # The result codes (R321, R324)

A request in progress ends by an abort of one of its operations or by its response; the code is the
abort's, or OK, or what INIT's comparison gives. -/

namespace Sys2Proof.Machine

/-- The codes of a command whose only waiting is WAITWIP (R200). -/
def WaitCode (cfg : Config) (c : Byte) : Prop :=
  c = 0x00 ∨ c = 0x01 ∨ (c = 0x04 ∧ cfg.wipLimit ≠ none)

/-- The codes of a command whose only waiting is WRENW (R203). -/
def LatchCode (cfg : Config) (c : Byte) : Prop :=
  c = 0x00 ∨ c = 0x01 ∨ (c = 0x04 ∧ cfg.welLimit ≠ none)

/-- The codes of a command that erases (R240, R245), with WAITWIP and WRENW in it. -/
def EraseCode (cfg : Config) (c : Byte) : Prop :=
  c = 0x00 ∨ c = 0x01 ∨ (c = 0x04 ∧ (cfg.wipLimit ≠ none ∨ cfg.welLimit ≠ none))

/-- The codes of a command that programs (R235, R236), with WAITWIP and WRENW in it. -/
def ProgramCode (cfg : Config) (c : Byte) : Prop :=
  c = 0x00 ∨ c = 0x01 ∨ c = 0x03 ∨ (c = 0x04 ∧ (cfg.wipLimit ≠ none ∨ cfg.welLimit ≠ none))

/-- The table of R324: the codes that a request command can end with. -/
def MayEndWith (cfg : Config) (i : Instr) (c : Byte) : Prop :=
  match i with
  | .reset _ | .rdid _ | .rdsr1 _ | .rdsr2 _ | .wren _ | .wrdi _ => c = 0x00 ∨ c = 0x01
  | .wrsr _ | .wrenw _ => LatchCode cfg c
  | .waitwip _ | .read _ => WaitCode cfg c
  | .se _ | .ce _ | .erase _ | .masserase _ => EraseCode cfg c
  | .pp _ | .write _ => ProgramCode cfg c
  | .init _ => c = 0x00 ∨ c = 0x01 ∨ c = 0x02
  | _ => False

/-- A request is in progress, under the parameters `cfg`. -/
def Running (cfg : Config) (u : State) : Prop := u.phase = .busy ∧ u.cfg = cfg

/-- Where the request has ended, its code is one of `C`. -/
def EndsIn (C : Byte → Prop) (t : State) : Prop := t.phase = .respond → C t.result

section
variable {C : Byte → Prop} {cfg : Config} {i : Instr} {d : Direct} {s t u : State}
  {k ret : State → Res}

theorem Running.endsIn (h : Running cfg t) : EndsIn C t := by
  obtain ⟨hp, -⟩ := h
  intro hr
  rw [hp] at hr
  cases hr

theorem leads_running (h : Running cfg t) : Leads (EndsIn C) (.next t) := leads_next h.endsIn

theorem leads_abort {c : Byte} (h : C c) : Leads (EndsIn C) (.next (abort c u)) :=
  leads_next fun _ => h

theorem ne_none_of_limitReached {l : Option Nat} {n : Word} (h : limitReached l n = true) :
    l ≠ none := by
  rintro rfl
  cases h

/-! ## The shared operations -/

theorem startWait_endsIn {p : SPhase} (hu : Running cfg u) : Leads (EndsIn C) (startWait p u) := by
  intro t ht
  obtain ⟨-, rfl⟩ := startWait_eq_next ht
  exact Running.endsIn hu

theorem startLatch_endsIn (hu : Running cfg u) : Leads (EndsIn C) (startLatch u) := by
  intro t ht
  obtain ⟨-, rfl⟩ := startLatch_eq_next ht
  exact Running.endsIn hu

section
variable (hbus : C codeBus) (hu : Running cfg u)
include hbus hu

theorem onReturn_endsIn (hk : ∀ v, Running cfg v → Leads (EndsIn C) (k v)) :
    Leads (EndsIn C) (onReturn u k) := by
  intro t ht
  rcases onReturn_eq_next ht with ⟨-, rfl⟩ | ⟨-, ht⟩
  · exact fun _ => hbus
  · exact hk (taken u) hu t ht

theorem waitReturn_endsIn (hwip : cfg.wipLimit ≠ none → C codeTimeout)
    (hk : ∀ v, Running cfg v → Leads (EndsIn C) (k v)) : Leads (EndsIn C) (waitReturn u k) := by
  intro t ht
  rcases waitReturn_eq_next ht with ⟨-, rfl⟩ | ⟨-, -, ht⟩ | ⟨-, -, hl, rfl⟩ | ⟨-, -, -, rfl⟩
  · exact fun _ => hbus
  · exact hk (polled (taken u)) hu t ht
  · rw [hu.2] at hl
    exact fun _ => hwip (ne_none_of_limitReached hl)
  · exact Running.endsIn hu

theorem latchWrenReturn_endsIn : Leads (EndsIn C) (latchWrenReturn u) :=
  onReturn_endsIn hbus hu fun _ hv => leads_running hv

theorem latchRdsrReturn_endsIn (hwel : cfg.welLimit ≠ none → C codeTimeout)
    (hk : ∀ v, Running cfg v → Leads (EndsIn C) (k v)) :
    Leads (EndsIn C) (latchRdsrReturn u k) := by
  intro t ht
  rcases latchRdsrReturn_eq_next ht with ⟨-, rfl⟩ | ⟨-, -, ht⟩ | ⟨-, -, hl, rfl⟩ | ⟨-, -, -, rfl⟩
  · exact fun _ => hbus
  · exact hk (tried (taken u)) hu t ht
  · rw [hu.2] at hl
    exact fun _ => hwel (ne_none_of_limitReached hl)
  · exact Running.endsIn hu

end

/-! ## The command operations -/

section
variable (hs : Running cfg s) (hret : ∀ u, Running cfg u → Leads (EndsIn C) (ret u))
include hs hret

theorem oneFrame_endsIn (hbus : C codeBus) (call : State → FrameCall) {done : State → State}
    (hdone : ∀ u, Running cfg u → Running cfg (done u)) :
    Leads (EndsIn C) (oneFrameSeq call done ret s) := by
  unfold oneFrameSeq
  split
  · exact leads_running hs
  · exact onReturn_endsIn hbus hs fun u hu => hret _ (hdone u hu)
  all_goals exact leads_fault _

theorem reset_endsIn (hbus : C codeBus) : Leads (EndsIn C) (resetSeq ret s) := by
  unfold resetSeq
  split
  · exact leads_running hs
  · refine onReturn_endsIn hbus hs fun u hu => ?_
    split
    · exact leads_running hu
    · exact hret u hu
  all_goals exact leads_fault _

end

section
variable (hs : Running cfg s) (hret : ∀ u, Running cfg u → Leads (EndsIn (WaitCode cfg)) (ret u))
include hs hret

theorem waitwip_endsIn : Leads (EndsIn (WaitCode cfg)) (waitwipSeq ret s) := by
  unfold waitwipSeq
  split
  · exact startWait_endsIn hs
  · exact waitReturn_endsIn (.inr (.inl rfl)) hs (fun hl => .inr (.inr ⟨rfl, hl⟩)) hret
  all_goals exact leads_fault _

theorem read_endsIn : Leads (EndsIn (WaitCode cfg)) (readSeq ret s) := by
  have hbus : WaitCode cfg codeBus := .inr (.inl rfl)
  unfold readSeq
  split
  · exact startWait_endsIn hs
  · exact waitReturn_endsIn hbus hs (fun hl => .inr (.inr ⟨rfl, hl⟩)) fun _ hu => leads_running hu
  · split
    · exact onReturn_endsIn hbus hs fun _ hu => leads_running hu
    · unfold readMove
      split
      · intro t ht
        obtain ⟨-, ht⟩ := memWrite_eq_next ht
        cases ht
        exact hs.endsIn
      · exact hret s hs
  all_goals exact leads_fault _

end

section
variable (hs : Running cfg s) (hret : ∀ u, Running cfg u → Leads (EndsIn (LatchCode cfg)) (ret u))
include hs hret

theorem wrenw_endsIn : Leads (EndsIn (LatchCode cfg)) (wrenwSeq ret s) := by
  have hbus : LatchCode cfg codeBus := .inr (.inl rfl)
  unfold wrenwSeq
  split
  · exact startLatch_endsIn hs
  · exact latchWrenReturn_endsIn hbus hs
  · exact latchRdsrReturn_endsIn hbus hs (fun hl => .inr (.inr ⟨rfl, hl⟩)) hret
  all_goals exact leads_fault _

theorem wrsr_endsIn : Leads (EndsIn (LatchCode cfg)) (wrsrSeq ret s) := by
  have hbus : LatchCode cfg codeBus := .inr (.inl rfl)
  unfold wrsrSeq
  split
  · exact startLatch_endsIn hs
  · exact latchWrenReturn_endsIn hbus hs
  · exact latchRdsrReturn_endsIn hbus hs (fun hl => .inr (.inr ⟨rfl, hl⟩))
      fun _ hu => leads_running hu
  · exact onReturn_endsIn hbus hs hret
  all_goals exact leads_fault _

end

theorem pp_endsIn (hs : Running cfg s)
    (hret : ∀ u, Running cfg u → Leads (EndsIn (ProgramCode cfg)) (ret u)) :
    Leads (EndsIn (ProgramCode cfg)) (ppSeq ret s) := by
  have hbus : ProgramCode cfg codeBus := .inr (.inl rfl)
  unfold ppSeq
  split
  · split
    · exact startWait_endsIn hs
    · exact leads_abort (.inr (.inr (.inl rfl)))
  · exact waitReturn_endsIn hbus hs (fun hl => .inr (.inr (.inr ⟨rfl, .inl hl⟩)))
      fun _ => startLatch_endsIn
  · exact latchWrenReturn_endsIn hbus hs
  · split
    · exact latchRdsrReturn_endsIn hbus hs (fun hl => .inr (.inr (.inr ⟨rfl, .inr hl⟩)))
        fun _ hu => leads_running hu
    · unfold ppGather
      split
      · intro t ht
        obtain ⟨-, ht⟩ := memRead_eq_next ht
        cases ht
        exact hs.endsIn
      · exact leads_running hs
  · exact onReturn_endsIn hbus hs hret
  all_goals exact leads_fault _

section
variable (hs : Running cfg s) (hret : ∀ u, Running cfg u → Leads (EndsIn (EraseCode cfg)) (ret u))
include hs hret

theorem erase_endsIn (call : State → FrameCall) {load : State → State}
    (hload : Running cfg (load s)) : Leads (EndsIn (EraseCode cfg)) (eraseSeq call load ret s) := by
  have hbus : EraseCode cfg codeBus := .inr (.inl rfl)
  have hwip (hl : cfg.wipLimit ≠ none) : EraseCode cfg codeTimeout := .inr (.inr ⟨rfl, .inl hl⟩)
  unfold eraseSeq
  split
  · exact startWait_endsIn hload
  · exact waitReturn_endsIn hbus hs hwip fun _ => startLatch_endsIn
  · exact latchWrenReturn_endsIn hbus hs
  · exact latchRdsrReturn_endsIn hbus hs (fun hl => .inr (.inr ⟨rfl, .inr hl⟩))
      fun _ hu => leads_running hu
  · exact onReturn_endsIn hbus hs fun _ => startWait_endsIn
  · exact waitReturn_endsIn hbus hs hwip hret
  · exact leads_fault _

theorem se_endsIn : Leads (EndsIn (EraseCode cfg)) (seSeq ret s) := by
  refine erase_endsIn hs hret _ ?_
  exact hs

theorem ce_endsIn : Leads (EndsIn (EraseCode cfg)) (ceSeq ret s) := erase_endsIn hs hret _ hs

end

/-! ## The requests in progress -/

theorem direct_mayEndWith_ok (h : directOf i = some d) : MayEndWith cfg i codeOk := by
  cases i <;> cases h <;> exact .inl rfl

section
variable (hs : Running cfg s)
include hs

/-- One row of a direct request, whose operation returns to END. -/
theorem direct_seq_endsIn (h : directOf i = some d) :
    Leads (EndsIn (MayEndWith cfg i)) (d.seq endDirect s) := by
  have hret {C : Byte → Prop} (u : State) (hu : Running cfg u) : Leads (EndsIn C) (endDirect u) :=
    leads_running hu
  cases i with
  | reset _ => cases h; exact reset_endsIn hs hret (.inr rfl)
  | rdid _ | rdsr1 _ | rdsr2 _ | wren _ | wrdi _ =>
    cases h; exact oneFrame_endsIn hs hret (.inr rfl) _ fun _ hu => hu
  | wrsr _ => cases h; exact wrsr_endsIn hs hret
  | wrenw _ => cases h; exact wrenw_endsIn hs hret
  | waitwip _ => cases h; exact waitwip_endsIn hs hret
  | read _ => cases h; exact read_endsIn hs hret
  | pp _ => cases h; exact pp_endsIn hs hret
  | se _ => cases h; exact se_endsIn hs hret
  | ce _ => cases h; exact ce_endsIn hs hret
  | _ => cases h

theorem initSeq_endsIn (o : Operands) : Leads (EndsIn (MayEndWith cfg (.init o))) (initSeq s) := by
  unfold initSeq
  split
  · exact reset_endsIn hs (fun _ hu => leads_running hu) (.inr (.inl rfl))
  · exact oneFrame_endsIn hs (fun _ hu => leads_running hu) (.inr (.inl rfl)) _ fun _ hu => hu
  · cases hm : idMatch s.cfg s.id with
    | true => rw [initCompare_match hm]; exact leads_next fun _ => .inl rfl
    | false => rw [initCompare_mismatch hm]; exact leads_abort (.inr (.inr rfl))
  all_goals exact leads_fault _

theorem loopTest_endsIn {load : State → State} (hload : Running cfg (load s)) :
    Leads (EndsIn C) (loopTest load s) := by
  intro t ht
  rcases loopTest_eq_next ht with ⟨-, rfl⟩ | ⟨-, rfl⟩
  · exact hload.endsIn
  · exact hs.endsIn

theorem writeSeq_endsIn : Leads (EndsIn (ProgramCode cfg)) (writeSeq s) := by
  unfold writeSeq
  split
  · split
    · exact loopTest_endsIn hs hs
    · exact pp_endsIn hs fun _ hu => leads_running hu
  all_goals exact leads_fault _

theorem eraseRangeSeq_endsIn : Leads (EndsIn (EraseCode cfg)) (eraseRangeSeq s) := by
  unfold eraseRangeSeq
  split
  · split
    · exact loopTest_endsIn hs hs
    · exact se_endsIn hs fun _ hu => leads_running hu
  all_goals exact leads_fault _

theorem massSeq_endsIn : Leads (EndsIn (EraseCode cfg)) (massSeq s) := by
  unfold massSeq
  split
  · exact ce_endsIn hs fun _ hu => leads_running hu
  all_goals exact leads_fault _

/-- A row that ends the request in progress gives a code of its command's line of R324. -/
theorem exec_busy_endsIn (hk : RequestKind i) : Leads (EndsIn (MayEndWith cfg i)) (exec i s) := by
  cases hk with
  | @direct _ d hd =>
    obtain ⟨hcfg, hphase, -⟩ := direct_load hd (accept d.req s)
    exact direct_leads hd (Running.endsIn ⟨hphase, hcfg⟩) (fun _ => direct_mayEndWith_ok hd)
      (direct_seq_endsIn hs hd)
  | init o =>
    rw [exec_init]
    exact rangeRequest_leads nofun (fun _ => .inl rfl) (initSeq_endsIn hs o)
  | write o =>
    rw [exec_write]
    exact rangeRequest_leads nofun (fun _ => .inl rfl) (writeSeq_endsIn hs)
  | erase o =>
    rw [exec_erase]
    exact rangeRequest_leads nofun (fun _ => .inl rfl) (eraseRangeSeq_endsIn hs)
  | masserase o =>
    rw [exec_masserase]
    exact rangeRequest_leads nofun (fun _ => .inl rfl) (massSeq_endsIn hs)
  | reserved c o =>
    simp only [exec, execReserved, hs.1]
    exact leads_fault _

end
end

/-- Settles O49: a step that ends the request is a row of it, since a frame leaves the block busy;
the invariant after it gives the response and chip-select, the row the code. -/
theorem resultCodesOfEachCommand : Obligations.ResultCodesOfEachCommand := by
  intro s t hi hp hr hstep hend
  rw [← applyInput_phase s] at hp
  rw [← applyInput_req s, ← applyInput_cfg s]
  cases step_move hr hstep with
  | frame f i hb hd h =>
    obtain ⟨g, x, rfl⟩ := segments_of_frame hd h
    cases hp.symm.trans hend
  | busy hb _ h =>
    obtain ⟨⟨hcs, hcontrol, -⟩, -⟩ := busy_inv (applyInput_inv hi) hb hp h
    simp only [State.controlOk, hend] at hcontrol
    obtain ⟨hvalid, -⟩ := hcontrol
    exact ⟨hvalid, hcs, exec_busy_endsIn ⟨hp, rfl⟩
      (requestKind (decodeRequest_isRequest _)) t h hend⟩
  | accept w rest hb hready ho h => rw [State.reqReady, hp] at hready; cases hready
  | wait hb hready ho h => rw [State.reqReady, hp] at hready; cases hready

end Sys2Proof.Machine

/-! # The controller's reset (R360, R361)

What an asserted reset does in each of its two cases, from the two equations of `resetStep`, and the
step of a block that has nothing to run. -/

namespace Sys2Proof.Machine

section
variable {i : Instr} {s u : State} {f : FrameCall}

theorem controllerReset_controlReset (s : State) : (controllerReset s).controlReset :=
  ⟨rfl, rfl, rfl, rfl, rfl, rfl, rfl, rfl⟩

theorem resetStep_of_no_bus (run : Instr → State → Res) (hb : s.bus = none) :
    resetStep run s = .next (controllerReset s) := by
  unfold resetStep
  rw [hb]
  cases fetch s <;> rfl

/-- Log 27: the frame on the bus has its own step before the reset lands. -/
theorem resetStep_of_frame {run : Instr → State → Res} (hb : s.bus = some f)
    (hd : decodeFrame s.cfg.ops f = .ok i) (hx : run i s = .next u) :
    resetStep run s = .next (controllerReset u) := by
  simp only [resetStep, fetch_of_frame hb hd, hb, hx]

theorem step_of_reset_no_bus (hr : s.resetAsserted = true) (hb : s.bus = none) :
    step s = .next (controllerReset s.applyInput) := by
  rw [step_of_reset hr, resetStep_of_no_bus exec (by rwa [applyInput_bus])]

theorem step_of_reset_frame (hr : s.resetAsserted = true) (hb : s.bus = some f)
    (hd : decodeFrame s.cfg.ops f = .ok i) (hx : exec i s.applyInput = .next u) :
    step s = .next (controllerReset u) := by
  rw [step_of_reset hr, resetStep_of_frame (by rwa [applyInput_bus]) (by rwa [applyInput_cfg]) hx]

/-- R361: a ready block with an empty port does nothing of its own. -/
theorem step_of_no_offer (hn : s.resetAsserted = false) (hb : s.bus = none)
    (hr : s.reqReady = true) (ho : s.offers = []) : step s = .next s.applyInput := by
  rw [step_of_no_reset hn, runStep,
    fetch_of_no_offer (by rwa [applyInput_bus])
      (by rwa [State.reqReady, applyInput_phase]) (by rwa [applyInput_offers])]

end

/-- Settles O3: the step is `controllerReset` of the state after the outside's input, or of what the
frame on the bus leaves, and `controllerReset` writes control registers only. -/
theorem assertedResetAbandonsRequest : Obligations.AssertedResetAbandonsRequest := by
  intro s hr
  refine ⟨fun hb => ?idle, fun f i u hb hd hx => ?frame, fun t hb ht => ?unspecified⟩
  case idle =>
    exact ⟨_, step_of_reset_no_bus hr hb, controllerReset_controlReset _, by simp⟩
  case frame =>
    exact ⟨_, step_of_reset_frame hr hb hd hx, controllerReset_controlReset u,
      rfl, rfl, rfl, rfl, rfl⟩
  case unspecified =>
    obtain rfl : controllerReset s.applyInput = t := by
      simpa [step_of_reset_no_bus hr hb] using ht
    exact ⟨rfl, rfl, rfl, rfl, rfl, rfl⟩

/-- Settles O1: the reset state is what `controllerReset` makes of it, and is itself an IDLE state
with nothing on the bus and nothing offered, whose outside does nothing. -/
theorem blockWaitsAfterReset : Obligations.BlockWaitsAfterReset := by
  have waits : ∀ s : State, s.phase = .idle → s.bus = none → s.offers = [] →
      s.resetAsserted = false → step s = .next s.applyInput := fun s hp hb ho hn =>
    step_of_no_offer hn hb (reqReady_iff.mpr (.inl hp)) ho
  refine ⟨controllerReset_controlReset State.reset, ?_, waits⟩
  calc step State.reset
    _ = .next State.reset.applyInput := waits State.reset rfl rfl rfl rfl
    _ = .next State.reset := by rw [applyInput_of_nil rfl]

end Sys2Proof.Machine
